-- ==== Sys2Proof/Word.lean ====
section
/-! DEFINITION. The machine's word types (spec/00_scope.md R6, R7, R8: XLEN is 64, bit 0 is the least significant bit). -/

namespace Sys2Proof

/-- A register value: XLEN = 64 bits (00_scope.md R6, 10_state.md R20). -/
abbrev Word := BitVec 64

/-- An instruction word: ILEN = 32 bits (30_encoding.md R190). -/
abbrev InstrWord := BitVec 32

/-- The smallest addressable unit of memory (20_memory.md R120). -/
abbrev Byte := BitVec 8

/-- The number of a general register, `x0` to `x31` (30_encoding.md R192). -/
abbrev Reg := BitVec 5

/-- The 12-bit number of a CSR (10_state.md R32). -/
abbrev CsrAddr := BitVec 12

end Sys2Proof
end

