-- ==== Sys2Proof/Config.lean ====
section
/-! DEFINITION. What an implementation or a platform fixes (spec/00_scope.md R6) and the free values: constants with no body,
so that nothing can be proved of what they are. -/

namespace Sys2Proof

/-- One region of the physical memory attributes: PMA, 20_memory.md R127. `idempotent = false` is device space. -/
structure Region where
  base : Nat
  size : Nat
  readable : Bool
  writable : Bool
  executable : Bool
  idempotent : Bool
  deriving DecidableEq, Repr

/-- The OPEN parameters of the platform (00_scope.md R6; 92_eei_decisions.md, summary of OPEN parameters). State holds one
`Platform` and no step changes it. -/
structure Platform where
  /-- RESET_PC (D7), a multiple of 4 inside an executable region. -/
  resetPc : Word
  /-- PMA (D8): the regions of physical memory. -/
  pma : List Region
  /-- Whether 9 (Sv48) is in SATP_MODES (D10). -/
  acceptsSv48 : Bool
  /-- Whether 10 (Sv57) is in SATP_MODES (D10). -/
  acceptsSv57 : Bool
  /-- MSIP_ADDR (D20), `none` where the platform maps no such word. -/
  msipAddr : Option Nat
  /-- MTIME_ADDR (D20). -/
  mtimeAddr : Option Nat
  /-- MTIMECMP_ADDR (D20). -/
  mtimecmpAddr : Option Nat
  /-- MVENDORID (D21), 32 bits. -/
  vendorId : BitVec 32
  /-- MARCHID (D21). -/
  archId : Word
  /-- MIMPID (D21). -/
  impId : Word
  /-- HARTID (D6). -/
  hartId : Word
  /-- MCONFIGPTR (D21). -/
  configPtr : Word
  deriving DecidableEq, Repr

/-- The platform of `State.reset`. DESIGN CHOICE (notes/assumptions/1.md): the conventions of the spec's test vectors, RAM
at 0x8000_0000 to 0x8FFF_FFFF, RESET_PC = 0x8000_0000, the MSIP word at 0x0200_0000 in a device region, no mapped timer. -/
def Platform.default : Platform where
  resetPc := 0x80000000
  pma := [⟨0x02000000, 0x10000, true, true, false, false⟩, ⟨0x80000000, 0x10000000, true, true, true, true⟩]
  acceptsSv48 := false
  acceptsSv57 := false
  msipAddr := some 0x02000000
  mtimeAddr := none
  mtimecmpAddr := none
  vendorId := 0
  archId := 0
  impId := 0
  hartId := 0
  configPtr := 0

namespace Config

/-- `misa`: MXL = 2 and the letters I, S, U; constant (10_state.md R47). -/
def misa : Word := 0x8000000000140100

/-- PALEN: physical addresses are below 2^56 (20_memory.md R120, R144). -/
def physLimit : Nat := 2 ^ 56

/-- What a byte of memory that is not listed reads as. DESIGN CHOICE 0 (notes/assumptions/4.md): R105 leaves the contents of
memory after reset unspecified. -/
def unlistedByte : Byte := 0

/-- FREE VALUE: MCYCLE_STEP, by how much `mcycle` advances in the given step when `env` does not say (10_state.md R62, R440). -/
opaque cycleStep : Nat → Word

/-- FREE VALUE: by how much MTIME advances before the given step when `env` does not say (60_exceptions.md R395, R440). -/
opaque timeStep : Nat → Word

/-- FREE VALUE: which of its possible values the fetch of a stale byte returns, by step and address (20_memory.md R163). -/
opaque stalePick : Nat → Nat → Nat

/-- FREE VALUE: what a byte of device space reads as, by step, access within the step and address (20_memory.md R127); also what the
fetch of a stale byte of a platform register gives (R163, notes/assumptions/8.md). -/
opaque deviceByte : Nat → Nat → Nat → Byte

end Config

end Sys2Proof
end

