-- ==== Sys2Proof/Syntax.lean ====
section
/-! DEFINITION. The instructions: one constructor per row of spec/opcode_table.json (63 rows), operands as the fields of the
row's format (30_encoding.md R191 to R199). Offsets of branches and `jal` are in bytes, so bit 0 must be 0 (`WellFormed`). -/

namespace Sys2Proof

inductive Instr where
  /-- 42_integer_computational.md R261. -/
  | lui (rd : Reg) (imm : BitVec 20)
  /-- R262. -/
  | auipc (rd : Reg) (imm : BitVec 20)
  /-- 43_control_transfer.md R312: the 21-bit offset is even. -/
  | jal (rd : Reg) (offset : BitVec 21)
  /-- R313. -/
  | jalr (rd rs1 : Reg) (imm : BitVec 12)
  /-- R314: the 13-bit offset of every branch is even. -/
  | beq (rs1 rs2 : Reg) (offset : BitVec 13)
  /-- R315. -/
  | bne (rs1 rs2 : Reg) (offset : BitVec 13)
  /-- R316. -/
  | blt (rs1 rs2 : Reg) (offset : BitVec 13)
  /-- R317. -/
  | bge (rs1 rs2 : Reg) (offset : BitVec 13)
  /-- R318. -/
  | bltu (rs1 rs2 : Reg) (offset : BitVec 13)
  /-- R319. -/
  | bgeu (rs1 rs2 : Reg) (offset : BitVec 13)
  /-- 44_load_store_fence.md R332. -/
  | lb (rd rs1 : Reg) (imm : BitVec 12)
  /-- R333. -/
  | lh (rd rs1 : Reg) (imm : BitVec 12)
  /-- R334. -/
  | lw (rd rs1 : Reg) (imm : BitVec 12)
  /-- R335. -/
  | ld (rd rs1 : Reg) (imm : BitVec 12)
  /-- R336. -/
  | lbu (rd rs1 : Reg) (imm : BitVec 12)
  /-- R337. -/
  | lhu (rd rs1 : Reg) (imm : BitVec 12)
  /-- R338. -/
  | lwu (rd rs1 : Reg) (imm : BitVec 12)
  /-- R339: `sb rs2, imm(rs1)`. -/
  | sb (rs1 rs2 : Reg) (imm : BitVec 12)
  /-- R340. -/
  | sh (rs1 rs2 : Reg) (imm : BitVec 12)
  /-- R341. -/
  | sw (rs1 rs2 : Reg) (imm : BitVec 12)
  /-- R342. -/
  | sd (rs1 rs2 : Reg) (imm : BitVec 12)
  /-- 42_integer_computational.md R263. -/
  | addi (rd rs1 : Reg) (imm : BitVec 12)
  /-- R264. -/
  | slti (rd rs1 : Reg) (imm : BitVec 12)
  /-- R265. -/
  | sltiu (rd rs1 : Reg) (imm : BitVec 12)
  /-- R266. -/
  | xori (rd rs1 : Reg) (imm : BitVec 12)
  /-- R267. -/
  | ori (rd rs1 : Reg) (imm : BitVec 12)
  /-- R268. -/
  | andi (rd rs1 : Reg) (imm : BitVec 12)
  /-- R269: a 6-bit shift amount. -/
  | slli (rd rs1 : Reg) (shamt : BitVec 6)
  /-- R270. -/
  | srli (rd rs1 : Reg) (shamt : BitVec 6)
  /-- R271. -/
  | srai (rd rs1 : Reg) (shamt : BitVec 6)
  /-- R272. -/
  | add (rd rs1 rs2 : Reg)
  /-- R273. -/
  | sub (rd rs1 rs2 : Reg)
  /-- R274. -/
  | sll (rd rs1 rs2 : Reg)
  /-- R275. -/
  | slt (rd rs1 rs2 : Reg)
  /-- R276. -/
  | sltu (rd rs1 rs2 : Reg)
  /-- R277. -/
  | xor (rd rs1 rs2 : Reg)
  /-- R278. -/
  | srl (rd rs1 rs2 : Reg)
  /-- R279. -/
  | sra (rd rs1 rs2 : Reg)
  /-- R280. -/
  | or (rd rs1 rs2 : Reg)
  /-- R281. -/
  | and (rd rs1 rs2 : Reg)
  /-- R282. -/
  | addiw (rd rs1 : Reg) (imm : BitVec 12)
  /-- R283: a 5-bit shift amount. -/
  | slliw (rd rs1 : Reg) (shamt : BitVec 5)
  /-- R284. -/
  | srliw (rd rs1 : Reg) (shamt : BitVec 5)
  /-- R285. -/
  | sraiw (rd rs1 : Reg) (shamt : BitVec 5)
  /-- R286. -/
  | addw (rd rs1 rs2 : Reg)
  /-- R287. -/
  | subw (rd rs1 rs2 : Reg)
  /-- R288. -/
  | sllw (rd rs1 rs2 : Reg)
  /-- R289. -/
  | srlw (rd rs1 rs2 : Reg)
  /-- R290. -/
  | sraw (rd rs1 rs2 : Reg)
  /-- 44_load_store_fence.md R345; its rs1 and rd fields are ignored (30_encoding.md R208). -/
  | fence (fm pred succ : BitVec 4)
  /-- R346; its inst[31:20], rs1 and rd fields are ignored (R208). -/
  | fenceI
  /-- 41_system_instructions.md R241. -/
  | ecall
  /-- R242. -/
  | ebreak
  /-- R247. -/
  | sret
  /-- R246. -/
  | mret
  /-- R250. -/
  | wfi
  /-- R251. -/
  | sfenceVma (rs1 rs2 : Reg)
  /-- 40_csr_instructions.md R225. -/
  | csrrw (rd rs1 : Reg) (csr : CsrAddr)
  /-- R226. -/
  | csrrs (rd rs1 : Reg) (csr : CsrAddr)
  /-- R227. -/
  | csrrc (rd rs1 : Reg) (csr : CsrAddr)
  /-- R228: the immediate is 5 bits, in the rs1 position (30_encoding.md R199). -/
  | csrrwi (rd : Reg) (uimm : BitVec 5) (csr : CsrAddr)
  /-- R229. -/
  | csrrsi (rd : Reg) (uimm : BitVec 5) (csr : CsrAddr)
  /-- R230. -/
  | csrrci (rd : Reg) (uimm : BitVec 5) (csr : CsrAddr)
  deriving DecidableEq, Repr

end Sys2Proof
end

