-- ==== Sys2Proof/Machine/State.lean ====
section
/-! DEFINITION. The state of the machine as plain data: every piece of state spec/ gives the hart (10_state.md R20 to R105),
the platform's parameters (00_scope.md R6), and the model's own bookkeeping of the environment's inputs. -/

namespace Sys2Proof.Machine

/-- The privilege modes (10_state.md R30, 60_exceptions.md R400): 00, 01 and 11; 10 is never held. -/
inductive Priv where
  | user
  | supervisor
  | machine
  deriving DecidableEq, Repr

/-- The writable fields of `mstatus` (10_state.md R35); every other bit of it is constant (R40, R44, R45). -/
structure MStatus where
  /-- Bit 1 (R39). -/
  sie : Bool
  /-- Bit 3 (R36). -/
  mie : Bool
  /-- Bit 5 (R39). -/
  spie : Bool
  /-- Bit 7 (R37). -/
  mpie : Bool
  /-- Bit 8 (R39): true is S-mode. -/
  spp : Bool
  /-- Bits 12:11 (R38). -/
  mpp : Priv
  /-- Bit 17 (R41). -/
  mprv : Bool
  /-- Bit 18 (R42). -/
  sum : Bool
  /-- Bit 19 (R42). -/
  mxr : Bool
  /-- Bit 20 (R43). -/
  tvm : Bool
  /-- Bit 21 (R43). -/
  tw : Bool
  /-- Bit 22 (R43). -/
  tsr : Bool
  deriving DecidableEq, Repr

/-- The stored bits of `mip` (10_state.md R51); bits 3, 7 and 11 are inputs. -/
structure MipStored where
  ssip : Bool
  stip : Bool
  seip : Bool
  deriving DecidableEq, Repr

/-- `irq_in`, the environment's interrupt inputs (60_exceptions.md R366). -/
structure IrqIn where
  mei : Bool
  mti : Bool
  msi : Bool
  sei : Bool
  deriving DecidableEq, Repr

/-- The address matching modes of a PMP entry (10_state.md R60). -/
inductive PmpMode where
  | off
  | tor
  | na4
  | napot
  deriving DecidableEq, Repr

/-- The configuration of one PMP entry (10_state.md R60); its bits 6:5 are read-only zero. -/
structure PmpCfg where
  l : Bool
  a : PmpMode
  x : Bool
  w : Bool
  r : Bool
  deriving DecidableEq, Repr

/-- The translation modes (10_state.md R79). -/
inductive SatpMode where
  | bare
  | sv39
  | sv48
  | sv57
  deriving DecidableEq, Repr

/-- `satp` (10_state.md R79). -/
structure Satp where
  mode : SatpMode
  asid : BitVec 16
  ppn : BitVec 44
  deriving DecidableEq, Repr

/-- What the steps 1 to 6 of a walk find (20_memory.md R145), the permission check apart. -/
inductive WalkResult where
  /-- A leaf page table entry, and the level it is at (R148). -/
  | leaf (level : Nat) (pte : Word)
  /-- Steps 3, 4 or 6. -/
  | pageFault
  /-- A page-table read that PMP or PMA refuses, by the address of the entry: step 2. -/
  | accessFault (entry : Nat)
  deriving DecidableEq, Repr

/-- One translation the TLB keeps (20_memory.md R150): the result of a walk for a virtual page, whichever it was. -/
structure TlbEntry where
  asid : BitVec 16
  /-- The virtual page number, bits 63:12 of the address. -/
  page : BitVec 52
  result : WalkResult
  deriving DecidableEq, Repr

/-- Which kept translation the accesses of a step use (R150): 0 walks the tables, `k + 1` uses the `k`-th kept translation
that fits, if there is one. -/
structure TlbChoice where
  fetch : Nat
  data : Nat
  deriving DecidableEq, Repr

/-- What the environment, and the choices the spec leaves to the implementation, do before one step (00_scope.md R6 and R10;
20_memory.md R150, R162; 41_system_instructions.md R250). MODEL's own (notes/assumptions/5.md). -/
structure EnvInput where
  /-- The new level of each interrupt input; `none` leaves it as it is (60_exceptions.md R366). -/
  mei : Option Bool
  mti : Option Bool
  msi : Option Bool
  sei : Option Bool
  /-- By how much MTIME advances (R395). -/
  mtimeAdvance : Word
  /-- MCYCLE_STEP, by how much `mcycle` advances (10_state.md R62). -/
  cycles : Word
  /-- Whether the implementation ends a `wfi` here (R250). -/
  wake : Bool
  /-- Bytes of memory the environment writes (R162). -/
  writes : List Host.Cell
  /-- Virtual addresses whose translation the TLB comes to keep (R150). -/
  tlbFills : List Word
  /-- Which kept translations this step uses (R150). -/
  tlbUse : TlbChoice
  deriving DecidableEq, Repr

/-- One access the hart made to device space (20_memory.md R127; 93_implementation_defined.md I30). -/
structure DeviceAccess where
  isStore : Bool
  address : Nat
  size : Nat
  value : Word
  deriving DecidableEq, Repr

/-- Why a step stops with a fault. -/
inductive Fault where
  /-- Raised by `step` alone, for a `pc` that is not a multiple of 4: the spec says this never holds at a fetch (10_state.md
  R29), and no run from reset reaches it when RESET_PC is a multiple of 4 (notes/assumptions/13.md). Safe. -/
  | misalignedPc
  deriving DecidableEq, Repr

/-- Why a step is refused. -/
inductive Refusal where
  /-- An instruction without a meaning, by its mnemonic: raised by no arm of `exec`. Safe. -/
  | notModelled (mnemonic : String)
  deriving DecidableEq, Repr

/-- The machine. -/
structure State where
  /-- `x0` to `x31` (10_state.md R20); slot 0 is never read or written (R21). -/
  x : Vector Word 32
  /-- R27. -/
  pc : Word
  /-- R30. -/
  priv : Priv
  /-- R35 to R46. -/
  mstatus : MStatus
  /-- R48. -/
  medeleg : Word
  /-- R49. -/
  mideleg : Word
  /-- R50. -/
  mie : Word
  /-- R51. -/
  mip : MipStored
  /-- R52. -/
  mtvec : Word
  /-- R73. -/
  stvec : Word
  /-- R55. -/
  mepc : Word
  /-- R76. -/
  sepc : Word
  /-- R56. -/
  mcause : Word
  /-- R77. -/
  scause : Word
  /-- R57. -/
  mtval : Word
  /-- R78. -/
  stval : Word
  /-- R54. -/
  mscratch : Word
  /-- R75. -/
  sscratch : Word
  /-- R53. -/
  mcounteren : BitVec 32
  /-- R74. -/
  scounteren : BitVec 32
  /-- R62. -/
  mcycle : Word
  /-- R62. -/
  minstret : Word
  /-- R79. -/
  satp : Satp
  /-- The entries of `pmpcfg0` and `pmpcfg2` (R60). -/
  pmpcfg : Vector PmpCfg 16
  /-- R61: bits 53:0 of each `pmpaddr`. -/
  pmpaddr : Vector (BitVec 54) 16
  /-- Physical memory (20_memory.md R120, R121), in the canonical form of `Memory.wf`. -/
  mem : List Host.Cell
  /-- R31, 20_memory.md R150. -/
  tlb : List TlbEntry
  /-- R31, 20_memory.md R163: each byte address written since the last `fence.i`, with the values its fetch may return. -/
  fetchStale : List (Nat × List Byte)
  /-- R31, 41_system_instructions.md R250. -/
  waiting : Bool
  /-- R31, 60_exceptions.md R366. -/
  irqIn : IrqIn
  /-- R31, 60_exceptions.md R395. -/
  mtime : Word
  /-- 60_exceptions.md R395, where the platform maps the conventional timer. -/
  mtimecmp : Word
  /-- The platform's parameters (00_scope.md R6), which no step changes. -/
  platform : Platform
  /-- MODEL's own: the inputs of the coming steps, the next first (notes/assumptions/5.md). -/
  env : List EnvInput
  /-- MODEL's own: the choice of kept translations for this step (notes/assumptions/7.md). -/
  tlbChoice : TlbChoice
  /-- MODEL's own: how many steps have begun, the index of the free values (notes/assumptions/6.md). -/
  draws : Nat
  /-- MODEL's own: the accesses made to device space, the first first (notes/assumptions/9.md). -/
  deviceLog : List DeviceAccess
  deriving DecidableEq, Repr

/-- The machine right after reset on a given platform (10_state.md R105, 70_reset_and_hazards.md R420). Values R105 gives: `pc`,
`priv`, MIE, MPRV, `mcause`, `mcounteren`, `scounteren`, the A and L of the PMP entries, `satp.MODE`, `tlb`, `fetchStale`,
`waiting`. DESIGN CHOICE 0 for all others (notes/assumptions/2.md, 3.md, 4.md, 5.md, 6.md, 22.md). -/
def State.resetOn (p : Platform) : State where
  x := Vector.replicate 32 0
  pc := p.resetPc
  priv := .machine
  mstatus := ⟨false, false, false, false, false, .user, false, false, false, false, false, false⟩
  medeleg := 0
  mideleg := 0
  mie := 0
  mip := ⟨false, false, false⟩
  mtvec := 0
  stvec := 0
  mepc := 0
  sepc := 0
  mcause := 0
  scause := 0
  mtval := 0
  stval := 0
  mscratch := 0
  sscratch := 0
  mcounteren := 0
  scounteren := 0
  mcycle := 0
  minstret := 0
  satp := ⟨.bare, 0, 0⟩
  pmpcfg := Vector.replicate 16 ⟨false, .off, false, false, false⟩
  pmpaddr := Vector.replicate 16 0
  mem := []
  tlb := []
  fetchStale := []
  waiting := false
  irqIn := ⟨false, false, false, false⟩
  mtime := 0
  mtimecmp := 0
  platform := p
  env := []
  tlbChoice := ⟨0, 0⟩
  draws := 0
  deviceLog := []

/-- The machine right after reset, on the default platform (notes/assumptions/1.md). -/
def State.reset : State := State.resetOn Platform.default

end Sys2Proof.Machine
end

