-- ==== Sys2Proof/Machine/Memory.lean ====
section
/-! DEFINITION. Physical memory as a list of (address, byte) pairs in one canonical form, the bytes of a value (20_memory.md
R121, R122), and the set `fetch_stale` (R163). -/

namespace Sys2Proof.Machine

/-- Bytes of physical memory by address (20_memory.md R120). -/
abbrev Memory := List Host.Cell

/-- One byte of memory; an address that is not listed reads as `Config.unlistedByte`. -/
def Memory.read : Memory → Nat → Byte
  | [], _ => Config.unlistedByte
  | (a, b) :: rest, x => if a = x then b else Memory.read rest x

/-- Lists `v` at `x`, addresses rising. -/
def Memory.insert : Memory → Nat → Byte → Memory
  | [], x, v => [(x, v)]
  | (a, b) :: rest, x, v =>
    if x < a then (x, v) :: (a, b) :: rest
    else if x = a then (x, v) :: rest
    else (a, b) :: Memory.insert rest x v

/-- Removes what is listed at `x`. -/
def Memory.erase : Memory → Nat → Memory
  | [], _ => []
  | (a, b) :: rest, x => if a = x then rest else (a, b) :: Memory.erase rest x

/-- Writes one byte and keeps the canonical form: the value an unlisted address reads as is not listed. -/
def Memory.write (m : Memory) (x : Nat) (v : Byte) : Memory :=
  if v = Config.unlistedByte then m.erase x else m.insert x v

/-- The canonical form: addresses strictly rise, and no listed byte is what an unlisted address reads as. -/
def Memory.wf : Memory → Bool
  | [] => true
  | (a, b) :: rest => b != Config.unlistedByte && rest.all (fun c => a < c.1) && Memory.wf rest

/-- The `n` addresses from `a` up. -/
def addressesFrom (a : Nat) : Nat → List Nat
  | 0 => []
  | n + 1 => a :: addressesFrom (a + 1) n

/-- The value whose bits 8k+7:8k are the `k`-th byte (20_memory.md R121). -/
def ofBytes : List Byte → Word
  | [] => 0
  | b :: rest => b.setWidth 64 ||| (ofBytes rest <<< 8)

/-- The low `n` bytes of a value, the lowest first (20_memory.md R121). -/
def toBytes (v : Word) : Nat → List Byte
  | 0 => []
  | n + 1 => v.setWidth 8 :: toBytes (v >>> 8) n

/-! ## fetch_stale (20_memory.md R163) -/

/-- Appends a value that is not there yet. -/
def addCandidate (vs : List Byte) (v : Byte) : List Byte := if vs.contains v then vs else vs ++ [v]

/-- Notes that `new` was written at `x`, where fetch saw `old` at the last `fence.i` unless `x` is noted already. -/
def noteStale : List (Nat × List Byte) → Nat → Byte → Byte → List (Nat × List Byte)
  | [], x, old, new => [(x, addCandidate [old] new)]
  | (a, vs) :: rest, x, old, new =>
    if x < a then (x, addCandidate [old] new) :: (a, vs) :: rest
    else if x = a then (x, addCandidate vs new) :: rest
    else (a, vs) :: noteStale rest x old new

/-- The values the fetch of `x` may return, empty when `x` is not in `fetch_stale`. -/
def staleCandidates : List (Nat × List Byte) → Nat → List Byte
  | [], _ => []
  | (a, vs) :: rest, x => if a = x then vs else staleCandidates rest x

/-- Forgets what is noted at `x`. -/
def dropStale : List (Nat × List Byte) → Nat → List (Nat × List Byte)
  | [], _ => []
  | (a, vs) :: rest, x => if a = x then rest else (a, vs) :: dropStale rest x

/-- The canonical form of `fetch_stale`: addresses strictly rise and each has a value. -/
def staleWf : List (Nat × List Byte) → Bool
  | [] => true
  | (a, vs) :: rest => !vs.isEmpty && rest.all (fun c => a < c.1) && staleWf rest

end Sys2Proof.Machine
end

