-- ==== Sys2Proof/Machine/Status.lean ====
section
/-! DEFINITION. The status registers as words: `mstatus` (10_state.md R35 to R46), its view `sstatus` (R70), `mip` (R51), `satp`
(R79), the PMP registers (R60, R61). -/

namespace Sys2Proof.Machine

/-- The encoding of a mode (60_exceptions.md R400). -/
def privCode : Priv → BitVec 2
  | .user => 0b00
  | .supervisor => 0b01
  | .machine => 0b11

/-- The mode a two-bit field names; 10 is no mode (60_exceptions.md R400). -/
def privOfCode (c : BitVec 2) : Option Priv :=
  match c with
  | 0b00#2 => some .user
  | 0b01#2 => some .supervisor
  | 0b11#2 => some .machine
  | _ => none

/-- U < S < M (60_exceptions.md R400). -/
def Priv.le (p q : Priv) : Bool := (privCode p).toNat ≤ (privCode q).toNat

/-- A word whose only bit is bit `i`, when `b` holds. -/
def bitAt (b : Bool) (i : Nat) : Word := if b then 1 <<< i else 0

/-! ## mstatus and sstatus -/

/-- UXL = SXL = 2, the only constant bits of `mstatus` that are not 0 (10_state.md R44, R46). -/
def mstatusConstant : Word := 0x0000000A00000000

/-- The writable bits of `mstatus` (10_state.md R46). -/
def mstatusMask : Word := 0x7E19AA

/-- What `mstatus` reads as (10_state.md R35, R46). -/
def MStatus.read (m : MStatus) : Word :=
  mstatusConstant ||| bitAt m.sie 1 ||| bitAt m.mie 3 ||| bitAt m.spie 5 ||| bitAt m.mpie 7 ||| bitAt m.spp 8 |||
    ((privCode m.mpp).setWidth 64 <<< 11) ||| bitAt m.mprv 17 ||| bitAt m.sum 18 ||| bitAt m.mxr 19 ||| bitAt m.tvm 20 |||
    bitAt m.tw 21 ||| bitAt m.tsr 22

/-- A CSR write of `v` to `mstatus`: MPP keeps its value when `v[12:11]` is 10 (10_state.md R38, R46). -/
def MStatus.write (m : MStatus) (v : Word) : MStatus where
  sie := v.getLsbD 1
  mie := v.getLsbD 3
  spie := v.getLsbD 5
  mpie := v.getLsbD 7
  spp := v.getLsbD 8
  mpp := (privOfCode (v.extractLsb' 11 2)).getD m.mpp
  mprv := v.getLsbD 17
  sum := v.getLsbD 18
  mxr := v.getLsbD 19
  tvm := v.getLsbD 20
  tw := v.getLsbD 21
  tsr := v.getLsbD 22

/-- The fields of `mstatus` that `sstatus` shows and that can change (10_state.md R70). -/
def sstatusMask : Word := 0xC0122

/-- The constant part of a read of `sstatus`: UXL = 2 (10_state.md R70). -/
def sstatusConstant : Word := 0x0000000200000000

/-- What `sstatus` reads as (10_state.md R70). -/
def MStatus.readS (m : MStatus) : Word := (m.read &&& sstatusMask) ||| sstatusConstant

/-- A CSR write of `v` to `sstatus` (10_state.md R70). -/
def MStatus.writeS (m : MStatus) (v : Word) : MStatus :=
  { m with sie := v.getLsbD 1, spie := v.getLsbD 5, spp := v.getLsbD 8, sum := v.getLsbD 18, mxr := v.getLsbD 19 }

/-! ## Masked registers (10_state.md R48 to R51) -/

/-- The writable bits of `medeleg` (10_state.md R48). -/
def medelegMask : Word := 0xB3FF
/-- The writable bits of `mideleg` (10_state.md R49). -/
def midelegMask : Word := 0x222
/-- The writable bits of `mie` (10_state.md R50). -/
def mieMask : Word := 0xAAA

/-- `v` in the bits of `mask`, `old` in the others. -/
def maskedWrite (mask old v : Word) : Word := (old &&& ~~~mask) ||| (v &&& mask)

/-- The level of the machine timer input: the comparison of the mapped timer where the platform has one, else the
environment's input (60_exceptions.md R366, R395). -/
def State.mtiLine (s : State) : Bool :=
  match s.platform.mtimecmpAddr with
  | some _ => s.mtimecmp.toNat ≤ s.mtime.toNat
  | none => s.irqIn.mti

/-- `mip` with the given bit 9 (10_state.md R51). -/
def State.mipWith (s : State) (seip : Bool) : Word :=
  bitAt s.mip.ssip 1 ||| bitAt s.irqIn.msi 3 ||| bitAt s.mip.stip 5 ||| bitAt s.mtiLine 7 ||| bitAt seip 9 |||
    bitAt s.irqIn.mei 11

/-- What `mip` reads as: SEIP is the stored bit or the external input (10_state.md R51, 60_exceptions.md R366). -/
def State.mipRead (s : State) : Word := s.mipWith (s.mip.seip || s.irqIn.sei)

/-- What a read-modify-write of `mip` computes its new value from: SEIP is the stored bit alone (10_state.md R51). -/
def State.mipModifyBase (s : State) : Word := s.mipWith s.mip.seip

/-- A CSR write of `v` to `mip` changes bits 1, 5 and 9 (10_state.md R51). -/
def mipWrite (v : Word) : MipStored := ⟨v.getLsbD 1, v.getLsbD 5, v.getLsbD 9⟩

/-! ## satp (10_state.md R79) -/

/-- The MODE field of a mode. -/
def satpModeCode : SatpMode → BitVec 4
  | .bare => 0
  | .sv39 => 8
  | .sv48 => 9
  | .sv57 => 10

/-- The mode a MODE field selects, if it is one of SATP_MODES (00_scope.md R6, 10_state.md R79). -/
def satpModeOf (p : Platform) (c : BitVec 4) : Option SatpMode :=
  match c with
  | 0#4 => some .bare
  | 8#4 => some .sv39
  | 9#4 => if p.acceptsSv48 then some .sv48 else none
  | 10#4 => if p.acceptsSv57 then some .sv57 else none
  | _ => none

/-- What `satp` reads as. -/
def Satp.read (t : Satp) : Word := satpModeCode t.mode ++ t.asid ++ t.ppn

/-- A CSR write of `v` to `satp`: ignored entirely when the mode is not accepted. -/
def Satp.write (p : Platform) (t : Satp) (v : Word) : Satp :=
  match satpModeOf p (v.extractLsb' 60 4) with
  | some m => ⟨m, v.extractLsb' 44 16, v.extractLsb' 0 44⟩
  | none => t

/-! ## PMP registers (10_state.md R60, R61; 20_memory.md R137) -/

/-- The A field of a matching mode (10_state.md R60). -/
def pmpModeCode : PmpMode → BitVec 2
  | .off => 0b00
  | .tor => 0b01
  | .na4 => 0b10
  | .napot => 0b11

/-- The matching mode of an A field (10_state.md R60). -/
def pmpModeOf (c : BitVec 2) : PmpMode :=
  match c with
  | 0b00#2 => .off
  | 0b01#2 => .tor
  | 0b10#2 => .na4
  | _ => .napot

/-- The configuration byte of an entry (10_state.md R60). -/
def PmpCfg.read (c : PmpCfg) : Byte :=
  BitVec.ofBool c.l ++ 0#2 ++ pmpModeCode c.a ++ BitVec.ofBool c.x ++ BitVec.ofBool c.w ++ BitVec.ofBool c.r

/-- The entry a configuration byte describes (10_state.md R60). -/
def pmpCfgOf (b : Byte) : PmpCfg := ⟨b.getLsbD 7, pmpModeOf (b.extractLsb' 3 2), b.getLsbD 2, b.getLsbD 1, b.getLsbD 0⟩

/-- A write of byte `b` to an entry: ignored when the entry is locked, or when it would give R = 0 with W = 1 (R60). -/
def PmpCfg.write (c : PmpCfg) (b : Byte) : PmpCfg :=
  if c.l || (b.getLsbD 1 && !b.getLsbD 0) then c else pmpCfgOf b

/-- `pmpcfg0` (`half` false, entries 0 to 7) or `pmpcfg2` (`half` true, 8 to 15): entry `i` of the half is bits 8i+7:8i (R60). -/
def pmpcfgRead (cfg : Vector PmpCfg 16) (half : Bool) : Word :=
  ofBytes ((if half then cfg.toList.drop 8 else cfg.toList.take 8).map PmpCfg.read)

/-- A CSR write to `pmpcfg0` or `pmpcfg2`: entry `i` gets byte `i` of its half, each entry on its own (R60). -/
def pmpcfgWrite (cfg : Vector PmpCfg 16) (half : Bool) (v : Word) : Vector PmpCfg 16 :=
  Vector.ofFn fun i : Fin 16 =>
    if (i.val / 8 == 1) == half then (cfg[i]).write (v.extractLsb' (8 * (i.val % 8)) 8) else cfg[i]

/-- Whether a write to `pmpaddr` number `i` is ignored: entry `i` is locked, or entry `i + 1` is locked with A = TOR (R61, R137). -/
def pmpaddrLocked (cfg : Vector PmpCfg 16) (i : Fin 16) : Bool :=
  cfg[i].l || (match cfg[i.val + 1]? with
    | some c => c.l && c.a == .tor
    | none => false)

/-- What `pmpaddr` number `i` reads as: bits 63:54 are 0 (R61). -/
def pmpaddrRead (addr : Vector (BitVec 54) 16) (i : Fin 16) : Word := addr[i].setWidth 64

/-- A CSR write to `pmpaddr` number `i` (R61, R137). -/
def pmpaddrWrite (cfg : Vector PmpCfg 16) (addr : Vector (BitVec 54) 16) (i : Fin 16) (v : Word) : Vector (BitVec 54) 16 :=
  if pmpaddrLocked cfg i then addr else addr.set i (v.setWidth 54)

end Sys2Proof.Machine
end

