-- ==== Sys2Proof/Machine/Ops.lean ====
section
/-! DEFINITION. The operations every meaning is built from: general registers (10_state.md R20, R21), completing an instruction
(R28, R62), taking an exception (60_exceptions.md R378 to R382) and returning from one (41_system_instructions.md R246, R247). -/

namespace Sys2Proof.Machine

/-- The three outcomes of an instruction or a step. -/
abbrev Result := Host.Outcome State Fault Refusal

/-! ## General registers -/

/-- `x[r]`: `x0` reads as 0 (10_state.md R21). -/
def State.readX (s : State) (r : Reg) : Word := if r = 0#5 then 0 else s.x[r.toFin]

/-- `x[r] <- v`: a write of `x0` is discarded (10_state.md R21). -/
def State.setX (s : State) (r : Reg) (v : Word) : State := if r = 0#5 then s else { s with x := s.x.set r.toFin v }

/-! ## Completing an instruction -/

/-- An instruction completes with `pc` at `target`: `minstret` counts it (10_state.md R28, R62). -/
def State.retireTo (s : State) (target : Word) : State := { s with pc := target, minstret := s.minstret + 1 }

/-- An instruction completes and the next one follows it (10_state.md R28: modulo 2^64). -/
def State.retire (s : State) : State := s.retireTo (s.pc + 4)

/-- An instruction that writes `rd` completes. -/
def State.writeBack (s : State) (rd : Reg) (v : Word) : State := (s.setX rd v).retire

/-! ## Exceptions -/

/-- The exception causes (60_exceptions.md R361). -/
inductive Cause where
  | instrAddrMisaligned
  | instrAccessFault
  | illegalInstr
  | breakpoint
  | loadAddrMisaligned
  | loadAccessFault
  | storeAddrMisaligned
  | storeAccessFault
  | ecallU
  | ecallS
  | ecallM
  | instrPageFault
  | loadPageFault
  | storePageFault
  deriving DecidableEq, Repr

/-- The code of an exception cause (60_exceptions.md R361). -/
def causeCode : Cause → Nat
  | .instrAddrMisaligned => 0
  | .instrAccessFault => 1
  | .illegalInstr => 2
  | .breakpoint => 3
  | .loadAddrMisaligned => 4
  | .loadAccessFault => 5
  | .storeAddrMisaligned => 6
  | .storeAccessFault => 7
  | .ecallU => 8
  | .ecallS => 9
  | .ecallM => 11
  | .instrPageFault => 12
  | .loadPageFault => 13
  | .storePageFault => 15

/-- An exception with its trap value (60_exceptions.md R363). -/
structure Exn where
  cause : Cause
  tval : Word
  deriving DecidableEq, Repr

/-- The value of `mcause` or `scause` for a trap: bit 63 is Interrupt, the rest the code (10_state.md R56, 60_exceptions.md
R380). -/
def causeValue (interrupt : Bool) (code : Nat) : Word := bitAt interrupt 63 ||| BitVec.ofNat 64 code

/-- The handler's address (60_exceptions.md R382). -/
def trapTarget (tvec : Word) (interrupt : Bool) (code : Nat) : Word :=
  let base := tvec &&& ~~~3
  if interrupt && tvec.extractLsb' 0 2 == 0b01 then base + 4 * BitVec.ofNat 64 code else base

/-- Trap entry into M-mode (60_exceptions.md R380). -/
def State.enterM (s : State) (interrupt : Bool) (code : Nat) (epc tval : Word) : State :=
  { s with
    mepc := epc
    mcause := causeValue interrupt code
    mtval := tval
    mstatus := { s.mstatus with mpp := s.priv, mpie := s.mstatus.mie, mie := false }
    priv := .machine
    pc := trapTarget s.mtvec interrupt code }

/-- Trap entry into S-mode (60_exceptions.md R381). -/
def State.enterS (s : State) (interrupt : Bool) (code : Nat) (epc tval : Word) : State :=
  { s with
    sepc := epc
    scause := causeValue interrupt code
    stval := tval
    mstatus := { s.mstatus with spp := s.priv == .supervisor, spie := s.mstatus.sie, sie := false }
    priv := .supervisor
    pc := trapTarget s.stvec interrupt code }

/-- Whether a trap is taken in S-mode (60_exceptions.md R378). -/
def State.delegated (s : State) (interrupt : Bool) (code : Nat) : Bool :=
  s.priv != .machine && (if interrupt then s.mideleg else s.medeleg).getLsbD code

/-- Taking a trap, the one shared operation: into S-mode when it is delegated, else into M-mode (60_exceptions.md R378). -/
def State.trap (s : State) (interrupt : Bool) (code : Nat) (epc tval : Word) : State :=
  if s.delegated interrupt code then s.enterS interrupt code epc tval else s.enterM interrupt code epc tval

/-- An instruction raises an exception: the saved pc is the instruction's own address (60_exceptions.md R364), and nothing else
of the instruction happens (R376). -/
def State.raise (s : State) (e : Exn) : State := s.trap false (causeCode e.cause) s.pc e.tval

/-! ## Returning from a trap -/

/-- The effect of `mret` in M-mode (41_system_instructions.md R246); it completes and is counted. -/
def State.returnM (s : State) : State :=
  { s with
    mstatus := { s.mstatus with
      mie := s.mstatus.mpie
      mpie := true
      mpp := .user
      mprv := if s.mstatus.mpp = .machine then s.mstatus.mprv else false }
    priv := s.mstatus.mpp
    pc := s.mepc
    minstret := s.minstret + 1 }

/-- The effect of `sret` in S-mode or M-mode (41_system_instructions.md R247); it completes and is counted. -/
def State.returnS (s : State) : State :=
  { s with
    mstatus := { s.mstatus with sie := s.mstatus.spie, spie := true, spp := false, mprv := false }
    priv := if s.mstatus.spp then .supervisor else .user
    pc := s.sepc
    minstret := s.minstret + 1 }

end Sys2Proof.Machine
end

