-- ==== Sys2Proof/Machine/Operands.lean ====
section
/-! DEFINITION. The operand forms (30_encoding.md R193 to R198; 44_load_store_fence.md R330): how a field or a register gives
the value an instruction works on. -/

namespace Sys2Proof.Machine

/-- `sext_64` of the 12-bit immediate of the I and S formats (30_encoding.md R193, R194). -/
def immValue (imm : BitVec 12) : Word := imm.signExtend 64

/-- `imm_B` (30_encoding.md R195). -/
def branchOffset (offset : BitVec 13) : Word := offset.signExtend 64

/-- `imm_J` (30_encoding.md R197). -/
def jumpOffset (offset : BitVec 21) : Word := offset.signExtend 64

/-- `imm_U`: the 20 bits, then twelve zeros, sign-extended (30_encoding.md R196). -/
def upperImm (imm : BitVec 20) : Word := (imm ++ 0#12).signExtend 64

/-- The 5-bit immediate of the CSR instructions, zero-extended (30_encoding.md R199). -/
def csrImm (uimm : BitVec 5) : Word := uimm.setWidth 64

/-- The effective address of a load or store (44_load_store_fence.md R330): modulo 2^64. -/
def State.effectiveAddr (s : State) (rs1 : Reg) (imm : BitVec 12) : Word := s.readX rs1 + immValue imm

/-- The shift amount a register gives: its low 6 bits (42_integer_computational.md R295). -/
def shiftAmount (v : Word) : Nat := (v.extractLsb' 0 6).toNat

/-- The shift amount a register gives a W instruction: its low 5 bits (42_integer_computational.md R295). -/
def shiftAmountW (v : Word) : Nat := (v.extractLsb' 0 5).toNat

/-- The low 32 bits of a register, which a W instruction works on (42_integer_computational.md R295). -/
def lowWord (v : Word) : BitVec 32 := v.setWidth 32

/-- The result of a W instruction (42_integer_computational.md R260). -/
def extendW (v : BitVec 32) : Word := v.signExtend 64

end Sys2Proof.Machine
end

