-- ==== Sys2Proof/Machine/Flags.lean ====
section
/-! DEFINITION. This hardware has no flags (10_state.md R106): what other machines keep in flags are comparisons of two registers
(42_integer_computational.md R264, R265, R275, R276; 43_control_transfer.md R314 to R319), and here they are. -/

namespace Sys2Proof.Machine

/-- `signed(a) < signed(b)` (00_scope.md R8). -/
def signedLess (a b : Word) : Bool := a.slt b

/-- `unsigned(a) < unsigned(b)` (00_scope.md R8). -/
def unsignedLess (a b : Word) : Bool := a.ult b

/-- A comparison's result in a register: exactly 0 or 1 (42_integer_computational.md R295). -/
def truthValue (b : Bool) : Word := if b then 1 else 0

/-- Whether an address is a multiple of 4 (43_control_transfer.md R311). -/
def targetAligned (t : Word) : Bool := t.extractLsb' 0 2 == 0

end Sys2Proof.Machine
end

