-- ==== Sys2Proof/Machine/Control.lean ====
section
/-! DEFINITION. Jumps and branches (43_control_transfer.md R310 to R322). -/

namespace Sys2Proof.Machine

/-- A jump to `t` that links `rd`: a misaligned target raises and nothing is written (43_control_transfer.md R311 to R313). -/
def State.jumpTo (s : State) (rd : Reg) (t : Word) : State :=
  if targetAligned t then (s.setX rd (s.pc + 4)).retireTo t else s.raise ⟨.instrAddrMisaligned, t⟩

/-- A conditional branch (43_control_transfer.md R311, section 3): only a taken one can raise. -/
def State.branchIf (s : State) (cond : Bool) (offset : BitVec 13) : State :=
  if cond then
    if targetAligned (s.pc + branchOffset offset) then s.retireTo (s.pc + branchOffset offset)
    else s.raise ⟨.instrAddrMisaligned, s.pc + branchOffset offset⟩
  else s.retire

/-- R312. -/
def execJal (rd : Reg) (offset : BitVec 21) (s : State) : Result := .next (s.jumpTo rd (s.pc + jumpOffset offset))

/-- R313: bit 0 of the sum is cleared. -/
def execJalr (rd rs1 : Reg) (imm : BitVec 12) (s : State) : Result :=
  .next (s.jumpTo rd ((s.readX rs1 + immValue imm) &&& ~~~1))

/-- R314. -/
def execBeq (rs1 rs2 : Reg) (offset : BitVec 13) (s : State) : Result :=
  .next (s.branchIf (s.readX rs1 == s.readX rs2) offset)

/-- R315. -/
def execBne (rs1 rs2 : Reg) (offset : BitVec 13) (s : State) : Result :=
  .next (s.branchIf (s.readX rs1 != s.readX rs2) offset)

/-- R316. -/
def execBlt (rs1 rs2 : Reg) (offset : BitVec 13) (s : State) : Result :=
  .next (s.branchIf (signedLess (s.readX rs1) (s.readX rs2)) offset)

/-- R317. -/
def execBge (rs1 rs2 : Reg) (offset : BitVec 13) (s : State) : Result :=
  .next (s.branchIf (!signedLess (s.readX rs1) (s.readX rs2)) offset)

/-- R318. -/
def execBltu (rs1 rs2 : Reg) (offset : BitVec 13) (s : State) : Result :=
  .next (s.branchIf (unsignedLess (s.readX rs1) (s.readX rs2)) offset)

/-- R319. -/
def execBgeu (rs1 rs2 : Reg) (offset : BitVec 13) (s : State) : Result :=
  .next (s.branchIf (!unsignedLess (s.readX rs1) (s.readX rs2)) offset)

end Sys2Proof.Machine
end

