-- ==== Sys2Proof/Machine/Csr.lean ====
section
/-! DEFINITION. The CSR file: which addresses exist (10_state.md R34), who may access them (R32, R33, R43, R85; 40_csr_instructions.md
R221 to R224), what each reads as and what a write stores (10_state.md R35 to R86). -/

namespace Sys2Proof.Machine

/-- The CSRs of this hardware (10_state.md R34). -/
inductive Csr where
  | sstatus
  | sie
  | stvec
  | scounteren
  | sscratch
  | sepc
  | scause
  | stval
  | sip
  | satp
  | mstatus
  | misa
  | medeleg
  | mideleg
  | mie
  | mtvec
  | mcounteren
  | mcountinhibit
  /-- `mhpmevent3` to `mhpmevent31`. -/
  | mhpmevent (n : Nat)
  | mscratch
  | mepc
  | mcause
  | mtval
  | mip
  /-- Entries 0 to 7. -/
  | pmpcfg0
  /-- Entries 8 to 15. -/
  | pmpcfg2
  | pmpaddr (i : Fin 16)
  | mcycle
  | minstret
  /-- `mhpmcounter3` to `mhpmcounter31`. -/
  | mhpmcounter (n : Nat)
  | cycle
  | time
  | instret
  /-- `hpmcounter3` to `hpmcounter31`. -/
  | hpmcounter (n : Nat)
  | mvendorid
  | marchid
  | mimpid
  | mhartid
  | mconfigptr
  deriving DecidableEq, Repr

/-- The CSRs that have an address of their own (10_state.md R34). -/
def csrNamed (a : CsrAddr) : Option Csr :=
  match a with
  | 0x100#12 => some .sstatus
  | 0x104#12 => some .sie
  | 0x105#12 => some .stvec
  | 0x106#12 => some .scounteren
  | 0x140#12 => some .sscratch
  | 0x141#12 => some .sepc
  | 0x142#12 => some .scause
  | 0x143#12 => some .stval
  | 0x144#12 => some .sip
  | 0x180#12 => some .satp
  | 0x300#12 => some .mstatus
  | 0x301#12 => some .misa
  | 0x302#12 => some .medeleg
  | 0x303#12 => some .mideleg
  | 0x304#12 => some .mie
  | 0x305#12 => some .mtvec
  | 0x306#12 => some .mcounteren
  | 0x320#12 => some .mcountinhibit
  | 0x340#12 => some .mscratch
  | 0x341#12 => some .mepc
  | 0x342#12 => some .mcause
  | 0x343#12 => some .mtval
  | 0x344#12 => some .mip
  | 0x3A0#12 => some .pmpcfg0
  | 0x3A2#12 => some .pmpcfg2
  | 0xB00#12 => some .mcycle
  | 0xB02#12 => some .minstret
  | 0xC00#12 => some .cycle
  | 0xC01#12 => some .time
  | 0xC02#12 => some .instret
  | 0xF11#12 => some .mvendorid
  | 0xF12#12 => some .marchid
  | 0xF13#12 => some .mimpid
  | 0xF14#12 => some .mhartid
  | 0xF15#12 => some .mconfigptr
  | _ => none

/-- The CSR at an address, `none` when this hardware has none there (10_state.md R34, 40_csr_instructions.md R221). -/
def csrOfAddr (a : CsrAddr) : Option Csr :=
  let n := a.toNat
  if 0x323 ≤ n ∧ n ≤ 0x33F then some (.mhpmevent (n - 0x320))
  else if 0x3B0 ≤ n ∧ n ≤ 0x3BF then some (.pmpaddr (Fin.ofNat 16 (n - 0x3B0)))
  else if 0xB03 ≤ n ∧ n ≤ 0xB1F then some (.mhpmcounter (n - 0xB00))
  else if 0xC03 ≤ n ∧ n ≤ 0xC1F then some (.hpmcounter (n - 0xC00))
  else csrNamed a

/-! ## Access checks -/

/-- The lowest privilege that may access an address, `csr[9:8]` (10_state.md R32), is not above the current mode
(40_csr_instructions.md R222). -/
def State.csrPrivilegeOk (s : State) (a : CsrAddr) : Bool := (a.extractLsb' 8 2).toNat ≤ (privCode s.priv).toNat

/-- Condition (a) of 40_csr_instructions.md R222: TVM forbids S-mode the access to `satp` (10_state.md R43). -/
def State.satpAccessOk (s : State) (c : Csr) : Bool := !(c == .satp && s.priv == .supervisor && s.mstatus.tvm)

/-- The number of a counter that the enables gate (10_state.md R85, R86). -/
def counterNumber : Csr → Option Nat
  | .cycle => some 0
  | .time => some 1
  | .instret => some 2
  | .hpmcounter n => some n
  | _ => none

/-- Condition (b) of 40_csr_instructions.md R222: the counter enables (10_state.md R85). -/
def State.counterAccessOk (s : State) (c : Csr) : Bool :=
  match counterNumber c with
  | none => true
  | some n =>
    match s.priv with
    | .machine => true
    | .supervisor => s.mcounteren.getLsbD n
    | .user => s.mcounteren.getLsbD n && s.scounteren.getLsbD n

/-- The read-only class, `csr[11:10] = 11` (10_state.md R32, 40_csr_instructions.md R223). -/
def csrReadOnly (a : CsrAddr) : Bool := a.extractLsb' 10 2 == 0b11

/-- The CSR an instruction accesses, `none` when the access is illegal (40_csr_instructions.md R221 to R223). -/
def State.csrAccess (s : State) (a : CsrAddr) (writes : Bool) : Option Csr :=
  match csrOfAddr a with
  | none => none
  | some c =>
    if s.csrPrivilegeOk a && s.satpAccessOk c && s.counterAccessOk c && !(writes && csrReadOnly a) then some c else none

/-! ## Reading -/

/-- What a CSR reads as. -/
def State.csrRead (s : State) : Csr → Word
  | .sstatus => s.mstatus.readS
  | .sie => s.mie &&& s.mideleg
  | .stvec => s.stvec
  | .scounteren => s.scounteren.setWidth 64
  | .sscratch => s.sscratch
  | .sepc => s.sepc
  | .scause => s.scause
  | .stval => s.stval
  | .sip => s.mipRead &&& s.mideleg
  | .satp => s.satp.read
  | .mstatus => s.mstatus.read
  | .misa => Config.misa
  | .medeleg => s.medeleg
  | .mideleg => s.mideleg
  | .mie => s.mie
  | .mtvec => s.mtvec
  | .mcounteren => s.mcounteren.setWidth 64
  | .mcountinhibit => 0
  | .mhpmevent _ => 0
  | .mscratch => s.mscratch
  | .mepc => s.mepc
  | .mcause => s.mcause
  | .mtval => s.mtval
  | .mip => s.mipRead
  | .pmpcfg0 => pmpcfgRead s.pmpcfg false
  | .pmpcfg2 => pmpcfgRead s.pmpcfg true
  | .pmpaddr i => pmpaddrRead s.pmpaddr i
  | .mcycle => s.mcycle
  | .minstret => s.minstret
  | .mhpmcounter _ => 0
  | .cycle => s.mcycle
  | .time => s.mtime
  | .instret => s.minstret
  | .hpmcounter _ => 0
  | .mvendorid => s.platform.vendorId.setWidth 64
  | .marchid => s.platform.archId
  | .mimpid => s.platform.impId
  | .mhartid => s.platform.hartId
  | .mconfigptr => s.platform.configPtr

/-- What a read-modify-write instruction computes the new value from: what the CSR reads as, but for SEIP, where it is the stored
bit (10_state.md R51). DEDUCED for the immediate forms (notes/assumptions/18.md). -/
def State.csrModifyBase (s : State) (c : Csr) : Word :=
  match c with
  | .mip => s.mipModifyBase
  | _ => s.csrRead c

/-! ## Writing -/

/-- What a write to a vector register stores (10_state.md R52, R73). -/
def tvecValue (v : Word) : Word := v &&& ~~~2

/-- What a write to a saved pc stores (10_state.md R55, R76). -/
def epcValue (v : Word) : Word := v &&& ~~~3

/-- A CSR write of `v`, legalised by the CSR's own rule; the read-only ones are never written (40_csr_instructions.md R223). -/
def State.csrWrite (s : State) (c : Csr) (v : Word) : State :=
  match c with
  | .sstatus => { s with mstatus := s.mstatus.writeS v }
  | .sie => { s with mie := maskedWrite s.mideleg s.mie v }
  | .stvec => { s with stvec := tvecValue v }
  | .scounteren => { s with scounteren := v.setWidth 32 }
  | .sscratch => { s with sscratch := v }
  | .sepc => { s with sepc := epcValue v }
  | .scause => { s with scause := v }
  | .stval => { s with stval := v }
  | .sip => { s with mip := { s.mip with ssip := if s.mideleg.getLsbD 1 then v.getLsbD 1 else s.mip.ssip } }
  | .satp => { s with satp := s.satp.write s.platform v }
  | .mstatus => { s with mstatus := s.mstatus.write v }
  | .misa => s
  | .medeleg => { s with medeleg := maskedWrite medelegMask s.medeleg v }
  | .mideleg => { s with mideleg := maskedWrite midelegMask s.mideleg v }
  | .mie => { s with mie := maskedWrite mieMask s.mie v }
  | .mtvec => { s with mtvec := tvecValue v }
  | .mcounteren => { s with mcounteren := v.setWidth 32 }
  | .mcountinhibit => s
  | .mhpmevent _ => s
  | .mscratch => { s with mscratch := v }
  | .mepc => { s with mepc := epcValue v }
  | .mcause => { s with mcause := v }
  | .mtval => { s with mtval := v }
  | .mip => { s with mip := mipWrite v }
  | .pmpcfg0 => { s with pmpcfg := pmpcfgWrite s.pmpcfg false v }
  | .pmpcfg2 => { s with pmpcfg := pmpcfgWrite s.pmpcfg true v }
  | .pmpaddr i => { s with pmpaddr := pmpaddrWrite s.pmpcfg s.pmpaddr i v }
  | .mcycle => { s with mcycle := v }
  | .minstret => { s with minstret := v }
  | .mhpmcounter _ => s
  | .cycle => s
  | .time => s
  | .instret => s
  | .hpmcounter _ => s
  | .mvendorid => s
  | .marchid => s
  | .mimpid => s
  | .mhartid => s
  | .mconfigptr => s

end Sys2Proof.Machine
end

