-- ==== Sys2Proof/WellFormed.lean ====
section
/-! DEFINITION. Which terms of `Instr` an encoding exists for: the formats hold no bit 0 of a branch's or a jump's offset
(30_encoding.md R195, R197); every other operand's type holds exactly what its field can. -/

namespace Sys2Proof

/-- R195: a branch offset is even. -/
def branchOffsetOk (offset : BitVec 13) : Bool := !offset.getLsbD 0

/-- R197: a `jal` offset is even. -/
def jumpOffsetOk (offset : BitVec 21) : Bool := !offset.getLsbD 0

/-- The instruction is one that the encoding of its row can express. -/
def Instr.wellFormed : Instr → Bool
  | .jal _ offset => jumpOffsetOk offset
  | .beq _ _ offset => branchOffsetOk offset
  | .bne _ _ offset => branchOffsetOk offset
  | .blt _ _ offset => branchOffsetOk offset
  | .bge _ _ offset => branchOffsetOk offset
  | .bltu _ _ offset => branchOffsetOk offset
  | .bgeu _ _ offset => branchOffsetOk offset
  | .lui .. | .auipc .. | .jalr .. => true
  | .lb .. | .lh .. | .lw .. | .ld .. | .lbu .. | .lhu .. | .lwu .. => true
  | .sb .. | .sh .. | .sw .. | .sd .. => true
  | .addi .. | .slti .. | .sltiu .. | .xori .. | .ori .. | .andi .. | .slli .. | .srli .. | .srai .. => true
  | .add .. | .sub .. | .sll .. | .slt .. | .sltu .. | .xor .. | .srl .. | .sra .. | .or .. | .and .. => true
  | .addiw .. | .slliw .. | .srliw .. | .sraiw .. => true
  | .addw .. | .subw .. | .sllw .. | .srlw .. | .sraw .. => true
  | .fence .. | .fenceI | .ecall | .ebreak | .sret | .mret | .wfi | .sfenceVma .. => true
  | .csrrw .. | .csrrs .. | .csrrc .. | .csrrwi .. | .csrrsi .. | .csrrci .. => true

end Sys2Proof
end

