-- ==== Sys2Proof/Decode.lean ====
section
/-! DEFINITION. The decoder, total on any bytes and rejecting by name (30_encoding.md R190 to R211), and after it the encoder,
written from the same tables. -/

namespace Sys2Proof

/-- Why a word is no instruction of this hardware: each raises IllegalInstr (30_encoding.md R207). -/
inductive Reject where
  /-- Fewer than four bytes: no 32-bit word to read. -/
  | tooShort
  /-- Bits 1:0 are not 11: a 16-bit encoding, and the C extension is absent (R190). -/
  | compressed
  /-- inst[6:0] is no major opcode of R200 (this takes in words longer than 32 bits, R190, and custom opcodes, R210). -/
  | opcode
  /-- A funct3 that R201 to R205 give no instruction. -/
  | funct3
  /-- A funct7, or inst[31:26], that R202 or R203 give no instruction. -/
  | funct7
  /-- A SYSTEM word with funct3 000 that is none of R205's. -/
  | system
  deriving DecidableEq, Repr

/-! ## Fields (R192 to R199) -/

/-- inst[6:0], R192. -/
def fieldOpcode (w : InstrWord) : BitVec 7 := w.extractLsb' 0 7
/-- inst[11:7], R192. -/
def fieldRd (w : InstrWord) : Reg := w.extractLsb' 7 5
/-- inst[14:12], R192. -/
def fieldFunct3 (w : InstrWord) : BitVec 3 := w.extractLsb' 12 3
/-- inst[19:15], R192. -/
def fieldRs1 (w : InstrWord) : Reg := w.extractLsb' 15 5
/-- inst[24:20], R192. -/
def fieldRs2 (w : InstrWord) : Reg := w.extractLsb' 20 5
/-- inst[31:25], R192. -/
def fieldFunct7 (w : InstrWord) : BitVec 7 := w.extractLsb' 25 7
/-- inst[31:26], R198. -/
def fieldFunct6 (w : InstrWord) : BitVec 6 := w.extractLsb' 26 6
/-- inst[25:20], R198. -/
def fieldShamt6 (w : InstrWord) : BitVec 6 := w.extractLsb' 20 6
/-- inst[31:20], the I-immediate before extension (R193) and the CSR number (R199). -/
def fieldImmI (w : InstrWord) : BitVec 12 := w.extractLsb' 20 12
/-- The S-immediate before extension, R194. -/
def fieldImmS (w : InstrWord) : BitVec 12 := w.extractLsb' 25 7 ++ w.extractLsb' 7 5
/-- The B-immediate before extension, R195. -/
def fieldImmB (w : InstrWord) : BitVec 13 :=
  w.extractLsb' 31 1 ++ w.extractLsb' 7 1 ++ w.extractLsb' 25 6 ++ w.extractLsb' 8 4 ++ 0#1
/-- inst[31:12], the upper 20 bits of the U-immediate, R196. -/
def fieldImmU (w : InstrWord) : BitVec 20 := w.extractLsb' 12 20
/-- The J-immediate before extension, R197. -/
def fieldImmJ (w : InstrWord) : BitVec 21 :=
  w.extractLsb' 31 1 ++ w.extractLsb' 12 8 ++ w.extractLsb' 20 1 ++ w.extractLsb' 21 10 ++ 0#1
/-- inst[31:28], R199. -/
def fieldFm (w : InstrWord) : BitVec 4 := w.extractLsb' 28 4
/-- inst[27:24], R199. -/
def fieldPred (w : InstrWord) : BitVec 4 := w.extractLsb' 24 4
/-- inst[23:20], R199. -/
def fieldSucc (w : InstrWord) : BitVec 4 := w.extractLsb' 20 4

/-! ## The opcode map (R200 to R205), one function per major opcode -/

/-- LOAD, R201. -/
def decodeLoad (w : InstrWord) : Except Reject Instr :=
  match fieldFunct3 w with
  | 0b000#3 => .ok (.lb (fieldRd w) (fieldRs1 w) (fieldImmI w))
  | 0b001#3 => .ok (.lh (fieldRd w) (fieldRs1 w) (fieldImmI w))
  | 0b010#3 => .ok (.lw (fieldRd w) (fieldRs1 w) (fieldImmI w))
  | 0b011#3 => .ok (.ld (fieldRd w) (fieldRs1 w) (fieldImmI w))
  | 0b100#3 => .ok (.lbu (fieldRd w) (fieldRs1 w) (fieldImmI w))
  | 0b101#3 => .ok (.lhu (fieldRd w) (fieldRs1 w) (fieldImmI w))
  | 0b110#3 => .ok (.lwu (fieldRd w) (fieldRs1 w) (fieldImmI w))
  | _ => .error .funct3

/-- STORE, R201. -/
def decodeStore (w : InstrWord) : Except Reject Instr :=
  match fieldFunct3 w with
  | 0b000#3 => .ok (.sb (fieldRs1 w) (fieldRs2 w) (fieldImmS w))
  | 0b001#3 => .ok (.sh (fieldRs1 w) (fieldRs2 w) (fieldImmS w))
  | 0b010#3 => .ok (.sw (fieldRs1 w) (fieldRs2 w) (fieldImmS w))
  | 0b011#3 => .ok (.sd (fieldRs1 w) (fieldRs2 w) (fieldImmS w))
  | _ => .error .funct3

/-- BRANCH, R201. -/
def decodeBranch (w : InstrWord) : Except Reject Instr :=
  match fieldFunct3 w with
  | 0b000#3 => .ok (.beq (fieldRs1 w) (fieldRs2 w) (fieldImmB w))
  | 0b001#3 => .ok (.bne (fieldRs1 w) (fieldRs2 w) (fieldImmB w))
  | 0b100#3 => .ok (.blt (fieldRs1 w) (fieldRs2 w) (fieldImmB w))
  | 0b101#3 => .ok (.bge (fieldRs1 w) (fieldRs2 w) (fieldImmB w))
  | 0b110#3 => .ok (.bltu (fieldRs1 w) (fieldRs2 w) (fieldImmB w))
  | 0b111#3 => .ok (.bgeu (fieldRs1 w) (fieldRs2 w) (fieldImmB w))
  | _ => .error .funct3

/-- JALR, R201. -/
def decodeJalr (w : InstrWord) : Except Reject Instr :=
  match fieldFunct3 w with
  | 0b000#3 => .ok (.jalr (fieldRd w) (fieldRs1 w) (fieldImmI w))
  | _ => .error .funct3

/-- OP-IMM, R202. -/
def decodeOpImm (w : InstrWord) : Except Reject Instr :=
  match fieldFunct3 w with
  | 0b000#3 => .ok (.addi (fieldRd w) (fieldRs1 w) (fieldImmI w))
  | 0b010#3 => .ok (.slti (fieldRd w) (fieldRs1 w) (fieldImmI w))
  | 0b011#3 => .ok (.sltiu (fieldRd w) (fieldRs1 w) (fieldImmI w))
  | 0b100#3 => .ok (.xori (fieldRd w) (fieldRs1 w) (fieldImmI w))
  | 0b110#3 => .ok (.ori (fieldRd w) (fieldRs1 w) (fieldImmI w))
  | 0b111#3 => .ok (.andi (fieldRd w) (fieldRs1 w) (fieldImmI w))
  | 0b001#3 =>
    match fieldFunct6 w with
    | 0b000000#6 => .ok (.slli (fieldRd w) (fieldRs1 w) (fieldShamt6 w))
    | _ => .error .funct7
  | _ =>
    match fieldFunct6 w with
    | 0b000000#6 => .ok (.srli (fieldRd w) (fieldRs1 w) (fieldShamt6 w))
    | 0b010000#6 => .ok (.srai (fieldRd w) (fieldRs1 w) (fieldShamt6 w))
    | _ => .error .funct7

/-- OP-IMM-32, R202. -/
def decodeOpImm32 (w : InstrWord) : Except Reject Instr :=
  match fieldFunct3 w with
  | 0b000#3 => .ok (.addiw (fieldRd w) (fieldRs1 w) (fieldImmI w))
  | 0b001#3 =>
    match fieldFunct7 w with
    | 0b0000000#7 => .ok (.slliw (fieldRd w) (fieldRs1 w) (fieldRs2 w))
    | _ => .error .funct7
  | 0b101#3 =>
    match fieldFunct7 w with
    | 0b0000000#7 => .ok (.srliw (fieldRd w) (fieldRs1 w) (fieldRs2 w))
    | 0b0100000#7 => .ok (.sraiw (fieldRd w) (fieldRs1 w) (fieldRs2 w))
    | _ => .error .funct7
  | _ => .error .funct3

/-- OP, R203. -/
def decodeOp (w : InstrWord) : Except Reject Instr :=
  match fieldFunct7 w, fieldFunct3 w with
  | 0b0000000#7, 0b000#3 => .ok (.add (fieldRd w) (fieldRs1 w) (fieldRs2 w))
  | 0b0100000#7, 0b000#3 => .ok (.sub (fieldRd w) (fieldRs1 w) (fieldRs2 w))
  | 0b0000000#7, 0b001#3 => .ok (.sll (fieldRd w) (fieldRs1 w) (fieldRs2 w))
  | 0b0000000#7, 0b010#3 => .ok (.slt (fieldRd w) (fieldRs1 w) (fieldRs2 w))
  | 0b0000000#7, 0b011#3 => .ok (.sltu (fieldRd w) (fieldRs1 w) (fieldRs2 w))
  | 0b0000000#7, 0b100#3 => .ok (.xor (fieldRd w) (fieldRs1 w) (fieldRs2 w))
  | 0b0000000#7, 0b101#3 => .ok (.srl (fieldRd w) (fieldRs1 w) (fieldRs2 w))
  | 0b0100000#7, 0b101#3 => .ok (.sra (fieldRd w) (fieldRs1 w) (fieldRs2 w))
  | 0b0000000#7, 0b110#3 => .ok (.or (fieldRd w) (fieldRs1 w) (fieldRs2 w))
  | 0b0000000#7, 0b111#3 => .ok (.and (fieldRd w) (fieldRs1 w) (fieldRs2 w))
  | _, _ => .error .funct7

/-- OP-32, R203. -/
def decodeOp32 (w : InstrWord) : Except Reject Instr :=
  match fieldFunct7 w, fieldFunct3 w with
  | 0b0000000#7, 0b000#3 => .ok (.addw (fieldRd w) (fieldRs1 w) (fieldRs2 w))
  | 0b0100000#7, 0b000#3 => .ok (.subw (fieldRd w) (fieldRs1 w) (fieldRs2 w))
  | 0b0000000#7, 0b001#3 => .ok (.sllw (fieldRd w) (fieldRs1 w) (fieldRs2 w))
  | 0b0000000#7, 0b101#3 => .ok (.srlw (fieldRd w) (fieldRs1 w) (fieldRs2 w))
  | 0b0100000#7, 0b101#3 => .ok (.sraw (fieldRd w) (fieldRs1 w) (fieldRs2 w))
  | _, _ => .error .funct7

/-- MISC-MEM, R204. -/
def decodeMiscMem (w : InstrWord) : Except Reject Instr :=
  match fieldFunct3 w with
  | 0b000#3 => .ok (.fence (fieldFm w) (fieldPred w) (fieldSucc w))
  | 0b001#3 => .ok .fenceI
  | _ => .error .funct3

/-- SYSTEM with funct3 = 000, R205: five whole words, and `sfence.vma` with rd = 0. -/
def decodePrivileged (w : InstrWord) : Except Reject Instr :=
  match w with
  | 0x00000073#32 => .ok .ecall
  | 0x00100073#32 => .ok .ebreak
  | 0x10200073#32 => .ok .sret
  | 0x30200073#32 => .ok .mret
  | 0x10500073#32 => .ok .wfi
  | _ =>
    match fieldFunct7 w, fieldRd w with
    | 0b0001001#7, 0b00000#5 => .ok (.sfenceVma (fieldRs1 w) (fieldRs2 w))
    | _, _ => .error .system

/-- SYSTEM, R205. -/
def decodeSystem (w : InstrWord) : Except Reject Instr :=
  match fieldFunct3 w with
  | 0b000#3 => decodePrivileged w
  | 0b001#3 => .ok (.csrrw (fieldRd w) (fieldRs1 w) (fieldImmI w))
  | 0b010#3 => .ok (.csrrs (fieldRd w) (fieldRs1 w) (fieldImmI w))
  | 0b011#3 => .ok (.csrrc (fieldRd w) (fieldRs1 w) (fieldImmI w))
  | 0b101#3 => .ok (.csrrwi (fieldRd w) (fieldRs1 w) (fieldImmI w))
  | 0b110#3 => .ok (.csrrsi (fieldRd w) (fieldRs1 w) (fieldImmI w))
  | 0b111#3 => .ok (.csrrci (fieldRd w) (fieldRs1 w) (fieldImmI w))
  | _ => .error .funct3

/-- The instruction a 32-bit word stands for (R200, R206). -/
def decodeWord (w : InstrWord) : Except Reject Instr :=
  match fieldOpcode w with
  | 0b0000011#7 => decodeLoad w
  | 0b0001111#7 => decodeMiscMem w
  | 0b0010011#7 => decodeOpImm w
  | 0b0010111#7 => .ok (.auipc (fieldRd w) (fieldImmU w))
  | 0b0011011#7 => decodeOpImm32 w
  | 0b0100011#7 => decodeStore w
  | 0b0110011#7 => decodeOp w
  | 0b0110111#7 => .ok (.lui (fieldRd w) (fieldImmU w))
  | 0b0111011#7 => decodeOp32 w
  | 0b1100011#7 => decodeBranch w
  | 0b1100111#7 => decodeJalr w
  | 0b1101111#7 => .ok (.jal (fieldRd w) (fieldImmJ w))
  | 0b1110011#7 => decodeSystem w
  | _ => if w.extractLsb' 0 2 = 0b11#2 then .error .opcode else .error .compressed

/-- The 32-bit word that four bytes hold, the first byte at the lowest address: little-endian (20_memory.md R122). -/
def wordOfBytes (b0 b1 b2 b3 : Byte) : InstrWord := b3 ++ b2 ++ b1 ++ b0

/-- The four bytes of a word, lowest address first (20_memory.md R122). -/
def bytesOfWord (w : InstrWord) : List Byte :=
  [w.extractLsb' 0 8, w.extractLsb' 8 8, w.extractLsb' 16 8, w.extractLsb' 24 8]

/-- Reads one instruction from the front of any bytes, and the bytes after it. -/
def decodeBytes : List Byte → Except Reject (Instr × List Byte)
  | b0 :: b1 :: b2 :: b3 :: rest =>
    match decodeWord (wordOfBytes b0 b1 b2 b3) with
    | .ok i => .ok (i, rest)
    | .error e => .error e
  | _ => .error .tooShort

/-! ## The encoder (R191, R198, R199, R201 to R205) -/

/-- A field placed with its least significant bit at bit `lo` of the word. -/
def placeField {n : Nat} (field : BitVec n) (lo : Nat) : InstrWord := field.setWidth 32 <<< lo

/-- R format, R191. -/
def encodeR (funct7 : BitVec 7) (rs2 rs1 : Reg) (funct3 : BitVec 3) (rd : Reg) (opcode : BitVec 7) : InstrWord :=
  placeField funct7 25 ||| placeField rs2 20 ||| placeField rs1 15 ||| placeField funct3 12 ||| placeField rd 7 |||
    placeField opcode 0

/-- I format, R191: also the CSR forms (R199). -/
def encodeI (imm : BitVec 12) (rs1 : Reg) (funct3 : BitVec 3) (rd : Reg) (opcode : BitVec 7) : InstrWord :=
  placeField imm 20 ||| placeField rs1 15 ||| placeField funct3 12 ||| placeField rd 7 ||| placeField opcode 0

/-- I format with inst[31:26] and a 6-bit shift amount, R198. -/
def encodeShift (funct6 : BitVec 6) (shamt : BitVec 6) (rs1 : Reg) (funct3 : BitVec 3) (rd : Reg) (opcode : BitVec 7) :
    InstrWord :=
  placeField funct6 26 ||| placeField shamt 20 ||| placeField rs1 15 ||| placeField funct3 12 ||| placeField rd 7 |||
    placeField opcode 0

/-- S format, R191. -/
def encodeS (imm : BitVec 12) (rs2 rs1 : Reg) (funct3 : BitVec 3) (opcode : BitVec 7) : InstrWord :=
  placeField (imm.extractLsb' 5 7) 25 ||| placeField rs2 20 ||| placeField rs1 15 ||| placeField funct3 12 |||
    placeField (imm.extractLsb' 0 5) 7 ||| placeField opcode 0

/-- B format, R191. -/
def encodeB (offset : BitVec 13) (rs2 rs1 : Reg) (funct3 : BitVec 3) (opcode : BitVec 7) : InstrWord :=
  placeField (offset.extractLsb' 12 1) 31 ||| placeField (offset.extractLsb' 5 6) 25 ||| placeField rs2 20 |||
    placeField rs1 15 ||| placeField funct3 12 ||| placeField (offset.extractLsb' 1 4) 8 |||
    placeField (offset.extractLsb' 11 1) 7 ||| placeField opcode 0

/-- U format, R191. -/
def encodeU (imm : BitVec 20) (rd : Reg) (opcode : BitVec 7) : InstrWord :=
  placeField imm 12 ||| placeField rd 7 ||| placeField opcode 0

/-- J format, R191. -/
def encodeJ (offset : BitVec 21) (rd : Reg) (opcode : BitVec 7) : InstrWord :=
  placeField (offset.extractLsb' 20 1) 31 ||| placeField (offset.extractLsb' 1 10) 21 |||
    placeField (offset.extractLsb' 11 1) 20 ||| placeField (offset.extractLsb' 12 8) 12 ||| placeField rd 7 |||
    placeField opcode 0

/-- `fence`, R199: its ignored rs1 and rd are 0. -/
def encodeFence (fm pred succ : BitVec 4) : InstrWord :=
  placeField fm 28 ||| placeField pred 24 ||| placeField succ 20 ||| placeField 0b0001111#7 0

/-- The word of a well-formed instruction; the ignored fields of `fence` and `fence.i` (R208) are 0. -/
def encode : Instr → InstrWord
  | .lui rd imm => encodeU imm rd 0b0110111
  | .auipc rd imm => encodeU imm rd 0b0010111
  | .jal rd offset => encodeJ offset rd 0b1101111
  | .jalr rd rs1 imm => encodeI imm rs1 0b000 rd 0b1100111
  | .beq rs1 rs2 offset => encodeB offset rs2 rs1 0b000 0b1100011
  | .bne rs1 rs2 offset => encodeB offset rs2 rs1 0b001 0b1100011
  | .blt rs1 rs2 offset => encodeB offset rs2 rs1 0b100 0b1100011
  | .bge rs1 rs2 offset => encodeB offset rs2 rs1 0b101 0b1100011
  | .bltu rs1 rs2 offset => encodeB offset rs2 rs1 0b110 0b1100011
  | .bgeu rs1 rs2 offset => encodeB offset rs2 rs1 0b111 0b1100011
  | .lb rd rs1 imm => encodeI imm rs1 0b000 rd 0b0000011
  | .lh rd rs1 imm => encodeI imm rs1 0b001 rd 0b0000011
  | .lw rd rs1 imm => encodeI imm rs1 0b010 rd 0b0000011
  | .ld rd rs1 imm => encodeI imm rs1 0b011 rd 0b0000011
  | .lbu rd rs1 imm => encodeI imm rs1 0b100 rd 0b0000011
  | .lhu rd rs1 imm => encodeI imm rs1 0b101 rd 0b0000011
  | .lwu rd rs1 imm => encodeI imm rs1 0b110 rd 0b0000011
  | .sb rs1 rs2 imm => encodeS imm rs2 rs1 0b000 0b0100011
  | .sh rs1 rs2 imm => encodeS imm rs2 rs1 0b001 0b0100011
  | .sw rs1 rs2 imm => encodeS imm rs2 rs1 0b010 0b0100011
  | .sd rs1 rs2 imm => encodeS imm rs2 rs1 0b011 0b0100011
  | .addi rd rs1 imm => encodeI imm rs1 0b000 rd 0b0010011
  | .slti rd rs1 imm => encodeI imm rs1 0b010 rd 0b0010011
  | .sltiu rd rs1 imm => encodeI imm rs1 0b011 rd 0b0010011
  | .xori rd rs1 imm => encodeI imm rs1 0b100 rd 0b0010011
  | .ori rd rs1 imm => encodeI imm rs1 0b110 rd 0b0010011
  | .andi rd rs1 imm => encodeI imm rs1 0b111 rd 0b0010011
  | .slli rd rs1 shamt => encodeShift 0b000000 shamt rs1 0b001 rd 0b0010011
  | .srli rd rs1 shamt => encodeShift 0b000000 shamt rs1 0b101 rd 0b0010011
  | .srai rd rs1 shamt => encodeShift 0b010000 shamt rs1 0b101 rd 0b0010011
  | .add rd rs1 rs2 => encodeR 0b0000000 rs2 rs1 0b000 rd 0b0110011
  | .sub rd rs1 rs2 => encodeR 0b0100000 rs2 rs1 0b000 rd 0b0110011
  | .sll rd rs1 rs2 => encodeR 0b0000000 rs2 rs1 0b001 rd 0b0110011
  | .slt rd rs1 rs2 => encodeR 0b0000000 rs2 rs1 0b010 rd 0b0110011
  | .sltu rd rs1 rs2 => encodeR 0b0000000 rs2 rs1 0b011 rd 0b0110011
  | .xor rd rs1 rs2 => encodeR 0b0000000 rs2 rs1 0b100 rd 0b0110011
  | .srl rd rs1 rs2 => encodeR 0b0000000 rs2 rs1 0b101 rd 0b0110011
  | .sra rd rs1 rs2 => encodeR 0b0100000 rs2 rs1 0b101 rd 0b0110011
  | .or rd rs1 rs2 => encodeR 0b0000000 rs2 rs1 0b110 rd 0b0110011
  | .and rd rs1 rs2 => encodeR 0b0000000 rs2 rs1 0b111 rd 0b0110011
  | .addiw rd rs1 imm => encodeI imm rs1 0b000 rd 0b0011011
  | .slliw rd rs1 shamt => encodeR 0b0000000 shamt rs1 0b001 rd 0b0011011
  | .srliw rd rs1 shamt => encodeR 0b0000000 shamt rs1 0b101 rd 0b0011011
  | .sraiw rd rs1 shamt => encodeR 0b0100000 shamt rs1 0b101 rd 0b0011011
  | .addw rd rs1 rs2 => encodeR 0b0000000 rs2 rs1 0b000 rd 0b0111011
  | .subw rd rs1 rs2 => encodeR 0b0100000 rs2 rs1 0b000 rd 0b0111011
  | .sllw rd rs1 rs2 => encodeR 0b0000000 rs2 rs1 0b001 rd 0b0111011
  | .srlw rd rs1 rs2 => encodeR 0b0000000 rs2 rs1 0b101 rd 0b0111011
  | .sraw rd rs1 rs2 => encodeR 0b0100000 rs2 rs1 0b101 rd 0b0111011
  | .fence fm pred succ => encodeFence fm pred succ
  | .fenceI => 0x0000100F
  | .ecall => 0x00000073
  | .ebreak => 0x00100073
  | .sret => 0x10200073
  | .mret => 0x30200073
  | .wfi => 0x10500073
  | .sfenceVma rs1 rs2 => encodeR 0b0001001 rs2 rs1 0b000 0 0b1110011
  | .csrrw rd rs1 csr => encodeI csr rs1 0b001 rd 0b1110011
  | .csrrs rd rs1 csr => encodeI csr rs1 0b010 rd 0b1110011
  | .csrrc rd rs1 csr => encodeI csr rs1 0b011 rd 0b1110011
  | .csrrwi rd uimm csr => encodeI csr uimm 0b101 rd 0b1110011
  | .csrrsi rd uimm csr => encodeI csr uimm 0b110 rd 0b1110011
  | .csrrci rd uimm csr => encodeI csr uimm 0b111 rd 0b1110011

/-- The bytes of an instruction as memory holds them, lowest address first. -/
def encodeBytes (i : Instr) : List Byte := bytesOfWord (encode i)

/-! ## The host's reading of one opcode-table word -/

/-- The instruction the decoder reads from an instruction whose bits, numbered as spec/opcode_table.json numbers them, are the
low `nbits` bits of `w` (every higher bit of the 32 is 0). -/
def decodeTableWord (nbits w : Nat) : Option Instr :=
  match decodeBytes (bytesOfWord (BitVec.ofNat 32 (w % 2 ^ nbits))) with
  | .ok (i, _) => some i
  | .error _ => none

end Sys2Proof
end

