-- ==== Sys2Proof/Machine/Protection.lean ====
section
/-! DEFINITION. Who may access a physical address: the physical memory attributes (20_memory.md R127) and the physical memory
protection (R131 to R138). -/

namespace Sys2Proof.Machine

/-- The three kinds of access (20_memory.md R136). -/
inductive Access where
  | fetch
  | load
  | store
  deriving DecidableEq, Repr

/-- The access fault of an access (20_memory.md R127, R138). -/
def accessFault : Access → Cause
  | .fetch => .instrAccessFault
  | .load => .loadAccessFault
  | .store => .storeAccessFault

/-- The page fault of an access (20_memory.md R149). -/
def pageFault : Access → Cause
  | .fetch => .instrPageFault
  | .load => .loadPageFault
  | .store => .storePageFault

/-- The misaligned-address exception of an access (20_memory.md R123, R124). -/
def misalignedFault : Access → Cause
  | .fetch => .instrAddrMisaligned
  | .load => .loadAddrMisaligned
  | .store => .storeAddrMisaligned

/-! ## PMA -/

/-- A region contains all of `[pa, pa + n)`, below 2^56 (20_memory.md R120, R127). -/
def regionContains (r : Region) (pa n : Nat) : Bool :=
  r.base ≤ pa && pa + n ≤ r.base + r.size && pa + n ≤ Config.physLimit

/-- A region has the attribute an access needs (20_memory.md R127). -/
def regionAllows (r : Region) : Access → Bool
  | .fetch => r.executable
  | .load => r.readable
  | .store => r.writable

/-- The PMA allows an access (20_memory.md R127). -/
def pmaAllows (p : Platform) (pa n : Nat) (acc : Access) : Bool :=
  p.pma.any fun r => regionContains r pa n && regionAllows r acc

/-- The byte at `a` is in device space (20_memory.md R127). -/
def inDeviceSpace (p : Platform) (a : Nat) : Bool := p.pma.any fun r => regionContains r a 1 && !r.idempotent

/-! ## PMP -/

/-- How many consecutive 1 bits a number has from bit 0 up, looking at `fuel` bits (20_memory.md R133: `k`). -/
def trailingOnes : Nat → Nat → Nat
  | 0, _ => 0
  | fuel + 1, v => if v % 2 = 1 then trailingOnes fuel (v / 2) + 1 else 0

/-- Byte `y` is in the region of an entry whose address register is `P` and whose predecessor's is `Q` (20_memory.md R133). -/
def pmpRegionHas (mode : PmpMode) (Q P : BitVec 54) (y : Nat) : Bool :=
  let Y := y >>> 2
  match mode with
  | .off => false
  | .tor => Q.toNat ≤ Y && Y < P.toNat
  | .na4 => Y == P.toNat
  | .napot =>
    let k := trailingOnes 54 P.toNat
    Y >>> (k + 1) == P.toNat >>> (k + 1)

/-- Looks for the entry that decides an access: the first one whose region has one of its bytes, with whether it has all of them
(20_memory.md R135). `Q` is the address register before the first of the list. -/
def pmpSearch (pa n : Nat) : BitVec 54 → List PmpCfg → List (BitVec 54) → Option (PmpCfg × Bool)
  | Q, c :: cs, P :: ps =>
    if (addressesFrom pa n).any (pmpRegionHas c.a Q P) then some (c, (addressesFrom pa n).all (pmpRegionHas c.a Q P))
    else pmpSearch pa n P cs ps
  | _, _, _ => none

/-- The entry that decides an access, and whether it matches the whole of it (20_memory.md R135). -/
def State.pmpDeciding (s : State) (pa n : Nat) : Option (PmpCfg × Bool) :=
  pmpSearch pa n 0 s.pmpcfg.toList s.pmpaddr.toList

/-- The permission bit of an entry for an access (20_memory.md R136). -/
def pmpPermits (c : PmpCfg) : Access → Bool
  | .fetch => c.x
  | .load => c.r
  | .store => c.w

/-- `pmp_check(pa, n, acc, p)` (20_memory.md R136). -/
def State.pmpCheck (s : State) (pa n : Nat) (acc : Access) (p : Priv) : Bool :=
  match s.pmpDeciding pa n with
  | none => p == .machine
  | some (c, whole) => whole && ((p == .machine && !c.l) || pmpPermits c acc)

/-- Both checks of a physical access (20_memory.md R122, R130). -/
def State.physAllows (s : State) (pa n : Nat) (acc : Access) (p : Priv) : Bool :=
  s.pmpCheck pa n acc p && pmaAllows s.platform pa n acc

end Sys2Proof.Machine
end

