-- ==== Sys2Proof/Machine/Device.lean ====
section
/-! DEFINITION. One byte of the physical address space: main memory, the MSIP word and the timer pair where the platform maps
them (60_exceptions.md R395, R396), and other device space, whose values the environment gives (20_memory.md R127). -/

namespace Sys2Proof.Machine

/-- A byte of a memory-mapped register of the platform, by its place in the register. -/
inductive DeviceReg where
  /-- 60_exceptions.md R396. -/
  | msip (k : Nat)
  /-- 60_exceptions.md R395. -/
  | mtime (k : Nat)
  /-- 60_exceptions.md R395. -/
  | mtimecmp (k : Nat)
  deriving DecidableEq, Repr

/-- The place of address `a` in a register of `size` bytes at `base`. -/
def placeIn (base : Option Nat) (size a : Nat) : Option Nat :=
  match base with
  | some b => if b ≤ a && a < b + size then some (a - b) else none
  | none => none

/-- The hart's own MSIP word is at MSIP_ADDR + 4 * HARTID (60_exceptions.md R396). -/
def msipWordAddr (p : Platform) : Option Nat := p.msipAddr.map (· + 4 * p.hartId.toNat)

/-- Which register of the platform has the byte at `a`, if one has. -/
def deviceRegAt (p : Platform) (a : Nat) : Option DeviceReg :=
  match placeIn (msipWordAddr p) 4 a with
  | some k => some (.msip k)
  | none =>
    match placeIn p.mtimeAddr 8 a with
    | some k => some (.mtime k)
    | none => (placeIn p.mtimecmpAddr 8 a).map .mtimecmp

/-- Byte `k` of a word, the lowest first (20_memory.md R121). -/
def byteOf (v : Word) (k : Nat) : Byte := v.extractLsb' (8 * k) 8

/-- `v` with byte `k` replaced. -/
def withByte (v : Word) (k : Nat) (b : Byte) : Word := (v &&& ~~~((0xFF : Word) <<< (8 * k))) ||| (b.setWidth 64 <<< (8 * k))

/-- What a byte of a platform register reads as: bits 31:1 of the MSIP word are 0 (60_exceptions.md R396). -/
def State.deviceRegRead (s : State) : DeviceReg → Byte
  | .msip k => if k = 0 && s.irqIn.msi then 1 else 0
  | .mtime k => byteOf s.mtime k
  | .mtimecmp k => byteOf s.mtimecmp k

/-- A store of a byte to a platform register: bit 0 of the MSIP word is `irq_in.msi` (60_exceptions.md R396). DESIGN CHOICE: a
store to `mtime` changes nothing (notes/assumptions/11.md). -/
def State.deviceRegWrite (s : State) (r : DeviceReg) (b : Byte) : State :=
  match r with
  | .msip k => if k = 0 then { s with irqIn := { s.irqIn with msi := b.getLsbD 0 } } else s
  | .mtime _ => s
  | .mtimecmp k => { s with mtimecmp := withByte s.mtimecmp k b }

/-- The byte at `a` is plain main memory: neither a platform register nor device space. -/
def isMainMemory (p : Platform) (a : Nat) : Bool := (deviceRegAt p a).isNone && !inDeviceSpace p a

/-- The byte a read of physical address `a` gives; `tag` tells the reads of one step apart, for the free values of device space
(notes/assumptions/9.md). -/
def State.readPhysByte (s : State) (tag a : Nat) : Byte :=
  match deviceRegAt s.platform a with
  | some r => s.deviceRegRead r
  | none => if inDeviceSpace s.platform a then Config.deviceByte s.draws tag a else Memory.read s.mem a

/-- The value of `n` bytes at `a`, little-endian (20_memory.md R121). -/
def State.readPhys (s : State) (tag a n : Nat) : Word := ofBytes ((addressesFrom a n).map (s.readPhysByte tag))

/-- A store of one byte at physical address `a`; the address is then in `fetch_stale`, with what memory held there and what is
stored (20_memory.md R130, R163; notes/assumptions/8.md). Device space holds no bytes: what it reads as is the environment's
(R127). -/
def State.writePhysByte (s : State) (a : Nat) (b : Byte) : State :=
  let noted := { s with fetchStale := noteStale s.fetchStale a (Memory.read s.mem a) b }
  match deviceRegAt s.platform a with
  | some r => noted.deviceRegWrite r b
  | none => if inDeviceSpace s.platform a then noted else { noted with mem := Memory.write s.mem a b }

/-- A store of bytes at rising addresses. -/
def State.writePhysBytes (s : State) (a : Nat) : List Byte → State
  | [] => s
  | b :: rest => (s.writePhysByte a b).writePhysBytes (a + 1) rest

/-- Notes an access that touches device space or a platform register (20_memory.md R127; notes/assumptions/9.md). -/
def State.noteDevice (s : State) (isStore : Bool) (a n : Nat) (v : Word) : State :=
  if (addressesFrom a n).all (isMainMemory s.platform) then s
  else { s with deviceLog := s.deviceLog ++ [⟨isStore, a, n, v⟩] }

end Sys2Proof.Machine
end

