-- ==== Sys2Proof/Machine/Translation.lean ====
section
/-! DEFINITION. Virtual memory (20_memory.md R140 to R151) and the translation cache (R150, 41_system_instructions.md R251). -/

namespace Sys2Proof.Machine

/-- LEVELS of a mode (20_memory.md R142); Bare has none. -/
def levelsOf : SatpMode → Nat
  | .bare => 0
  | .sv39 => 3
  | .sv48 => 4
  | .sv57 => 5

/-- Translation is active for an access made with privilege `p` (20_memory.md R140). -/
def State.translates (s : State) (p : Priv) : Bool := p != .machine && s.satp.mode != .bare

/-- All bits of the address above the used ones equal the top used bit (20_memory.md R142). -/
def canonicalAddr (mode : SatpMode) (va : Word) : Bool :=
  let high := va.sshiftRight (11 + 9 * levelsOf mode)
  high == 0 || high == BitVec.allOnes 64

/-- VPN[i] of an address (20_memory.md R142). -/
def vpnField (va : Word) (i : Nat) : Nat := va.toNat / 2 ^ (12 + 9 * i) % 512

/-! ## Page table entries (20_memory.md R143) -/

def pteV (pte : Word) : Bool := pte.getLsbD 0
def pteR (pte : Word) : Bool := pte.getLsbD 1
def pteW (pte : Word) : Bool := pte.getLsbD 2
def pteX (pte : Word) : Bool := pte.getLsbD 3
def pteU (pte : Word) : Bool := pte.getLsbD 4
def pteG (pte : Word) : Bool := pte.getLsbD 5
def pteA (pte : Word) : Bool := pte.getLsbD 6
def pteD (pte : Word) : Bool := pte.getLsbD 7

/-- The PPN field (20_memory.md R143). -/
def ptePpn (pte : Word) : Nat := (pte.extractLsb' 10 44).toNat

/-- Step 3 of the walk: the entry is no valid one (20_memory.md R145). -/
def pteInvalid (pte : Word) : Bool := !pteV pte || (!pteR pte && pteW pte) || pte.extractLsb' 54 10 != 0

/-- Step 4: the entry points to the next level (20_memory.md R145). -/
def ptePointer (pte : Word) : Bool := !pteR pte && !pteX pte

/-- Step 6: a leaf at level `i` whose low 9 * i PPN bits are not zero (20_memory.md R145, R148). -/
def superpageMisaligned (pte : Word) (i : Nat) : Bool := ptePpn pte % 2 ^ (9 * i) != 0

/-- One page-table read: `none` when PMP (as an S-mode load) or PMA refuses it (20_memory.md R145 step 2). -/
def State.readPte (s : State) (tag pteAddr : Nat) : Option Word :=
  if s.physAllows pteAddr 8 .load .supervisor then some (s.readPhys tag pteAddr 8) else none

/-- Steps 2 to 6 of the walk from level `i` down, the table at `a` (20_memory.md R145). -/
def State.walkFrom (s : State) (tag : Nat) (va : Word) : Nat → Nat → WalkResult
  | 0, a =>
    match s.readPte tag (a + 8 * vpnField va 0) with
    | none => .accessFault (a + 8 * vpnField va 0)
    | some pte => if pteInvalid pte || ptePointer pte then .pageFault else .leaf 0 pte
  | i + 1, a =>
    match s.readPte (tag + i + 1) (a + 8 * vpnField va (i + 1)) with
    | none => .accessFault (a + 8 * vpnField va (i + 1))
    | some pte =>
      if pteInvalid pte then .pageFault
      else if ptePointer pte then s.walkFrom tag va i (ptePpn pte * 4096)
      else if superpageMisaligned pte (i + 1) then .pageFault
      else .leaf (i + 1) pte

/-- The walk from the root (20_memory.md R145 step 1). -/
def State.walk (s : State) (tag : Nat) (va : Word) : WalkResult :=
  s.walkFrom tag va (levelsOf s.satp.mode - 1) (s.satp.ppn.toNat * 4096)

/-- The U and SUM condition of a load or store (20_memory.md R146). -/
def State.userPageOk (s : State) (pte : Word) (p : Priv) : Bool :=
  if p == .user then pteU pte else !pteU pte || s.mstatus.sum

/-- The leaf permission check (20_memory.md R146). -/
def State.leafPermits (s : State) (acc : Access) (p : Priv) (pte : Word) : Bool :=
  match acc with
  | .fetch => pteX pte && (if p == .user then pteU pte else !pteU pte)
  | .load => (pteR pte || (s.mstatus.mxr && pteX pte)) && s.userPageOk pte p
  | .store => pteW pte && s.userPageOk pte p

/-- Step 7: the A and D bits allow the access (20_memory.md R147). -/
def accessedDirtyOk (acc : Access) (pte : Word) : Bool := pteA pte && (acc != .store || pteD pte)

/-- Step 8: the physical address through a leaf at level `i` (20_memory.md R145). -/
def leafAddr (i : Nat) (pte va : Word) : Nat :=
  let low := 2 ^ (12 + 9 * i)
  ptePpn pte * 4096 / low * low + va.toNat % low

/-! ## The translation cache (20_memory.md R150) -/

/-- The level a result covers: a fault is that of one 4 KiB page (20_memory.md R148, R150). -/
def WalkResult.level : WalkResult → Nat
  | .leaf i _ => i
  | .pageFault => 0
  | .accessFault _ => 0

/-- The kept translation covers the page containing `va`. -/
def TlbEntry.covers (e : TlbEntry) (va : Word) : Bool :=
  e.page.toNat / 2 ^ (9 * e.result.level) == va.toNat / 2 ^ (12 + 9 * e.result.level)

/-- The leaf had G = 1 (20_memory.md R143, R150). -/
def TlbEntry.isGlobal (e : TlbEntry) : Bool :=
  match e.result with
  | .leaf _ pte => pteG pte
  | .pageFault => false
  | .accessFault _ => false

/-- A kept result stands under the PMP registers as they are now: a write of them is seen by the next access (20_memory.md R164,
70_reset_and_hazards.md R435), so that a refused page-table read must still be refused. A leaf or a page fault is used instead of
reading the tables (R150), so that there is no read to check (DESIGN CHOICE, notes/assumptions/7.md). -/
def State.resultStands (s : State) : WalkResult → Bool
  | .leaf _ _ => true
  | .pageFault => true
  | .accessFault entry => !s.physAllows entry 8 .load .supervisor

/-- The kept translation may be used for `va` now: for the pair of ASID and page, or for the page alone when it is global. -/
def State.tlbFits (s : State) (va : Word) (e : TlbEntry) : Bool :=
  e.covers va && (e.isGlobal || e.asid == s.satp.asid) && s.resultStands e.result

/-- The kept translation a choice names for `va`, `none` for a walk. -/
def State.tlbPick (s : State) (choice : Nat) (va : Word) : Option TlbEntry :=
  match choice with
  | 0 => none
  | k + 1 => (s.tlb.filter (s.tlbFits va))[k]?

/-- The TLB comes to keep the result of a walk, a fault as well as a leaf (20_memory.md R150);
`State.tlbFits` says when it may be used. -/
def State.tlbFill (s : State) (tag : Nat) (va : Word) : State :=
  if s.satp.mode == .bare || !canonicalAddr s.satp.mode va then s
  else { s with tlb := s.tlb ++ [⟨s.satp.asid, va.extractLsb' 12 52, s.walk tag va⟩] }

/-- Steps 1 to 6 for an access, from a kept translation or by a walk (20_memory.md R150). -/
def State.lookup (s : State) (choice tag : Nat) (va : Word) : WalkResult :=
  match s.tlbPick choice va with
  | some e => e.result
  | none => s.walk tag va

/-- `sfence.vma` keeps a translation unless it covers the address, when one is given, and is a non-global one of the ASID, when
one is given (41_system_instructions.md R251). -/
def fenceKeeps (va : Option Word) (asid : Option (BitVec 16)) (e : TlbEntry) : Bool :=
  !((match va with
      | none => true
      | some v => e.covers v) &&
    (match asid with
      | none => true
      | some n => e.asid == n && !e.isGlobal))

/-! ## translate (20_memory.md R145) -/

/-- Which choice and which tag an access uses; the tags keep the free values of one step apart. -/
def State.choiceFor (s : State) : Access → Nat × Nat
  | .fetch => (s.tlbChoice.fetch, 10)
  | .load => (s.tlbChoice.data, 20)
  | .store => (s.tlbChoice.data, 20)

/-- `translate(va, acc)` made with privilege `p` (20_memory.md R145). -/
def State.translate (s : State) (acc : Access) (p : Priv) (va : Word) : Except Exn Nat :=
  if !canonicalAddr s.satp.mode va then .error ⟨pageFault acc, va⟩
  else
    match s.lookup (s.choiceFor acc).1 (s.choiceFor acc).2 va with
    | .accessFault _ => .error ⟨accessFault acc, va⟩
    | .pageFault => .error ⟨pageFault acc, va⟩
    | .leaf i pte =>
      if s.leafPermits acc p pte && accessedDirtyOk acc pte then .ok (leafAddr i pte va)
      else .error ⟨pageFault acc, va⟩

end Sys2Proof.Machine
end

