-- ==== Sys2Proof/Machine/System.lean ====
section
/-! DEFINITION. The system instructions (41_system_instructions.md R240 to R252). -/

namespace Sys2Proof.Machine

/-- `IllegalInstr(inst)` raised by a decoded SYSTEM instruction: the trap value is its 32 bits, zero-extended (60_exceptions.md
R363), which its encoding gives back (notes/assumptions/19.md). -/
def illegal (i : Instr) : Exn := ⟨.illegalInstr, (encode i).setWidth 64⟩

/-- The cause of `ecall` in a mode (41_system_instructions.md R241). -/
def ecallCause : Priv → Cause
  | .user => .ecallU
  | .supervisor => .ecallS
  | .machine => .ecallM

/-- R241. -/
def execEcall (s : State) : Result := .next (s.raise ⟨ecallCause s.priv, 0⟩)

/-- R242. -/
def execEbreak (s : State) : Result := .next (s.raise ⟨.breakpoint, s.pc⟩)

/-- R246. -/
def execMret (s : State) : Result := .next (if s.priv = .machine then s.returnM else s.raise (illegal .mret))

/-- A privileged instruction that one bit of `mstatus` forbids to S-mode may run (41_system_instructions.md R247, R250, R251). -/
def State.mayRun (s : State) (forbidden : Bool) : Bool :=
  match s.priv with
  | .user => false
  | .supervisor => !forbidden
  | .machine => true

/-- R247. -/
def execSret (s : State) : Result := .next (if s.mayRun s.mstatus.tsr then s.returnS else s.raise (illegal .sret))

/-- R250. -/
def execWfi (s : State) : Result :=
  .next (if s.mayRun s.mstatus.tw then { s with waiting := true }.retire else s.raise (illegal .wfi))

/-- The address operand of `sfence.vma`, absent when `rs1 = x0` (R251). -/
def State.fenceAddr (s : State) (rs1 : Reg) : Option Word := if rs1 = 0#5 then none else some (s.readX rs1)

/-- The ASID operand of `sfence.vma`, absent when `rs2 = x0` (R251). -/
def State.fenceAsid (s : State) (rs2 : Reg) : Option (BitVec 16) := if rs2 = 0#5 then none else some ((s.readX rs2).setWidth 16)

/-- R251. -/
def execSfenceVma (rs1 rs2 : Reg) (s : State) : Result :=
  .next (if s.mayRun s.mstatus.tvm then
      { s with tlb := s.tlb.filter (fenceKeeps (s.fenceAddr rs1) (s.fenceAsid rs2)) }.retire
    else s.raise (illegal (.sfenceVma rs1 rs2)))

end Sys2Proof.Machine
end

