-- ==== Sys2Proof/Machine/CsrInstr.lean ====
section
/-! DEFINITION. The CSR access instructions (40_csr_instructions.md R220 to R233). -/

namespace Sys2Proof.Machine

/-- A CSR instruction completes: one that writes `minstret` leaves the written value, uncounted (10_state.md R62). -/
def State.retireCsr (s : State) (c : Csr) (writes : Bool) : State :=
  if writes && c == .minstret then { s with pc := s.pc + 4 } else s.retire

/-- The common form (40_csr_instructions.md R220 to R224): check the access, read, write `newValue` of the old value when the
instruction writes, then put the old value in `rd`. -/
def State.csrInstr (s : State) (i : Instr) (rd : Reg) (a : CsrAddr) (writes : Bool) (newValue : Word → Word) : State :=
  match s.csrAccess a writes with
  | none => s.raise (illegal i)
  | some c =>
    let written := if writes then s.csrWrite c (newValue (s.csrModifyBase c)) else s
    (written.setX rd (s.csrRead c)).retireCsr c writes

/-- R225: always a write. -/
def execCsrrw (rd rs1 : Reg) (csr : CsrAddr) (s : State) : Result :=
  .next (s.csrInstr (.csrrw rd rs1 csr) rd csr true (fun _ => s.readX rs1))

/-- R226: a write unless `rs1 = x0`. -/
def execCsrrs (rd rs1 : Reg) (csr : CsrAddr) (s : State) : Result :=
  .next (s.csrInstr (.csrrs rd rs1 csr) rd csr (rs1 != 0#5) (fun t => t ||| s.readX rs1))

/-- R227: a write unless `rs1 = x0`. -/
def execCsrrc (rd rs1 : Reg) (csr : CsrAddr) (s : State) : Result :=
  .next (s.csrInstr (.csrrc rd rs1 csr) rd csr (rs1 != 0#5) (fun t => t &&& ~~~(s.readX rs1)))

/-- R228: always a write. -/
def execCsrrwi (rd : Reg) (uimm : BitVec 5) (csr : CsrAddr) (s : State) : Result :=
  .next (s.csrInstr (.csrrwi rd uimm csr) rd csr true (fun _ => csrImm uimm))

/-- R229: a write unless `uimm = 0`. -/
def execCsrrsi (rd : Reg) (uimm : BitVec 5) (csr : CsrAddr) (s : State) : Result :=
  .next (s.csrInstr (.csrrsi rd uimm csr) rd csr (uimm != 0#5) (fun t => t ||| csrImm uimm))

/-- R230: a write unless `uimm = 0`. -/
def execCsrrci (rd : Reg) (uimm : BitVec 5) (csr : CsrAddr) (s : State) : Result :=
  .next (s.csrInstr (.csrrci rd uimm csr) rd csr (uimm != 0#5) (fun t => t &&& ~~~(csrImm uimm)))

end Sys2Proof.Machine
end

