-- ==== Sys2Proof/Machine/Integer.lean ====
section
/-! DEFINITION. The integer computational instructions (42_integer_computational.md R260 to R298). Each writes `rd` with a value
computed from the state before it, and completes (R260). -/

namespace Sys2Proof.Machine

/-! ## Upper immediates -/

/-- R261. -/
def execLui (rd : Reg) (imm : BitVec 20) (s : State) : Result := .next (s.writeBack rd (upperImm imm))

/-- R262. -/
def execAuipc (rd : Reg) (imm : BitVec 20) (s : State) : Result := .next (s.writeBack rd (s.pc + upperImm imm))

/-! ## Register-immediate -/

/-- R263. -/
def execAddi (rd rs1 : Reg) (imm : BitVec 12) (s : State) : Result := .next (s.writeBack rd (s.readX rs1 + immValue imm))

/-- R264. -/
def execSlti (rd rs1 : Reg) (imm : BitVec 12) (s : State) : Result :=
  .next (s.writeBack rd (truthValue (signedLess (s.readX rs1) (immValue imm))))

/-- R265. -/
def execSltiu (rd rs1 : Reg) (imm : BitVec 12) (s : State) : Result :=
  .next (s.writeBack rd (truthValue (unsignedLess (s.readX rs1) (immValue imm))))

/-- R266. -/
def execXori (rd rs1 : Reg) (imm : BitVec 12) (s : State) : Result := .next (s.writeBack rd (s.readX rs1 ^^^ immValue imm))

/-- R267. -/
def execOri (rd rs1 : Reg) (imm : BitVec 12) (s : State) : Result := .next (s.writeBack rd (s.readX rs1 ||| immValue imm))

/-- R268. -/
def execAndi (rd rs1 : Reg) (imm : BitVec 12) (s : State) : Result := .next (s.writeBack rd (s.readX rs1 &&& immValue imm))

/-- R269. -/
def execSlli (rd rs1 : Reg) (shamt : BitVec 6) (s : State) : Result := .next (s.writeBack rd (s.readX rs1 <<< shamt.toNat))

/-- R270. -/
def execSrli (rd rs1 : Reg) (shamt : BitVec 6) (s : State) : Result := .next (s.writeBack rd (s.readX rs1 >>> shamt.toNat))

/-- R271. -/
def execSrai (rd rs1 : Reg) (shamt : BitVec 6) (s : State) : Result :=
  .next (s.writeBack rd ((s.readX rs1).sshiftRight shamt.toNat))

/-! ## Register-register -/

/-- R272. -/
def execAdd (rd rs1 rs2 : Reg) (s : State) : Result := .next (s.writeBack rd (s.readX rs1 + s.readX rs2))

/-- R273. -/
def execSub (rd rs1 rs2 : Reg) (s : State) : Result := .next (s.writeBack rd (s.readX rs1 - s.readX rs2))

/-- R274. -/
def execSll (rd rs1 rs2 : Reg) (s : State) : Result := .next (s.writeBack rd (s.readX rs1 <<< shiftAmount (s.readX rs2)))

/-- R275. -/
def execSlt (rd rs1 rs2 : Reg) (s : State) : Result :=
  .next (s.writeBack rd (truthValue (signedLess (s.readX rs1) (s.readX rs2))))

/-- R276. -/
def execSltu (rd rs1 rs2 : Reg) (s : State) : Result :=
  .next (s.writeBack rd (truthValue (unsignedLess (s.readX rs1) (s.readX rs2))))

/-- R277. -/
def execXor (rd rs1 rs2 : Reg) (s : State) : Result := .next (s.writeBack rd (s.readX rs1 ^^^ s.readX rs2))

/-- R278. -/
def execSrl (rd rs1 rs2 : Reg) (s : State) : Result := .next (s.writeBack rd (s.readX rs1 >>> shiftAmount (s.readX rs2)))

/-- R279. -/
def execSra (rd rs1 rs2 : Reg) (s : State) : Result :=
  .next (s.writeBack rd ((s.readX rs1).sshiftRight (shiftAmount (s.readX rs2))))

/-- R280. -/
def execOr (rd rs1 rs2 : Reg) (s : State) : Result := .next (s.writeBack rd (s.readX rs1 ||| s.readX rs2))

/-- R281. -/
def execAnd (rd rs1 rs2 : Reg) (s : State) : Result := .next (s.writeBack rd (s.readX rs1 &&& s.readX rs2))

/-! ## W forms -/

/-- R282. -/
def execAddiw (rd rs1 : Reg) (imm : BitVec 12) (s : State) : Result :=
  .next (s.writeBack rd (extendW (lowWord (s.readX rs1 + immValue imm))))

/-- R283. -/
def execSlliw (rd rs1 : Reg) (shamt : BitVec 5) (s : State) : Result :=
  .next (s.writeBack rd (extendW (lowWord (s.readX rs1) <<< shamt.toNat)))

/-- R284. -/
def execSrliw (rd rs1 : Reg) (shamt : BitVec 5) (s : State) : Result :=
  .next (s.writeBack rd (extendW (lowWord (s.readX rs1) >>> shamt.toNat)))

/-- R285. -/
def execSraiw (rd rs1 : Reg) (shamt : BitVec 5) (s : State) : Result :=
  .next (s.writeBack rd (extendW ((lowWord (s.readX rs1)).sshiftRight shamt.toNat)))

/-- R286. -/
def execAddw (rd rs1 rs2 : Reg) (s : State) : Result :=
  .next (s.writeBack rd (extendW (lowWord (s.readX rs1 + s.readX rs2))))

/-- R287. -/
def execSubw (rd rs1 rs2 : Reg) (s : State) : Result :=
  .next (s.writeBack rd (extendW (lowWord (s.readX rs1 - s.readX rs2))))

/-- R288. -/
def execSllw (rd rs1 rs2 : Reg) (s : State) : Result :=
  .next (s.writeBack rd (extendW (lowWord (s.readX rs1) <<< shiftAmountW (s.readX rs2))))

/-- R289. -/
def execSrlw (rd rs1 rs2 : Reg) (s : State) : Result :=
  .next (s.writeBack rd (extendW (lowWord (s.readX rs1) >>> shiftAmountW (s.readX rs2))))

/-- R290. -/
def execSraw (rd rs1 rs2 : Reg) (s : State) : Result :=
  .next (s.writeBack rd (extendW ((lowWord (s.readX rs1)).sshiftRight (shiftAmountW (s.readX rs2)))))

end Sys2Proof.Machine
end

