-- ==== Sys2Proof/Machine/Access.lean ====
section
/-! DEFINITION. The access path: MemRead and MemWrite (20_memory.md R129, R130) and Fetch (R122, R163). -/

namespace Sys2Proof.Machine

/-- The effective privilege of a load or store (20_memory.md R129). -/
def State.effectivePriv (s : State) : Priv := if s.mstatus.mprv then s.mstatus.mpp else s.priv

/-- The physical address of an access made with privilege `p`, after translation, PMP and PMA (20_memory.md R122, R130). -/
def State.physAddr (s : State) (acc : Access) (p : Priv) (va : Word) (n : Nat) : Except Exn Nat :=
  match (if s.translates p then s.translate acc p va else .ok va.toNat) with
  | .error e => .error e
  | .ok pa => if s.physAllows pa n acc p then .ok pa else .error ⟨accessFault acc, va⟩

/-- The physical address of a load or store of `n` bytes: alignment first (20_memory.md R123, R130). -/
def State.dataAddr (s : State) (acc : Access) (va : Word) (n : Nat) : Except Exn Nat :=
  if va.toNat % n != 0 then .error ⟨misalignedFault acc, va⟩ else s.physAddr acc s.effectivePriv va n

/-- `MemRead(addr, n)` (20_memory.md R130): the value, zero-extended, and the state with an access to device space noted. -/
def State.memRead (s : State) (va : Word) (n : Nat) : Except Exn (Word × State) :=
  match s.dataAddr .load va n with
  | .error e => .error e
  | .ok pa => .ok (s.readPhys 0 pa n, s.noteDevice false pa n (s.readPhys 0 pa n))

/-- `MemWrite(addr, n, v)` (20_memory.md R130). -/
def State.memWrite (s : State) (va : Word) (n : Nat) (v : Word) : Except Exn State :=
  match s.dataAddr .store va n with
  | .error e => .error e
  | .ok pa => .ok ((s.writePhysBytes pa (toBytes v n)).noteDevice true pa n (v &&& BitVec.ofNat 64 (2 ^ (8 * n) - 1)))

/-! ## Instruction fetch -/

/-- The byte a fetch reads at physical address `a`: what it reads as, but for a byte in `fetch_stale`. One of main memory gives one
of the values noted for it, which one is a free choice (DESIGN CHOICE, notes/assumptions/8.md); one of a platform register, whose
value the environment changes as well, gives a free value, so that no value 20_memory.md R163 allows is excluded (DESIGN CHOICE,
notes/assumptions/8.md). Other device space gives what the environment has there (R127). -/
def State.fetchByte (s : State) (a : Nat) : Byte :=
  match staleCandidates s.fetchStale a with
  | [] => s.readPhysByte 1 a
  | vs =>
    if isMainMemory s.platform a then vs.getD (Config.stalePick s.draws a % vs.length) (Memory.read s.mem a)
    else Config.deviceByte s.draws 1 a

/-- The physical address of the next fetch (20_memory.md R122). -/
def State.fetchAddr (s : State) : Except Exn Nat := s.physAddr .fetch s.priv s.pc 4

/-- `Fetch(pc)`: four bytes, little-endian (20_memory.md R122). -/
def State.fetch (s : State) : Except Exn InstrWord :=
  match s.fetchAddr with
  | .error e => .error e
  | .ok a => .ok (wordOfBytes (s.fetchByte a) (s.fetchByte (a + 1)) (s.fetchByte (a + 2)) (s.fetchByte (a + 3)))

/-- Places bytes at rising physical addresses as a loader outside the machine does (70_reset_and_hazards.md R431): `fetch_stale`
does not hold them. -/
def State.placeBytes (s : State) (a : Nat) : List Byte → State
  | [] => s
  | b :: rest => { s with mem := Memory.write s.mem a b, fetchStale := dropStale s.fetchStale a }.placeBytes (a + 1) rest

end Sys2Proof.Machine
end

