-- ==== Sys2Proof/Machine/LoadStore.lean ====
section
/-! DEFINITION. Loads, stores and fences (44_load_store_fence.md R330 to R347). -/

namespace Sys2Proof.Machine

/-- A load of `n` bytes, widened by `widen` (44_load_store_fence.md R331): when it raises, `rd` is not written. -/
def State.loadInto (s : State) (rd : Reg) (va : Word) (n : Nat) (widen : Word → Word) : State :=
  match s.memRead va n with
  | .error e => s.raise e
  | .ok (v, s1) => s1.writeBack rd (widen v)

/-- A store of the low `n` bytes of `v` (44_load_store_fence.md R331). -/
def State.storeFrom (s : State) (va : Word) (n : Nat) (v : Word) : State :=
  match s.memWrite va n v with
  | .error e => s.raise e
  | .ok s1 => s1.retire

/-- `sext_64` of the low 8 bits. -/
def signByte (v : Word) : Word := (v.setWidth 8).signExtend 64

/-- `sext_64` of the low 16 bits. -/
def signHalf (v : Word) : Word := (v.setWidth 16).signExtend 64

/-- `sext_64` of the low 32 bits. -/
def signWord (v : Word) : Word := (v.setWidth 32).signExtend 64

/-- The value as it is: MemRead gives it zero-extended. -/
def zeroWiden (v : Word) : Word := v

/-- R332. -/
def execLb (rd rs1 : Reg) (imm : BitVec 12) (s : State) : Result :=
  .next (s.loadInto rd (s.effectiveAddr rs1 imm) 1 signByte)

/-- R333. -/
def execLh (rd rs1 : Reg) (imm : BitVec 12) (s : State) : Result :=
  .next (s.loadInto rd (s.effectiveAddr rs1 imm) 2 signHalf)

/-- R334. -/
def execLw (rd rs1 : Reg) (imm : BitVec 12) (s : State) : Result :=
  .next (s.loadInto rd (s.effectiveAddr rs1 imm) 4 signWord)

/-- R335. -/
def execLd (rd rs1 : Reg) (imm : BitVec 12) (s : State) : Result :=
  .next (s.loadInto rd (s.effectiveAddr rs1 imm) 8 zeroWiden)

/-- R336. -/
def execLbu (rd rs1 : Reg) (imm : BitVec 12) (s : State) : Result :=
  .next (s.loadInto rd (s.effectiveAddr rs1 imm) 1 zeroWiden)

/-- R337. -/
def execLhu (rd rs1 : Reg) (imm : BitVec 12) (s : State) : Result :=
  .next (s.loadInto rd (s.effectiveAddr rs1 imm) 2 zeroWiden)

/-- R338. -/
def execLwu (rd rs1 : Reg) (imm : BitVec 12) (s : State) : Result :=
  .next (s.loadInto rd (s.effectiveAddr rs1 imm) 4 zeroWiden)

/-- R339. -/
def execSb (rs1 rs2 : Reg) (imm : BitVec 12) (s : State) : Result :=
  .next (s.storeFrom (s.effectiveAddr rs1 imm) 1 (s.readX rs2))

/-- R340. -/
def execSh (rs1 rs2 : Reg) (imm : BitVec 12) (s : State) : Result :=
  .next (s.storeFrom (s.effectiveAddr rs1 imm) 2 (s.readX rs2))

/-- R341. -/
def execSw (rs1 rs2 : Reg) (imm : BitVec 12) (s : State) : Result :=
  .next (s.storeFrom (s.effectiveAddr rs1 imm) 4 (s.readX rs2))

/-- R342. -/
def execSd (rs1 rs2 : Reg) (imm : BitVec 12) (s : State) : Result :=
  .next (s.storeFrom (s.effectiveAddr rs1 imm) 8 (s.readX rs2))

/-- R345: with one hart no field changes what it does. -/
def execFence (_fm _pred _succ : BitVec 4) (s : State) : Result := .next s.retire

/-- R346. -/
def execFenceI (s : State) : Result := .next { s with fetchStale := [] }.retire

end Sys2Proof.Machine
end

