-- ==== Sys2Proof/Machine/Interrupts.lean ====
section
/-! DEFINITION. Which interrupt is taken and how (60_exceptions.md R362, R366 to R372). -/

namespace Sys2Proof.Machine

/-- The interrupt causes (60_exceptions.md R362). -/
inductive Irq where
  | ssi
  | msi
  | sti
  | mti
  | sei
  | mei
  deriving DecidableEq, Repr

/-- The code of an interrupt, which is also its bit in `mip`, `mie` and `mideleg` (60_exceptions.md R362). -/
def irqCode : Irq → Nat
  | .ssi => 1
  | .msi => 3
  | .sti => 5
  | .mti => 7
  | .sei => 9
  | .mei => 11

/-- `pend(i)` (60_exceptions.md R368). -/
def State.irqPending (s : State) (i : Irq) : Bool := s.mipRead.getLsbD (irqCode i) && s.mie.getLsbD (irqCode i)

/-- `to_S(i)` (60_exceptions.md R368). -/
def State.irqToS (s : State) (i : Irq) : Bool := s.mideleg.getLsbD (irqCode i)

/-- `takeable(i)` (60_exceptions.md R368). -/
def State.irqTakeable (s : State) (i : Irq) : Bool :=
  s.irqPending i &&
    (if s.irqToS i then s.priv == .user || (s.priv == .supervisor && s.mstatus.sie)
     else s.priv != .machine || s.mstatus.mie)

/-- The order within a destination, highest first (60_exceptions.md R369). -/
def irqOrder : List Irq := [.mei, .msi, .mti, .sei, .ssi, .sti]

/-- The interrupt to take, if one can be: those destined for M-mode before those for S-mode (60_exceptions.md R369). -/
def State.pendingInterrupt (s : State) : Option Irq :=
  match irqOrder.find? (fun i => s.irqTakeable i && !s.irqToS i) with
  | some i => some i
  | none => irqOrder.find? (fun i => s.irqTakeable i && s.irqToS i)

/-- Taking an interrupt (60_exceptions.md R372): the saved pc is the next instruction's address, the trap value 0. -/
def State.takeInterrupt (s : State) (i : Irq) : State := { s with waiting := false }.trap true (irqCode i) s.pc 0

end Sys2Proof.Machine
end

