-- ==== Sys2Proof/Machine/Environment.lean ====
section
/-! DEFINITION. What happens between two steps of the hart (00_scope.md R10): the environment changes its inputs, writes memory and
advances the timer (20_memory.md R162, 60_exceptions.md R366, R395), the implementation makes the choices the spec leaves to it
(20_memory.md R150, 10_state.md R62, 41_system_instructions.md R250). -/

namespace Sys2Proof.Machine

/-- The input of a step for which `env` lists none: the lines hold, nothing is written or kept, a `wfi` ends, the counters advance
by free amounts (notes/assumptions/5.md, 6.md). -/
def quietInput (draws : Nat) : EnvInput :=
  { mei := none, mti := none, msi := none, sei := none, mtimeAdvance := Config.timeStep draws, cycles := Config.cycleStep draws,
    wake := true, writes := [], tlbFills := [], tlbUse := ⟨0, 0⟩ }

/-- The input of the coming step. -/
def State.nextInput (s : State) : EnvInput :=
  match s.env with
  | [] => quietInput s.draws
  | e :: _ => e

/-- The environment sets interrupt lines (60_exceptions.md R366). -/
def applyLines (e : EnvInput) (q : IrqIn) : IrqIn :=
  ⟨e.mei.getD q.mei, e.mti.getD q.mti, e.msi.getD q.msi, e.sei.getD q.sei⟩

/-- The environment may write a byte: some region of the PMA contains it, main memory or device (20_memory.md R127, R162).
DESIGN CHOICE (notes/assumptions/14.md): the PMA marks no region as shared, and every region is taken as shared. -/
def envMayWrite (p : Platform) (a : Nat) : Bool := p.pma.any fun r => regionContains r a 1

/-- The environment writes one byte (20_memory.md R162). A platform register takes it as it takes a store (60_exceptions.md R366,
R395, R396). DESIGN CHOICE (notes/assumptions/14.md): a byte of main memory is noted in `fetch_stale`, so that a later fetch of
it may return the old or the new value until `fence.i`. Other device space reads as the environment says at each read
(R127), so a write of it is no change of state. -/
def State.envWriteByte (s : State) (a : Nat) (b : Byte) : State :=
  match deviceRegAt s.platform a with
  | some r => s.deviceRegWrite r b
  | none => if inDeviceSpace s.platform a then s else s.writePhysByte a b

/-- The environment writes bytes (20_memory.md R162). -/
def State.envWrites (s : State) : List Host.Cell → State
  | [] => s
  | (a, b) :: rest => (if envMayWrite s.platform a then s.envWriteByte a b else s).envWrites rest

/-- The TLB comes to keep translations (20_memory.md R150). -/
def State.envFills (s : State) (tag : Nat) : List Word → State
  | [] => s
  | va :: rest => (s.tlbFill tag va).envFills (tag + 10) rest

/-- `waiting` ends when `(mip & mie) != 0`, or at the implementation's choice (41_system_instructions.md R250). -/
def State.wakeUp (s : State) (wake : Bool) : State :=
  { s with waiting := s.waiting && !wake && (s.mipRead &&& s.mie) == 0 }

/-- MTIME after an advance: it never decreases (60_exceptions.md R395), so it stops at its largest value (notes/assumptions/6.md). -/
def advanceTime (now advance : Word) : Word :=
  if now.toNat + advance.toNat < 2 ^ 64 then now + advance else BitVec.allOnes 64

/-- The inputs and counters of one step, memory and TLB apart. -/
def State.applyInput (s : State) (e : EnvInput) : State :=
  { s with
    irqIn := applyLines e s.irqIn
    mtime := advanceTime s.mtime e.mtimeAdvance
    mcycle := s.mcycle + e.cycles
    tlbChoice := e.tlbUse
    env := s.env.tail
    draws := s.draws + 1 }

/-- What stands at the start of a step, after the environment and the implementation have acted. -/
def State.sample (s : State) : State :=
  ((((s.applyInput s.nextInput).envWrites s.nextInput.writes).envFills 30 s.nextInput.tlbFills).wakeUp s.nextInput.wake)

end Sys2Proof.Machine
end

