-- ==== Sys2Proof/Machine/Fetch.lean ====
section
/-! DEFINITION. The pieces of a step that are no instruction: the word it runs (20_memory.md R122, 30_encoding.md R207) and what
the host's placing of one instruction changes. -/

namespace Sys2Proof.Machine

/-- `pc` is a multiple of 4, as at every fetch (10_state.md R29). -/
def State.pcAligned (s : State) : Bool := s.pc.extractLsb' 0 2 == 0

/-- What the instruction at `pc` is: the instruction, or the exception its fetch or its decoding raises (60_exceptions.md R375,
steps 1 and 2). An illegal word is its own trap value (R363). -/
def State.fetchInstr (s : State) : Except Exn Instr :=
  match s.fetch with
  | .error e => .error e
  | .ok w =>
    match decodeWord w with
    | .ok i => .ok i
    | .error _ => .error ⟨.illegalInstr, w.setWidth 64⟩

/-- The physical address of the next fetch, `pc` itself when the fetch would raise. -/
def State.fetchPlace (s : State) : Nat :=
  match s.fetchAddr with
  | .ok a => a
  | .error _ => s.pc.toNat

end Sys2Proof.Machine
end

