-- ==== Sys2Proof/Machine/Step.lean ====
section
/-! DEFINITION. One step of the hart (00_scope.md R10, 60_exceptions.md R372). -/

namespace Sys2Proof.Machine

/-- What the hart does in a state where the environment has acted: it takes an interrupt, or waits, or fetches, decodes and
executes one instruction (00_scope.md R10, 60_exceptions.md R372, 41_system_instructions.md R250). -/
def hartStep (s : State) : Host.Outcome State Fault Refusal :=
  match s.pendingInterrupt with
  | some c => .next (s.takeInterrupt c)
  | none =>
    if s.waiting then .next s
    else if s.pcAligned then
      match s.fetchInstr with
      | .ok i => exec i s
      | .error e => .next (s.raise e)
    else .fault .misalignedPc

/-- One step: the environment and the implementation's choices first, then the hart (00_scope.md R10). -/
def step (s : State) : Host.Outcome State Fault Refusal := hartStep s.sample

/-- `s` with the instruction whose bits, numbered as spec/opcode_table.json numbers them, are the low `nbits` bits of `w`, placed
where the next fetch reads it; nothing there is stale and the hart does not wait (notes/assumptions/12.md). -/
def State.withFetchWord (s : State) (nbits w : Nat) : State :=
  { s.placeBytes s.fetchPlace (bytesOfWord (BitVec.ofNat 32 (w % 2 ^ nbits))) with waiting := false }

end Sys2Proof.Machine
end

