-- ==== Sys2Proof/Safety.lean ====
section
/-! DEFINITION. What counts as a safe state and the terms the statements use: the invariant every step keeps, and what an
instruction leaves unchanged. -/

namespace Sys2Proof.Machine

/-! ## The invariant -/

/-- A kept translation is one that steps 1 to 6 of a walk can end in (20_memory.md R145, R150). -/
def TlbEntry.wf (e : TlbEntry) : Bool :=
  match e.result with
  | .leaf level pte => level < 5 && !pteInvalid pte && !ptePointer pte && !superpageMisaligned pte level
  | .pageFault => true
  | .accessFault _ => true

/-- A PMP entry never has W without R (10_state.md R60). -/
def PmpCfg.wf (c : PmpCfg) : Bool := !(c.w && !c.r)

/-- What holds in every state that a run from reset reaches, as the spec's rules say. -/
structure State.Good (s : State) : Prop where
  /-- Memory keeps its canonical form. -/
  mem : Memory.wf s.mem = true
  /-- `fetch_stale` keeps its canonical form (20_memory.md R163). -/
  stale : staleWf s.fetchStale = true
  /-- The slot of `x0` holds 0 (10_state.md R21). -/
  zero : s.x[0] = 0
  /-- 10_state.md R29. -/
  pc : s.pc.extractLsb' 0 2 = 0
  /-- 10_state.md R55. -/
  mepc : s.mepc.extractLsb' 0 2 = 0
  /-- 10_state.md R76. -/
  sepc : s.sepc.extractLsb' 0 2 = 0
  /-- 10_state.md R52. -/
  mtvec : s.mtvec.getLsbD 1 = false
  /-- 10_state.md R73. -/
  stvec : s.stvec.getLsbD 1 = false
  /-- 10_state.md R48. -/
  medeleg : s.medeleg &&& ~~~medelegMask = 0
  /-- 10_state.md R49. -/
  mideleg : s.mideleg &&& ~~~midelegMask = 0
  /-- 10_state.md R50. -/
  mie : s.mie &&& ~~~mieMask = 0
  /-- 10_state.md R60. -/
  pmp : s.pmpcfg.toList.all PmpCfg.wf = true
  /-- 20_memory.md R129: MPRV is 1 only while `priv` is M. -/
  mprv : s.mstatus.mprv = true → s.priv = .machine
  /-- 20_memory.md R145, R150. -/
  tlb : s.tlb.all TlbEntry.wf = true

/-! ## Frames -/

/-- Every general register but `rd` reads as before, and `x0` reads as 0. -/
def sameRegsBut (s t : State) (rd : Reg) : Prop := t.readX 0#5 = 0 ∧ ∀ r : Reg, r ≠ rd → t.readX r = s.readX r

/-- Every general register reads as before. -/
def sameRegs (s t : State) : Prop := ∀ r : Reg, t.readX r = s.readX r

/-- Every byte of memory reads as before. -/
def sameMem (s t : State) : Prop := ∀ a : Nat, Memory.read t.mem a = Memory.read s.mem a

/-- All of the state but the general registers, `pc` and `minstret` is as before: every CSR, the mode, memory, the hidden state. -/
def sameRest (s t : State) : Prop := t = { s with x := t.x, pc := t.pc, minstret := t.minstret }

/-- The instruction completes: `rd` gets `v` (unless it is `x0`), `pc` becomes `npc`, `minstret` counts it, and nothing else
changes, `rest` saying what the state is apart from those. -/
def completesOver (i : Instr) (s rest : State) (rd : Reg) (v npc : Word) : Prop :=
  ∃ t, exec i s = .next t ∧ t.readX rd = (if rd = 0#5 then 0 else v) ∧ sameRegsBut s t rd ∧ t.pc = npc ∧
    t.minstret = s.minstret + 1 ∧ sameRest rest t

/-- The instruction completes, writes `v` to `rd`, moves `pc` to `npc`, is counted, and changes nothing else at all. -/
def completes (i : Instr) (s : State) (rd : Reg) (v npc : Word) : Prop :=
  completesOver i s s rd v npc ∧ ∀ t, exec i s = .next t → sameMem s t

/-- The instruction completes without writing a register: `pc` becomes `npc`, it is counted, and apart from those the state is
`rest`. -/
def completesPlain (i : Instr) (s rest : State) (npc : Word) : Prop :=
  ∃ t, exec i s = .next t ∧ t = { rest with pc := npc, minstret := s.minstret + 1 } ∧ sameRegs s t

/-- The instruction takes the trap of an exception: with no other effect, the state is that of trap entry for it. -/
def raises (i : Instr) (s : State) (c : Cause) (tval : Word) : Prop :=
  exec i s = .next (s.trap false (causeCode c) s.pc tval)

/-- The value of bytes, least significant first (20_memory.md R121). -/
def littleEndian : List Byte → Nat
  | [] => 0
  | b :: rest => b.toNat + 256 * littleEndian rest

/-! ## The opcode table and the CSR table, as the spec lists them -/

/-- Mask and match of rows of spec/opcode_table.json, in its order (lui to sd). -/
def opcodeRowsLow : List (InstrWord × InstrWord) :=
  [(0x0000007F, 0x00000037), (0x0000007F, 0x00000017), (0x0000007F, 0x0000006F), (0x0000707F, 0x00000067),
   (0x0000707F, 0x00000063), (0x0000707F, 0x00001063), (0x0000707F, 0x00004063), (0x0000707F, 0x00005063),
   (0x0000707F, 0x00006063), (0x0000707F, 0x00007063), (0x0000707F, 0x00000003), (0x0000707F, 0x00001003),
   (0x0000707F, 0x00002003), (0x0000707F, 0x00003003), (0x0000707F, 0x00004003), (0x0000707F, 0x00005003),
   (0x0000707F, 0x00006003), (0x0000707F, 0x00000023), (0x0000707F, 0x00001023), (0x0000707F, 0x00002023),
   (0x0000707F, 0x00003023)]

/-- Mask and match of rows of spec/opcode_table.json, in its order (addi to slliw). -/
def opcodeRowsMid : List (InstrWord × InstrWord) :=
  [(0x0000707F, 0x00000013), (0x0000707F, 0x00002013), (0x0000707F, 0x00003013), (0x0000707F, 0x00004013),
   (0x0000707F, 0x00006013), (0x0000707F, 0x00007013), (0xFC00707F, 0x00001013), (0xFC00707F, 0x00005013),
   (0xFC00707F, 0x40005013), (0xFE00707F, 0x00000033), (0xFE00707F, 0x40000033), (0xFE00707F, 0x00001033),
   (0xFE00707F, 0x00002033), (0xFE00707F, 0x00003033), (0xFE00707F, 0x00004033), (0xFE00707F, 0x00005033),
   (0xFE00707F, 0x40005033), (0xFE00707F, 0x00006033), (0xFE00707F, 0x00007033), (0x0000707F, 0x0000001B),
   (0xFE00707F, 0x0000101B)]

/-- Mask and match of rows of spec/opcode_table.json, in its order (srliw to csrrci). -/
def opcodeRowsHigh : List (InstrWord × InstrWord) :=
  [(0xFE00707F, 0x0000501B), (0xFE00707F, 0x4000501B), (0xFE00707F, 0x0000003B), (0xFE00707F, 0x4000003B),
   (0xFE00707F, 0x0000103B), (0xFE00707F, 0x0000503B), (0xFE00707F, 0x4000503B), (0x0000707F, 0x0000000F),
   (0x0000707F, 0x0000100F), (0xFFFFFFFF, 0x00000073), (0xFFFFFFFF, 0x00100073), (0xFFFFFFFF, 0x10200073),
   (0xFFFFFFFF, 0x30200073), (0xFFFFFFFF, 0x10500073), (0xFE007FFF, 0x12000073), (0x0000707F, 0x00001073),
   (0x0000707F, 0x00002073), (0x0000707F, 0x00003073), (0x0000707F, 0x00005073), (0x0000707F, 0x00006073),
   (0x0000707F, 0x00007073)]

/-- Mask and match of every row of spec/opcode_table.json (30_encoding.md R206). -/
def opcodeRows : List (InstrWord × InstrWord) := opcodeRowsLow ++ opcodeRowsMid ++ opcodeRowsHigh

/-- The addresses of 10_state.md R34, table row by table row. -/
def csrAddresses : List Nat :=
  [0x100, 0x104, 0x105, 0x106, 0x140, 0x141, 0x142, 0x143, 0x144, 0x180] ++
  [0x300, 0x301, 0x302, 0x303, 0x304, 0x305, 0x306, 0x320] ++ (addressesFrom 0x323 29) ++
  [0x340, 0x341, 0x342, 0x343, 0x344, 0x3A0, 0x3A2] ++ (addressesFrom 0x3B0 16) ++
  [0xB00, 0xB02] ++ (addressesFrom 0xB03 29) ++ [0xC00, 0xC01, 0xC02] ++ (addressesFrom 0xC03 29) ++
  [0xF11, 0xF12, 0xF13, 0xF14, 0xF15]

/-- The CSRs that have an address of their own, by address, as the table of 10_state.md R34 names them. -/
def csrRows : List (Nat × Csr) :=
  [(0x100, .sstatus), (0x104, .sie), (0x105, .stvec), (0x106, .scounteren), (0x140, .sscratch), (0x141, .sepc),
   (0x142, .scause), (0x143, .stval), (0x144, .sip), (0x180, .satp)] ++
  [(0x300, .mstatus), (0x301, .misa), (0x302, .medeleg), (0x303, .mideleg), (0x304, .mie), (0x305, .mtvec),
   (0x306, .mcounteren), (0x320, .mcountinhibit), (0x340, .mscratch), (0x341, .mepc), (0x342, .mcause), (0x343, .mtval),
   (0x344, .mip), (0x3A0, .pmpcfg0), (0x3A2, .pmpcfg2)] ++
  [(0xB00, .mcycle), (0xB02, .minstret), (0xC00, .cycle), (0xC01, .time), (0xC02, .instret), (0xF11, .mvendorid),
   (0xF12, .marchid), (0xF13, .mimpid), (0xF14, .mhartid), (0xF15, .mconfigptr)]

/-! ## The forms of the families -/

/-- The CSR address of a CSR instruction and whether it writes the CSR (40_csr_instructions.md R224). -/
def csrForm : Instr → Option (CsrAddr × Bool)
  | .csrrw _ _ a => some (a, true)
  | .csrrs _ rs1 a => some (a, rs1 != 0#5)
  | .csrrc _ rs1 a => some (a, rs1 != 0#5)
  | .csrrwi _ _ a => some (a, true)
  | .csrrsi _ uimm a => some (a, uimm != 0#5)
  | .csrrci _ uimm a => some (a, uimm != 0#5)
  | _ => none

/-- The MODE of `v` is one of SATP_MODES (10_state.md R79, 00_scope.md R6). -/
def satpAccepts (p : Platform) (v : Word) : Prop :=
  v.toNat / 2 ^ 60 = 0 ∨ v.toNat / 2 ^ 60 = 8 ∨ (v.toNat / 2 ^ 60 = 9 ∧ p.acceptsSv48 = true) ∨
    (v.toNat / 2 ^ 60 = 10 ∧ p.acceptsSv57 = true)

/-- The matching mode of the A field of a configuration byte, bits 4:3 (10_state.md R60). -/
def pmpModeOfByte (b : Byte) : PmpMode :=
  if b.toNat / 8 % 4 = 0 then .off else if b.toNat / 8 % 4 = 1 then .tor else if b.toNat / 8 % 4 = 2 then .na4 else .napot

/-- The fields of a PMP entry are the bits of a configuration byte (10_state.md R60). -/
def pmpFieldsOf (c : PmpCfg) (b : Byte) : Prop :=
  c.l = b.getLsbD 7 ∧ c.a = pmpModeOfByte b ∧ c.x = b.getLsbD 2 ∧ c.w = b.getLsbD 1 ∧ c.r = b.getLsbD 0

/-- The value a CSR instruction that writes puts in place of `old` (40_csr_instructions.md R225 to R230). -/
def csrNewValue (s : State) (old : Word) : Instr → Word
  | .csrrw _ rs1 _ => s.readX rs1
  | .csrrs _ rs1 _ => old ||| s.readX rs1
  | .csrrc _ rs1 _ => old &&& ~~~(s.readX rs1)
  | .csrrwi _ uimm _ => BitVec.ofNat 64 uimm.toNat
  | .csrrsi _ uimm _ => old ||| BitVec.ofNat 64 uimm.toNat
  | .csrrci _ uimm _ => old &&& ~~~(BitVec.ofNat 64 uimm.toNat)
  | _ => old

/-- A legal CSR access, from the bits of the address alone (10_state.md R32, R43, R85; 40_csr_instructions.md R221 to R223). -/
def csrLegal (s : State) (a : CsrAddr) (writes : Bool) : Prop :=
  a.toNat ∈ csrAddresses ∧ a.toNat / 256 % 4 ≤ (privCode s.priv).toNat ∧
  ¬ (a = 0x180#12 ∧ s.priv = .supervisor ∧ s.mstatus.tvm = true) ∧
  (0xC00 ≤ a.toNat → a.toNat ≤ 0xC1F →
    (s.priv ≠ .machine → s.mcounteren.getLsbD (a.toNat - 0xC00) = true) ∧
    (s.priv = .user → s.scounteren.getLsbD (a.toNat - 0xC00) = true)) ∧
  ¬ (writes = true ∧ a.toNat / 1024 = 3)

/-- What a CSR instruction does when it completes: `rd` gets the old value, the CSR the new one when the instruction writes,
`minstret` counts it unless it is what is written, and nothing else changes. -/
def csrCompletes (i : Instr) (s : State) (rd : Reg) (a : CsrAddr) (writes : Bool) (new : Word → Word) : Prop :=
  ∃ c t, csrOfAddr a = some c ∧ exec i s = .next t ∧ t.readX rd = (if rd = 0#5 then 0 else s.csrRead c) ∧
    sameRegsBut s t rd ∧ t.pc = s.pc + 4 ∧
    t.minstret = (if writes = true ∧ c = .minstret then new s.minstret else s.minstret + 1) ∧
    sameRest (if writes then s.csrWrite c (new (s.csrModifyBase c)) else s) t

/-- A load: `rd`, base, offset, bytes, and whether the value is sign-extended (44_load_store_fence.md section 2). -/
def loadForm : Instr → Option (Reg × Reg × BitVec 12 × Nat × Bool)
  | .lb rd rs1 imm => some (rd, rs1, imm, 1, true)
  | .lh rd rs1 imm => some (rd, rs1, imm, 2, true)
  | .lw rd rs1 imm => some (rd, rs1, imm, 4, true)
  | .ld rd rs1 imm => some (rd, rs1, imm, 8, true)
  | .lbu rd rs1 imm => some (rd, rs1, imm, 1, false)
  | .lhu rd rs1 imm => some (rd, rs1, imm, 2, false)
  | .lwu rd rs1 imm => some (rd, rs1, imm, 4, false)
  | _ => none

/-- A store: base, source, offset, bytes (44_load_store_fence.md section 3). -/
def storeForm : Instr → Option (Reg × Reg × BitVec 12 × Nat)
  | .sb rs1 rs2 imm => some (rs1, rs2, imm, 1)
  | .sh rs1 rs2 imm => some (rs1, rs2, imm, 2)
  | .sw rs1 rs2 imm => some (rs1, rs2, imm, 4)
  | .sd rs1 rs2 imm => some (rs1, rs2, imm, 8)
  | _ => none

/-- A branch: its two registers, its offset, and whether it is taken on two values (43_control_transfer.md section 3). -/
def branchForm : Instr → Option (Reg × Reg × BitVec 13 × (Word → Word → Bool))
  | .beq rs1 rs2 o => some (rs1, rs2, o, fun a b => decide (a = b))
  | .bne rs1 rs2 o => some (rs1, rs2, o, fun a b => decide (a ≠ b))
  | .blt rs1 rs2 o => some (rs1, rs2, o, fun a b => decide (a.toInt < b.toInt))
  | .bge rs1 rs2 o => some (rs1, rs2, o, fun a b => decide (b.toInt ≤ a.toInt))
  | .bltu rs1 rs2 o => some (rs1, rs2, o, fun a b => decide (a.toNat < b.toNat))
  | .bgeu rs1 rs2 o => some (rs1, rs2, o, fun a b => decide (b.toNat ≤ a.toNat))
  | _ => none

/-- The target of a jump or branch when it goes there, and none when it does not (43_control_transfer.md R311 to R319). -/
def transferTarget (s : State) : Instr → Option Word
  | .jal _ o => some (s.pc + jumpOffset o)
  | .jalr _ rs1 imm => some ((s.readX rs1 + immValue imm) &&& ~~~1)
  | i =>
    match branchForm i with
    | some (rs1, rs2, o, taken) => if taken (s.readX rs1) (s.readX rs2) then some (s.pc + branchOffset o) else none
    | none => none

/-- Every byte of `[pa, pa + n)` is plain main memory. -/
def allMainMemory (p : Platform) (pa n : Nat) : Prop := ∀ a, pa ≤ a → a < pa + n → isMainMemory p a = true

/-! ## The access path, as the spec's rules put it -/

/-- The code of the misaligned-address exception of an access (20_memory.md R123, R124; 60_exceptions.md R361). -/
def misalignedCode : Access → Nat
  | .fetch => 0
  | .load => 4
  | .store => 6

/-- The code of the access fault of an access (20_memory.md R127, R138; 60_exceptions.md R361). -/
def accessFaultCode : Access → Nat
  | .fetch => 1
  | .load => 5
  | .store => 7

/-- The code of the page fault of an access (20_memory.md R149; 60_exceptions.md R361). -/
def pageFaultCode : Access → Nat
  | .fetch => 12
  | .load => 13
  | .store => 15

/-- An access path ends in an exception with this code and this trap value. -/
def failsWith (r : Except Exn Nat) (code : Nat) (tval : Word) : Prop :=
  ∃ e, r = .error e ∧ causeCode e.cause = code ∧ e.tval = tval

/-- One region contains all of `[pa, pa + n)`, below 2^56, and has the attribute of the access (20_memory.md R120, R127). -/
def pmaHas (p : Platform) (pa n : Nat) (acc : Access) : Prop :=
  ∃ r ∈ p.pma, r.base ≤ pa ∧ pa + n ≤ r.base + r.size ∧ pa + n ≤ 2 ^ 56 ∧
    (match acc with
      | .fetch => r.executable
      | .load => r.readable
      | .store => r.writable) = true

/-- PMP and PMA both allow an access made with privilege `p` (20_memory.md R122, R130). -/
def State.mayAccess (s : State) (pa n : Nat) (acc : Access) (p : Priv) : Prop :=
  s.pmpCheck pa n acc p = true ∧ pmaHas s.platform pa n acc

/-- `r` is what the access path after alignment answers (20_memory.md R122, R130, R138, R140): the address itself or its translation
where PMP and PMA allow the access, the access fault where they do not, the exception of the translation where it raises. -/
def State.pathAnswers (s : State) (acc : Access) (p : Priv) (va : Word) (n : Nat) (r : Except Exn Nat) : Prop :=
  (p = .machine ∨ s.satp.mode = .bare →
    (s.mayAccess va.toNat n acc p → r = .ok va.toNat) ∧
    (¬ s.mayAccess va.toNat n acc p → failsWith r (accessFaultCode acc) va)) ∧
  (p ≠ .machine → s.satp.mode ≠ .bare →
    (∀ e, s.translate acc p va = .error e → r = .error e) ∧
    ∀ pa, s.translate acc p va = .ok pa →
      (s.mayAccess pa n acc p → r = .ok pa) ∧ (¬ s.mayAccess pa n acc p → failsWith r (accessFaultCode acc) va))

/-! ## Page tables, as the spec's rules put them -/

/-- LEVELS (20_memory.md R142). -/
def tableLevels : SatpMode → Nat
  | .bare => 0
  | .sv39 => 3
  | .sv48 => 4
  | .sv57 => 5

/-- The bits above the used ones all equal the top used one: the address is in the lower or the upper half (20_memory.md R142). -/
def canonicalFor (mode : SatpMode) (va : Word) : Prop :=
  va.toNat < 2 ^ (11 + 9 * tableLevels mode) ∨ 2 ^ 64 - 2 ^ (11 + 9 * tableLevels mode) ≤ va.toNat

/-- The address of the level-`i` entry for `va` in the table at `a` (20_memory.md R145 step 2). -/
def entryAddr (a : Nat) (va : Word) (i : Nat) : Nat := a + 8 * (va.toNat / 2 ^ (12 + 9 * i) % 512)

/-- Which addresses a kept translation is for and whether it is for every address space, by its page and the bits of its leaf; a
kept fault is that of one page (20_memory.md R143, R148, R150). -/
def TlbEntry.isFor (e : TlbEntry) (va : Word) : Prop :=
  (∀ i pte, e.result = .leaf i pte →
    (e.covers va = true ↔ e.page.toNat / 2 ^ (9 * i) = va.toNat / 2 ^ (12 + 9 * i)) ∧ e.isGlobal = pte.getLsbD 5) ∧
  ((∀ i pte, e.result ≠ .leaf i pte) →
    (e.covers va = true ↔ e.page.toNat = va.toNat / 2 ^ 12) ∧ e.isGlobal = false)

/-- The page an entry names (20_memory.md R143). -/
def entryPpn (pte : Word) : Nat := pte.toNat / 2 ^ 10 % 2 ^ 44

/-- The doubleword at `a` is `pte`, in main memory, and a page-table read may read it (20_memory.md R145 step 2). -/
def State.entryAt (s : State) (a : Nat) (pte : Word) : Prop :=
  allMainMemory s.platform a 8 ∧ s.mayAccess a 8 .load .supervisor ∧
    pte.toNat = littleEndian ((addressesFrom a 8).map (Memory.read s.mem))

/-- V = 1, R = W = X = 0 and no reserved bit: a pointer to the next level (20_memory.md R143). -/
def entryPoints (pte : Word) : Prop := pte.toNat % 16 = 1 ∧ pte.toNat / 2 ^ 54 = 0

/-- The walk for `va` comes to level `i` with the table at `a` (20_memory.md R145 steps 1 to 4). -/
inductive WalkReaches (s : State) (va : Word) : Nat → Nat → Prop where
  | root : WalkReaches s va (tableLevels s.satp.mode - 1) (s.satp.ppn.toNat * 4096)
  | pointer {i a : Nat} {pte : Word} : WalkReaches s va (i + 1) a → s.entryAt (entryAddr a va (i + 1)) pte → entryPoints pte →
      WalkReaches s va i (entryPpn pte * 4096)

/-- An entry at level `i` is a valid leaf, and no misaligned superpage (20_memory.md R143, R145 steps 3, 4 and 6, R148). -/
def leafValid (i : Nat) (pte : Word) : Prop :=
  pte.getLsbD 0 = true ∧ pte.toNat / 2 ^ 54 = 0 ∧
  (pte.getLsbD 1 = true ∨ (pte.getLsbD 2 = false ∧ pte.getLsbD 3 = true)) ∧ entryPpn pte % 2 ^ (9 * i) = 0

/-- The U condition of a load or store (20_memory.md R146): SUM is bit 18 of `mstatus`. -/
def State.userGrants (s : State) (p : Priv) (pte : Word) : Prop :=
  (p = .user ∧ pte.getLsbD 4 = true) ∨
  (p = .supervisor ∧ (pte.getLsbD 4 = false ∨ s.mstatus.read.getLsbD 18 = true))

/-- A leaf permits an access, its A and D bits included (20_memory.md R146, R147): MXR is bit 19 of `mstatus`. -/
def State.leafGrants (s : State) (acc : Access) (p : Priv) (pte : Word) : Prop :=
  pte.getLsbD 6 = true ∧
  match acc with
  | .fetch => pte.getLsbD 3 = true ∧
      ((p = .user ∧ pte.getLsbD 4 = true) ∨ (p = .supervisor ∧ pte.getLsbD 4 = false))
  | .load => (pte.getLsbD 1 = true ∨ (s.mstatus.read.getLsbD 19 = true ∧ pte.getLsbD 3 = true)) ∧ s.userGrants p pte
  | .store => pte.getLsbD 2 = true ∧ pte.getLsbD 7 = true ∧ s.userGrants p pte

/-- The address through a leaf at level `i`: the low 9 * i bits of its page number are those of the address (20_memory.md R145
step 8). -/
def leafTarget (i : Nat) (pte va : Word) : Nat :=
  entryPpn pte / 2 ^ (9 * i) * 2 ^ (9 * i) * 4096 + va.toNat % 2 ^ (12 + 9 * i)

/-- The order of the interrupts within a destination, 0 first (60_exceptions.md R369). -/
def irqRank : Irq → Nat
  | .mei => 0
  | .msi => 1
  | .mti => 2
  | .sei => 3
  | .ssi => 4
  | .sti => 5

/-- The address register before that of PMP entry `i`, 0 for entry 0 (20_memory.md R133). -/
def State.pmpBefore (s : State) (i : Fin 16) : BitVec 54 :=
  match i.val with
  | 0 => 0
  | k + 1 => (s.pmpaddr[k]?).getD 0

/-- Byte `y` is in the region of PMP entry `i` (20_memory.md R133). -/
def State.pmpHas (s : State) (i : Fin 16) (y : Nat) : Bool := pmpRegionHas s.pmpcfg[i].a (s.pmpBefore i) s.pmpaddr[i] y

/-- The state that only M-mode may change (60_exceptions.md R401, R402), as far as it is the same in `t`. -/
def sameMachineLevel (s t : State) : Prop :=
  t.medeleg = s.medeleg ∧ t.mideleg = s.mideleg ∧ t.mtvec = s.mtvec ∧ t.mepc = s.mepc ∧ t.mcause = s.mcause ∧
  t.mtval = s.mtval ∧ t.mscratch = s.mscratch ∧ t.mcounteren = s.mcounteren ∧ t.pmpcfg = s.pmpcfg ∧
  t.pmpaddr = s.pmpaddr ∧ t.mie &&& ~~~s.mideleg = s.mie &&& ~~~s.mideleg ∧ t.mip.stip = s.mip.stip ∧
  t.mip.seip = s.mip.seip ∧ t.mstatus.mie = s.mstatus.mie ∧ t.mstatus.mpie = s.mstatus.mpie ∧
  t.mstatus.mpp = s.mstatus.mpp ∧ t.mstatus.mprv = s.mstatus.mprv ∧ t.mstatus.tvm = s.mstatus.tvm ∧
  t.mstatus.tw = s.mstatus.tw ∧ t.mstatus.tsr = s.mstatus.tsr

/-- The state that U-mode may not change (60_exceptions.md R401, R402), as far as it is the same in `t`. -/
def sameSupervisorLevel (s t : State) : Prop :=
  t.mstatus = s.mstatus ∧ t.mie = s.mie ∧ t.mip = s.mip ∧ t.stvec = s.stvec ∧ t.sepc = s.sepc ∧ t.scause = s.scause ∧
  t.stval = s.stval ∧ t.sscratch = s.sscratch ∧ t.scounteren = s.scounteren ∧ t.satp = s.satp

end Sys2Proof.Machine
end

