-- ==== Sys2Proof/Certificates/Slice0/Obligations.lean ====
section
/-! DEFINITION. The statements for the provers, from the numbered rules of spec/. -/

section Statements

open Sys2Proof Sys2Proof.Machine

/-! ## Encoding -/

/-- Every well-formed instruction, encoded (30_encoding.md R191, R198, R199, R201 to R205) and decoded again, is itself, whatever
bytes follow it. -/
def Obligations.DecodeEncodeAgree : Prop :=
  ∀ (i : Instr) (rest : List Byte), i.wellFormed = true → decodeBytes (encodeBytes i ++ rest) = .ok (i, rest)

/-- 30_encoding.md R206: a word decodes to an instruction exactly when it fits a row of spec/opcode_table.json; what is decoded is
well formed, and outside MISC-MEM, whose ignored fields R208 drops, its encoding is the word itself (notes/assumptions/19.md). -/
def Obligations.DecoderAcceptsExactlyTheTable : Prop :=
  (∀ w : InstrWord, (∃ i, decodeWord w = .ok i) ↔ ∃ r ∈ opcodeRows, w &&& r.1 = r.2) ∧
  (∀ (w : InstrWord) (i : Instr), decodeWord w = .ok i →
    i.wellFormed = true ∧ (fieldOpcode w ≠ 0b0001111#7 → encode i = w))

/-- Words of the spec's worked examples, one or more per family, decode to what they stand for. -/
def Obligations.SpecWordsDecode : Prop :=
  decodeWord 0x123452B7 = .ok (.lui 5 0x12345) ∧ decodeWord 0xFFFFF297 = .ok (.auipc 5 0xFFFFF) ∧
  decodeWord 0xFFDFF0EF = .ok (.jal 1 (-4)) ∧ decodeWord 0xFFC080E7 = .ok (.jalr 1 1 (-4)) ∧
  decodeWord 0xFE628CE3 = .ok (.beq 5 6 (-8)) ∧ decodeWord 0x0458F063 = .ok (.bgeu 17 5 64) ∧
  decodeWord 0xFFC32283 = .ok (.lw 5 6 (-4)) ∧ decodeWord 0x00833283 = .ok (.ld 5 6 8) ∧
  decodeWord 0xFE733C23 = .ok (.sd 6 7 (-8)) ∧ decodeWord 0x007301A3 = .ok (.sb 6 7 3) ∧
  decodeWord 0xF0010113 = .ok (.addi 2 2 (-256)) ∧ decodeWord 0x43F35293 = .ok (.srai 5 6 63) ∧
  decodeWord 0x407302B3 = .ok (.sub 5 6 7) ∧ decodeWord 0x41F3529B = .ok (.sraiw 5 6 31) ∧
  decodeWord 0x407302BB = .ok (.subw 5 6 7) ∧ decodeWord 0x8330000F = .ok (.fence 8 3 3) ∧
  decodeWord 0x0000100F = .ok .fenceI ∧ decodeWord 0x30200073 = .ok .mret ∧ decodeWord 0x12000073 = .ok (.sfenceVma 0 0) ∧
  decodeWord 0x14011173 = .ok (.csrrw 2 2 0x140) ∧ decodeWord 0x300462F3 = .ok (.csrrsi 5 8 0x300)

/-- 30_encoding.md R207: a word that fits no row of the table raises IllegalInstr with the word, zero-extended, as trap value; the
all-zero and the all-ones word are such words. -/
def Obligations.IllegalWordsTrap : Prop :=
  (∀ (s : State) (w : InstrWord), (∀ r ∈ opcodeRows, w &&& r.1 ≠ r.2) → s.sample.pendingInterrupt = none →
    s.sample.waiting = false → s.pc.toNat % 4 = 0 → s.sample.fetch = .ok w →
    step s = .next (s.sample.trap false 2 s.pc (w.setWidth 64))) ∧
  (∀ r ∈ opcodeRows, (0x00000000 : InstrWord) &&& r.1 ≠ r.2) ∧ (∀ r ∈ opcodeRows, (0xFFFFFFFF : InstrWord) &&& r.1 ≠ r.2)

/-! ## A step -/

/-- When the four bytes at `pc` decode to an instruction, and no interrupt is taken and the hart does not wait, the step is that
instruction's meaning in the state the environment left (`State.sample`: 00_scope.md R10). -/
def Obligations.StepRunsTheDecodedInstruction : Prop :=
  ∀ (s u : State) (i : Instr) (pa : Nat) (rest : List Byte),
    u = s.sample → u.pendingInterrupt = none → u.waiting = false → s.pc.toNat % 4 = 0 → u.fetchAddr = .ok pa →
    allMainMemory u.platform pa 4 → (∀ a, pa ≤ a → a < pa + 4 → staleCandidates u.fetchStale a = []) →
    decodeBytes ((addressesFrom pa 4).map (Memory.read u.mem)) = .ok (i, rest) →
    step s = exec i u

/-- 60_exceptions.md R372: at the start of a step a takeable interrupt is taken, its saved pc the address of the next instruction,
its trap value 0, `waiting` false, no part of the instruction executed; otherwise the instruction at `pc` is executed. -/
def Obligations.InterruptsComeBeforeTheInstruction : Prop :=
  ∀ s u : State, u = s.sample →
    (∀ c, u.pendingInterrupt = some c →
      step s = .next ({ u with waiting := false }.trap true (irqCode c) s.pc 0) ∧
      ∀ t, step s = .next t → sameRegs s t ∧ sameMem u t ∧ t.minstret = s.minstret ∧ t.waiting = false) ∧
    (u.pendingInterrupt = none → u.waiting = false → s.pc.toNat % 4 = 0 →
      (∀ i, u.fetchInstr = .ok i → step s = exec i u) ∧
      (∀ e, u.fetchInstr = .error e → step s = .next (u.trap false (causeCode e.cause) s.pc e.tval)))

/-- While `waiting` holds the hart executes nothing, and a pending and locally enabled interrupt ends it, whatever the global
enables say. -/
def Obligations.WaitingEndsOnPendingInterrupt : Prop :=
  (∀ s : State, (s.sample.mipRead &&& s.sample.mie) ≠ 0 → s.sample.waiting = false) ∧
  (∀ s : State, s.sample.waiting = true → step s = .next s.sample) ∧
  (∀ s : State, s.waiting = false → s.sample.waiting = false)

/-- The model's choice (notes/assumptions/5.md, 6.md, 14.md, 21.md, 24.md): what stands at the start of a step differs from the state
before it in the inputs, the counters that advance, bytes that lie in a region of the PMA (log 14: every region is taken as shared),
`fetch_stale` for those of main memory, a mapped `mtimecmp`, the kept translations, and `waiting`, and in nothing else; when no
input is listed, in the counters, the choices and `waiting` alone. A byte of memory is as before or one the input writes; a byte in
`fetch_stale` keeps its candidates and gains only what memory held and what the input writes (log 14); the TLB keeps what it kept
and comes to keep results of walks made now, under the current ASID (20_memory.md R150, log 7); `waiting` can only end. MTIME never
decreases (60_exceptions.md R395) and does not wrap (log 6: 70_reset_and_hazards.md R440 would allow it). What the input of the step
lists arrives: the levels of the lines (60_exceptions.md R366), the advances, a byte written, a translation to keep, the end of a
`wfi`. -/
def Obligations.EnvironmentChangesOnlyItsOwn : Prop :=
  ∀ s u : State, u = s.sample →
    u = { s with mem := u.mem, fetchStale := u.fetchStale, tlb := u.tlb, waiting := u.waiting, irqIn := u.irqIn,
                 mtime := u.mtime, mtimecmp := u.mtimecmp, mcycle := u.mcycle, env := u.env, tlbChoice := u.tlbChoice,
                 draws := u.draws } ∧
    (∀ a, (∀ r ∈ s.platform.pma, ¬ (r.base ≤ a ∧ a + 1 ≤ r.base + r.size)) ∨ isMainMemory s.platform a = false →
      Memory.read u.mem a = Memory.read s.mem a ∧ staleCandidates u.fetchStale a = staleCandidates s.fetchStale a) ∧
    (Memory.wf s.mem = true → staleWf s.fetchStale = true → ∀ (a : Nat) (b : Byte),
      (Memory.read u.mem a = b → b = Memory.read s.mem a ∨ (a, b) ∈ s.nextInput.writes) ∧
      (b ∈ staleCandidates s.fetchStale a → b ∈ staleCandidates u.fetchStale a) ∧
      (b ∈ staleCandidates u.fetchStale a →
        b ∈ staleCandidates s.fetchStale a ∨ b = Memory.read s.mem a ∨ (a, b) ∈ s.nextInput.writes)) ∧
    (∃ new, u.tlb = s.tlb ++ new ∧ ∀ e ∈ new, s.satp.mode ≠ .bare ∧
      ∃ (tag : Nat) (va : Word), canonicalFor s.satp.mode va ∧ e = ⟨s.satp.asid, va.extractLsb' 12 52, u.walk tag va⟩) ∧
    (u.waiting = true → s.waiting = true) ∧ u.env = s.env.tail ∧ u.draws = s.draws + 1 ∧
    (∀ (e : EnvInput) (later : List EnvInput), s.env = e :: later →
      u.irqIn.mei = e.mei.getD s.irqIn.mei ∧ u.irqIn.mti = e.mti.getD s.irqIn.mti ∧ u.irqIn.sei = e.sei.getD s.irqIn.sei ∧
      u.mcycle = s.mcycle + e.cycles ∧ u.mtime.toNat = min (s.mtime.toNat + e.mtimeAdvance.toNat) (2 ^ 64 - 1) ∧
      u.tlbChoice = e.tlbUse ∧
      (u.waiting = true ↔ s.waiting = true ∧ e.wake = false ∧ u.mipRead &&& u.mie = 0) ∧
      (e.writes = [] → u.irqIn.msi = e.msi.getD s.irqIn.msi ∧ u.mtimecmp = s.mtimecmp ∧ u.mem = s.mem ∧
        u.fetchStale = s.fetchStale) ∧
      (∀ a b, e.writes = [(a, b)] → isMainMemory s.platform a = true → Memory.wf s.mem = true →
        (∃ r ∈ s.platform.pma, r.base ≤ a ∧ a + 1 ≤ r.base + r.size ∧ a + 1 ≤ 2 ^ 56) → Memory.read u.mem a = b) ∧
      (e.tlbFills = [] → u.tlb = s.tlb) ∧
      (∀ va, e.tlbFills = [va] → s.satp.mode ≠ .bare → canonicalFor s.satp.mode va →
        ∃ tag, u.tlb = s.tlb ++ [⟨s.satp.asid, va.extractLsb' 12 52, u.walk tag va⟩])) ∧
    (s.platform.mtimecmpAddr = none → u.mtimecmp = s.mtimecmp) ∧
    s.mtime.toNat ≤ u.mtime.toNat ∧
    (s.env = [] → u.mem = s.mem ∧ u.fetchStale = s.fetchStale ∧ u.tlb = s.tlb ∧ u.irqIn = s.irqIn ∧
      u.mtimecmp = s.mtimecmp ∧ u.waiting = false)

/-- A fetch raises only an instruction page fault or an instruction access fault, with `pc` as trap value, and the step takes it. -/
def Obligations.FetchFaultsTrap : Prop :=
  ∀ (s u : State) (e : Exn), u = s.sample → u.pendingInterrupt = none → u.waiting = false → s.pc.toNat % 4 = 0 →
    u.fetch = .error e →
    (e.cause = .instrPageFault ∨ e.cause = .instrAccessFault) ∧ e.tval = s.pc ∧
      step s = .next (u.trap false (if e.cause = .instrPageFault then 12 else 1) s.pc s.pc)

/-- No step stops the machine while `pc` is a multiple of 4: whatever is fetched, the step answers a next state. -/
def Obligations.StepNeverStops : Prop :=
  ∀ s : State, s.pc.toNat % 4 = 0 → ∃ t, step s = .next t

/-! ## The invariant -/

/-- Every step keeps the invariant `State.Good`. -/
def Obligations.StepKeepsTheInvariant : Prop :=
  ∀ s t : State, s.Good → step s = .next t → t.Good

/-- The model's choice in part: the invariant holds after reset, on every platform whose RESET_PC is a multiple of 4. 10_state.md R105
leaves R, W and X of the PMP entries and most other CSR fields unspecified; that they are legal values, no entry with W and
without R among them, rests on the zeros of notes/assumptions/3.md, and `State.reset` itself on the default platform of notes/assumptions/1.md. -/
def Obligations.ResetHasTheInvariant : Prop :=
  State.reset.Good ∧ ∀ p : Platform, p.resetPc.toNat % 4 = 0 → (State.resetOn p).Good

/-- The values after reset that 10_state.md R105 gives, on every platform, with the read-only-zero bits and the legal values of the
fields it leaves unspecified, of which this says nothing more. The identification CSRs are the platform's parameters (00_scope.md
R6), 0 on the default platform. The first conjunct, that `State.reset` is reset on the default platform, is the model's choice
(notes/assumptions/1.md). -/
def Obligations.ResetGivesTheStatedValues : Prop :=
  State.reset = State.resetOn Platform.default ∧
  (∀ c ∈ [Csr.mvendorid, .marchid, .mimpid, .mhartid, .mconfigptr], State.reset.csrRead c = 0) ∧
  ∀ (p : Platform) (s : State), s = State.resetOn p →
    s.priv = .machine ∧ s.pc = p.resetPc ∧ s.readX 0 = 0 ∧ s.mstatus.read.getLsbD 3 = false ∧
    s.mstatus.read.getLsbD 17 = false ∧ s.mstatus.read &&& ~~~0x7E19AA = 0xA00000000 ∧
    s.mstatus.read.extractLsb' 11 2 ≠ 0b10 ∧
    s.csrRead .misa = 0x8000000000140100 ∧ s.csrRead .mcause = 0 ∧ s.csrRead .mcounteren = 0 ∧ s.csrRead .scounteren = 0 ∧
    s.csrRead .mcountinhibit = 0 ∧ (∀ n, s.csrRead (.mhpmevent n) = 0) ∧ (∀ n, s.csrRead (.mhpmcounter n) = 0) ∧
    s.csrRead .medeleg &&& ~~~0xB3FF = 0 ∧ s.csrRead .mideleg &&& ~~~0x222 = 0 ∧ s.csrRead .mie &&& ~~~0xAAA = 0 ∧
    (s.csrRead .mtvec).getLsbD 1 = false ∧ (s.csrRead .stvec).getLsbD 1 = false ∧
    (s.csrRead .mepc).toNat % 4 = 0 ∧ (s.csrRead .sepc).toNat % 4 = 0 ∧
    s.csrRead .mvendorid = BitVec.ofNat 64 p.vendorId.toNat ∧ s.csrRead .marchid = p.archId ∧ s.csrRead .mimpid = p.impId ∧
    s.csrRead .mhartid = p.hartId ∧ s.csrRead .mconfigptr = p.configPtr ∧
    (∀ i : Fin 16, s.pmpcfg[i].a = .off ∧ s.pmpcfg[i].l = false) ∧ s.satp.mode = .bare ∧ s.tlb = [] ∧
    s.fetchStale = [] ∧ s.waiting = false

/-! ## Traps -/

/-- 60_exceptions.md R380, line by line, and that nothing else changes. -/
def Obligations.TrapEntryToMachineMode : Prop :=
  ∀ (s t : State) (interrupt : Bool) (code : Nat) (epc tval : Word), t = s.enterM interrupt code epc tval →
    t.mepc = epc ∧ t.mcause = ((if interrupt then 1 else 0) <<< 63) ||| BitVec.ofNat 64 code ∧ t.mtval = tval ∧
    t.mstatus.read.extractLsb' 11 2 = privCode s.priv ∧ t.mstatus.read.getLsbD 7 = s.mstatus.read.getLsbD 3 ∧
    t.mstatus.read.getLsbD 3 = false ∧
    (∀ k, k ≠ 3 → k ≠ 7 → k ≠ 11 → k ≠ 12 → t.mstatus.read.getLsbD k = s.mstatus.read.getLsbD k) ∧
    t.priv = .machine ∧ t.pc = trapTarget s.mtvec interrupt code ∧
    t = { s with mepc := t.mepc, mcause := t.mcause, mtval := t.mtval, mstatus := t.mstatus, priv := t.priv, pc := t.pc }

/-- 60_exceptions.md R381, line by line, and that nothing else changes; it is entered from S-mode or U-mode only (R378). -/
def Obligations.TrapEntryToSupervisorMode : Prop :=
  ∀ (s t : State) (interrupt : Bool) (code : Nat) (epc tval : Word), s.priv ≠ .machine →
    t = s.enterS interrupt code epc tval →
    t.sepc = epc ∧ t.scause = ((if interrupt then 1 else 0) <<< 63) ||| BitVec.ofNat 64 code ∧ t.stval = tval ∧
    (t.mstatus.read.getLsbD 8 = true ↔ s.priv = .supervisor) ∧ t.mstatus.read.getLsbD 5 = s.mstatus.read.getLsbD 1 ∧
    t.mstatus.read.getLsbD 1 = false ∧
    (∀ k, k ≠ 1 → k ≠ 5 → k ≠ 8 → t.mstatus.read.getLsbD k = s.mstatus.read.getLsbD k) ∧
    t.priv = .supervisor ∧ t.pc = trapTarget s.stvec interrupt code ∧
    t = { s with sepc := t.sepc, scause := t.scause, stval := t.stval, mstatus := t.mstatus, priv := t.priv, pc := t.pc }

/-- 60_exceptions.md R382: the handler's address, modulo 2^64, from the vector register of the mode that takes the trap. -/
def Obligations.HandlerAddress : Prop :=
  (∀ (tvec : Word) (interrupt : Bool) (code : Nat),
    (trapTarget tvec interrupt code).toNat =
      (tvec.toNat / 4 * 4 + (if interrupt = true ∧ tvec.toNat % 4 = 1 then 4 * code else 0)) % 2 ^ 64) ∧
  (∀ (s : State) (interrupt : Bool) (code : Nat) (epc tval : Word),
    (s.enterM interrupt code epc tval).pc = trapTarget s.mtvec interrupt code ∧
    (s.enterS interrupt code epc tval).pc = trapTarget s.stvec interrupt code)

/-- 60_exceptions.md R378: a trap is taken in S-mode exactly when it is raised below M-mode and its delegation bit is 1; with
`medeleg` = `mideleg` = 0 every trap is taken in M-mode. -/
def Obligations.DelegationChoosesTheMode : Prop :=
  ∀ (s : State) (interrupt : Bool) (code : Nat) (epc tval : Word),
    (s.priv ≠ .machine → (if interrupt then s.mideleg else s.medeleg).getLsbD code = true →
      s.trap interrupt code epc tval = s.enterS interrupt code epc tval) ∧
    (s.priv = .machine ∨ (if interrupt then s.mideleg else s.medeleg).getLsbD code = false →
      s.trap interrupt code epc tval = s.enterM interrupt code epc tval) ∧
    (s.medeleg = 0 → s.mideleg = 0 → s.trap interrupt code epc tval = s.enterM interrupt code epc tval)

/-- The whole effect of `mret` in M-mode, by the bits of `mstatus`. -/
def Obligations.MretReturns : Prop :=
  ∀ s : State, s.priv = .machine →
    ∃ t, exec .mret s = .next t ∧ privCode t.priv = s.mstatus.read.extractLsb' 11 2 ∧ t.pc = s.mepc ∧
      t.minstret = s.minstret + 1 ∧ t.mstatus.read.getLsbD 3 = s.mstatus.read.getLsbD 7 ∧
      t.mstatus.read.getLsbD 7 = true ∧ t.mstatus.read.extractLsb' 11 2 = 0b00 ∧
      (t.mstatus.read.getLsbD 17 = true ↔ t.priv = .machine ∧ s.mstatus.read.getLsbD 17 = true) ∧
      (∀ k, k ≠ 3 → k ≠ 7 → k ≠ 11 → k ≠ 12 → k ≠ 17 → t.mstatus.read.getLsbD k = s.mstatus.read.getLsbD k) ∧
      t = { s with mstatus := t.mstatus, priv := t.priv, pc := t.pc, minstret := t.minstret }

/-- The whole effect of `sret`, in M-mode and in S-mode with TSR = 0, by the bits of `mstatus`. -/
def Obligations.SretReturns : Prop :=
  ∀ s : State, (s.priv = .machine ∨ (s.priv = .supervisor ∧ s.mstatus.read.getLsbD 22 = false)) →
    ∃ t, exec .sret s = .next t ∧ t.priv = (if s.mstatus.read.getLsbD 8 then .supervisor else .user) ∧ t.pc = s.sepc ∧
      t.minstret = s.minstret + 1 ∧ t.mstatus.read.getLsbD 1 = s.mstatus.read.getLsbD 5 ∧
      t.mstatus.read.getLsbD 5 = true ∧ t.mstatus.read.getLsbD 8 = false ∧ t.mstatus.read.getLsbD 17 = false ∧
      (∀ k, k ≠ 1 → k ≠ 5 → k ≠ 8 → k ≠ 17 → t.mstatus.read.getLsbD k = s.mstatus.read.getLsbD k) ∧
      t = { s with mstatus := t.mstatus, priv := t.priv, pc := t.pc, minstret := t.minstret }

/-- `ecall` takes cause 8, 9 or 11 by the mode, `ebreak` cause 3 with the pc as trap value, each in every mode; neither is counted
nor changes a register or memory. -/
def Obligations.EcallAndEbreakTrap : Prop :=
  ∀ s : State,
    (s.priv = .user → exec .ecall s = .next (s.trap false 8 s.pc 0)) ∧
    (s.priv = .supervisor → exec .ecall s = .next (s.trap false 9 s.pc 0)) ∧
    (s.priv = .machine → exec .ecall s = .next (s.trap false 11 s.pc 0)) ∧
    exec .ebreak s = .next (s.trap false 3 s.pc s.pc) ∧
    ∀ t, exec .ecall s = .next t ∨ exec .ebreak s = .next t →
      sameRegs s t ∧ sameMem s t ∧ t.minstret = s.minstret

/-- `mret` below M-mode, and `sret`, `wfi`, `sfence.vma` in U-mode or where TSR, TW, TVM forbid them to S-mode, raise IllegalInstr
with their own bits. -/
def Obligations.PrivilegedInstructionsTrap : Prop :=
  ∀ s : State,
    (s.priv ≠ .machine → raises .mret s .illegalInstr 0x30200073) ∧
    (s.priv = .user ∨ (s.priv = .supervisor ∧ s.mstatus.read.getLsbD 22 = true) → raises .sret s .illegalInstr 0x10200073) ∧
    (s.priv = .user ∨ (s.priv = .supervisor ∧ s.mstatus.read.getLsbD 21 = true) → raises .wfi s .illegalInstr 0x10500073) ∧
    (s.priv = .user ∨ (s.priv = .supervisor ∧ s.mstatus.read.getLsbD 20 = true) → ∀ rs1 rs2 : Reg,
      raises (.sfenceVma rs1 rs2) s .illegalInstr
        (BitVec.ofNat 64 (0x12000073 + rs1.toNat * 2 ^ 15 + rs2.toNat * 2 ^ 20)))

/-- `wfi` and `sfence.vma` where the mode may execute them: `wfi` sets `waiting`, `sfence.vma` removes from the TLB exactly the kept
translations its operands cover, and nothing else changes. -/
def Obligations.WfiAndSfenceComplete : Prop :=
  ∀ s : State,
    (s.priv = .machine ∨ (s.priv = .supervisor ∧ s.mstatus.tw = false) →
      completesPlain .wfi s { s with waiting := true } (s.pc + 4)) ∧
    (s.priv = .machine ∨ (s.priv = .supervisor ∧ s.mstatus.tvm = false) → ∀ rs1 rs2 : Reg, ∃ kept,
      completesPlain (.sfenceVma rs1 rs2) s { s with tlb := kept } (s.pc + 4) ∧
      (∀ e, e ∈ kept ↔ e ∈ s.tlb ∧
        ¬ ((rs1 = 0 ∨ e.covers (s.readX rs1) = true) ∧
           (rs2 = 0 ∨ (e.asid.toNat = (s.readX rs2).toNat % 2 ^ 16 ∧ e.isGlobal = false)))) ∧
      (rs1 = 0 → rs2 = 0 → kept = []))

/-! ## Interrupts -/

/-- 60_exceptions.md R368: when an interrupt can be taken. -/
def Obligations.InterruptTakeable : Prop :=
  ∀ (s : State) (i : Irq), s.irqTakeable i = true ↔
    (s.mipRead.getLsbD (irqCode i) = true ∧ s.mie.getLsbD (irqCode i) = true) ∧
    (s.mideleg.getLsbD (irqCode i) = false → s.priv ≠ .machine ∨ s.mstatus.read.getLsbD 3 = true) ∧
    (s.mideleg.getLsbD (irqCode i) = true →
      s.priv = .user ∨ (s.priv = .supervisor ∧ s.mstatus.read.getLsbD 1 = true))

/-- 60_exceptions.md R369: of the takeable causes, all those destined for M-mode come before those destined for S-mode, and within
a destination the order is MEI (11), MSI (3), MTI (7), SEI (9), SSI (1), STI (5). -/
def Obligations.InterruptPriority : Prop :=
  (∀ (s : State) (c : Irq), s.pendingInterrupt = some c ↔
    s.irqTakeable c = true ∧ ∀ d, d ≠ c → s.irqTakeable d = true →
      (s.mideleg.getLsbD (irqCode c) = false ∧ s.mideleg.getLsbD (irqCode d) = true) ∨
      (s.mideleg.getLsbD (irqCode c) = s.mideleg.getLsbD (irqCode d) ∧ irqRank c < irqRank d)) ∧
  irqCode .mei = 11 ∧ irqCode .msi = 3 ∧ irqCode .mti = 7 ∧ irqCode .sei = 9 ∧ irqCode .ssi = 1 ∧ irqCode .sti = 5

/-- What drives each pending bit, and that every other bit of `mip` reads 0. MTIP is the input of the environment; on a platform that
maps `mtimecmp` it is the comparison of the timer (60_exceptions.md R395; notes/assumptions/11.md: the model's choice is to take the
conventional pair where the platform has it). -/
def Obligations.PendingBitsFollowTheirSources : Prop :=
  ∀ (s : State) (k : Nat),
    s.mipRead.getLsbD k =
      ((k == 1 && s.mip.ssip) || (k == 3 && s.irqIn.msi) || (k == 5 && s.mip.stip) ||
       (k == 7 && (if s.platform.mtimecmpAddr = none then s.irqIn.mti else decide (s.mtimecmp.toNat ≤ s.mtime.toNat))) ||
       (k == 9 && (s.mip.seip || s.irqIn.sei)) || (k == 11 && s.irqIn.mei))

/-! ## CSRs -/

/-- 10_state.md R46: what a write of `mstatus` stores, what a read returns, and the rule's example. -/
def Obligations.MstatusWrites : Prop :=
  ∀ (s : State) (v : Word),
    (v.extractLsb' 11 2 ≠ 0b10 →
      (s.csrWrite .mstatus v).csrRead .mstatus = (s.csrRead .mstatus &&& ~~~0x7E19AA) ||| (v &&& 0x7E19AA)) ∧
    (v.extractLsb' 11 2 = 0b10 →
      (s.csrWrite .mstatus v).csrRead .mstatus = (s.csrRead .mstatus &&& ~~~0x7E01AA) ||| (v &&& 0x7E01AA)) ∧
    s.csrRead .mstatus &&& ~~~0x7E19AA = 0x0000000A00000000 ∧
    (s.csrWrite .mstatus 0x820).csrRead .mstatus = 0x0000000A00000820 ∧
    s.csrWrite .mstatus v = { s with mstatus := (s.csrWrite .mstatus v).mstatus }

/-- 10_state.md R70: `sstatus` is a view of `mstatus`, read and written; and the rule's example. -/
def Obligations.SstatusIsAView : Prop :=
  ∀ (s : State) (v : Word),
    s.csrRead .sstatus = s.csrRead .mstatus &&& 0x80000003000DE773 ∧
    s.csrRead .sstatus = (s.csrRead .mstatus &&& 0xC0122) ||| 0x200000000 ∧
    (s.csrWrite .sstatus v).csrRead .mstatus = (s.csrRead .mstatus &&& ~~~0xC0122) ||| (v &&& 0xC0122) ∧
    s.csrWrite .sstatus v = { s with mstatus := (s.csrWrite .sstatus v).mstatus } ∧
    (s.csrWrite .sstatus 0x20).csrRead .sstatus = 0x200000020

/-- What each writable CSR but `mstatus`, `sstatus`, `mip`, `sip` and the PMP registers reads after a write of `v`, in a state with
the invariant, and that the write changes nothing else; and what the counters, `time` and the identification CSRs read. -/
def Obligations.CsrReadsBackWhatIsLegal : Prop :=
  ∀ (s : State) (v : Word), s.Good →
    (s.csrWrite .mscratch v).csrRead .mscratch = v ∧ (s.csrWrite .sscratch v).csrRead .sscratch = v ∧
    (s.csrWrite .mcause v).csrRead .mcause = v ∧ (s.csrWrite .scause v).csrRead .scause = v ∧
    (s.csrWrite .mtval v).csrRead .mtval = v ∧ (s.csrWrite .stval v).csrRead .stval = v ∧
    (s.csrWrite .mcycle v).csrRead .mcycle = v ∧ (s.csrWrite .mcycle v).csrRead .cycle = v ∧
    (s.csrWrite .minstret v).csrRead .minstret = v ∧ (s.csrWrite .minstret v).csrRead .instret = v ∧
    ((s.csrWrite .mepc v).csrRead .mepc).toNat = v.toNat / 4 * 4 ∧
    ((s.csrWrite .sepc v).csrRead .sepc).toNat = v.toNat / 4 * 4 ∧
    ((s.csrWrite .mtvec v).csrRead .mtvec).toNat = v.toNat / 4 * 4 + v.toNat % 2 ∧
    ((s.csrWrite .stvec v).csrRead .stvec).toNat = v.toNat / 4 * 4 + v.toNat % 2 ∧
    ((s.csrWrite .mcounteren v).csrRead .mcounteren).toNat = v.toNat % 2 ^ 32 ∧
    ((s.csrWrite .scounteren v).csrRead .scounteren).toNat = v.toNat % 2 ^ 32 ∧
    (s.csrWrite .medeleg v).csrRead .medeleg = v &&& 0xB3FF ∧ (s.csrWrite .mideleg v).csrRead .mideleg = v &&& 0x222 ∧
    (s.csrWrite .mie v).csrRead .mie = v &&& 0xAAA ∧ (s.csrWrite .sie v).csrRead .sie = v &&& s.mideleg ∧
    (s.csrWrite .misa v).csrRead .misa = 0x8000000000140100 ∧
    (s.csrWrite .mcountinhibit v).csrRead .mcountinhibit = 0 ∧
    (∀ n, (s.csrWrite (.mhpmevent n) v).csrRead (.mhpmevent n) = 0 ∧
      (s.csrWrite (.mhpmcounter n) v).csrRead (.mhpmcounter n) = 0 ∧
      (s.csrWrite (.mhpmcounter n) v).csrRead (.hpmcounter n) = 0) ∧
    (s.csrWrite .satp v).csrRead .satp =
      (if v.toNat / 2 ^ 60 = 0 ∨ v.toNat / 2 ^ 60 = 8 ∨ (v.toNat / 2 ^ 60 = 9 ∧ s.platform.acceptsSv48 = true) ∨
          (v.toNat / 2 ^ 60 = 10 ∧ s.platform.acceptsSv57 = true) then v else s.csrRead .satp) ∧
    (satpAccepts s.platform v →
      (s.csrWrite .satp v).satp.mode =
        (if v.toNat / 2 ^ 60 = 0 then .bare else if v.toNat / 2 ^ 60 = 8 then .sv39 else if v.toNat / 2 ^ 60 = 9 then .sv48
         else .sv57) ∧
      (s.csrWrite .satp v).satp.asid.toNat = v.toNat / 2 ^ 44 % 2 ^ 16 ∧
      (s.csrWrite .satp v).satp.ppn.toNat = v.toNat % 2 ^ 44) ∧
    (¬ satpAccepts s.platform v → (s.csrWrite .satp v).satp = s.satp) ∧
    s.csrWrite .mscratch v = { s with mscratch := v } ∧ s.csrWrite .sscratch v = { s with sscratch := v } ∧
    s.csrWrite .mcause v = { s with mcause := v } ∧ s.csrWrite .scause v = { s with scause := v } ∧
    s.csrWrite .mtval v = { s with mtval := v } ∧ s.csrWrite .stval v = { s with stval := v } ∧
    s.csrWrite .mcycle v = { s with mcycle := v } ∧ s.csrWrite .minstret v = { s with minstret := v } ∧
    s.csrWrite .mepc v = { s with mepc := (s.csrWrite .mepc v).mepc } ∧
    s.csrWrite .sepc v = { s with sepc := (s.csrWrite .sepc v).sepc } ∧
    s.csrWrite .mtvec v = { s with mtvec := (s.csrWrite .mtvec v).mtvec } ∧
    s.csrWrite .stvec v = { s with stvec := (s.csrWrite .stvec v).stvec } ∧
    s.csrWrite .mcounteren v = { s with mcounteren := (s.csrWrite .mcounteren v).mcounteren } ∧
    s.csrWrite .scounteren v = { s with scounteren := (s.csrWrite .scounteren v).scounteren } ∧
    s.csrWrite .medeleg v = { s with medeleg := (s.csrWrite .medeleg v).medeleg } ∧
    s.csrWrite .mideleg v = { s with mideleg := (s.csrWrite .mideleg v).mideleg } ∧
    s.csrWrite .mie v = { s with mie := (s.csrWrite .mie v).mie } ∧
    s.csrWrite .satp v = { s with satp := (s.csrWrite .satp v).satp } ∧
    (∀ n, ∀ c ∈ [Csr.misa, .mcountinhibit, .mhpmevent n, .mhpmcounter n], s.csrWrite c v = s) ∧
    s.csrRead .cycle = s.mcycle ∧ s.csrRead .instret = s.minstret ∧ s.csrRead .time = s.mtime ∧
    s.csrRead .mvendorid = BitVec.ofNat 64 s.platform.vendorId.toNat ∧ s.csrRead .marchid = s.platform.archId ∧
    s.csrRead .mimpid = s.platform.impId ∧ s.csrRead .mhartid = s.platform.hartId ∧
    s.csrRead .mconfigptr = s.platform.configPtr

/-- Writes of `mip` and `sip` change only the bits their rules name, and of `mie` through `sie` only the delegated ones, and nothing
else of the state. -/
def Obligations.InterruptCsrWrites : Prop :=
  ∀ (s : State) (v : Word) (k : Nat),
    (s.csrWrite .mip v).mipModifyBase.getLsbD k =
      (if k = 1 ∨ k = 5 ∨ k = 9 then v.getLsbD k else s.mipModifyBase.getLsbD k) ∧
    (s.csrWrite .sip v).mipModifyBase.getLsbD k =
      (if k = 1 ∧ s.mideleg.getLsbD 1 = true then v.getLsbD 1 else s.mipModifyBase.getLsbD k) ∧
    (s.csrWrite .sie v).mie.getLsbD k = (if s.mideleg.getLsbD k then v.getLsbD k else s.mie.getLsbD k) ∧
    (s.csrRead .sip).getLsbD k = (s.mideleg.getLsbD k && s.mipRead.getLsbD k) ∧
    (s.csrRead .sie).getLsbD k = (s.mideleg.getLsbD k && s.mie.getLsbD k) ∧
    s.csrWrite .mip v = { s with mip := (s.csrWrite .mip v).mip } ∧
    s.csrWrite .sip v = { s with mip := { s.mip with ssip := (s.csrWrite .sip v).mip.ssip } } ∧
    s.csrWrite .sie v = { s with mie := (s.csrWrite .sie v).mie }

/-- 40_csr_instructions.md R221: an access to an address that the table of 10_state.md R34 does not list raises IllegalInstr with
the instruction's bits. -/
def Obligations.AbsentCsrsTrap : Prop :=
  ∀ (s : State) (i : Instr) (a : CsrAddr) (writes : Bool), csrForm i = some (a, writes) → a.toNat ∉ csrAddresses →
    raises i s .illegalInstr ((encode i).setWidth 64)

/-- 40_csr_instructions.md R222 and R223: an access from too low a mode, to `satp` under TVM, to a counter that is not enabled, or
a write (R224: by the form of the instruction) to a read-only CSR raises IllegalInstr; any other access completes, a read of a
read-only CSR among them. -/
def Obligations.ForbiddenCsrAccessesTrap : Prop :=
  ∀ (s : State) (i : Instr) (a : CsrAddr) (writes : Bool), csrForm i = some (a, writes) → a.toNat ∈ csrAddresses →
    (((privCode s.priv).toNat < a.toNat / 256 % 4 ∨
      (a = 0x180#12 ∧ s.priv = .supervisor ∧ s.mstatus.tvm = true) ∨
      (0xC00 ≤ a.toNat ∧ a.toNat ≤ 0xC1F ∧
        ((s.priv ≠ .machine ∧ s.mcounteren.getLsbD (a.toNat - 0xC00) = false) ∨
         (s.priv = .user ∧ s.scounteren.getLsbD (a.toNat - 0xC00) = false))) ∨
      (writes = true ∧ a.toNat / 1024 = 3)) →
      raises i s .illegalInstr ((encode i).setWidth 64)) ∧
    (csrLegal s a writes → ∃ t, exec i s = .next t ∧ t.pc = s.pc + 4 ∧ t.priv = s.priv)

/-- The six CSR instructions, where the access is legal: the old value into `rd`, the new value into the CSR when the form writes. The
new value of a set or clear form is computed from what the CSR reads as, but for bit 9 of `mip`, where it is the stored SEIP bit
(10_state.md R51); that the immediate forms do so as well is the model's inference (notes/assumptions/18.md). The address names the
CSR that the table of 10_state.md R34 gives it. -/
def Obligations.CsrInstructionsComplete : Prop :=
  (∀ r ∈ csrRows, csrOfAddr (BitVec.ofNat 12 r.1) = some r.2) ∧
  (∀ i : Fin 16, csrOfAddr (BitVec.ofNat 12 (0x3B0 + i.val)) = some (.pmpaddr i)) ∧
  (∀ n, 3 ≤ n → n ≤ 31 →
    csrOfAddr (BitVec.ofNat 12 (0x320 + n)) = some (.mhpmevent n) ∧
    csrOfAddr (BitVec.ofNat 12 (0xB00 + n)) = some (.mhpmcounter n) ∧
    csrOfAddr (BitVec.ofNat 12 (0xC00 + n)) = some (.hpmcounter n)) ∧
  ∀ (s : State) (rd rs1 : Reg) (uimm : BitVec 5) (a : CsrAddr),
    (csrLegal s a true → csrCompletes (.csrrw rd rs1 a) s rd a true (fun _ => s.readX rs1)) ∧
    (csrLegal s a (rs1 != 0#5) →
      csrCompletes (.csrrs rd rs1 a) s rd a (rs1 != 0#5) (fun t => t ||| s.readX rs1) ∧
      csrCompletes (.csrrc rd rs1 a) s rd a (rs1 != 0#5) (fun t => t &&& ~~~(s.readX rs1))) ∧
    (csrLegal s a true → csrCompletes (.csrrwi rd uimm a) s rd a true (fun _ => BitVec.ofNat 64 uimm.toNat)) ∧
    (csrLegal s a (uimm != 0#5) →
      csrCompletes (.csrrsi rd uimm a) s rd a (uimm != 0#5) (fun t => t ||| BitVec.ofNat 64 uimm.toNat) ∧
      csrCompletes (.csrrci rd uimm a) s rd a (uimm != 0#5) (fun t => t &&& ~~~(BitVec.ofNat 64 uimm.toNat))) ∧
    (∀ c : Csr, c ≠ .mip → s.csrModifyBase c = s.csrRead c) ∧
    (∀ k : Nat, (s.csrModifyBase .mip).getLsbD k = (if k = 9 then s.mip.seip else (s.csrRead .mip).getLsbD k))

/-! ## Protection -/

/-- Writes of the PMP registers: each entry on its own, a locked one never, W without R never; a `pmpaddr` not while its entry, or a
TOR entry after it, is locked; nothing else changes. The fields of an entry are the bits of its byte (10_state.md R60). -/
def Obligations.PmpRegisterWrites : Prop :=
  ∀ (s : State) (v : Word) (i : Fin 16),
    (∀ (c : Csr) (half : Nat), (c = .pmpcfg0 ∧ half = 0 ∨ c = .pmpcfg2 ∧ half = 8) →
      ∀ (old new : PmpCfg) (b : Byte), old = s.pmpcfg[i] → new = (s.csrWrite c v).pmpcfg[i] →
        b = v.extractLsb' (8 * (i.val - half)) 8 →
        (half ≤ i.val → i.val < half + 8 →
          (s.csrRead c).extractLsb' (8 * (i.val - half)) 8 = old.read ∧ pmpFieldsOf old old.read ∧
          (old.l = true ∨ (b.getLsbD 0 = false ∧ b.getLsbD 1 = true) → new = old) ∧
          (old.l = false → (b.getLsbD 0 = true ∨ b.getLsbD 1 = false) → 
            new.read = b &&& 0x9F ∧ pmpFieldsOf new b)) ∧
        ((i.val < half ∨ half + 8 ≤ i.val) → new = old)) ∧
    ((s.csrWrite (.pmpaddr i) v).csrRead (.pmpaddr i)).toNat =
      (if s.pmpcfg[i].l = true ∨ (∃ c, s.pmpcfg[i.val + 1]? = some c ∧ c.l = true ∧ c.a = .tor)
       then (s.csrRead (.pmpaddr i)).toNat else v.toNat % 2 ^ 54) ∧
    (∀ j : Fin 16, j ≠ i → (s.csrWrite (.pmpaddr i) v).csrRead (.pmpaddr j) = s.csrRead (.pmpaddr j)) ∧
    s.csrWrite .pmpcfg0 v = { s with pmpcfg := (s.csrWrite .pmpcfg0 v).pmpcfg } ∧
    s.csrWrite .pmpcfg2 v = { s with pmpcfg := (s.csrWrite .pmpcfg2 v).pmpcfg } ∧
    s.csrWrite (.pmpaddr i) v = { s with pmpaddr := (s.csrWrite (.pmpaddr i) v).pmpaddr }

/-- 20_memory.md R133: which bytes are in the region of entry `i`, by its matching mode, its address register and the one before;
a TOR entry is empty when the one before is not below it, whatever that entry's own mode. -/
def Obligations.PmpRegions : Prop :=
  ∀ (s : State) (i : Fin 16) (Q P : BitVec 54) (y : Nat), P = s.pmpaddr[i] → (i.val = 0 → Q = 0) →
    (∀ j : Fin 16, j.val + 1 = i.val → Q = s.pmpaddr[j]) →
    (s.pmpcfg[i].a = .off → s.pmpHas i y = false) ∧
    (s.pmpcfg[i].a = .tor → (s.pmpHas i y = true ↔ Q.toNat ≤ y / 4 ∧ y / 4 < P.toNat)) ∧
    (s.pmpcfg[i].a = .na4 → (s.pmpHas i y = true ↔ y / 4 = P.toNat)) ∧
    (s.pmpcfg[i].a = .napot →
      (∀ k, k < 54 → (∀ j, j < k → P.getLsbD j = true) → P.getLsbD k = false →
        (s.pmpHas i y = true ↔ y / 4 / 2 ^ (k + 1) = P.toNat / 2 ^ (k + 1))) ∧
      (P = BitVec.allOnes 54 → y < 2 ^ 56 → s.pmpHas i y = true))

/-- 20_memory.md R135 and R136: the lowest-numbered entry that has a byte of the access decides it. -/
def Obligations.PmpCheckDecides : Prop :=
  ∀ (s : State) (pa n : Nat) (acc : Access) (p : Priv), 0 < n →
    (s.pmpCheck pa n acc p = true ↔
      (p = .machine ∧ ∀ (i : Fin 16) (y : Nat), pa ≤ y → y < pa + n → s.pmpHas i y = false) ∨
      ∃ i : Fin 16, (∀ (j : Fin 16) (y : Nat), j < i → pa ≤ y → y < pa + n → s.pmpHas j y = false) ∧
        (∀ y, pa ≤ y → y < pa + n → s.pmpHas i y = true) ∧
        ((p = .machine ∧ s.pmpcfg[i].l = false) ∨
          (match acc with
            | .fetch => s.pmpcfg[i].x
            | .load => s.pmpcfg[i].r
            | .store => s.pmpcfg[i].w) = true)) ∧
    ((∀ i : Fin 16, s.pmpcfg[i].a = .off) → (s.pmpCheck pa n acc p = true ↔ p = .machine))

/-- A locked PMP entry stays as it is through every step: its configuration, its address, and, for a TOR entry, the address below. -/
def Obligations.LockedPmpEntriesStay : Prop :=
  ∀ (s t : State) (i : Fin 16), step s = .next t → s.pmpcfg[i].l = true →
    t.pmpcfg[i] = s.pmpcfg[i] ∧ t.pmpaddr[i] = s.pmpaddr[i] ∧
    (s.pmpcfg[i].a = .tor → ∀ j : Fin 16, j.val + 1 = i.val → t.pmpaddr[j] = s.pmpaddr[j])

/-! ## Translation and the access path -/

/-- Translation in Sv39, Sv48 and Sv57, by the bits of the entries in memory (20_memory.md R142 to R150): an address that is not
canonical raises the page fault; a kept translation (R150) is used as it is, its permission checked now, and a kept access fault only
while its page-table read is still refused (R164; notes/assumptions/7.md); without one, at each level
the walk comes to, a refused page-table read raises the access fault, a valid leaf that permits the access gives its page, superpages
of every level included, and every other entry that is no pointer to a next level raises the page fault. -/
def Obligations.PageTablesTranslate : Prop :=
  ∀ (s : State) (acc : Access) (p : Priv) (va : Word), s.satp.mode ≠ .bare → p ≠ .machine →
    (¬ canonicalFor s.satp.mode va → failsWith (s.translate acc p va) (pageFaultCode acc) va) ∧
    (canonicalFor s.satp.mode va →
      (∀ e, s.tlbPick (s.choiceFor acc).1 va = some e →
        (e.result = .pageFault → failsWith (s.translate acc p va) (pageFaultCode acc) va) ∧
        (∀ entry, e.result = .accessFault entry → ¬ s.mayAccess entry 8 .load .supervisor ∧
          failsWith (s.translate acc p va) (accessFaultCode acc) va) ∧
        ∀ i pte, e.result = .leaf i pte →
          (s.leafGrants acc p pte → s.translate acc p va = .ok (leafTarget i pte va)) ∧
          (¬ s.leafGrants acc p pte → failsWith (s.translate acc p va) (pageFaultCode acc) va)) ∧
      (s.tlbPick (s.choiceFor acc).1 va = none → ∀ i a, WalkReaches s va i a →
        (¬ s.mayAccess (entryAddr a va i) 8 .load .supervisor →
          failsWith (s.translate acc p va) (accessFaultCode acc) va) ∧
        ∀ pte, s.entryAt (entryAddr a va i) pte → ¬ (entryPoints pte ∧ 0 < i) →
          (leafValid i pte ∧ s.leafGrants acc p pte → s.translate acc p va = .ok (leafTarget i pte va)) ∧
          (¬ (leafValid i pte ∧ s.leafGrants acc p pte) → failsWith (s.translate acc p va) (pageFaultCode acc) va)))

/-- An access that translation lets through went through the leaf entry that was kept or that the walk found; it permits the access,
and the physical address has 56 bits and the offset of the virtual one. A kept entry covers the addresses of its page, superpages
included, and is global when its leaf has G = 1. -/
def Obligations.TranslationChecksTheLeaf : Prop :=
  (∀ (e : TlbEntry) (va : Word), e.isFor va) ∧
  ∀ (s : State) (acc : Access) (p : Priv) (va : Word) (pa : Nat), s.Good → s.satp.mode ≠ .bare →
    s.translate acc p va = .ok pa →
    ∃ (level : Nat) (pte : Word),
      ((∃ e ∈ s.tlb, e.covers va = true ∧ (e.isGlobal = true ∨ e.asid = s.satp.asid) ∧ e.result = .leaf level pte) ∨
        s.walk (s.choiceFor acc).2 va = .leaf level pte) ∧
      pa = leafAddr level pte va ∧ pa < 2 ^ 56 ∧ pa % 4096 = va.toNat % 4096 ∧
      pte.getLsbD 0 = true ∧ pte.getLsbD 6 = true ∧
      (acc = .fetch → pte.getLsbD 3 = true) ∧
      (acc = .load → pte.getLsbD 1 = true ∨ (s.mstatus.mxr = true ∧ pte.getLsbD 3 = true)) ∧
      (acc = .store → pte.getLsbD 2 = true ∧ pte.getLsbD 7 = true) ∧
      (p = .user → pte.getLsbD 4 = true) ∧
      (p = .supervisor → (acc = .fetch ∨ s.mstatus.sum = false) → pte.getLsbD 4 = false)

/-- A load or store: misalignment before all else; then without translation the access fault exactly where PMP or PMA refuses the
address, and the address itself where both allow it; with translation the exception it raises, or the same of the address it gives
(R127, R130, R138 of 20_memory.md). The privilege is MPP under MPRV. A fetch goes the same way with the current mode. -/
def Obligations.DataAccessFaults : Prop :=
  ∀ (s : State) (acc : Access) (va : Word) (n : Nat),
    (va.toNat % n ≠ 0 → failsWith (s.dataAddr acc va n) (misalignedCode acc) va) ∧
    (va.toNat % n = 0 →
      s.pathAnswers acc (if s.mstatus.mprv then s.mstatus.mpp else s.priv) va n (s.dataAddr acc va n)) ∧
    s.pathAnswers .fetch s.priv s.pc 4 s.fetchAddr ∧
    (∀ pa, s.dataAddr acc va n = .ok pa →
      va.toNat % n = 0 ∧ s.mayAccess pa n acc (if s.mstatus.mprv then s.mstatus.mpp else s.priv))

/-- In M-mode with MPRV = 0 and every PMP entry OFF, an aligned access inside a region that has its attribute is made at the virtual
address itself. -/
def Obligations.PlainMachineAccess : Prop :=
  ∀ (s : State) (acc : Access) (va : Word) (n : Nat) (r : Region), s.priv = .machine → s.mstatus.mprv = false →
    (∀ i : Fin 16, s.pmpcfg[i].a = .off) → va.toNat % n = 0 → r ∈ s.platform.pma → r.base ≤ va.toNat →
    va.toNat + n ≤ r.base + r.size → va.toNat + n ≤ 2 ^ 56 →
    (match acc with
      | .fetch => r.executable
      | .load => r.readable
      | .store => r.writable) = true →
    s.dataAddr acc va n = .ok va.toNat

/-! ## Loads and stores -/

/-- Every load, where its access is allowed: the bytes at the address, little-endian, extended as the form says; in main memory
nothing else changes. -/
def Obligations.LoadsComplete : Prop :=
  ∀ (s : State) (i : Instr) (rd rs1 : Reg) (imm : BitVec 12) (n : Nat) (signed : Bool) (pa v : Nat),
    loadForm i = some (rd, rs1, imm, n, signed) → s.dataAddr .load (s.effectiveAddr rs1 imm) n = .ok pa →
    v = littleEndian ((addressesFrom pa n).map (s.readPhysByte 0)) →
    ∃ log, completesOver i s { s with deviceLog := log } rd
        (if signed then BitVec.ofInt 64 (Int.bmod v (2 ^ (8 * n))) else BitVec.ofNat 64 v) (s.pc + 4) ∧
      (allMainMemory s.platform pa n →
        log = s.deviceLog ∧ v = littleEndian ((addressesFrom pa n).map (Memory.read s.mem)))

/-- Every store, where its access is allowed: its bytes at the address, every other byte of memory as before, no register
written; in main memory no device is touched, in device space no memory; only a store over the first byte of the MSIP word changes
an interrupt input, and only its, and only one over `mtimecmp` changes that. The model's choices are: that a store of any width goes
to the MSIP word byte by byte (notes/assumptions/10.md), that device space holds no bytes of memory (9.md), and what a mapped
`mtimecmp` takes (11.md). What a later fetch of a stored byte may give is what it might give before and the byte
stored, and of every other byte what it might give before (20_memory.md R163). -/
def Obligations.StoresComplete : Prop :=
  ∀ (s : State) (i : Instr) (rs1 rs2 : Reg) (imm : BitVec 12) (n pa : Nat),
    storeForm i = some (rs1, rs2, imm, n) → s.dataAddr .store (s.effectiveAddr rs1 imm) n = .ok pa →
    ∃ t, exec i s = .next t ∧ sameRegs s t ∧ t.pc = s.pc + 4 ∧ t.minstret = s.minstret + 1 ∧
      (∀ a, ¬ (pa ≤ a ∧ a < pa + n) → Memory.read t.mem a = Memory.read s.mem a) ∧
      (Memory.wf s.mem = true → ∀ k, k < n → isMainMemory s.platform (pa + k) = true →
        (Memory.read t.mem (pa + k)).toNat = (s.readX rs2).toNat / 256 ^ k % 256) ∧
      (∀ k, k < n → staleCandidates t.fetchStale (pa + k) ≠ []) ∧
      (staleWf s.fetchStale = true → ∀ k, k < n → isMainMemory s.platform (pa + k) = true → ∀ b : Byte,
        (b ∈ staleCandidates t.fetchStale (pa + k) ↔
          b.toNat = (s.readX rs2).toNat / 256 ^ k % 256 ∨ b ∈ staleCandidates s.fetchStale (pa + k) ∨
          (staleCandidates s.fetchStale (pa + k) = [] ∧ b = Memory.read s.mem (pa + k)))) ∧
      (∀ a, ¬ (pa ≤ a ∧ a < pa + n) → staleCandidates t.fetchStale a = staleCandidates s.fetchStale a) ∧
      t = { s with mem := t.mem, fetchStale := t.fetchStale, irqIn := t.irqIn, mtimecmp := t.mtimecmp,
                   deviceLog := t.deviceLog, pc := t.pc, minstret := t.minstret } ∧
      (∀ k, k < n → isMainMemory s.platform (pa + k) = false →
        Memory.read t.mem (pa + k) = Memory.read s.mem (pa + k)) ∧
      t.irqIn = { s.irqIn with msi := t.irqIn.msi } ∧
      ((∀ m, s.platform.msipAddr = some m →
          ¬ (pa ≤ m + 4 * s.platform.hartId.toNat ∧ m + 4 * s.platform.hartId.toNat < pa + n)) → t.irqIn = s.irqIn) ∧
      ((∀ c, s.platform.mtimecmpAddr = some c → pa + n ≤ c ∨ c + 8 ≤ pa) → t.mtimecmp = s.mtimecmp) ∧
      (allMainMemory s.platform pa n →
        t.irqIn = s.irqIn ∧ t.mtimecmp = s.mtimecmp ∧ t.deviceLog = s.deviceLog)

/-- A load of the same width from the address just stored to gives the value stored, in main memory without translation. -/
def Obligations.LoadAfterStore : Prop :=
  ∀ (s : State) (rd rs1 rs2 : Reg) (imm : BitVec 12) (pa : Nat), Memory.wf s.mem = true →
    s.translates s.effectivePriv = false → allMainMemory s.platform pa 8 →
    s.dataAddr .store (s.effectiveAddr rs1 imm) 8 = .ok pa → s.dataAddr .load (s.effectiveAddr rs1 imm) 8 = .ok pa →
    ∃ t u, exec (.sd rs1 rs2 imm) s = .next t ∧ exec (.ld rd rs1 imm) t = .next u ∧
      u.readX rd = (if rd = 0 then 0 else s.readX rs2)

/-- 20_memory.md R123: a misaligned load or store raises cause 4 or 6 with its address, before translation and protection, and
accesses nothing. -/
def Obligations.MisalignedAccessesTrap : Prop :=
  ∀ (s : State) (i : Instr),
    (∀ rd rs1 imm n signed, loadForm i = some (rd, rs1, imm, n, signed) → (s.effectiveAddr rs1 imm).toNat % n ≠ 0 →
      raises i s .loadAddrMisaligned (s.effectiveAddr rs1 imm) ∧ ∀ t, exec i s = .next t → sameMem s t ∧ sameRegs s t) ∧
    (∀ rs1 rs2 imm n, storeForm i = some (rs1, rs2, imm, n) → (s.effectiveAddr rs1 imm).toNat % n ≠ 0 →
      raises i s .storeAddrMisaligned (s.effectiveAddr rs1 imm) ∧ ∀ t, exec i s = .next t → sameMem s t ∧ sameRegs s t)

/-- A load or store whose access raises takes that trap and has no other effect. -/
def Obligations.FaultingAccessesTrap : Prop :=
  ∀ (s : State) (i : Instr) (e : Exn),
    (∀ rd rs1 imm n signed, loadForm i = some (rd, rs1, imm, n, signed) →
      s.dataAddr .load (s.effectiveAddr rs1 imm) n = .error e → raises i s e.cause e.tval) ∧
    (∀ rs1 rs2 imm n, storeForm i = some (rs1, rs2, imm, n) →
      s.dataAddr .store (s.effectiveAddr rs1 imm) n = .error e → raises i s e.cause e.tval)

/-- A 4-byte store to the hart's MSIP word sets `irq_in.msi` to bit 0 of the value, leaves the other inputs and `mtimecmp`,
and stores nothing in memory; a 4-byte load reads that bit zero-extended. That this holds whatever kind of region the word lies in, and before MTIME and `mtimecmp` where they overlap
it, is the model's choice (notes/assumptions/20.md). -/
def Obligations.MsipWord : Prop :=
  ∀ (s : State) (rd rs1 rs2 : Reg) (imm : BitVec 12) (m : Nat), s.platform.msipAddr = some m →
    (s.dataAddr .store (s.effectiveAddr rs1 imm) 4 = .ok (m + 4 * s.platform.hartId.toNat) →
      ∃ t, exec (.sw rs1 rs2 imm) s = .next t ∧ t.irqIn.msi = (s.readX rs2).getLsbD 0 ∧
        t.mipRead.getLsbD 3 = (s.readX rs2).getLsbD 0 ∧ t.mem = s.mem ∧
        t.irqIn = { s.irqIn with msi := t.irqIn.msi } ∧ t.mtimecmp = s.mtimecmp) ∧
    (s.dataAddr .load (s.effectiveAddr rs1 imm) 4 = .ok (m + 4 * s.platform.hartId.toNat) →
      ∃ t, exec (.lw rd rs1 imm) s = .next t ∧ t.readX rd = (if rd ≠ 0 ∧ s.irqIn.msi = true then 1 else 0))

/-- `fence` changes nothing; `fence.i` empties `fetch_stale`; both complete in every mode. -/
def Obligations.FencesComplete : Prop :=
  ∀ (s : State) (fm pred succ : BitVec 4),
    completesPlain (.fence fm pred succ) s s (s.pc + 4) ∧ completesPlain .fenceI s { s with fetchStale := [] } (s.pc + 4)

/-- The fetch of a byte that is not in `fetch_stale` gives what the byte reads as, in main memory what memory holds; the fetch of one of
main memory that is in it gives one of the values noted for it (`StoresComplete` says which a store notes), where 20_memory.md R163
has the fetch unspecified: the free choice among them is the model's (notes/assumptions/8.md). After `fence.i` a fetch gives what
memory holds. -/
def Obligations.FetchSeesOldOrNewBytes : Prop :=
  ∀ (s : State) (a : Nat),
    (staleCandidates s.fetchStale a = [] → s.fetchByte a = s.readPhysByte 1 a) ∧
    (isMainMemory s.platform a = true →
      (staleCandidates s.fetchStale a = [] → s.fetchByte a = Memory.read s.mem a) ∧
      (staleCandidates s.fetchStale a ≠ [] → s.fetchByte a ∈ staleCandidates s.fetchStale a) ∧
      (∃ t, exec .fenceI s = .next t ∧ t.fetchByte a = Memory.read s.mem a))

/-! ## Integer computational instructions -/

/-- `lui` and `auipc`: the 20 bits times 4096 as a signed number, alone or added to the instruction's address. -/
def Obligations.UpperImmediates : Prop :=
  ∀ (s : State) (rd : Reg) (imm : BitVec 20),
    completes (.lui rd imm) s rd (BitVec.ofInt 64 (imm.toInt * 4096)) (s.pc + 4) ∧
    completes (.auipc rd imm) s rd (BitVec.ofInt 64 (s.pc.toInt + imm.toInt * 4096)) (s.pc + 4)

/-- OP-IMM without the shifts: each with the sign-extended immediate. -/
def Obligations.ImmediateOperations : Prop :=
  ∀ (s : State) (rd rs1 : Reg) (imm : BitVec 12) (x y : Word), x = s.readX rs1 → y = BitVec.ofInt 64 imm.toInt →
    completes (.addi rd rs1 imm) s rd (BitVec.ofInt 64 (x.toInt + imm.toInt)) (s.pc + 4) ∧
    completes (.slti rd rs1 imm) s rd (if x.toInt < imm.toInt then 1 else 0) (s.pc + 4) ∧
    completes (.sltiu rd rs1 imm) s rd (if x.toNat < y.toNat then 1 else 0) (s.pc + 4) ∧
    completes (.xori rd rs1 imm) s rd (x ^^^ y) (s.pc + 4) ∧
    completes (.ori rd rs1 imm) s rd (x ||| y) (s.pc + 4) ∧
    completes (.andi rd rs1 imm) s rd (x &&& y) (s.pc + 4)

/-- Shifts by an immediate and by the low 6 bits of a register, as arithmetic on numbers. -/
def Obligations.Shifts : Prop :=
  ∀ (s : State) (rd rs1 rs2 : Reg) (shamt : BitVec 6) (x : Word) (n : Nat), x = s.readX rs1 →
    n = (s.readX rs2).toNat % 64 →
    completes (.slli rd rs1 shamt) s rd (BitVec.ofNat 64 (x.toNat * 2 ^ shamt.toNat)) (s.pc + 4) ∧
    completes (.srli rd rs1 shamt) s rd (BitVec.ofNat 64 (x.toNat / 2 ^ shamt.toNat)) (s.pc + 4) ∧
    completes (.srai rd rs1 shamt) s rd (BitVec.ofInt 64 (x.toInt / 2 ^ shamt.toNat)) (s.pc + 4) ∧
    completes (.sll rd rs1 rs2) s rd (BitVec.ofNat 64 (x.toNat * 2 ^ n)) (s.pc + 4) ∧
    completes (.srl rd rs1 rs2) s rd (BitVec.ofNat 64 (x.toNat / 2 ^ n)) (s.pc + 4) ∧
    completes (.sra rd rs1 rs2) s rd (BitVec.ofInt 64 (x.toInt / 2 ^ n)) (s.pc + 4)

/-- OP without the shifts. -/
def Obligations.RegisterOperations : Prop :=
  ∀ (s : State) (rd rs1 rs2 : Reg) (x y : Word), x = s.readX rs1 → y = s.readX rs2 →
    completes (.add rd rs1 rs2) s rd (BitVec.ofInt 64 (x.toInt + y.toInt)) (s.pc + 4) ∧
    completes (.sub rd rs1 rs2) s rd (BitVec.ofInt 64 (x.toInt - y.toInt)) (s.pc + 4) ∧
    completes (.slt rd rs1 rs2) s rd (if x.toInt < y.toInt then 1 else 0) (s.pc + 4) ∧
    completes (.sltu rd rs1 rs2) s rd (if x.toNat < y.toNat then 1 else 0) (s.pc + 4) ∧
    completes (.xor rd rs1 rs2) s rd (x ^^^ y) (s.pc + 4) ∧
    completes (.or rd rs1 rs2) s rd (x ||| y) (s.pc + 4) ∧
    completes (.and rd rs1 rs2) s rd (x &&& y) (s.pc + 4)

/-- The W instructions: the low 32 bits of the result, as a signed number (`Int.bmod` by 2^32), in 64 bits. -/
def Obligations.WordOperations : Prop :=
  ∀ (s : State) (rd rs1 rs2 : Reg) (imm : BitVec 12) (shamt : BitVec 5) (x y : Word) (n : Nat),
    x = s.readX rs1 → y = s.readX rs2 → n = y.toNat % 32 →
    completes (.addiw rd rs1 imm) s rd (BitVec.ofInt 64 (Int.bmod (x.toInt + imm.toInt) (2 ^ 32))) (s.pc + 4) ∧
    completes (.addw rd rs1 rs2) s rd (BitVec.ofInt 64 (Int.bmod (x.toInt + y.toInt) (2 ^ 32))) (s.pc + 4) ∧
    completes (.subw rd rs1 rs2) s rd (BitVec.ofInt 64 (Int.bmod (x.toInt - y.toInt) (2 ^ 32))) (s.pc + 4) ∧
    completes (.slliw rd rs1 shamt) s rd (BitVec.ofInt 64 (Int.bmod (x.toNat * 2 ^ shamt.toNat) (2 ^ 32))) (s.pc + 4) ∧
    completes (.sllw rd rs1 rs2) s rd (BitVec.ofInt 64 (Int.bmod (x.toNat * 2 ^ n) (2 ^ 32))) (s.pc + 4) ∧
    completes (.srliw rd rs1 shamt) s rd
      (BitVec.ofInt 64 (Int.bmod (x.toNat % 2 ^ 32 / 2 ^ shamt.toNat) (2 ^ 32))) (s.pc + 4) ∧
    completes (.srlw rd rs1 rs2) s rd (BitVec.ofInt 64 (Int.bmod (x.toNat % 2 ^ 32 / 2 ^ n) (2 ^ 32))) (s.pc + 4) ∧
    completes (.sraiw rd rs1 shamt) s rd (BitVec.ofInt 64 (Int.bmod x.toNat (2 ^ 32) / 2 ^ shamt.toNat)) (s.pc + 4) ∧
    completes (.sraw rd rs1 rs2) s rd (BitVec.ofInt 64 (Int.bmod x.toNat (2 ^ 32) / 2 ^ n)) (s.pc + 4)

/-! ## Control transfer -/

/-- Jumps to an aligned target: the link into `rd`, `pc` at the target, the sum of `jalr` with bit 0 cleared. -/
def Obligations.JumpsComplete : Prop :=
  ∀ (s : State) (rd rs1 : Reg) (offset : BitVec 21) (imm : BitVec 12) (t u : Word),
    t = BitVec.ofInt 64 (s.pc.toInt + offset.toInt) → u = BitVec.ofNat 64 ((s.readX rs1 + immValue imm).toNat / 2 * 2) →
    (t.toNat % 4 = 0 → completes (.jal rd offset) s rd (s.pc + 4) t) ∧
    (u.toNat % 4 = 0 → completes (.jalr rd rs1 imm) s rd (s.pc + 4) u)

/-- The six branches: taken to an aligned target by their condition, else to the next instruction; nothing else changes. -/
def Obligations.BranchesComplete : Prop :=
  ∀ (s : State) (i : Instr) (rs1 rs2 : Reg) (offset : BitVec 13) (taken : Word → Word → Bool) (t : Word),
    branchForm i = some (rs1, rs2, offset, taken) → t = BitVec.ofInt 64 (s.pc.toInt + offset.toInt) →
    (taken (s.readX rs1) (s.readX rs2) = true → t.toNat % 4 = 0 → completesPlain i s s t) ∧
    (taken (s.readX rs1) (s.readX rs2) = false → completesPlain i s s (s.pc + 4))

/-- 43_control_transfer.md R311: a jump, or a branch whose condition is true, to a target that is not a multiple of 4 raises cause 0
with the target; a branch whose condition is false never raises; only bit 1 of a target can be wrong. -/
def Obligations.MisalignedTargetsTrap : Prop :=
  (∀ (s : State) (i : Instr) (t : Word), transferTarget s i = some t → t.toNat % 4 ≠ 0 →
    raises i s .instrAddrMisaligned t ∧ ∀ u, exec i s = .next u → sameRegs s u) ∧
  (∀ (s : State) (i : Instr), branchForm i ≠ none → transferTarget s i = none → completesPlain i s s (s.pc + 4)) ∧
  (∀ (s : State) (i : Instr) (t : Word), i.wellFormed = true → s.pc.toNat % 4 = 0 → transferTarget s i = some t →
    t.toNat % 2 = 0)

/-! ## Rules of the whole machine -/

/-- The mode changes only by a trap, never to a lower one, and by `mret` and `sret`, never to a higher one. -/
def Obligations.ModeChangesOnlyByTrapsAndReturns : Prop :=
  ∀ (i : Instr) (s t : State), exec i s = .next t →
    t.priv = s.priv ∨
    ((privCode s.priv).toNat < (privCode t.priv).toNat ∧ ∃ c tval, t = s.trap false (causeCode c) s.pc tval) ∨
    (i = .mret ∧ s.priv = .machine ∧ t.priv = s.mstatus.mpp) ∨
    (i = .sret ∧ s.priv ≠ .user ∧ (privCode t.priv).toNat ≤ (privCode s.priv).toNat)

/-- A step that begins and ends below M-mode leaves all machine-level state as it was; one that begins and ends in U-mode leaves the
supervisor-level state as it was too. -/
def Obligations.LowerModesCannotChangeHigherState : Prop :=
  ∀ s t : State, s.Good → step s = .next t →
    (s.priv ≠ .machine → t.priv ≠ .machine → sameMachineLevel s t) ∧
    (s.priv = .user → t.priv = .user → sameSupervisorLevel s t)

/-- In part the model's choice (notes/assumptions/11.md): no instruction changes MTIME, a store at a mapped MTIME_ADDR included. Of the
instructions only stores change memory or the platform's registers, and only stores and `fence.i` change
`fetch_stale`; none changes the platform, the environment's inputs to come, or the timer. -/
def Obligations.OnlyStoresWriteMemory : Prop :=
  ∀ (i : Instr) (s t : State), exec i s = .next t →
    (storeForm i = none → t.mem = s.mem ∧ t.irqIn = s.irqIn ∧ t.mtimecmp = s.mtimecmp ∧
      (t.fetchStale = s.fetchStale ∨ (i = .fenceI ∧ t.fetchStale = []))) ∧
    t.platform = s.platform ∧ t.env = s.env ∧ t.mtime = s.mtime ∧ t.draws = s.draws

/-- `minstret` after an instruction (10_state.md R62): a trap leaves it, a completion that is no write of `minstret` adds 1, and a
legal write of it leaves the value written. -/
def Obligations.MinstretCountsCompletions : Prop :=
  ∀ (i : Instr) (s t : State), exec i s = .next t →
    (∀ c tval, raises i s c tval → t.minstret = s.minstret) ∧
    ((∀ c tval, ¬ raises i s c tval) → csrForm i ≠ some (0xB02#12, true) → t.minstret = s.minstret + 1) ∧
    (csrForm i = some (0xB02#12, true) → csrLegal s 0xB02#12 true → t.minstret = csrNewValue s s.minstret i)

end Statements
end

