-- ==== Sys2Proof/Laws/State.lean ====
section
/-! SUPPORT. One lemma per field per update of the state, so that no proof unfolds a record update. -/

namespace Sys2Proof.Machine

variable (s : State)

@[simp] theorem State.retire_eq : s.retire = s.retireTo (s.pc + 4) := rfl
@[simp] theorem State.writeBack_eq (rd : Reg) (v : Word) : s.writeBack rd v = (s.setX rd v).retire := rfl
@[simp] theorem State.raise_eq (e : Exn) : s.raise e = s.trap false (causeCode e.cause) s.pc e.tval := rfl


/-! ## setX -/

/-- A write of a general register changes `x` alone. -/
theorem State.setX_frame (r : Reg) (v : Word) : s.setX r v = { s with x := (s.setX r v).x } := by
  unfold State.setX; split <;> rfl

@[simp] theorem State.setX_pc (r : Reg) (v : Word) : (s.setX r v).pc = s.pc := (congrArg State.pc (s.setX_frame r v)).trans rfl
@[simp] theorem State.setX_priv (r : Reg) (v : Word) : (s.setX r v).priv = s.priv := (congrArg State.priv (s.setX_frame r v)).trans rfl
@[simp] theorem State.setX_mstatus (r : Reg) (v : Word) : (s.setX r v).mstatus = s.mstatus := (congrArg State.mstatus (s.setX_frame r v)).trans rfl
@[simp] theorem State.setX_medeleg (r : Reg) (v : Word) : (s.setX r v).medeleg = s.medeleg := (congrArg State.medeleg (s.setX_frame r v)).trans rfl
@[simp] theorem State.setX_mideleg (r : Reg) (v : Word) : (s.setX r v).mideleg = s.mideleg := (congrArg State.mideleg (s.setX_frame r v)).trans rfl
@[simp] theorem State.setX_mie (r : Reg) (v : Word) : (s.setX r v).mie = s.mie := (congrArg State.mie (s.setX_frame r v)).trans rfl
@[simp] theorem State.setX_mip (r : Reg) (v : Word) : (s.setX r v).mip = s.mip := (congrArg State.mip (s.setX_frame r v)).trans rfl
@[simp] theorem State.setX_mtvec (r : Reg) (v : Word) : (s.setX r v).mtvec = s.mtvec := (congrArg State.mtvec (s.setX_frame r v)).trans rfl
@[simp] theorem State.setX_stvec (r : Reg) (v : Word) : (s.setX r v).stvec = s.stvec := (congrArg State.stvec (s.setX_frame r v)).trans rfl
@[simp] theorem State.setX_mepc (r : Reg) (v : Word) : (s.setX r v).mepc = s.mepc := (congrArg State.mepc (s.setX_frame r v)).trans rfl
@[simp] theorem State.setX_sepc (r : Reg) (v : Word) : (s.setX r v).sepc = s.sepc := (congrArg State.sepc (s.setX_frame r v)).trans rfl
@[simp] theorem State.setX_mcause (r : Reg) (v : Word) : (s.setX r v).mcause = s.mcause := (congrArg State.mcause (s.setX_frame r v)).trans rfl
@[simp] theorem State.setX_scause (r : Reg) (v : Word) : (s.setX r v).scause = s.scause := (congrArg State.scause (s.setX_frame r v)).trans rfl
@[simp] theorem State.setX_mtval (r : Reg) (v : Word) : (s.setX r v).mtval = s.mtval := (congrArg State.mtval (s.setX_frame r v)).trans rfl
@[simp] theorem State.setX_stval (r : Reg) (v : Word) : (s.setX r v).stval = s.stval := (congrArg State.stval (s.setX_frame r v)).trans rfl
@[simp] theorem State.setX_mscratch (r : Reg) (v : Word) : (s.setX r v).mscratch = s.mscratch := (congrArg State.mscratch (s.setX_frame r v)).trans rfl
@[simp] theorem State.setX_sscratch (r : Reg) (v : Word) : (s.setX r v).sscratch = s.sscratch := (congrArg State.sscratch (s.setX_frame r v)).trans rfl
@[simp] theorem State.setX_mcounteren (r : Reg) (v : Word) : (s.setX r v).mcounteren = s.mcounteren := (congrArg State.mcounteren (s.setX_frame r v)).trans rfl
@[simp] theorem State.setX_scounteren (r : Reg) (v : Word) : (s.setX r v).scounteren = s.scounteren := (congrArg State.scounteren (s.setX_frame r v)).trans rfl
@[simp] theorem State.setX_mcycle (r : Reg) (v : Word) : (s.setX r v).mcycle = s.mcycle := (congrArg State.mcycle (s.setX_frame r v)).trans rfl
@[simp] theorem State.setX_minstret (r : Reg) (v : Word) : (s.setX r v).minstret = s.minstret := (congrArg State.minstret (s.setX_frame r v)).trans rfl
@[simp] theorem State.setX_satp (r : Reg) (v : Word) : (s.setX r v).satp = s.satp := (congrArg State.satp (s.setX_frame r v)).trans rfl
@[simp] theorem State.setX_pmpcfg (r : Reg) (v : Word) : (s.setX r v).pmpcfg = s.pmpcfg := (congrArg State.pmpcfg (s.setX_frame r v)).trans rfl
@[simp] theorem State.setX_pmpaddr (r : Reg) (v : Word) : (s.setX r v).pmpaddr = s.pmpaddr := (congrArg State.pmpaddr (s.setX_frame r v)).trans rfl
@[simp] theorem State.setX_mem (r : Reg) (v : Word) : (s.setX r v).mem = s.mem := (congrArg State.mem (s.setX_frame r v)).trans rfl
@[simp] theorem State.setX_tlb (r : Reg) (v : Word) : (s.setX r v).tlb = s.tlb := (congrArg State.tlb (s.setX_frame r v)).trans rfl
@[simp] theorem State.setX_fetchStale (r : Reg) (v : Word) : (s.setX r v).fetchStale = s.fetchStale := (congrArg State.fetchStale (s.setX_frame r v)).trans rfl
@[simp] theorem State.setX_waiting (r : Reg) (v : Word) : (s.setX r v).waiting = s.waiting := (congrArg State.waiting (s.setX_frame r v)).trans rfl
@[simp] theorem State.setX_irqIn (r : Reg) (v : Word) : (s.setX r v).irqIn = s.irqIn := (congrArg State.irqIn (s.setX_frame r v)).trans rfl
@[simp] theorem State.setX_mtime (r : Reg) (v : Word) : (s.setX r v).mtime = s.mtime := (congrArg State.mtime (s.setX_frame r v)).trans rfl
@[simp] theorem State.setX_mtimecmp (r : Reg) (v : Word) : (s.setX r v).mtimecmp = s.mtimecmp := (congrArg State.mtimecmp (s.setX_frame r v)).trans rfl
@[simp] theorem State.setX_platform (r : Reg) (v : Word) : (s.setX r v).platform = s.platform := (congrArg State.platform (s.setX_frame r v)).trans rfl
@[simp] theorem State.setX_env (r : Reg) (v : Word) : (s.setX r v).env = s.env := (congrArg State.env (s.setX_frame r v)).trans rfl
@[simp] theorem State.setX_tlbChoice (r : Reg) (v : Word) : (s.setX r v).tlbChoice = s.tlbChoice := (congrArg State.tlbChoice (s.setX_frame r v)).trans rfl
@[simp] theorem State.setX_draws (r : Reg) (v : Word) : (s.setX r v).draws = s.draws := (congrArg State.draws (s.setX_frame r v)).trans rfl
@[simp] theorem State.setX_deviceLog (r : Reg) (v : Word) : (s.setX r v).deviceLog = s.deviceLog := (congrArg State.deviceLog (s.setX_frame r v)).trans rfl

/-! ## retireTo -/

@[simp] theorem State.retireTo_x (a : Word) : (s.retireTo a).x = s.x := rfl
@[simp] theorem State.retireTo_priv (a : Word) : (s.retireTo a).priv = s.priv := rfl
@[simp] theorem State.retireTo_mstatus (a : Word) : (s.retireTo a).mstatus = s.mstatus := rfl
@[simp] theorem State.retireTo_medeleg (a : Word) : (s.retireTo a).medeleg = s.medeleg := rfl
@[simp] theorem State.retireTo_mideleg (a : Word) : (s.retireTo a).mideleg = s.mideleg := rfl
@[simp] theorem State.retireTo_mie (a : Word) : (s.retireTo a).mie = s.mie := rfl
@[simp] theorem State.retireTo_mip (a : Word) : (s.retireTo a).mip = s.mip := rfl
@[simp] theorem State.retireTo_mtvec (a : Word) : (s.retireTo a).mtvec = s.mtvec := rfl
@[simp] theorem State.retireTo_stvec (a : Word) : (s.retireTo a).stvec = s.stvec := rfl
@[simp] theorem State.retireTo_mepc (a : Word) : (s.retireTo a).mepc = s.mepc := rfl
@[simp] theorem State.retireTo_sepc (a : Word) : (s.retireTo a).sepc = s.sepc := rfl
@[simp] theorem State.retireTo_mcause (a : Word) : (s.retireTo a).mcause = s.mcause := rfl
@[simp] theorem State.retireTo_scause (a : Word) : (s.retireTo a).scause = s.scause := rfl
@[simp] theorem State.retireTo_mtval (a : Word) : (s.retireTo a).mtval = s.mtval := rfl
@[simp] theorem State.retireTo_stval (a : Word) : (s.retireTo a).stval = s.stval := rfl
@[simp] theorem State.retireTo_mscratch (a : Word) : (s.retireTo a).mscratch = s.mscratch := rfl
@[simp] theorem State.retireTo_sscratch (a : Word) : (s.retireTo a).sscratch = s.sscratch := rfl
@[simp] theorem State.retireTo_mcounteren (a : Word) : (s.retireTo a).mcounteren = s.mcounteren := rfl
@[simp] theorem State.retireTo_scounteren (a : Word) : (s.retireTo a).scounteren = s.scounteren := rfl
@[simp] theorem State.retireTo_mcycle (a : Word) : (s.retireTo a).mcycle = s.mcycle := rfl
@[simp] theorem State.retireTo_satp (a : Word) : (s.retireTo a).satp = s.satp := rfl
@[simp] theorem State.retireTo_pmpcfg (a : Word) : (s.retireTo a).pmpcfg = s.pmpcfg := rfl
@[simp] theorem State.retireTo_pmpaddr (a : Word) : (s.retireTo a).pmpaddr = s.pmpaddr := rfl
@[simp] theorem State.retireTo_mem (a : Word) : (s.retireTo a).mem = s.mem := rfl
@[simp] theorem State.retireTo_tlb (a : Word) : (s.retireTo a).tlb = s.tlb := rfl
@[simp] theorem State.retireTo_fetchStale (a : Word) : (s.retireTo a).fetchStale = s.fetchStale := rfl
@[simp] theorem State.retireTo_waiting (a : Word) : (s.retireTo a).waiting = s.waiting := rfl
@[simp] theorem State.retireTo_irqIn (a : Word) : (s.retireTo a).irqIn = s.irqIn := rfl
@[simp] theorem State.retireTo_mtime (a : Word) : (s.retireTo a).mtime = s.mtime := rfl
@[simp] theorem State.retireTo_mtimecmp (a : Word) : (s.retireTo a).mtimecmp = s.mtimecmp := rfl
@[simp] theorem State.retireTo_platform (a : Word) : (s.retireTo a).platform = s.platform := rfl
@[simp] theorem State.retireTo_env (a : Word) : (s.retireTo a).env = s.env := rfl
@[simp] theorem State.retireTo_tlbChoice (a : Word) : (s.retireTo a).tlbChoice = s.tlbChoice := rfl
@[simp] theorem State.retireTo_draws (a : Word) : (s.retireTo a).draws = s.draws := rfl
@[simp] theorem State.retireTo_deviceLog (a : Word) : (s.retireTo a).deviceLog = s.deviceLog := rfl
@[simp] theorem State.retireTo_pc (a : Word) : (s.retireTo a).pc = a := rfl
@[simp] theorem State.retireTo_minstret (a : Word) : (s.retireTo a).minstret = s.minstret + 1 := rfl

/-! ## enterM -/

@[simp] theorem State.enterM_x (i : Bool) (c : Nat) (epc tval : Word) : (s.enterM i c epc tval).x = s.x := rfl
@[simp] theorem State.enterM_medeleg (i : Bool) (c : Nat) (epc tval : Word) : (s.enterM i c epc tval).medeleg = s.medeleg := rfl
@[simp] theorem State.enterM_mideleg (i : Bool) (c : Nat) (epc tval : Word) : (s.enterM i c epc tval).mideleg = s.mideleg := rfl
@[simp] theorem State.enterM_mie (i : Bool) (c : Nat) (epc tval : Word) : (s.enterM i c epc tval).mie = s.mie := rfl
@[simp] theorem State.enterM_mip (i : Bool) (c : Nat) (epc tval : Word) : (s.enterM i c epc tval).mip = s.mip := rfl
@[simp] theorem State.enterM_mtvec (i : Bool) (c : Nat) (epc tval : Word) : (s.enterM i c epc tval).mtvec = s.mtvec := rfl
@[simp] theorem State.enterM_stvec (i : Bool) (c : Nat) (epc tval : Word) : (s.enterM i c epc tval).stvec = s.stvec := rfl
@[simp] theorem State.enterM_sepc (i : Bool) (c : Nat) (epc tval : Word) : (s.enterM i c epc tval).sepc = s.sepc := rfl
@[simp] theorem State.enterM_scause (i : Bool) (c : Nat) (epc tval : Word) : (s.enterM i c epc tval).scause = s.scause := rfl
@[simp] theorem State.enterM_stval (i : Bool) (c : Nat) (epc tval : Word) : (s.enterM i c epc tval).stval = s.stval := rfl
@[simp] theorem State.enterM_mscratch (i : Bool) (c : Nat) (epc tval : Word) : (s.enterM i c epc tval).mscratch = s.mscratch := rfl
@[simp] theorem State.enterM_sscratch (i : Bool) (c : Nat) (epc tval : Word) : (s.enterM i c epc tval).sscratch = s.sscratch := rfl
@[simp] theorem State.enterM_mcounteren (i : Bool) (c : Nat) (epc tval : Word) : (s.enterM i c epc tval).mcounteren = s.mcounteren := rfl
@[simp] theorem State.enterM_scounteren (i : Bool) (c : Nat) (epc tval : Word) : (s.enterM i c epc tval).scounteren = s.scounteren := rfl
@[simp] theorem State.enterM_mcycle (i : Bool) (c : Nat) (epc tval : Word) : (s.enterM i c epc tval).mcycle = s.mcycle := rfl
@[simp] theorem State.enterM_minstret (i : Bool) (c : Nat) (epc tval : Word) : (s.enterM i c epc tval).minstret = s.minstret := rfl
@[simp] theorem State.enterM_satp (i : Bool) (c : Nat) (epc tval : Word) : (s.enterM i c epc tval).satp = s.satp := rfl
@[simp] theorem State.enterM_pmpcfg (i : Bool) (c : Nat) (epc tval : Word) : (s.enterM i c epc tval).pmpcfg = s.pmpcfg := rfl
@[simp] theorem State.enterM_pmpaddr (i : Bool) (c : Nat) (epc tval : Word) : (s.enterM i c epc tval).pmpaddr = s.pmpaddr := rfl
@[simp] theorem State.enterM_mem (i : Bool) (c : Nat) (epc tval : Word) : (s.enterM i c epc tval).mem = s.mem := rfl
@[simp] theorem State.enterM_tlb (i : Bool) (c : Nat) (epc tval : Word) : (s.enterM i c epc tval).tlb = s.tlb := rfl
@[simp] theorem State.enterM_fetchStale (i : Bool) (c : Nat) (epc tval : Word) : (s.enterM i c epc tval).fetchStale = s.fetchStale := rfl
@[simp] theorem State.enterM_waiting (i : Bool) (c : Nat) (epc tval : Word) : (s.enterM i c epc tval).waiting = s.waiting := rfl
@[simp] theorem State.enterM_irqIn (i : Bool) (c : Nat) (epc tval : Word) : (s.enterM i c epc tval).irqIn = s.irqIn := rfl
@[simp] theorem State.enterM_mtime (i : Bool) (c : Nat) (epc tval : Word) : (s.enterM i c epc tval).mtime = s.mtime := rfl
@[simp] theorem State.enterM_mtimecmp (i : Bool) (c : Nat) (epc tval : Word) : (s.enterM i c epc tval).mtimecmp = s.mtimecmp := rfl
@[simp] theorem State.enterM_platform (i : Bool) (c : Nat) (epc tval : Word) : (s.enterM i c epc tval).platform = s.platform := rfl
@[simp] theorem State.enterM_env (i : Bool) (c : Nat) (epc tval : Word) : (s.enterM i c epc tval).env = s.env := rfl
@[simp] theorem State.enterM_tlbChoice (i : Bool) (c : Nat) (epc tval : Word) : (s.enterM i c epc tval).tlbChoice = s.tlbChoice := rfl
@[simp] theorem State.enterM_draws (i : Bool) (c : Nat) (epc tval : Word) : (s.enterM i c epc tval).draws = s.draws := rfl
@[simp] theorem State.enterM_deviceLog (i : Bool) (c : Nat) (epc tval : Word) : (s.enterM i c epc tval).deviceLog = s.deviceLog := rfl
@[simp] theorem State.enterM_mepc (i : Bool) (c : Nat) (epc tval : Word) : (s.enterM i c epc tval).mepc = epc := rfl
@[simp] theorem State.enterM_mcause (i : Bool) (c : Nat) (epc tval : Word) : (s.enterM i c epc tval).mcause = causeValue i c := rfl
@[simp] theorem State.enterM_mtval (i : Bool) (c : Nat) (epc tval : Word) : (s.enterM i c epc tval).mtval = tval := rfl
@[simp] theorem State.enterM_mstatus (i : Bool) (c : Nat) (epc tval : Word) : (s.enterM i c epc tval).mstatus = { s.mstatus with mpp := s.priv, mpie := s.mstatus.mie, mie := false } := rfl
@[simp] theorem State.enterM_priv (i : Bool) (c : Nat) (epc tval : Word) : (s.enterM i c epc tval).priv = .machine := rfl
@[simp] theorem State.enterM_pc (i : Bool) (c : Nat) (epc tval : Word) : (s.enterM i c epc tval).pc = trapTarget s.mtvec i c := rfl

/-! ## enterS -/

@[simp] theorem State.enterS_x (i : Bool) (c : Nat) (epc tval : Word) : (s.enterS i c epc tval).x = s.x := rfl
@[simp] theorem State.enterS_medeleg (i : Bool) (c : Nat) (epc tval : Word) : (s.enterS i c epc tval).medeleg = s.medeleg := rfl
@[simp] theorem State.enterS_mideleg (i : Bool) (c : Nat) (epc tval : Word) : (s.enterS i c epc tval).mideleg = s.mideleg := rfl
@[simp] theorem State.enterS_mie (i : Bool) (c : Nat) (epc tval : Word) : (s.enterS i c epc tval).mie = s.mie := rfl
@[simp] theorem State.enterS_mip (i : Bool) (c : Nat) (epc tval : Word) : (s.enterS i c epc tval).mip = s.mip := rfl
@[simp] theorem State.enterS_mtvec (i : Bool) (c : Nat) (epc tval : Word) : (s.enterS i c epc tval).mtvec = s.mtvec := rfl
@[simp] theorem State.enterS_stvec (i : Bool) (c : Nat) (epc tval : Word) : (s.enterS i c epc tval).stvec = s.stvec := rfl
@[simp] theorem State.enterS_mepc (i : Bool) (c : Nat) (epc tval : Word) : (s.enterS i c epc tval).mepc = s.mepc := rfl
@[simp] theorem State.enterS_mcause (i : Bool) (c : Nat) (epc tval : Word) : (s.enterS i c epc tval).mcause = s.mcause := rfl
@[simp] theorem State.enterS_mtval (i : Bool) (c : Nat) (epc tval : Word) : (s.enterS i c epc tval).mtval = s.mtval := rfl
@[simp] theorem State.enterS_mscratch (i : Bool) (c : Nat) (epc tval : Word) : (s.enterS i c epc tval).mscratch = s.mscratch := rfl
@[simp] theorem State.enterS_sscratch (i : Bool) (c : Nat) (epc tval : Word) : (s.enterS i c epc tval).sscratch = s.sscratch := rfl
@[simp] theorem State.enterS_mcounteren (i : Bool) (c : Nat) (epc tval : Word) : (s.enterS i c epc tval).mcounteren = s.mcounteren := rfl
@[simp] theorem State.enterS_scounteren (i : Bool) (c : Nat) (epc tval : Word) : (s.enterS i c epc tval).scounteren = s.scounteren := rfl
@[simp] theorem State.enterS_mcycle (i : Bool) (c : Nat) (epc tval : Word) : (s.enterS i c epc tval).mcycle = s.mcycle := rfl
@[simp] theorem State.enterS_minstret (i : Bool) (c : Nat) (epc tval : Word) : (s.enterS i c epc tval).minstret = s.minstret := rfl
@[simp] theorem State.enterS_satp (i : Bool) (c : Nat) (epc tval : Word) : (s.enterS i c epc tval).satp = s.satp := rfl
@[simp] theorem State.enterS_pmpcfg (i : Bool) (c : Nat) (epc tval : Word) : (s.enterS i c epc tval).pmpcfg = s.pmpcfg := rfl
@[simp] theorem State.enterS_pmpaddr (i : Bool) (c : Nat) (epc tval : Word) : (s.enterS i c epc tval).pmpaddr = s.pmpaddr := rfl
@[simp] theorem State.enterS_mem (i : Bool) (c : Nat) (epc tval : Word) : (s.enterS i c epc tval).mem = s.mem := rfl
@[simp] theorem State.enterS_tlb (i : Bool) (c : Nat) (epc tval : Word) : (s.enterS i c epc tval).tlb = s.tlb := rfl
@[simp] theorem State.enterS_fetchStale (i : Bool) (c : Nat) (epc tval : Word) : (s.enterS i c epc tval).fetchStale = s.fetchStale := rfl
@[simp] theorem State.enterS_waiting (i : Bool) (c : Nat) (epc tval : Word) : (s.enterS i c epc tval).waiting = s.waiting := rfl
@[simp] theorem State.enterS_irqIn (i : Bool) (c : Nat) (epc tval : Word) : (s.enterS i c epc tval).irqIn = s.irqIn := rfl
@[simp] theorem State.enterS_mtime (i : Bool) (c : Nat) (epc tval : Word) : (s.enterS i c epc tval).mtime = s.mtime := rfl
@[simp] theorem State.enterS_mtimecmp (i : Bool) (c : Nat) (epc tval : Word) : (s.enterS i c epc tval).mtimecmp = s.mtimecmp := rfl
@[simp] theorem State.enterS_platform (i : Bool) (c : Nat) (epc tval : Word) : (s.enterS i c epc tval).platform = s.platform := rfl
@[simp] theorem State.enterS_env (i : Bool) (c : Nat) (epc tval : Word) : (s.enterS i c epc tval).env = s.env := rfl
@[simp] theorem State.enterS_tlbChoice (i : Bool) (c : Nat) (epc tval : Word) : (s.enterS i c epc tval).tlbChoice = s.tlbChoice := rfl
@[simp] theorem State.enterS_draws (i : Bool) (c : Nat) (epc tval : Word) : (s.enterS i c epc tval).draws = s.draws := rfl
@[simp] theorem State.enterS_deviceLog (i : Bool) (c : Nat) (epc tval : Word) : (s.enterS i c epc tval).deviceLog = s.deviceLog := rfl
@[simp] theorem State.enterS_sepc (i : Bool) (c : Nat) (epc tval : Word) : (s.enterS i c epc tval).sepc = epc := rfl
@[simp] theorem State.enterS_scause (i : Bool) (c : Nat) (epc tval : Word) : (s.enterS i c epc tval).scause = causeValue i c := rfl
@[simp] theorem State.enterS_stval (i : Bool) (c : Nat) (epc tval : Word) : (s.enterS i c epc tval).stval = tval := rfl
@[simp] theorem State.enterS_mstatus (i : Bool) (c : Nat) (epc tval : Word) : (s.enterS i c epc tval).mstatus = { s.mstatus with spp := s.priv == .supervisor, spie := s.mstatus.sie, sie := false } := rfl
@[simp] theorem State.enterS_priv (i : Bool) (c : Nat) (epc tval : Word) : (s.enterS i c epc tval).priv = .supervisor := rfl
@[simp] theorem State.enterS_pc (i : Bool) (c : Nat) (epc tval : Word) : (s.enterS i c epc tval).pc = trapTarget s.stvec i c := rfl

/-! ## trap -/

@[simp] theorem State.trap_x (i : Bool) (c : Nat) (epc tval : Word) : (s.trap i c epc tval).x = s.x := by unfold State.trap; split <;> rfl
@[simp] theorem State.trap_medeleg (i : Bool) (c : Nat) (epc tval : Word) : (s.trap i c epc tval).medeleg = s.medeleg := by unfold State.trap; split <;> rfl
@[simp] theorem State.trap_mideleg (i : Bool) (c : Nat) (epc tval : Word) : (s.trap i c epc tval).mideleg = s.mideleg := by unfold State.trap; split <;> rfl
@[simp] theorem State.trap_mie (i : Bool) (c : Nat) (epc tval : Word) : (s.trap i c epc tval).mie = s.mie := by unfold State.trap; split <;> rfl
@[simp] theorem State.trap_mip (i : Bool) (c : Nat) (epc tval : Word) : (s.trap i c epc tval).mip = s.mip := by unfold State.trap; split <;> rfl
@[simp] theorem State.trap_mtvec (i : Bool) (c : Nat) (epc tval : Word) : (s.trap i c epc tval).mtvec = s.mtvec := by unfold State.trap; split <;> rfl
@[simp] theorem State.trap_stvec (i : Bool) (c : Nat) (epc tval : Word) : (s.trap i c epc tval).stvec = s.stvec := by unfold State.trap; split <;> rfl
@[simp] theorem State.trap_mscratch (i : Bool) (c : Nat) (epc tval : Word) : (s.trap i c epc tval).mscratch = s.mscratch := by unfold State.trap; split <;> rfl
@[simp] theorem State.trap_sscratch (i : Bool) (c : Nat) (epc tval : Word) : (s.trap i c epc tval).sscratch = s.sscratch := by unfold State.trap; split <;> rfl
@[simp] theorem State.trap_mcounteren (i : Bool) (c : Nat) (epc tval : Word) : (s.trap i c epc tval).mcounteren = s.mcounteren := by unfold State.trap; split <;> rfl
@[simp] theorem State.trap_scounteren (i : Bool) (c : Nat) (epc tval : Word) : (s.trap i c epc tval).scounteren = s.scounteren := by unfold State.trap; split <;> rfl
@[simp] theorem State.trap_mcycle (i : Bool) (c : Nat) (epc tval : Word) : (s.trap i c epc tval).mcycle = s.mcycle := by unfold State.trap; split <;> rfl
@[simp] theorem State.trap_minstret (i : Bool) (c : Nat) (epc tval : Word) : (s.trap i c epc tval).minstret = s.minstret := by unfold State.trap; split <;> rfl
@[simp] theorem State.trap_satp (i : Bool) (c : Nat) (epc tval : Word) : (s.trap i c epc tval).satp = s.satp := by unfold State.trap; split <;> rfl
@[simp] theorem State.trap_pmpcfg (i : Bool) (c : Nat) (epc tval : Word) : (s.trap i c epc tval).pmpcfg = s.pmpcfg := by unfold State.trap; split <;> rfl
@[simp] theorem State.trap_pmpaddr (i : Bool) (c : Nat) (epc tval : Word) : (s.trap i c epc tval).pmpaddr = s.pmpaddr := by unfold State.trap; split <;> rfl
@[simp] theorem State.trap_mem (i : Bool) (c : Nat) (epc tval : Word) : (s.trap i c epc tval).mem = s.mem := by unfold State.trap; split <;> rfl
@[simp] theorem State.trap_tlb (i : Bool) (c : Nat) (epc tval : Word) : (s.trap i c epc tval).tlb = s.tlb := by unfold State.trap; split <;> rfl
@[simp] theorem State.trap_fetchStale (i : Bool) (c : Nat) (epc tval : Word) : (s.trap i c epc tval).fetchStale = s.fetchStale := by unfold State.trap; split <;> rfl
@[simp] theorem State.trap_waiting (i : Bool) (c : Nat) (epc tval : Word) : (s.trap i c epc tval).waiting = s.waiting := by unfold State.trap; split <;> rfl
@[simp] theorem State.trap_irqIn (i : Bool) (c : Nat) (epc tval : Word) : (s.trap i c epc tval).irqIn = s.irqIn := by unfold State.trap; split <;> rfl
@[simp] theorem State.trap_mtime (i : Bool) (c : Nat) (epc tval : Word) : (s.trap i c epc tval).mtime = s.mtime := by unfold State.trap; split <;> rfl
@[simp] theorem State.trap_mtimecmp (i : Bool) (c : Nat) (epc tval : Word) : (s.trap i c epc tval).mtimecmp = s.mtimecmp := by unfold State.trap; split <;> rfl
@[simp] theorem State.trap_platform (i : Bool) (c : Nat) (epc tval : Word) : (s.trap i c epc tval).platform = s.platform := by unfold State.trap; split <;> rfl
@[simp] theorem State.trap_env (i : Bool) (c : Nat) (epc tval : Word) : (s.trap i c epc tval).env = s.env := by unfold State.trap; split <;> rfl
@[simp] theorem State.trap_tlbChoice (i : Bool) (c : Nat) (epc tval : Word) : (s.trap i c epc tval).tlbChoice = s.tlbChoice := by unfold State.trap; split <;> rfl
@[simp] theorem State.trap_draws (i : Bool) (c : Nat) (epc tval : Word) : (s.trap i c epc tval).draws = s.draws := by unfold State.trap; split <;> rfl
@[simp] theorem State.trap_deviceLog (i : Bool) (c : Nat) (epc tval : Word) : (s.trap i c epc tval).deviceLog = s.deviceLog := by unfold State.trap; split <;> rfl

/-! ## returnM and returnS -/

@[simp] theorem State.returnM_x : (s.returnM).x = s.x := rfl
@[simp] theorem State.returnM_medeleg : (s.returnM).medeleg = s.medeleg := rfl
@[simp] theorem State.returnM_mideleg : (s.returnM).mideleg = s.mideleg := rfl
@[simp] theorem State.returnM_mie : (s.returnM).mie = s.mie := rfl
@[simp] theorem State.returnM_mip : (s.returnM).mip = s.mip := rfl
@[simp] theorem State.returnM_mtvec : (s.returnM).mtvec = s.mtvec := rfl
@[simp] theorem State.returnM_stvec : (s.returnM).stvec = s.stvec := rfl
@[simp] theorem State.returnM_mepc : (s.returnM).mepc = s.mepc := rfl
@[simp] theorem State.returnM_sepc : (s.returnM).sepc = s.sepc := rfl
@[simp] theorem State.returnM_mcause : (s.returnM).mcause = s.mcause := rfl
@[simp] theorem State.returnM_scause : (s.returnM).scause = s.scause := rfl
@[simp] theorem State.returnM_mtval : (s.returnM).mtval = s.mtval := rfl
@[simp] theorem State.returnM_stval : (s.returnM).stval = s.stval := rfl
@[simp] theorem State.returnM_mscratch : (s.returnM).mscratch = s.mscratch := rfl
@[simp] theorem State.returnM_sscratch : (s.returnM).sscratch = s.sscratch := rfl
@[simp] theorem State.returnM_mcounteren : (s.returnM).mcounteren = s.mcounteren := rfl
@[simp] theorem State.returnM_scounteren : (s.returnM).scounteren = s.scounteren := rfl
@[simp] theorem State.returnM_mcycle : (s.returnM).mcycle = s.mcycle := rfl
@[simp] theorem State.returnM_satp : (s.returnM).satp = s.satp := rfl
@[simp] theorem State.returnM_pmpcfg : (s.returnM).pmpcfg = s.pmpcfg := rfl
@[simp] theorem State.returnM_pmpaddr : (s.returnM).pmpaddr = s.pmpaddr := rfl
@[simp] theorem State.returnM_mem : (s.returnM).mem = s.mem := rfl
@[simp] theorem State.returnM_tlb : (s.returnM).tlb = s.tlb := rfl
@[simp] theorem State.returnM_fetchStale : (s.returnM).fetchStale = s.fetchStale := rfl
@[simp] theorem State.returnM_waiting : (s.returnM).waiting = s.waiting := rfl
@[simp] theorem State.returnM_irqIn : (s.returnM).irqIn = s.irqIn := rfl
@[simp] theorem State.returnM_mtime : (s.returnM).mtime = s.mtime := rfl
@[simp] theorem State.returnM_mtimecmp : (s.returnM).mtimecmp = s.mtimecmp := rfl
@[simp] theorem State.returnM_platform : (s.returnM).platform = s.platform := rfl
@[simp] theorem State.returnM_env : (s.returnM).env = s.env := rfl
@[simp] theorem State.returnM_tlbChoice : (s.returnM).tlbChoice = s.tlbChoice := rfl
@[simp] theorem State.returnM_draws : (s.returnM).draws = s.draws := rfl
@[simp] theorem State.returnM_deviceLog : (s.returnM).deviceLog = s.deviceLog := rfl
@[simp] theorem State.returnM_priv : (s.returnM).priv = s.mstatus.mpp := rfl
@[simp] theorem State.returnM_pc : (s.returnM).pc = s.mepc := rfl
@[simp] theorem State.returnM_minstret : (s.returnM).minstret = s.minstret + 1 := rfl
@[simp] theorem State.returnM_mstatus : (s.returnM).mstatus = { s.mstatus with mie := s.mstatus.mpie, mpie := true, mpp := .user, mprv := if s.mstatus.mpp = .machine then s.mstatus.mprv else false } := rfl
@[simp] theorem State.returnS_x : (s.returnS).x = s.x := rfl
@[simp] theorem State.returnS_medeleg : (s.returnS).medeleg = s.medeleg := rfl
@[simp] theorem State.returnS_mideleg : (s.returnS).mideleg = s.mideleg := rfl
@[simp] theorem State.returnS_mie : (s.returnS).mie = s.mie := rfl
@[simp] theorem State.returnS_mip : (s.returnS).mip = s.mip := rfl
@[simp] theorem State.returnS_mtvec : (s.returnS).mtvec = s.mtvec := rfl
@[simp] theorem State.returnS_stvec : (s.returnS).stvec = s.stvec := rfl
@[simp] theorem State.returnS_mepc : (s.returnS).mepc = s.mepc := rfl
@[simp] theorem State.returnS_sepc : (s.returnS).sepc = s.sepc := rfl
@[simp] theorem State.returnS_mcause : (s.returnS).mcause = s.mcause := rfl
@[simp] theorem State.returnS_scause : (s.returnS).scause = s.scause := rfl
@[simp] theorem State.returnS_mtval : (s.returnS).mtval = s.mtval := rfl
@[simp] theorem State.returnS_stval : (s.returnS).stval = s.stval := rfl
@[simp] theorem State.returnS_mscratch : (s.returnS).mscratch = s.mscratch := rfl
@[simp] theorem State.returnS_sscratch : (s.returnS).sscratch = s.sscratch := rfl
@[simp] theorem State.returnS_mcounteren : (s.returnS).mcounteren = s.mcounteren := rfl
@[simp] theorem State.returnS_scounteren : (s.returnS).scounteren = s.scounteren := rfl
@[simp] theorem State.returnS_mcycle : (s.returnS).mcycle = s.mcycle := rfl
@[simp] theorem State.returnS_satp : (s.returnS).satp = s.satp := rfl
@[simp] theorem State.returnS_pmpcfg : (s.returnS).pmpcfg = s.pmpcfg := rfl
@[simp] theorem State.returnS_pmpaddr : (s.returnS).pmpaddr = s.pmpaddr := rfl
@[simp] theorem State.returnS_mem : (s.returnS).mem = s.mem := rfl
@[simp] theorem State.returnS_tlb : (s.returnS).tlb = s.tlb := rfl
@[simp] theorem State.returnS_fetchStale : (s.returnS).fetchStale = s.fetchStale := rfl
@[simp] theorem State.returnS_waiting : (s.returnS).waiting = s.waiting := rfl
@[simp] theorem State.returnS_irqIn : (s.returnS).irqIn = s.irqIn := rfl
@[simp] theorem State.returnS_mtime : (s.returnS).mtime = s.mtime := rfl
@[simp] theorem State.returnS_mtimecmp : (s.returnS).mtimecmp = s.mtimecmp := rfl
@[simp] theorem State.returnS_platform : (s.returnS).platform = s.platform := rfl
@[simp] theorem State.returnS_env : (s.returnS).env = s.env := rfl
@[simp] theorem State.returnS_tlbChoice : (s.returnS).tlbChoice = s.tlbChoice := rfl
@[simp] theorem State.returnS_draws : (s.returnS).draws = s.draws := rfl
@[simp] theorem State.returnS_deviceLog : (s.returnS).deviceLog = s.deviceLog := rfl
@[simp] theorem State.returnS_priv : (s.returnS).priv = if s.mstatus.spp then .supervisor else .user := rfl
@[simp] theorem State.returnS_pc : (s.returnS).pc = s.sepc := rfl
@[simp] theorem State.returnS_minstret : (s.returnS).minstret = s.minstret + 1 := rfl
@[simp] theorem State.returnS_mstatus : (s.returnS).mstatus = { s.mstatus with sie := s.mstatus.spie, spie := true, spp := false, mprv := false } := rfl

/-! ## noteDevice -/

/-- What noting an access changes. -/
theorem State.noteDevice_frame (st : Bool) (a n : Nat) (v : Word) :
    s.noteDevice st a n v = { s with deviceLog := (s.noteDevice st a n v).deviceLog } := by
  unfold State.noteDevice; split <;> rfl

@[simp] theorem State.noteDevice_x (st : Bool) (a n : Nat) (v : Word) : (s.noteDevice st a n v).x = s.x := 
  (congrArg State.x (s.noteDevice_frame st a n v)).trans rfl
@[simp] theorem State.noteDevice_pc (st : Bool) (a n : Nat) (v : Word) : (s.noteDevice st a n v).pc = s.pc := 
  (congrArg State.pc (s.noteDevice_frame st a n v)).trans rfl
@[simp] theorem State.noteDevice_priv (st : Bool) (a n : Nat) (v : Word) : (s.noteDevice st a n v).priv = s.priv := 
  (congrArg State.priv (s.noteDevice_frame st a n v)).trans rfl
@[simp] theorem State.noteDevice_mstatus (st : Bool) (a n : Nat) (v : Word) : (s.noteDevice st a n v).mstatus = s.mstatus := 
  (congrArg State.mstatus (s.noteDevice_frame st a n v)).trans rfl
@[simp] theorem State.noteDevice_medeleg (st : Bool) (a n : Nat) (v : Word) : (s.noteDevice st a n v).medeleg = s.medeleg := 
  (congrArg State.medeleg (s.noteDevice_frame st a n v)).trans rfl
@[simp] theorem State.noteDevice_mideleg (st : Bool) (a n : Nat) (v : Word) : (s.noteDevice st a n v).mideleg = s.mideleg := 
  (congrArg State.mideleg (s.noteDevice_frame st a n v)).trans rfl
@[simp] theorem State.noteDevice_mie (st : Bool) (a n : Nat) (v : Word) : (s.noteDevice st a n v).mie = s.mie := 
  (congrArg State.mie (s.noteDevice_frame st a n v)).trans rfl
@[simp] theorem State.noteDevice_mip (st : Bool) (a n : Nat) (v : Word) : (s.noteDevice st a n v).mip = s.mip := 
  (congrArg State.mip (s.noteDevice_frame st a n v)).trans rfl
@[simp] theorem State.noteDevice_mtvec (st : Bool) (a n : Nat) (v : Word) : (s.noteDevice st a n v).mtvec = s.mtvec := 
  (congrArg State.mtvec (s.noteDevice_frame st a n v)).trans rfl
@[simp] theorem State.noteDevice_stvec (st : Bool) (a n : Nat) (v : Word) : (s.noteDevice st a n v).stvec = s.stvec := 
  (congrArg State.stvec (s.noteDevice_frame st a n v)).trans rfl
@[simp] theorem State.noteDevice_mepc (st : Bool) (a n : Nat) (v : Word) : (s.noteDevice st a n v).mepc = s.mepc := 
  (congrArg State.mepc (s.noteDevice_frame st a n v)).trans rfl
@[simp] theorem State.noteDevice_sepc (st : Bool) (a n : Nat) (v : Word) : (s.noteDevice st a n v).sepc = s.sepc := 
  (congrArg State.sepc (s.noteDevice_frame st a n v)).trans rfl
@[simp] theorem State.noteDevice_mcause (st : Bool) (a n : Nat) (v : Word) : (s.noteDevice st a n v).mcause = s.mcause := 
  (congrArg State.mcause (s.noteDevice_frame st a n v)).trans rfl
@[simp] theorem State.noteDevice_scause (st : Bool) (a n : Nat) (v : Word) : (s.noteDevice st a n v).scause = s.scause := 
  (congrArg State.scause (s.noteDevice_frame st a n v)).trans rfl
@[simp] theorem State.noteDevice_mtval (st : Bool) (a n : Nat) (v : Word) : (s.noteDevice st a n v).mtval = s.mtval := 
  (congrArg State.mtval (s.noteDevice_frame st a n v)).trans rfl
@[simp] theorem State.noteDevice_stval (st : Bool) (a n : Nat) (v : Word) : (s.noteDevice st a n v).stval = s.stval := 
  (congrArg State.stval (s.noteDevice_frame st a n v)).trans rfl
@[simp] theorem State.noteDevice_mscratch (st : Bool) (a n : Nat) (v : Word) : (s.noteDevice st a n v).mscratch = s.mscratch := 
  (congrArg State.mscratch (s.noteDevice_frame st a n v)).trans rfl
@[simp] theorem State.noteDevice_sscratch (st : Bool) (a n : Nat) (v : Word) : (s.noteDevice st a n v).sscratch = s.sscratch := 
  (congrArg State.sscratch (s.noteDevice_frame st a n v)).trans rfl
@[simp] theorem State.noteDevice_mcounteren (st : Bool) (a n : Nat) (v : Word) : (s.noteDevice st a n v).mcounteren = s.mcounteren := 
  (congrArg State.mcounteren (s.noteDevice_frame st a n v)).trans rfl
@[simp] theorem State.noteDevice_scounteren (st : Bool) (a n : Nat) (v : Word) : (s.noteDevice st a n v).scounteren = s.scounteren := 
  (congrArg State.scounteren (s.noteDevice_frame st a n v)).trans rfl
@[simp] theorem State.noteDevice_mcycle (st : Bool) (a n : Nat) (v : Word) : (s.noteDevice st a n v).mcycle = s.mcycle := 
  (congrArg State.mcycle (s.noteDevice_frame st a n v)).trans rfl
@[simp] theorem State.noteDevice_minstret (st : Bool) (a n : Nat) (v : Word) : (s.noteDevice st a n v).minstret = s.minstret := 
  (congrArg State.minstret (s.noteDevice_frame st a n v)).trans rfl
@[simp] theorem State.noteDevice_satp (st : Bool) (a n : Nat) (v : Word) : (s.noteDevice st a n v).satp = s.satp := 
  (congrArg State.satp (s.noteDevice_frame st a n v)).trans rfl
@[simp] theorem State.noteDevice_pmpcfg (st : Bool) (a n : Nat) (v : Word) : (s.noteDevice st a n v).pmpcfg = s.pmpcfg := 
  (congrArg State.pmpcfg (s.noteDevice_frame st a n v)).trans rfl
@[simp] theorem State.noteDevice_pmpaddr (st : Bool) (a n : Nat) (v : Word) : (s.noteDevice st a n v).pmpaddr = s.pmpaddr := 
  (congrArg State.pmpaddr (s.noteDevice_frame st a n v)).trans rfl
@[simp] theorem State.noteDevice_mem (st : Bool) (a n : Nat) (v : Word) : (s.noteDevice st a n v).mem = s.mem := 
  (congrArg State.mem (s.noteDevice_frame st a n v)).trans rfl
@[simp] theorem State.noteDevice_tlb (st : Bool) (a n : Nat) (v : Word) : (s.noteDevice st a n v).tlb = s.tlb := 
  (congrArg State.tlb (s.noteDevice_frame st a n v)).trans rfl
@[simp] theorem State.noteDevice_fetchStale (st : Bool) (a n : Nat) (v : Word) : (s.noteDevice st a n v).fetchStale = s.fetchStale := 
  (congrArg State.fetchStale (s.noteDevice_frame st a n v)).trans rfl
@[simp] theorem State.noteDevice_waiting (st : Bool) (a n : Nat) (v : Word) : (s.noteDevice st a n v).waiting = s.waiting := 
  (congrArg State.waiting (s.noteDevice_frame st a n v)).trans rfl
@[simp] theorem State.noteDevice_irqIn (st : Bool) (a n : Nat) (v : Word) : (s.noteDevice st a n v).irqIn = s.irqIn := 
  (congrArg State.irqIn (s.noteDevice_frame st a n v)).trans rfl
@[simp] theorem State.noteDevice_mtime (st : Bool) (a n : Nat) (v : Word) : (s.noteDevice st a n v).mtime = s.mtime := 
  (congrArg State.mtime (s.noteDevice_frame st a n v)).trans rfl
@[simp] theorem State.noteDevice_mtimecmp (st : Bool) (a n : Nat) (v : Word) : (s.noteDevice st a n v).mtimecmp = s.mtimecmp := 
  (congrArg State.mtimecmp (s.noteDevice_frame st a n v)).trans rfl
@[simp] theorem State.noteDevice_platform (st : Bool) (a n : Nat) (v : Word) : (s.noteDevice st a n v).platform = s.platform := 
  (congrArg State.platform (s.noteDevice_frame st a n v)).trans rfl
@[simp] theorem State.noteDevice_env (st : Bool) (a n : Nat) (v : Word) : (s.noteDevice st a n v).env = s.env := 
  (congrArg State.env (s.noteDevice_frame st a n v)).trans rfl
@[simp] theorem State.noteDevice_tlbChoice (st : Bool) (a n : Nat) (v : Word) : (s.noteDevice st a n v).tlbChoice = s.tlbChoice := 
  (congrArg State.tlbChoice (s.noteDevice_frame st a n v)).trans rfl
@[simp] theorem State.noteDevice_draws (st : Bool) (a n : Nat) (v : Word) : (s.noteDevice st a n v).draws = s.draws := 
  (congrArg State.draws (s.noteDevice_frame st a n v)).trans rfl

/-! ## writePhysByte and writePhysBytes -/

/-- What the store of a byte may change. -/
theorem State.writePhysByte_frame (a : Nat) (b : Byte) :
    s.writePhysByte a b = { s with mem := (s.writePhysByte a b).mem, fetchStale := (s.writePhysByte a b).fetchStale, irqIn := (s.writePhysByte a b).irqIn, mtimecmp := (s.writePhysByte a b).mtimecmp } := by
  unfold State.writePhysByte State.deviceRegWrite; repeat' (first | rfl | split)

/-- What the store of bytes may change. -/
theorem State.writePhysBytes_frame (a : Nat) (bs : List Byte) :
    s.writePhysBytes a bs = { s with mem := (s.writePhysBytes a bs).mem, fetchStale := (s.writePhysBytes a bs).fetchStale, irqIn := (s.writePhysBytes a bs).irqIn, mtimecmp := (s.writePhysBytes a bs).mtimecmp } := by
  induction bs generalizing s a with
  | nil => rfl
  | cons b rest ih =>
    rw [State.writePhysBytes]
    exact (ih (s.writePhysByte a b) (a + 1)).trans (by rw [State.writePhysByte_frame s a b])

/-- What the environment's write of a byte may change. -/
theorem State.envWriteByte_frame (a : Nat) (b : Byte) :
    s.envWriteByte a b = { s with mem := (s.envWriteByte a b).mem, fetchStale := (s.envWriteByte a b).fetchStale, irqIn := (s.envWriteByte a b).irqIn, mtimecmp := (s.envWriteByte a b).mtimecmp } := by
  unfold State.envWriteByte State.deviceRegWrite; repeat' (first | rfl | exact s.writePhysByte_frame a b | split)

/-- What the environment's writes may change. -/
theorem State.envWrites_frame (ws : List Host.Cell) :
    s.envWrites ws = { s with mem := (s.envWrites ws).mem, fetchStale := (s.envWrites ws).fetchStale, irqIn := (s.envWrites ws).irqIn, mtimecmp := (s.envWrites ws).mtimecmp } := by
  induction ws generalizing s with
  | nil => rfl
  | cons w rest ih =>
    rw [State.envWrites]
    split
    · exact (ih (s.envWriteByte w.1 w.2)).trans (by rw [State.envWriteByte_frame s w.1 w.2])
    · exact ih s

/-- What keeping a translation may change. -/
theorem State.tlbFill_frame (tag : Nat) (va : Word) : s.tlbFill tag va = { s with tlb := (s.tlbFill tag va).tlb } := by
  unfold State.tlbFill; split <;> rfl

/-- What keeping translations may change. -/
theorem State.envFills_frame (tag : Nat) (vs : List Word) : s.envFills tag vs = { s with tlb := (s.envFills tag vs).tlb } := by
  induction vs generalizing s tag with
  | nil => rfl
  | cons v rest ih =>
    rw [State.envFills]
    exact (ih (s.tlbFill tag v) (tag + 10)).trans (by rw [State.tlbFill_frame s tag v])

@[simp] theorem State.writePhysByte_x (a : Nat) (b : Byte) : (s.writePhysByte a b).x = s.x :=
  (congrArg State.x (s.writePhysByte_frame a b)).trans rfl
@[simp] theorem State.writePhysByte_pc (a : Nat) (b : Byte) : (s.writePhysByte a b).pc = s.pc :=
  (congrArg State.pc (s.writePhysByte_frame a b)).trans rfl
@[simp] theorem State.writePhysByte_priv (a : Nat) (b : Byte) : (s.writePhysByte a b).priv = s.priv :=
  (congrArg State.priv (s.writePhysByte_frame a b)).trans rfl
@[simp] theorem State.writePhysByte_mstatus (a : Nat) (b : Byte) : (s.writePhysByte a b).mstatus = s.mstatus :=
  (congrArg State.mstatus (s.writePhysByte_frame a b)).trans rfl
@[simp] theorem State.writePhysByte_medeleg (a : Nat) (b : Byte) : (s.writePhysByte a b).medeleg = s.medeleg :=
  (congrArg State.medeleg (s.writePhysByte_frame a b)).trans rfl
@[simp] theorem State.writePhysByte_mideleg (a : Nat) (b : Byte) : (s.writePhysByte a b).mideleg = s.mideleg :=
  (congrArg State.mideleg (s.writePhysByte_frame a b)).trans rfl
@[simp] theorem State.writePhysByte_mie (a : Nat) (b : Byte) : (s.writePhysByte a b).mie = s.mie :=
  (congrArg State.mie (s.writePhysByte_frame a b)).trans rfl
@[simp] theorem State.writePhysByte_mip (a : Nat) (b : Byte) : (s.writePhysByte a b).mip = s.mip :=
  (congrArg State.mip (s.writePhysByte_frame a b)).trans rfl
@[simp] theorem State.writePhysByte_mtvec (a : Nat) (b : Byte) : (s.writePhysByte a b).mtvec = s.mtvec :=
  (congrArg State.mtvec (s.writePhysByte_frame a b)).trans rfl
@[simp] theorem State.writePhysByte_stvec (a : Nat) (b : Byte) : (s.writePhysByte a b).stvec = s.stvec :=
  (congrArg State.stvec (s.writePhysByte_frame a b)).trans rfl
@[simp] theorem State.writePhysByte_mepc (a : Nat) (b : Byte) : (s.writePhysByte a b).mepc = s.mepc :=
  (congrArg State.mepc (s.writePhysByte_frame a b)).trans rfl
@[simp] theorem State.writePhysByte_sepc (a : Nat) (b : Byte) : (s.writePhysByte a b).sepc = s.sepc :=
  (congrArg State.sepc (s.writePhysByte_frame a b)).trans rfl
@[simp] theorem State.writePhysByte_mcause (a : Nat) (b : Byte) : (s.writePhysByte a b).mcause = s.mcause :=
  (congrArg State.mcause (s.writePhysByte_frame a b)).trans rfl
@[simp] theorem State.writePhysByte_scause (a : Nat) (b : Byte) : (s.writePhysByte a b).scause = s.scause :=
  (congrArg State.scause (s.writePhysByte_frame a b)).trans rfl
@[simp] theorem State.writePhysByte_mtval (a : Nat) (b : Byte) : (s.writePhysByte a b).mtval = s.mtval :=
  (congrArg State.mtval (s.writePhysByte_frame a b)).trans rfl
@[simp] theorem State.writePhysByte_stval (a : Nat) (b : Byte) : (s.writePhysByte a b).stval = s.stval :=
  (congrArg State.stval (s.writePhysByte_frame a b)).trans rfl
@[simp] theorem State.writePhysByte_mscratch (a : Nat) (b : Byte) : (s.writePhysByte a b).mscratch = s.mscratch :=
  (congrArg State.mscratch (s.writePhysByte_frame a b)).trans rfl
@[simp] theorem State.writePhysByte_sscratch (a : Nat) (b : Byte) : (s.writePhysByte a b).sscratch = s.sscratch :=
  (congrArg State.sscratch (s.writePhysByte_frame a b)).trans rfl
@[simp] theorem State.writePhysByte_mcounteren (a : Nat) (b : Byte) : (s.writePhysByte a b).mcounteren = s.mcounteren :=
  (congrArg State.mcounteren (s.writePhysByte_frame a b)).trans rfl
@[simp] theorem State.writePhysByte_scounteren (a : Nat) (b : Byte) : (s.writePhysByte a b).scounteren = s.scounteren :=
  (congrArg State.scounteren (s.writePhysByte_frame a b)).trans rfl
@[simp] theorem State.writePhysByte_mcycle (a : Nat) (b : Byte) : (s.writePhysByte a b).mcycle = s.mcycle :=
  (congrArg State.mcycle (s.writePhysByte_frame a b)).trans rfl
@[simp] theorem State.writePhysByte_minstret (a : Nat) (b : Byte) : (s.writePhysByte a b).minstret = s.minstret :=
  (congrArg State.minstret (s.writePhysByte_frame a b)).trans rfl
@[simp] theorem State.writePhysByte_satp (a : Nat) (b : Byte) : (s.writePhysByte a b).satp = s.satp :=
  (congrArg State.satp (s.writePhysByte_frame a b)).trans rfl
@[simp] theorem State.writePhysByte_pmpcfg (a : Nat) (b : Byte) : (s.writePhysByte a b).pmpcfg = s.pmpcfg :=
  (congrArg State.pmpcfg (s.writePhysByte_frame a b)).trans rfl
@[simp] theorem State.writePhysByte_pmpaddr (a : Nat) (b : Byte) : (s.writePhysByte a b).pmpaddr = s.pmpaddr :=
  (congrArg State.pmpaddr (s.writePhysByte_frame a b)).trans rfl
@[simp] theorem State.writePhysByte_tlb (a : Nat) (b : Byte) : (s.writePhysByte a b).tlb = s.tlb :=
  (congrArg State.tlb (s.writePhysByte_frame a b)).trans rfl
@[simp] theorem State.writePhysByte_waiting (a : Nat) (b : Byte) : (s.writePhysByte a b).waiting = s.waiting :=
  (congrArg State.waiting (s.writePhysByte_frame a b)).trans rfl
@[simp] theorem State.writePhysByte_mtime (a : Nat) (b : Byte) : (s.writePhysByte a b).mtime = s.mtime :=
  (congrArg State.mtime (s.writePhysByte_frame a b)).trans rfl
@[simp] theorem State.writePhysByte_platform (a : Nat) (b : Byte) : (s.writePhysByte a b).platform = s.platform :=
  (congrArg State.platform (s.writePhysByte_frame a b)).trans rfl
@[simp] theorem State.writePhysByte_env (a : Nat) (b : Byte) : (s.writePhysByte a b).env = s.env :=
  (congrArg State.env (s.writePhysByte_frame a b)).trans rfl
@[simp] theorem State.writePhysByte_tlbChoice (a : Nat) (b : Byte) : (s.writePhysByte a b).tlbChoice = s.tlbChoice :=
  (congrArg State.tlbChoice (s.writePhysByte_frame a b)).trans rfl
@[simp] theorem State.writePhysByte_draws (a : Nat) (b : Byte) : (s.writePhysByte a b).draws = s.draws :=
  (congrArg State.draws (s.writePhysByte_frame a b)).trans rfl
@[simp] theorem State.writePhysByte_deviceLog (a : Nat) (b : Byte) : (s.writePhysByte a b).deviceLog = s.deviceLog :=
  (congrArg State.deviceLog (s.writePhysByte_frame a b)).trans rfl
@[simp] theorem State.writePhysBytes_x (a : Nat) (bs : List Byte) : (s.writePhysBytes a bs).x = s.x :=
  (congrArg State.x (s.writePhysBytes_frame a bs)).trans rfl
@[simp] theorem State.writePhysBytes_pc (a : Nat) (bs : List Byte) : (s.writePhysBytes a bs).pc = s.pc :=
  (congrArg State.pc (s.writePhysBytes_frame a bs)).trans rfl
@[simp] theorem State.writePhysBytes_priv (a : Nat) (bs : List Byte) : (s.writePhysBytes a bs).priv = s.priv :=
  (congrArg State.priv (s.writePhysBytes_frame a bs)).trans rfl
@[simp] theorem State.writePhysBytes_mstatus (a : Nat) (bs : List Byte) : (s.writePhysBytes a bs).mstatus = s.mstatus :=
  (congrArg State.mstatus (s.writePhysBytes_frame a bs)).trans rfl
@[simp] theorem State.writePhysBytes_medeleg (a : Nat) (bs : List Byte) : (s.writePhysBytes a bs).medeleg = s.medeleg :=
  (congrArg State.medeleg (s.writePhysBytes_frame a bs)).trans rfl
@[simp] theorem State.writePhysBytes_mideleg (a : Nat) (bs : List Byte) : (s.writePhysBytes a bs).mideleg = s.mideleg :=
  (congrArg State.mideleg (s.writePhysBytes_frame a bs)).trans rfl
@[simp] theorem State.writePhysBytes_mie (a : Nat) (bs : List Byte) : (s.writePhysBytes a bs).mie = s.mie :=
  (congrArg State.mie (s.writePhysBytes_frame a bs)).trans rfl
@[simp] theorem State.writePhysBytes_mip (a : Nat) (bs : List Byte) : (s.writePhysBytes a bs).mip = s.mip :=
  (congrArg State.mip (s.writePhysBytes_frame a bs)).trans rfl
@[simp] theorem State.writePhysBytes_mtvec (a : Nat) (bs : List Byte) : (s.writePhysBytes a bs).mtvec = s.mtvec :=
  (congrArg State.mtvec (s.writePhysBytes_frame a bs)).trans rfl
@[simp] theorem State.writePhysBytes_stvec (a : Nat) (bs : List Byte) : (s.writePhysBytes a bs).stvec = s.stvec :=
  (congrArg State.stvec (s.writePhysBytes_frame a bs)).trans rfl
@[simp] theorem State.writePhysBytes_mepc (a : Nat) (bs : List Byte) : (s.writePhysBytes a bs).mepc = s.mepc :=
  (congrArg State.mepc (s.writePhysBytes_frame a bs)).trans rfl
@[simp] theorem State.writePhysBytes_sepc (a : Nat) (bs : List Byte) : (s.writePhysBytes a bs).sepc = s.sepc :=
  (congrArg State.sepc (s.writePhysBytes_frame a bs)).trans rfl
@[simp] theorem State.writePhysBytes_mcause (a : Nat) (bs : List Byte) : (s.writePhysBytes a bs).mcause = s.mcause :=
  (congrArg State.mcause (s.writePhysBytes_frame a bs)).trans rfl
@[simp] theorem State.writePhysBytes_scause (a : Nat) (bs : List Byte) : (s.writePhysBytes a bs).scause = s.scause :=
  (congrArg State.scause (s.writePhysBytes_frame a bs)).trans rfl
@[simp] theorem State.writePhysBytes_mtval (a : Nat) (bs : List Byte) : (s.writePhysBytes a bs).mtval = s.mtval :=
  (congrArg State.mtval (s.writePhysBytes_frame a bs)).trans rfl
@[simp] theorem State.writePhysBytes_stval (a : Nat) (bs : List Byte) : (s.writePhysBytes a bs).stval = s.stval :=
  (congrArg State.stval (s.writePhysBytes_frame a bs)).trans rfl
@[simp] theorem State.writePhysBytes_mscratch (a : Nat) (bs : List Byte) : (s.writePhysBytes a bs).mscratch = s.mscratch :=
  (congrArg State.mscratch (s.writePhysBytes_frame a bs)).trans rfl
@[simp] theorem State.writePhysBytes_sscratch (a : Nat) (bs : List Byte) : (s.writePhysBytes a bs).sscratch = s.sscratch :=
  (congrArg State.sscratch (s.writePhysBytes_frame a bs)).trans rfl
@[simp] theorem State.writePhysBytes_mcounteren (a : Nat) (bs : List Byte) : (s.writePhysBytes a bs).mcounteren = s.mcounteren :=
  (congrArg State.mcounteren (s.writePhysBytes_frame a bs)).trans rfl
@[simp] theorem State.writePhysBytes_scounteren (a : Nat) (bs : List Byte) : (s.writePhysBytes a bs).scounteren = s.scounteren :=
  (congrArg State.scounteren (s.writePhysBytes_frame a bs)).trans rfl
@[simp] theorem State.writePhysBytes_mcycle (a : Nat) (bs : List Byte) : (s.writePhysBytes a bs).mcycle = s.mcycle :=
  (congrArg State.mcycle (s.writePhysBytes_frame a bs)).trans rfl
@[simp] theorem State.writePhysBytes_minstret (a : Nat) (bs : List Byte) : (s.writePhysBytes a bs).minstret = s.minstret :=
  (congrArg State.minstret (s.writePhysBytes_frame a bs)).trans rfl
@[simp] theorem State.writePhysBytes_satp (a : Nat) (bs : List Byte) : (s.writePhysBytes a bs).satp = s.satp :=
  (congrArg State.satp (s.writePhysBytes_frame a bs)).trans rfl
@[simp] theorem State.writePhysBytes_pmpcfg (a : Nat) (bs : List Byte) : (s.writePhysBytes a bs).pmpcfg = s.pmpcfg :=
  (congrArg State.pmpcfg (s.writePhysBytes_frame a bs)).trans rfl
@[simp] theorem State.writePhysBytes_pmpaddr (a : Nat) (bs : List Byte) : (s.writePhysBytes a bs).pmpaddr = s.pmpaddr :=
  (congrArg State.pmpaddr (s.writePhysBytes_frame a bs)).trans rfl
@[simp] theorem State.writePhysBytes_tlb (a : Nat) (bs : List Byte) : (s.writePhysBytes a bs).tlb = s.tlb :=
  (congrArg State.tlb (s.writePhysBytes_frame a bs)).trans rfl
@[simp] theorem State.writePhysBytes_waiting (a : Nat) (bs : List Byte) : (s.writePhysBytes a bs).waiting = s.waiting :=
  (congrArg State.waiting (s.writePhysBytes_frame a bs)).trans rfl
@[simp] theorem State.writePhysBytes_mtime (a : Nat) (bs : List Byte) : (s.writePhysBytes a bs).mtime = s.mtime :=
  (congrArg State.mtime (s.writePhysBytes_frame a bs)).trans rfl
@[simp] theorem State.writePhysBytes_platform (a : Nat) (bs : List Byte) : (s.writePhysBytes a bs).platform = s.platform :=
  (congrArg State.platform (s.writePhysBytes_frame a bs)).trans rfl
@[simp] theorem State.writePhysBytes_env (a : Nat) (bs : List Byte) : (s.writePhysBytes a bs).env = s.env :=
  (congrArg State.env (s.writePhysBytes_frame a bs)).trans rfl
@[simp] theorem State.writePhysBytes_tlbChoice (a : Nat) (bs : List Byte) : (s.writePhysBytes a bs).tlbChoice = s.tlbChoice :=
  (congrArg State.tlbChoice (s.writePhysBytes_frame a bs)).trans rfl
@[simp] theorem State.writePhysBytes_draws (a : Nat) (bs : List Byte) : (s.writePhysBytes a bs).draws = s.draws :=
  (congrArg State.draws (s.writePhysBytes_frame a bs)).trans rfl
@[simp] theorem State.writePhysBytes_deviceLog (a : Nat) (bs : List Byte) : (s.writePhysBytes a bs).deviceLog = s.deviceLog :=
  (congrArg State.deviceLog (s.writePhysBytes_frame a bs)).trans rfl

/-! ## What the environment does at the start of a step -/

@[simp] theorem State.envWrites_x (ws : List Host.Cell) : (s.envWrites ws).x = s.x :=
  (congrArg State.x (s.envWrites_frame ws)).trans rfl
@[simp] theorem State.envWrites_pc (ws : List Host.Cell) : (s.envWrites ws).pc = s.pc :=
  (congrArg State.pc (s.envWrites_frame ws)).trans rfl
@[simp] theorem State.envWrites_priv (ws : List Host.Cell) : (s.envWrites ws).priv = s.priv :=
  (congrArg State.priv (s.envWrites_frame ws)).trans rfl
@[simp] theorem State.envWrites_mstatus (ws : List Host.Cell) : (s.envWrites ws).mstatus = s.mstatus :=
  (congrArg State.mstatus (s.envWrites_frame ws)).trans rfl
@[simp] theorem State.envWrites_medeleg (ws : List Host.Cell) : (s.envWrites ws).medeleg = s.medeleg :=
  (congrArg State.medeleg (s.envWrites_frame ws)).trans rfl
@[simp] theorem State.envWrites_mideleg (ws : List Host.Cell) : (s.envWrites ws).mideleg = s.mideleg :=
  (congrArg State.mideleg (s.envWrites_frame ws)).trans rfl
@[simp] theorem State.envWrites_mie (ws : List Host.Cell) : (s.envWrites ws).mie = s.mie :=
  (congrArg State.mie (s.envWrites_frame ws)).trans rfl
@[simp] theorem State.envWrites_mip (ws : List Host.Cell) : (s.envWrites ws).mip = s.mip :=
  (congrArg State.mip (s.envWrites_frame ws)).trans rfl
@[simp] theorem State.envWrites_mtvec (ws : List Host.Cell) : (s.envWrites ws).mtvec = s.mtvec :=
  (congrArg State.mtvec (s.envWrites_frame ws)).trans rfl
@[simp] theorem State.envWrites_stvec (ws : List Host.Cell) : (s.envWrites ws).stvec = s.stvec :=
  (congrArg State.stvec (s.envWrites_frame ws)).trans rfl
@[simp] theorem State.envWrites_mepc (ws : List Host.Cell) : (s.envWrites ws).mepc = s.mepc :=
  (congrArg State.mepc (s.envWrites_frame ws)).trans rfl
@[simp] theorem State.envWrites_sepc (ws : List Host.Cell) : (s.envWrites ws).sepc = s.sepc :=
  (congrArg State.sepc (s.envWrites_frame ws)).trans rfl
@[simp] theorem State.envWrites_mcause (ws : List Host.Cell) : (s.envWrites ws).mcause = s.mcause :=
  (congrArg State.mcause (s.envWrites_frame ws)).trans rfl
@[simp] theorem State.envWrites_scause (ws : List Host.Cell) : (s.envWrites ws).scause = s.scause :=
  (congrArg State.scause (s.envWrites_frame ws)).trans rfl
@[simp] theorem State.envWrites_mtval (ws : List Host.Cell) : (s.envWrites ws).mtval = s.mtval :=
  (congrArg State.mtval (s.envWrites_frame ws)).trans rfl
@[simp] theorem State.envWrites_stval (ws : List Host.Cell) : (s.envWrites ws).stval = s.stval :=
  (congrArg State.stval (s.envWrites_frame ws)).trans rfl
@[simp] theorem State.envWrites_mscratch (ws : List Host.Cell) : (s.envWrites ws).mscratch = s.mscratch :=
  (congrArg State.mscratch (s.envWrites_frame ws)).trans rfl
@[simp] theorem State.envWrites_sscratch (ws : List Host.Cell) : (s.envWrites ws).sscratch = s.sscratch :=
  (congrArg State.sscratch (s.envWrites_frame ws)).trans rfl
@[simp] theorem State.envWrites_mcounteren (ws : List Host.Cell) : (s.envWrites ws).mcounteren = s.mcounteren :=
  (congrArg State.mcounteren (s.envWrites_frame ws)).trans rfl
@[simp] theorem State.envWrites_scounteren (ws : List Host.Cell) : (s.envWrites ws).scounteren = s.scounteren :=
  (congrArg State.scounteren (s.envWrites_frame ws)).trans rfl
@[simp] theorem State.envWrites_mcycle (ws : List Host.Cell) : (s.envWrites ws).mcycle = s.mcycle :=
  (congrArg State.mcycle (s.envWrites_frame ws)).trans rfl
@[simp] theorem State.envWrites_minstret (ws : List Host.Cell) : (s.envWrites ws).minstret = s.minstret :=
  (congrArg State.minstret (s.envWrites_frame ws)).trans rfl
@[simp] theorem State.envWrites_satp (ws : List Host.Cell) : (s.envWrites ws).satp = s.satp :=
  (congrArg State.satp (s.envWrites_frame ws)).trans rfl
@[simp] theorem State.envWrites_pmpcfg (ws : List Host.Cell) : (s.envWrites ws).pmpcfg = s.pmpcfg :=
  (congrArg State.pmpcfg (s.envWrites_frame ws)).trans rfl
@[simp] theorem State.envWrites_pmpaddr (ws : List Host.Cell) : (s.envWrites ws).pmpaddr = s.pmpaddr :=
  (congrArg State.pmpaddr (s.envWrites_frame ws)).trans rfl
@[simp] theorem State.envWrites_tlb (ws : List Host.Cell) : (s.envWrites ws).tlb = s.tlb :=
  (congrArg State.tlb (s.envWrites_frame ws)).trans rfl
@[simp] theorem State.envWrites_waiting (ws : List Host.Cell) : (s.envWrites ws).waiting = s.waiting :=
  (congrArg State.waiting (s.envWrites_frame ws)).trans rfl
@[simp] theorem State.envWrites_mtime (ws : List Host.Cell) : (s.envWrites ws).mtime = s.mtime :=
  (congrArg State.mtime (s.envWrites_frame ws)).trans rfl
@[simp] theorem State.envWrites_platform (ws : List Host.Cell) : (s.envWrites ws).platform = s.platform :=
  (congrArg State.platform (s.envWrites_frame ws)).trans rfl
@[simp] theorem State.envWrites_env (ws : List Host.Cell) : (s.envWrites ws).env = s.env :=
  (congrArg State.env (s.envWrites_frame ws)).trans rfl
@[simp] theorem State.envWrites_tlbChoice (ws : List Host.Cell) : (s.envWrites ws).tlbChoice = s.tlbChoice :=
  (congrArg State.tlbChoice (s.envWrites_frame ws)).trans rfl
@[simp] theorem State.envWrites_draws (ws : List Host.Cell) : (s.envWrites ws).draws = s.draws :=
  (congrArg State.draws (s.envWrites_frame ws)).trans rfl
@[simp] theorem State.envWrites_deviceLog (ws : List Host.Cell) : (s.envWrites ws).deviceLog = s.deviceLog :=
  (congrArg State.deviceLog (s.envWrites_frame ws)).trans rfl
@[simp] theorem State.tlbFill_x (tag : Nat) (va : Word) : (s.tlbFill tag va).x = s.x :=
  (congrArg State.x (s.tlbFill_frame tag va)).trans rfl
@[simp] theorem State.tlbFill_pc (tag : Nat) (va : Word) : (s.tlbFill tag va).pc = s.pc :=
  (congrArg State.pc (s.tlbFill_frame tag va)).trans rfl
@[simp] theorem State.tlbFill_priv (tag : Nat) (va : Word) : (s.tlbFill tag va).priv = s.priv :=
  (congrArg State.priv (s.tlbFill_frame tag va)).trans rfl
@[simp] theorem State.tlbFill_mstatus (tag : Nat) (va : Word) : (s.tlbFill tag va).mstatus = s.mstatus :=
  (congrArg State.mstatus (s.tlbFill_frame tag va)).trans rfl
@[simp] theorem State.tlbFill_medeleg (tag : Nat) (va : Word) : (s.tlbFill tag va).medeleg = s.medeleg :=
  (congrArg State.medeleg (s.tlbFill_frame tag va)).trans rfl
@[simp] theorem State.tlbFill_mideleg (tag : Nat) (va : Word) : (s.tlbFill tag va).mideleg = s.mideleg :=
  (congrArg State.mideleg (s.tlbFill_frame tag va)).trans rfl
@[simp] theorem State.tlbFill_mie (tag : Nat) (va : Word) : (s.tlbFill tag va).mie = s.mie :=
  (congrArg State.mie (s.tlbFill_frame tag va)).trans rfl
@[simp] theorem State.tlbFill_mip (tag : Nat) (va : Word) : (s.tlbFill tag va).mip = s.mip :=
  (congrArg State.mip (s.tlbFill_frame tag va)).trans rfl
@[simp] theorem State.tlbFill_mtvec (tag : Nat) (va : Word) : (s.tlbFill tag va).mtvec = s.mtvec :=
  (congrArg State.mtvec (s.tlbFill_frame tag va)).trans rfl
@[simp] theorem State.tlbFill_stvec (tag : Nat) (va : Word) : (s.tlbFill tag va).stvec = s.stvec :=
  (congrArg State.stvec (s.tlbFill_frame tag va)).trans rfl
@[simp] theorem State.tlbFill_mepc (tag : Nat) (va : Word) : (s.tlbFill tag va).mepc = s.mepc :=
  (congrArg State.mepc (s.tlbFill_frame tag va)).trans rfl
@[simp] theorem State.tlbFill_sepc (tag : Nat) (va : Word) : (s.tlbFill tag va).sepc = s.sepc :=
  (congrArg State.sepc (s.tlbFill_frame tag va)).trans rfl
@[simp] theorem State.tlbFill_mcause (tag : Nat) (va : Word) : (s.tlbFill tag va).mcause = s.mcause :=
  (congrArg State.mcause (s.tlbFill_frame tag va)).trans rfl
@[simp] theorem State.tlbFill_scause (tag : Nat) (va : Word) : (s.tlbFill tag va).scause = s.scause :=
  (congrArg State.scause (s.tlbFill_frame tag va)).trans rfl
@[simp] theorem State.tlbFill_mtval (tag : Nat) (va : Word) : (s.tlbFill tag va).mtval = s.mtval :=
  (congrArg State.mtval (s.tlbFill_frame tag va)).trans rfl
@[simp] theorem State.tlbFill_stval (tag : Nat) (va : Word) : (s.tlbFill tag va).stval = s.stval :=
  (congrArg State.stval (s.tlbFill_frame tag va)).trans rfl
@[simp] theorem State.tlbFill_mscratch (tag : Nat) (va : Word) : (s.tlbFill tag va).mscratch = s.mscratch :=
  (congrArg State.mscratch (s.tlbFill_frame tag va)).trans rfl
@[simp] theorem State.tlbFill_sscratch (tag : Nat) (va : Word) : (s.tlbFill tag va).sscratch = s.sscratch :=
  (congrArg State.sscratch (s.tlbFill_frame tag va)).trans rfl
@[simp] theorem State.tlbFill_mcounteren (tag : Nat) (va : Word) : (s.tlbFill tag va).mcounteren = s.mcounteren :=
  (congrArg State.mcounteren (s.tlbFill_frame tag va)).trans rfl
@[simp] theorem State.tlbFill_scounteren (tag : Nat) (va : Word) : (s.tlbFill tag va).scounteren = s.scounteren :=
  (congrArg State.scounteren (s.tlbFill_frame tag va)).trans rfl
@[simp] theorem State.tlbFill_mcycle (tag : Nat) (va : Word) : (s.tlbFill tag va).mcycle = s.mcycle :=
  (congrArg State.mcycle (s.tlbFill_frame tag va)).trans rfl
@[simp] theorem State.tlbFill_minstret (tag : Nat) (va : Word) : (s.tlbFill tag va).minstret = s.minstret :=
  (congrArg State.minstret (s.tlbFill_frame tag va)).trans rfl
@[simp] theorem State.tlbFill_satp (tag : Nat) (va : Word) : (s.tlbFill tag va).satp = s.satp :=
  (congrArg State.satp (s.tlbFill_frame tag va)).trans rfl
@[simp] theorem State.tlbFill_pmpcfg (tag : Nat) (va : Word) : (s.tlbFill tag va).pmpcfg = s.pmpcfg :=
  (congrArg State.pmpcfg (s.tlbFill_frame tag va)).trans rfl
@[simp] theorem State.tlbFill_pmpaddr (tag : Nat) (va : Word) : (s.tlbFill tag va).pmpaddr = s.pmpaddr :=
  (congrArg State.pmpaddr (s.tlbFill_frame tag va)).trans rfl
@[simp] theorem State.tlbFill_mem (tag : Nat) (va : Word) : (s.tlbFill tag va).mem = s.mem :=
  (congrArg State.mem (s.tlbFill_frame tag va)).trans rfl
@[simp] theorem State.tlbFill_fetchStale (tag : Nat) (va : Word) : (s.tlbFill tag va).fetchStale = s.fetchStale :=
  (congrArg State.fetchStale (s.tlbFill_frame tag va)).trans rfl
@[simp] theorem State.tlbFill_waiting (tag : Nat) (va : Word) : (s.tlbFill tag va).waiting = s.waiting :=
  (congrArg State.waiting (s.tlbFill_frame tag va)).trans rfl
@[simp] theorem State.tlbFill_irqIn (tag : Nat) (va : Word) : (s.tlbFill tag va).irqIn = s.irqIn :=
  (congrArg State.irqIn (s.tlbFill_frame tag va)).trans rfl
@[simp] theorem State.tlbFill_mtime (tag : Nat) (va : Word) : (s.tlbFill tag va).mtime = s.mtime :=
  (congrArg State.mtime (s.tlbFill_frame tag va)).trans rfl
@[simp] theorem State.tlbFill_mtimecmp (tag : Nat) (va : Word) : (s.tlbFill tag va).mtimecmp = s.mtimecmp :=
  (congrArg State.mtimecmp (s.tlbFill_frame tag va)).trans rfl
@[simp] theorem State.tlbFill_platform (tag : Nat) (va : Word) : (s.tlbFill tag va).platform = s.platform :=
  (congrArg State.platform (s.tlbFill_frame tag va)).trans rfl
@[simp] theorem State.tlbFill_env (tag : Nat) (va : Word) : (s.tlbFill tag va).env = s.env :=
  (congrArg State.env (s.tlbFill_frame tag va)).trans rfl
@[simp] theorem State.tlbFill_tlbChoice (tag : Nat) (va : Word) : (s.tlbFill tag va).tlbChoice = s.tlbChoice :=
  (congrArg State.tlbChoice (s.tlbFill_frame tag va)).trans rfl
@[simp] theorem State.tlbFill_draws (tag : Nat) (va : Word) : (s.tlbFill tag va).draws = s.draws :=
  (congrArg State.draws (s.tlbFill_frame tag va)).trans rfl
@[simp] theorem State.tlbFill_deviceLog (tag : Nat) (va : Word) : (s.tlbFill tag va).deviceLog = s.deviceLog :=
  (congrArg State.deviceLog (s.tlbFill_frame tag va)).trans rfl
@[simp] theorem State.envFills_x (tag : Nat) (vs : List Word) : (s.envFills tag vs).x = s.x :=
  (congrArg State.x (s.envFills_frame tag vs)).trans rfl
@[simp] theorem State.envFills_pc (tag : Nat) (vs : List Word) : (s.envFills tag vs).pc = s.pc :=
  (congrArg State.pc (s.envFills_frame tag vs)).trans rfl
@[simp] theorem State.envFills_priv (tag : Nat) (vs : List Word) : (s.envFills tag vs).priv = s.priv :=
  (congrArg State.priv (s.envFills_frame tag vs)).trans rfl
@[simp] theorem State.envFills_mstatus (tag : Nat) (vs : List Word) : (s.envFills tag vs).mstatus = s.mstatus :=
  (congrArg State.mstatus (s.envFills_frame tag vs)).trans rfl
@[simp] theorem State.envFills_medeleg (tag : Nat) (vs : List Word) : (s.envFills tag vs).medeleg = s.medeleg :=
  (congrArg State.medeleg (s.envFills_frame tag vs)).trans rfl
@[simp] theorem State.envFills_mideleg (tag : Nat) (vs : List Word) : (s.envFills tag vs).mideleg = s.mideleg :=
  (congrArg State.mideleg (s.envFills_frame tag vs)).trans rfl
@[simp] theorem State.envFills_mie (tag : Nat) (vs : List Word) : (s.envFills tag vs).mie = s.mie :=
  (congrArg State.mie (s.envFills_frame tag vs)).trans rfl
@[simp] theorem State.envFills_mip (tag : Nat) (vs : List Word) : (s.envFills tag vs).mip = s.mip :=
  (congrArg State.mip (s.envFills_frame tag vs)).trans rfl
@[simp] theorem State.envFills_mtvec (tag : Nat) (vs : List Word) : (s.envFills tag vs).mtvec = s.mtvec :=
  (congrArg State.mtvec (s.envFills_frame tag vs)).trans rfl
@[simp] theorem State.envFills_stvec (tag : Nat) (vs : List Word) : (s.envFills tag vs).stvec = s.stvec :=
  (congrArg State.stvec (s.envFills_frame tag vs)).trans rfl
@[simp] theorem State.envFills_mepc (tag : Nat) (vs : List Word) : (s.envFills tag vs).mepc = s.mepc :=
  (congrArg State.mepc (s.envFills_frame tag vs)).trans rfl
@[simp] theorem State.envFills_sepc (tag : Nat) (vs : List Word) : (s.envFills tag vs).sepc = s.sepc :=
  (congrArg State.sepc (s.envFills_frame tag vs)).trans rfl
@[simp] theorem State.envFills_mcause (tag : Nat) (vs : List Word) : (s.envFills tag vs).mcause = s.mcause :=
  (congrArg State.mcause (s.envFills_frame tag vs)).trans rfl
@[simp] theorem State.envFills_scause (tag : Nat) (vs : List Word) : (s.envFills tag vs).scause = s.scause :=
  (congrArg State.scause (s.envFills_frame tag vs)).trans rfl
@[simp] theorem State.envFills_mtval (tag : Nat) (vs : List Word) : (s.envFills tag vs).mtval = s.mtval :=
  (congrArg State.mtval (s.envFills_frame tag vs)).trans rfl
@[simp] theorem State.envFills_stval (tag : Nat) (vs : List Word) : (s.envFills tag vs).stval = s.stval :=
  (congrArg State.stval (s.envFills_frame tag vs)).trans rfl
@[simp] theorem State.envFills_mscratch (tag : Nat) (vs : List Word) : (s.envFills tag vs).mscratch = s.mscratch :=
  (congrArg State.mscratch (s.envFills_frame tag vs)).trans rfl
@[simp] theorem State.envFills_sscratch (tag : Nat) (vs : List Word) : (s.envFills tag vs).sscratch = s.sscratch :=
  (congrArg State.sscratch (s.envFills_frame tag vs)).trans rfl
@[simp] theorem State.envFills_mcounteren (tag : Nat) (vs : List Word) : (s.envFills tag vs).mcounteren = s.mcounteren :=
  (congrArg State.mcounteren (s.envFills_frame tag vs)).trans rfl
@[simp] theorem State.envFills_scounteren (tag : Nat) (vs : List Word) : (s.envFills tag vs).scounteren = s.scounteren :=
  (congrArg State.scounteren (s.envFills_frame tag vs)).trans rfl
@[simp] theorem State.envFills_mcycle (tag : Nat) (vs : List Word) : (s.envFills tag vs).mcycle = s.mcycle :=
  (congrArg State.mcycle (s.envFills_frame tag vs)).trans rfl
@[simp] theorem State.envFills_minstret (tag : Nat) (vs : List Word) : (s.envFills tag vs).minstret = s.minstret :=
  (congrArg State.minstret (s.envFills_frame tag vs)).trans rfl
@[simp] theorem State.envFills_satp (tag : Nat) (vs : List Word) : (s.envFills tag vs).satp = s.satp :=
  (congrArg State.satp (s.envFills_frame tag vs)).trans rfl
@[simp] theorem State.envFills_pmpcfg (tag : Nat) (vs : List Word) : (s.envFills tag vs).pmpcfg = s.pmpcfg :=
  (congrArg State.pmpcfg (s.envFills_frame tag vs)).trans rfl
@[simp] theorem State.envFills_pmpaddr (tag : Nat) (vs : List Word) : (s.envFills tag vs).pmpaddr = s.pmpaddr :=
  (congrArg State.pmpaddr (s.envFills_frame tag vs)).trans rfl
@[simp] theorem State.envFills_mem (tag : Nat) (vs : List Word) : (s.envFills tag vs).mem = s.mem :=
  (congrArg State.mem (s.envFills_frame tag vs)).trans rfl
@[simp] theorem State.envFills_fetchStale (tag : Nat) (vs : List Word) : (s.envFills tag vs).fetchStale = s.fetchStale :=
  (congrArg State.fetchStale (s.envFills_frame tag vs)).trans rfl
@[simp] theorem State.envFills_waiting (tag : Nat) (vs : List Word) : (s.envFills tag vs).waiting = s.waiting :=
  (congrArg State.waiting (s.envFills_frame tag vs)).trans rfl
@[simp] theorem State.envFills_irqIn (tag : Nat) (vs : List Word) : (s.envFills tag vs).irqIn = s.irqIn :=
  (congrArg State.irqIn (s.envFills_frame tag vs)).trans rfl
@[simp] theorem State.envFills_mtime (tag : Nat) (vs : List Word) : (s.envFills tag vs).mtime = s.mtime :=
  (congrArg State.mtime (s.envFills_frame tag vs)).trans rfl
@[simp] theorem State.envFills_mtimecmp (tag : Nat) (vs : List Word) : (s.envFills tag vs).mtimecmp = s.mtimecmp :=
  (congrArg State.mtimecmp (s.envFills_frame tag vs)).trans rfl
@[simp] theorem State.envFills_platform (tag : Nat) (vs : List Word) : (s.envFills tag vs).platform = s.platform :=
  (congrArg State.platform (s.envFills_frame tag vs)).trans rfl
@[simp] theorem State.envFills_env (tag : Nat) (vs : List Word) : (s.envFills tag vs).env = s.env :=
  (congrArg State.env (s.envFills_frame tag vs)).trans rfl
@[simp] theorem State.envFills_tlbChoice (tag : Nat) (vs : List Word) : (s.envFills tag vs).tlbChoice = s.tlbChoice :=
  (congrArg State.tlbChoice (s.envFills_frame tag vs)).trans rfl
@[simp] theorem State.envFills_draws (tag : Nat) (vs : List Word) : (s.envFills tag vs).draws = s.draws :=
  (congrArg State.draws (s.envFills_frame tag vs)).trans rfl
@[simp] theorem State.envFills_deviceLog (tag : Nat) (vs : List Word) : (s.envFills tag vs).deviceLog = s.deviceLog :=
  (congrArg State.deviceLog (s.envFills_frame tag vs)).trans rfl
@[simp] theorem State.wakeUp_x (w : Bool) : (s.wakeUp w).x = s.x := rfl
@[simp] theorem State.wakeUp_pc (w : Bool) : (s.wakeUp w).pc = s.pc := rfl
@[simp] theorem State.wakeUp_priv (w : Bool) : (s.wakeUp w).priv = s.priv := rfl
@[simp] theorem State.wakeUp_mstatus (w : Bool) : (s.wakeUp w).mstatus = s.mstatus := rfl
@[simp] theorem State.wakeUp_medeleg (w : Bool) : (s.wakeUp w).medeleg = s.medeleg := rfl
@[simp] theorem State.wakeUp_mideleg (w : Bool) : (s.wakeUp w).mideleg = s.mideleg := rfl
@[simp] theorem State.wakeUp_mie (w : Bool) : (s.wakeUp w).mie = s.mie := rfl
@[simp] theorem State.wakeUp_mip (w : Bool) : (s.wakeUp w).mip = s.mip := rfl
@[simp] theorem State.wakeUp_mtvec (w : Bool) : (s.wakeUp w).mtvec = s.mtvec := rfl
@[simp] theorem State.wakeUp_stvec (w : Bool) : (s.wakeUp w).stvec = s.stvec := rfl
@[simp] theorem State.wakeUp_mepc (w : Bool) : (s.wakeUp w).mepc = s.mepc := rfl
@[simp] theorem State.wakeUp_sepc (w : Bool) : (s.wakeUp w).sepc = s.sepc := rfl
@[simp] theorem State.wakeUp_mcause (w : Bool) : (s.wakeUp w).mcause = s.mcause := rfl
@[simp] theorem State.wakeUp_scause (w : Bool) : (s.wakeUp w).scause = s.scause := rfl
@[simp] theorem State.wakeUp_mtval (w : Bool) : (s.wakeUp w).mtval = s.mtval := rfl
@[simp] theorem State.wakeUp_stval (w : Bool) : (s.wakeUp w).stval = s.stval := rfl
@[simp] theorem State.wakeUp_mscratch (w : Bool) : (s.wakeUp w).mscratch = s.mscratch := rfl
@[simp] theorem State.wakeUp_sscratch (w : Bool) : (s.wakeUp w).sscratch = s.sscratch := rfl
@[simp] theorem State.wakeUp_mcounteren (w : Bool) : (s.wakeUp w).mcounteren = s.mcounteren := rfl
@[simp] theorem State.wakeUp_scounteren (w : Bool) : (s.wakeUp w).scounteren = s.scounteren := rfl
@[simp] theorem State.wakeUp_mcycle (w : Bool) : (s.wakeUp w).mcycle = s.mcycle := rfl
@[simp] theorem State.wakeUp_minstret (w : Bool) : (s.wakeUp w).minstret = s.minstret := rfl
@[simp] theorem State.wakeUp_satp (w : Bool) : (s.wakeUp w).satp = s.satp := rfl
@[simp] theorem State.wakeUp_pmpcfg (w : Bool) : (s.wakeUp w).pmpcfg = s.pmpcfg := rfl
@[simp] theorem State.wakeUp_pmpaddr (w : Bool) : (s.wakeUp w).pmpaddr = s.pmpaddr := rfl
@[simp] theorem State.wakeUp_mem (w : Bool) : (s.wakeUp w).mem = s.mem := rfl
@[simp] theorem State.wakeUp_tlb (w : Bool) : (s.wakeUp w).tlb = s.tlb := rfl
@[simp] theorem State.wakeUp_fetchStale (w : Bool) : (s.wakeUp w).fetchStale = s.fetchStale := rfl
@[simp] theorem State.wakeUp_irqIn (w : Bool) : (s.wakeUp w).irqIn = s.irqIn := rfl
@[simp] theorem State.wakeUp_mtime (w : Bool) : (s.wakeUp w).mtime = s.mtime := rfl
@[simp] theorem State.wakeUp_mtimecmp (w : Bool) : (s.wakeUp w).mtimecmp = s.mtimecmp := rfl
@[simp] theorem State.wakeUp_platform (w : Bool) : (s.wakeUp w).platform = s.platform := rfl
@[simp] theorem State.wakeUp_env (w : Bool) : (s.wakeUp w).env = s.env := rfl
@[simp] theorem State.wakeUp_tlbChoice (w : Bool) : (s.wakeUp w).tlbChoice = s.tlbChoice := rfl
@[simp] theorem State.wakeUp_draws (w : Bool) : (s.wakeUp w).draws = s.draws := rfl
@[simp] theorem State.wakeUp_deviceLog (w : Bool) : (s.wakeUp w).deviceLog = s.deviceLog := rfl
@[simp] theorem State.applyInput_x (e : EnvInput) : (s.applyInput e).x = s.x := rfl
@[simp] theorem State.applyInput_pc (e : EnvInput) : (s.applyInput e).pc = s.pc := rfl
@[simp] theorem State.applyInput_priv (e : EnvInput) : (s.applyInput e).priv = s.priv := rfl
@[simp] theorem State.applyInput_mstatus (e : EnvInput) : (s.applyInput e).mstatus = s.mstatus := rfl
@[simp] theorem State.applyInput_medeleg (e : EnvInput) : (s.applyInput e).medeleg = s.medeleg := rfl
@[simp] theorem State.applyInput_mideleg (e : EnvInput) : (s.applyInput e).mideleg = s.mideleg := rfl
@[simp] theorem State.applyInput_mie (e : EnvInput) : (s.applyInput e).mie = s.mie := rfl
@[simp] theorem State.applyInput_mip (e : EnvInput) : (s.applyInput e).mip = s.mip := rfl
@[simp] theorem State.applyInput_mtvec (e : EnvInput) : (s.applyInput e).mtvec = s.mtvec := rfl
@[simp] theorem State.applyInput_stvec (e : EnvInput) : (s.applyInput e).stvec = s.stvec := rfl
@[simp] theorem State.applyInput_mepc (e : EnvInput) : (s.applyInput e).mepc = s.mepc := rfl
@[simp] theorem State.applyInput_sepc (e : EnvInput) : (s.applyInput e).sepc = s.sepc := rfl
@[simp] theorem State.applyInput_mcause (e : EnvInput) : (s.applyInput e).mcause = s.mcause := rfl
@[simp] theorem State.applyInput_scause (e : EnvInput) : (s.applyInput e).scause = s.scause := rfl
@[simp] theorem State.applyInput_mtval (e : EnvInput) : (s.applyInput e).mtval = s.mtval := rfl
@[simp] theorem State.applyInput_stval (e : EnvInput) : (s.applyInput e).stval = s.stval := rfl
@[simp] theorem State.applyInput_mscratch (e : EnvInput) : (s.applyInput e).mscratch = s.mscratch := rfl
@[simp] theorem State.applyInput_sscratch (e : EnvInput) : (s.applyInput e).sscratch = s.sscratch := rfl
@[simp] theorem State.applyInput_mcounteren (e : EnvInput) : (s.applyInput e).mcounteren = s.mcounteren := rfl
@[simp] theorem State.applyInput_scounteren (e : EnvInput) : (s.applyInput e).scounteren = s.scounteren := rfl
@[simp] theorem State.applyInput_minstret (e : EnvInput) : (s.applyInput e).minstret = s.minstret := rfl
@[simp] theorem State.applyInput_satp (e : EnvInput) : (s.applyInput e).satp = s.satp := rfl
@[simp] theorem State.applyInput_pmpcfg (e : EnvInput) : (s.applyInput e).pmpcfg = s.pmpcfg := rfl
@[simp] theorem State.applyInput_pmpaddr (e : EnvInput) : (s.applyInput e).pmpaddr = s.pmpaddr := rfl
@[simp] theorem State.applyInput_mem (e : EnvInput) : (s.applyInput e).mem = s.mem := rfl
@[simp] theorem State.applyInput_tlb (e : EnvInput) : (s.applyInput e).tlb = s.tlb := rfl
@[simp] theorem State.applyInput_fetchStale (e : EnvInput) : (s.applyInput e).fetchStale = s.fetchStale := rfl
@[simp] theorem State.applyInput_waiting (e : EnvInput) : (s.applyInput e).waiting = s.waiting := rfl
@[simp] theorem State.applyInput_mtimecmp (e : EnvInput) : (s.applyInput e).mtimecmp = s.mtimecmp := rfl
@[simp] theorem State.applyInput_platform (e : EnvInput) : (s.applyInput e).platform = s.platform := rfl
@[simp] theorem State.applyInput_deviceLog (e : EnvInput) : (s.applyInput e).deviceLog = s.deviceLog := rfl
@[simp] theorem State.applyInput_irqIn (e : EnvInput) : (s.applyInput e).irqIn = applyLines e s.irqIn := rfl
@[simp] theorem State.applyInput_mtime (e : EnvInput) : (s.applyInput e).mtime = advanceTime s.mtime e.mtimeAdvance := rfl
@[simp] theorem State.applyInput_mcycle (e : EnvInput) : (s.applyInput e).mcycle = s.mcycle + e.cycles := rfl
@[simp] theorem State.applyInput_tlbChoice (e : EnvInput) : (s.applyInput e).tlbChoice = e.tlbUse := rfl
@[simp] theorem State.applyInput_env (e : EnvInput) : (s.applyInput e).env = s.env.tail := rfl
@[simp] theorem State.applyInput_draws (e : EnvInput) : (s.applyInput e).draws = s.draws + 1 := rfl
@[simp] theorem State.sample_x : s.sample.x = s.x := by simp [State.sample]
@[simp] theorem State.sample_pc : s.sample.pc = s.pc := by simp [State.sample]
@[simp] theorem State.sample_priv : s.sample.priv = s.priv := by simp [State.sample]
@[simp] theorem State.sample_mstatus : s.sample.mstatus = s.mstatus := by simp [State.sample]
@[simp] theorem State.sample_medeleg : s.sample.medeleg = s.medeleg := by simp [State.sample]
@[simp] theorem State.sample_mideleg : s.sample.mideleg = s.mideleg := by simp [State.sample]
@[simp] theorem State.sample_mie : s.sample.mie = s.mie := by simp [State.sample]
@[simp] theorem State.sample_mip : s.sample.mip = s.mip := by simp [State.sample]
@[simp] theorem State.sample_mtvec : s.sample.mtvec = s.mtvec := by simp [State.sample]
@[simp] theorem State.sample_stvec : s.sample.stvec = s.stvec := by simp [State.sample]
@[simp] theorem State.sample_mepc : s.sample.mepc = s.mepc := by simp [State.sample]
@[simp] theorem State.sample_sepc : s.sample.sepc = s.sepc := by simp [State.sample]
@[simp] theorem State.sample_mcause : s.sample.mcause = s.mcause := by simp [State.sample]
@[simp] theorem State.sample_scause : s.sample.scause = s.scause := by simp [State.sample]
@[simp] theorem State.sample_mtval : s.sample.mtval = s.mtval := by simp [State.sample]
@[simp] theorem State.sample_stval : s.sample.stval = s.stval := by simp [State.sample]
@[simp] theorem State.sample_mscratch : s.sample.mscratch = s.mscratch := by simp [State.sample]
@[simp] theorem State.sample_sscratch : s.sample.sscratch = s.sscratch := by simp [State.sample]
@[simp] theorem State.sample_mcounteren : s.sample.mcounteren = s.mcounteren := by simp [State.sample]
@[simp] theorem State.sample_scounteren : s.sample.scounteren = s.scounteren := by simp [State.sample]
@[simp] theorem State.sample_minstret : s.sample.minstret = s.minstret := by simp [State.sample]
@[simp] theorem State.sample_satp : s.sample.satp = s.satp := by simp [State.sample]
@[simp] theorem State.sample_pmpcfg : s.sample.pmpcfg = s.pmpcfg := by simp [State.sample]
@[simp] theorem State.sample_pmpaddr : s.sample.pmpaddr = s.pmpaddr := by simp [State.sample]
@[simp] theorem State.sample_platform : s.sample.platform = s.platform := by simp [State.sample]
@[simp] theorem State.sample_deviceLog : s.sample.deviceLog = s.deviceLog := by simp [State.sample]

/-! ## csrWrite -/

/-- What a CSR write may change. -/
theorem State.csrWrite_frame (c : Csr) (v : Word) : s.csrWrite c v =
    { s with
      mstatus := (s.csrWrite c v).mstatus
      medeleg := (s.csrWrite c v).medeleg
      mideleg := (s.csrWrite c v).mideleg
      mie := (s.csrWrite c v).mie
      mip := (s.csrWrite c v).mip
      mtvec := (s.csrWrite c v).mtvec
      stvec := (s.csrWrite c v).stvec
      mepc := (s.csrWrite c v).mepc
      sepc := (s.csrWrite c v).sepc
      mcause := (s.csrWrite c v).mcause
      scause := (s.csrWrite c v).scause
      mtval := (s.csrWrite c v).mtval
      stval := (s.csrWrite c v).stval
      mscratch := (s.csrWrite c v).mscratch
      sscratch := (s.csrWrite c v).sscratch
      mcounteren := (s.csrWrite c v).mcounteren
      scounteren := (s.csrWrite c v).scounteren
      mcycle := (s.csrWrite c v).mcycle
      minstret := (s.csrWrite c v).minstret
      satp := (s.csrWrite c v).satp
      pmpcfg := (s.csrWrite c v).pmpcfg
      pmpaddr := (s.csrWrite c v).pmpaddr } := by
  cases c <;> rfl

@[simp] theorem State.csrWrite_x (c : Csr) (v : Word) : (s.csrWrite c v).x = s.x :=
  (congrArg State.x (s.csrWrite_frame c v)).trans rfl
@[simp] theorem State.csrWrite_pc (c : Csr) (v : Word) : (s.csrWrite c v).pc = s.pc :=
  (congrArg State.pc (s.csrWrite_frame c v)).trans rfl
@[simp] theorem State.csrWrite_priv (c : Csr) (v : Word) : (s.csrWrite c v).priv = s.priv :=
  (congrArg State.priv (s.csrWrite_frame c v)).trans rfl
@[simp] theorem State.csrWrite_mem (c : Csr) (v : Word) : (s.csrWrite c v).mem = s.mem :=
  (congrArg State.mem (s.csrWrite_frame c v)).trans rfl
@[simp] theorem State.csrWrite_tlb (c : Csr) (v : Word) : (s.csrWrite c v).tlb = s.tlb :=
  (congrArg State.tlb (s.csrWrite_frame c v)).trans rfl
@[simp] theorem State.csrWrite_fetchStale (c : Csr) (v : Word) : (s.csrWrite c v).fetchStale = s.fetchStale :=
  (congrArg State.fetchStale (s.csrWrite_frame c v)).trans rfl
@[simp] theorem State.csrWrite_waiting (c : Csr) (v : Word) : (s.csrWrite c v).waiting = s.waiting :=
  (congrArg State.waiting (s.csrWrite_frame c v)).trans rfl
@[simp] theorem State.csrWrite_irqIn (c : Csr) (v : Word) : (s.csrWrite c v).irqIn = s.irqIn :=
  (congrArg State.irqIn (s.csrWrite_frame c v)).trans rfl
@[simp] theorem State.csrWrite_mtime (c : Csr) (v : Word) : (s.csrWrite c v).mtime = s.mtime :=
  (congrArg State.mtime (s.csrWrite_frame c v)).trans rfl
@[simp] theorem State.csrWrite_mtimecmp (c : Csr) (v : Word) : (s.csrWrite c v).mtimecmp = s.mtimecmp :=
  (congrArg State.mtimecmp (s.csrWrite_frame c v)).trans rfl
@[simp] theorem State.csrWrite_platform (c : Csr) (v : Word) : (s.csrWrite c v).platform = s.platform :=
  (congrArg State.platform (s.csrWrite_frame c v)).trans rfl
@[simp] theorem State.csrWrite_env (c : Csr) (v : Word) : (s.csrWrite c v).env = s.env :=
  (congrArg State.env (s.csrWrite_frame c v)).trans rfl
@[simp] theorem State.csrWrite_tlbChoice (c : Csr) (v : Word) : (s.csrWrite c v).tlbChoice = s.tlbChoice :=
  (congrArg State.tlbChoice (s.csrWrite_frame c v)).trans rfl
@[simp] theorem State.csrWrite_draws (c : Csr) (v : Word) : (s.csrWrite c v).draws = s.draws :=
  (congrArg State.draws (s.csrWrite_frame c v)).trans rfl
@[simp] theorem State.csrWrite_deviceLog (c : Csr) (v : Word) : (s.csrWrite c v).deviceLog = s.deviceLog :=
  (congrArg State.deviceLog (s.csrWrite_frame c v)).trans rfl

end Sys2Proof.Machine
end

