-- ==== Sys2Proof/Laws/Memory.lean ====
section
/-! SUPPORT. Memory: read after write, and that every operation keeps the canonical form; `fetch_stale` likewise. -/

namespace Sys2Proof.Machine

/-! ## Reading after writing -/

theorem Memory.read_insert (m : Memory) (x : Nat) (v : Byte) (y : Nat) :
    (m.insert x v).read y = if y = x then v else m.read y := by
  induction m with
  | nil => simp only [Memory.insert, Memory.read, eq_comm]
  | cons c rest ih =>
    obtain ⟨a, b⟩ := c
    unfold Memory.insert
    split
    · by_cases h : y = x
      · simp [Memory.read, h]
      · simp [Memory.read, h, Ne.symm h]
    · split
      · subst_vars
        by_cases h : y = a
        · simp [Memory.read, h]
        · simp [Memory.read, h, Ne.symm h]
      · rename_i h2
        simp only [Memory.read, ih]
        by_cases h : a = y
        · subst h; simp [Ne.symm h2]
        · simp [h]

theorem Memory.read_of_all_lt (m : Memory) (x : Nat) (h : m.all (fun c => x < c.1) = true) :
    m.read x = Config.unlistedByte := by
  induction m with
  | nil => rfl
  | cons c rest ih =>
    obtain ⟨a, b⟩ := c
    simp only [List.all_cons, Bool.and_eq_true, decide_eq_true_eq] at h
    simp only [Memory.read, if_neg (show a ≠ x by omega), ih h.2]

theorem Memory.read_erase (m : Memory) (hw : m.wf = true) (x y : Nat) :
    (m.erase x).read y = if y = x then Config.unlistedByte else m.read y := by
  induction m with
  | nil => simp [Memory.erase, Memory.read]
  | cons c rest ih =>
    obtain ⟨a, b⟩ := c
    simp only [Memory.wf, Bool.and_eq_true] at hw
    unfold Memory.erase
    split
    · subst_vars
      by_cases h : y = a
      · subst h; simp [Memory.read_of_all_lt rest y hw.1.2]
      · simp [h, Memory.read, Ne.symm h]
    · rename_i h2
      simp only [Memory.read, ih hw.2]
      by_cases h : a = y
      · subst h; simp [h2]
      · simp [h]

/-- A read after a write gives the value written there, and every other address reads as before. -/
theorem Memory.read_write (m : Memory) (hw : m.wf = true) (x : Nat) (v : Byte) (y : Nat) :
    (m.write x v).read y = if y = x then v else m.read y := by
  unfold Memory.write
  split
  · rename_i h; simp [Memory.read_erase m hw, h]
  · exact Memory.read_insert m x v y

/-- Erasing elsewhere, the form assumed nowhere: other addresses read as before. -/
theorem Memory.read_write_other (m : Memory) (x : Nat) (v : Byte) (y : Nat) (h : y ≠ x) :
    (m.write x v).read y = m.read y := by
  unfold Memory.write
  split
  · induction m with
    | nil => rfl
    | cons c rest ih =>
      obtain ⟨a, b⟩ := c
      unfold Memory.erase
      split
      · subst_vars; simp [Memory.read, Ne.symm h]
      · simp [Memory.read, ih]
  · simp [Memory.read_insert, h]

/-! ## The canonical form -/

theorem Memory.all_lt_insert (m : Memory) (x : Nat) (v : Byte) (a : Nat) (ha : a < x)
    (h : m.all (fun c => a < c.1) = true) : (m.insert x v).all (fun c => a < c.1) = true := by
  induction m with
  | nil => simp [Memory.insert, ha]
  | cons c rest ih =>
    obtain ⟨b, w⟩ := c
    simp only [List.all_cons, Bool.and_eq_true, decide_eq_true_eq] at h
    unfold Memory.insert
    split
    · simp only [List.all_cons, Bool.and_eq_true, decide_eq_true_eq]; exact ⟨ha, h.1, h.2⟩
    · split
      · simp only [List.all_cons, Bool.and_eq_true, decide_eq_true_eq]; exact ⟨ha, h.2⟩
      · simp only [List.all_cons, Bool.and_eq_true, decide_eq_true_eq]; exact ⟨h.1, ih h.2⟩

theorem Memory.wf_insert (m : Memory) (x : Nat) (v : Byte) (hv : v ≠ Config.unlistedByte) (h : m.wf = true) :
    (m.insert x v).wf = true := by
  induction m with
  | nil => simp [Memory.insert, Memory.wf, hv]
  | cons c rest ih =>
    obtain ⟨a, b⟩ := c
    simp only [Memory.wf, Bool.and_eq_true] at h
    unfold Memory.insert
    split
    · rename_i hx
      simp only [Memory.wf, Bool.and_eq_true, bne_iff_ne, List.all_cons, decide_eq_true_eq]
      refine ⟨⟨hv, hx, ?_⟩, ⟨?_, h.1.2⟩, h.2⟩
      · rw [List.all_eq_true] at *
        intro c hc
        have := h.1.2 c hc
        simp only [decide_eq_true_eq] at *
        omega
      · simpa using h.1.1
    · split
      · subst_vars
        simp only [Memory.wf, Bool.and_eq_true, bne_iff_ne]
        exact ⟨⟨hv, h.1.2⟩, h.2⟩
      · simp only [Memory.wf, Bool.and_eq_true]
        exact ⟨⟨h.1.1, Memory.all_lt_insert rest x v a (by omega) h.1.2⟩, ih h.2⟩

theorem Memory.all_erase (m : Memory) (x : Nat) (p : Host.Cell → Bool) (h : m.all p = true) :
    (m.erase x).all p = true := by
  induction m with
  | nil => rfl
  | cons c rest ih =>
    obtain ⟨a, b⟩ := c
    simp only [List.all_cons, Bool.and_eq_true] at h
    unfold Memory.erase
    split
    · exact h.2
    · simp only [List.all_cons, Bool.and_eq_true]; exact ⟨h.1, ih h.2⟩

theorem Memory.wf_erase (m : Memory) (x : Nat) (h : m.wf = true) : (m.erase x).wf = true := by
  induction m with
  | nil => rfl
  | cons c rest ih =>
    obtain ⟨a, b⟩ := c
    simp only [Memory.wf, Bool.and_eq_true] at h
    unfold Memory.erase
    split
    · exact h.2
    · simp only [Memory.wf, Bool.and_eq_true]
      exact ⟨⟨h.1.1, Memory.all_erase rest x _ h.1.2⟩, ih h.2⟩

/-- A write keeps the canonical form. -/
theorem Memory.wf_write (m : Memory) (x : Nat) (v : Byte) (h : m.wf = true) : (m.write x v).wf = true := by
  unfold Memory.write
  split
  · exact Memory.wf_erase m x h
  · exact Memory.wf_insert m x v ‹_› h

/-! ## fetch_stale -/

theorem addCandidate_nonempty (vs : List Byte) (v : Byte) : (addCandidate vs v).isEmpty = false := by
  unfold addCandidate
  split
  · rename_i h; cases vs <;> simp_all
  · simp

theorem all_lt_noteStale (f : List (Nat × List Byte)) (x : Nat) (old new : Byte) (a : Nat) (ha : a < x)
    (h : f.all (fun c => a < c.1) = true) : (noteStale f x old new).all (fun c => a < c.1) = true := by
  induction f with
  | nil => simp [noteStale, ha]
  | cons c rest ih =>
    obtain ⟨b, w⟩ := c
    simp only [List.all_cons, Bool.and_eq_true, decide_eq_true_eq] at h
    unfold noteStale
    split
    · simp only [List.all_cons, Bool.and_eq_true, decide_eq_true_eq]; exact ⟨ha, h.1, h.2⟩
    · split
      · simp only [List.all_cons, Bool.and_eq_true, decide_eq_true_eq]; exact ⟨ha, h.2⟩
      · simp only [List.all_cons, Bool.and_eq_true, decide_eq_true_eq]; exact ⟨h.1, ih h.2⟩

/-- Noting a write keeps the canonical form of `fetch_stale`. -/
theorem staleWf_noteStale (f : List (Nat × List Byte)) (x : Nat) (old new : Byte) (h : staleWf f = true) :
    staleWf (noteStale f x old new) = true := by
  induction f with
  | nil => simp [noteStale, staleWf, addCandidate_nonempty]
  | cons c rest ih =>
    obtain ⟨a, vs⟩ := c
    simp only [staleWf, Bool.and_eq_true] at h
    unfold noteStale
    split
    · rename_i hx
      simp only [staleWf, addCandidate_nonempty, Bool.not_false, Bool.true_and, Bool.and_eq_true, List.all_cons,
        decide_eq_true_eq]
      refine ⟨⟨hx, ?_⟩, ⟨h.1.1, h.1.2⟩, h.2⟩
      rw [List.all_eq_true] at *
      intro c hc
      have := h.1.2 c hc
      simp only [decide_eq_true_eq] at *
      omega
    · split
      · subst_vars
        simp only [staleWf, addCandidate_nonempty, Bool.not_false, Bool.true_and, Bool.and_eq_true]
        exact ⟨h.1.2, h.2⟩
      · simp only [staleWf, Bool.and_eq_true]
        exact ⟨⟨h.1.1, all_lt_noteStale rest x old new a (by omega) h.1.2⟩, ih h.2⟩

/-- The noted address has the written value among its candidates; every other address keeps its own. -/
theorem staleCandidates_noteStale (f : List (Nat × List Byte)) (hw : staleWf f = true) (x : Nat) (old new : Byte) (y : Nat) :
    staleCandidates (noteStale f x old new) y =
      if y = x then addCandidate (if (staleCandidates f x).isEmpty then [old] else staleCandidates f x) new
      else staleCandidates f y := by
  induction f with
  | nil => simp only [noteStale, staleCandidates, eq_comm (a := x)]; split <;> simp
  | cons c rest ih =>
    obtain ⟨a, vs⟩ := c
    simp only [staleWf, Bool.and_eq_true] at hw
    unfold noteStale
    have hrest : ∀ g : List (Nat × List Byte), g.all (fun c => x < c.1) = true → staleCandidates g x = [] := by
      intro g
      induction g with
      | nil => intro _; rfl
      | cons d g ihg =>
        intro hg
        simp only [List.all_cons, Bool.and_eq_true, decide_eq_true_eq] at hg
        simp only [staleCandidates, if_neg (show d.1 ≠ x by omega), ihg hg.2]
    split
    · rename_i hx
      have h0 : staleCandidates ((a, vs) :: rest) x = [] := by
        apply hrest
        simp only [List.all_cons, Bool.and_eq_true, decide_eq_true_eq]
        refine ⟨hx, ?_⟩
        have h2 := hw.1.2
        rw [List.all_eq_true] at *
        intro c hc
        have := h2 c hc
        simp only [decide_eq_true_eq] at *
        omega
      rw [h0]
      by_cases h : y = x
      · simp [h, staleCandidates]
      · simp only [staleCandidates, if_neg (Ne.symm h), h, if_false]
    · split
      · subst_vars
        by_cases h : y = a
        · subst h
          have : vs.isEmpty = false := by simpa using hw.1.1
          simp [staleCandidates, this]
        · simp only [staleCandidates, if_neg (Ne.symm h), h, if_false]
      · rename_i h1 h2
        simp only [staleCandidates, ih hw.2, if_neg (show a ≠ x by omega)]
        by_cases h : a = y
        · subst h; simp [Ne.symm h2]
        · simp [h]

/-! ## Bytes of a value -/

theorem length_toBytes (v : Word) (n : Nat) : (toBytes v n).length = n := by
  induction n generalizing v with
  | zero => rfl
  | succ n ih => simp [toBytes, ih]

theorem length_addressesFrom (a n : Nat) : (addressesFrom a n).length = n := by
  induction n generalizing a with
  | zero => rfl
  | succ n ih => simp [addressesFrom, ih]

theorem mem_addressesFrom (a n y : Nat) : y ∈ addressesFrom a n ↔ a ≤ y ∧ y < a + n := by
  induction n generalizing a with
  | zero => simp [addressesFrom]
  | succ n ih => simp only [addressesFrom, List.mem_cons, ih]; omega

/-! ## Stores of bytes -/

theorem wf_writePhysByte (s : State) (a : Nat) (b : Byte) (h : Memory.wf s.mem = true) :
    Memory.wf (s.writePhysByte a b).mem = true := by
  unfold State.writePhysByte State.deviceRegWrite
  repeat' (first | exact h | exact Memory.wf_write _ _ _ h | split)

theorem staleWf_writePhysByte (s : State) (a : Nat) (b : Byte) (h : staleWf s.fetchStale = true) :
    staleWf (s.writePhysByte a b).fetchStale = true := by
  unfold State.writePhysByte State.deviceRegWrite
  repeat' (first | exact staleWf_noteStale _ _ _ _ h | split)

theorem wf_writePhysBytes (s : State) (a : Nat) (bs : List Byte) (h : Memory.wf s.mem = true) :
    Memory.wf (s.writePhysBytes a bs).mem = true := by
  induction bs generalizing s a with
  | nil => exact h
  | cons b rest ih => exact ih _ _ (wf_writePhysByte s a b h)

theorem staleWf_writePhysBytes (s : State) (a : Nat) (bs : List Byte) (h : staleWf s.fetchStale = true) :
    staleWf (s.writePhysBytes a bs).fetchStale = true := by
  induction bs generalizing s a with
  | nil => exact h
  | cons b rest ih => exact ih _ _ (staleWf_writePhysByte s a b h)

/-- A store of one byte leaves every other address's byte as it was. -/
theorem read_writePhysByte_other (s : State) (a : Nat) (b : Byte) (y : Nat) (h : y ≠ a) :
    Memory.read (s.writePhysByte a b).mem y = Memory.read s.mem y := by
  unfold State.writePhysByte State.deviceRegWrite
  repeat' (first | rfl | exact Memory.read_write_other _ _ _ _ h | split)

/-- A store of one byte of main memory. -/
theorem read_writePhysByte_same (s : State) (a : Nat) (b : Byte) (hw : Memory.wf s.mem = true)
    (hm : isMainMemory s.platform a = true) : Memory.read (s.writePhysByte a b).mem a = b := by
  unfold isMainMemory at hm
  simp only [Bool.and_eq_true, Option.isNone_iff_eq_none, Bool.not_eq_true'] at hm
  unfold State.writePhysByte
  simp only [hm.1, hm.2]
  simp [Memory.read_write _ hw]

/-- What a store of bytes leaves at each address: outside them what was there; in main memory, the bytes stored. -/
theorem read_writePhysBytes (s : State) (a : Nat) (bs : List Byte) (y : Nat) :
    (¬ (a ≤ y ∧ y < a + bs.length) → Memory.read (s.writePhysBytes a bs).mem y = Memory.read s.mem y) ∧
    (Memory.wf s.mem = true → isMainMemory s.platform y = true → a ≤ y → ∀ h : y - a < bs.length,
      Memory.read (s.writePhysBytes a bs).mem y = bs[y - a]) := by
  induction bs generalizing s a with
  | nil => simp [State.writePhysBytes]
  | cons b rest ih =>
    obtain ⟨ih1, ih2⟩ := ih (s.writePhysByte a b) (a + 1)
    refine ⟨fun h => ?_, fun hw hm hle hlt => ?_⟩
    · simp only [List.length_cons] at h
      rw [State.writePhysBytes, ih1 (by omega), read_writePhysByte_other _ _ _ _ (by omega)]
    · rw [State.writePhysBytes]
      by_cases h : y = a
      · subst h
        rw [ih1 (by omega), read_writePhysByte_same s y b hw hm]
        simp
      · have hlt' : y - (a + 1) < rest.length := by simp only [List.length_cons] at hlt; omega
        rw [ih2 (wf_writePhysByte s a b hw) (by simpa using hm) (by omega) hlt']
        have : y - a = (y - (a + 1)) + 1 := by omega
        simp [this]

/-! ## fetch_stale and the environment's writes -/

/-- What is noted at another address stays (20_memory.md R163). -/
theorem staleCandidates_noteStale_other (f : List (Nat × List Byte)) (x y : Nat) (old new : Byte) (h : y ≠ x) :
    staleCandidates (noteStale f x old new) y = staleCandidates f y := by
  induction f with
  | nil => simp [noteStale, staleCandidates, Ne.symm h]
  | cons c rest ih =>
    obtain ⟨a, vs⟩ := c
    unfold noteStale
    split
    · simp [staleCandidates, Ne.symm h]
    · split
      · rename_i h2; subst h2; simp [staleCandidates, Ne.symm h]
      · simp only [staleCandidates, ih]

@[simp] theorem State.writePhysByte_fetchStale (s : State) (a : Nat) (b : Byte) :
    (s.writePhysByte a b).fetchStale = noteStale s.fetchStale a (Memory.read s.mem a) b := by
  unfold State.writePhysByte State.deviceRegWrite; repeat' (first | rfl | split)

/-- A noted value is one of those before or the new one (20_memory.md R163). -/
theorem mem_addCandidate (vs : List Byte) (v x : Byte) : x ∈ addCandidate vs v ↔ x ∈ vs ∨ x = v := by
  unfold addCandidate
  split
  · rename_i h
    simp only [List.contains_iff_mem] at h
    exact ⟨.inl, fun h1 => h1.elim id (fun e => e ▸ h)⟩
  · simp

/-- A store of a byte of main memory changes memory and what is noted (20_memory.md R130, R163). -/
theorem writePhysByte_main (s : State) (a : Nat) (b : Byte) (h : isMainMemory s.platform a = true) :
    s.writePhysByte a b =
      { s with mem := Memory.write s.mem a b, fetchStale := noteStale s.fetchStale a (Memory.read s.mem a) b } := by
  unfold isMainMemory at h
  rw [Bool.and_eq_true, Option.isNone_iff_eq_none, Bool.not_eq_true'] at h
  unfold State.writePhysByte
  simp [h.1, h.2]

/-- Where the bytes of the MSIP word lie (60_exceptions.md R396). -/
theorem deviceRegAt_msip {p : Platform} {a k : Nat} (h : deviceRegAt p a = some (.msip k)) :
    ∃ m, p.msipAddr = some m ∧ a = m + 4 * p.hartId.toNat + k := by
  unfold deviceRegAt at h
  split at h
  · rename_i j hj
    cases h
    unfold placeIn msipWordAddr at hj
    cases hm : p.msipAddr with
    | none => simp [hm] at hj
    | some m => simp [hm] at hj; exact ⟨m, rfl, by omega⟩
  · split at h
    · cases h
    · cases hc : placeIn p.mtimecmpAddr 8 a <;> simp [hc] at h

/-- Where the bytes of `mtimecmp` lie (60_exceptions.md R395). -/
theorem deviceRegAt_mtimecmp {p : Platform} {a k : Nat} (h : deviceRegAt p a = some (.mtimecmp k)) :
    ∃ c, p.mtimecmpAddr = some c ∧ c ≤ a ∧ a < c + 8 := by
  unfold deviceRegAt at h
  split at h
  · cases h
  · split at h
    · cases h
    · cases hc : placeIn p.mtimecmpAddr 8 a with
      | none => simp [hc] at h
      | some j =>
        unfold placeIn at hc
        cases hm : p.mtimecmpAddr with
        | none => simp [hm] at hc
        | some m => simp [hm] at hc; exact ⟨m, rfl, by omega, by omega⟩

/-- What a store of a byte leaves of the interrupt inputs, the timer and memory (60_exceptions.md R366, R395, R396). -/
theorem writePhysByte_device (s : State) (a : Nat) (b : Byte) :
    (s.writePhysByte a b).irqIn = { s.irqIn with msi := (s.writePhysByte a b).irqIn.msi } ∧
    ((∀ m, s.platform.msipAddr = some m → a ≠ m + 4 * s.platform.hartId.toNat) → (s.writePhysByte a b).irqIn = s.irqIn) ∧
    ((∀ c, s.platform.mtimecmpAddr = some c → a < c ∨ c + 8 ≤ a) → (s.writePhysByte a b).mtimecmp = s.mtimecmp) ∧
    (isMainMemory s.platform a = false → (s.writePhysByte a b).mem = s.mem) := by
  unfold State.writePhysByte
  cases hr : deviceRegAt s.platform a with
  | none =>
    refine ⟨by simp only; split <;> rfl, fun _ => by simp only; split <;> rfl, fun _ => by simp only; split <;> rfl, fun h => ?_⟩
    simp [isMainMemory, hr] at h
    simp [h]
  | some r =>
    cases r with
    | msip k =>
      obtain ⟨m, h1, h2⟩ := deviceRegAt_msip hr
      simp only [State.deviceRegWrite]
      refine ⟨by split <;> rfl, fun h => ?_, fun _ => by split <;> rfl, fun _ => by split <;> rfl⟩
      split
      · subst k; exact absurd h2 (h m h1)
      · rfl
    | mtime k => exact ⟨rfl, fun _ => rfl, fun _ => rfl, fun _ => rfl⟩
    | mtimecmp k =>
      obtain ⟨c, h1, h2, h3⟩ := deviceRegAt_mtimecmp hr
      refine ⟨rfl, fun _ => rfl, fun h => ?_, fun _ => rfl⟩
      have := h c h1
      omega

/-- A byte the environment writes is a store to main memory, a write of a platform register, or nothing the state holds
(20_memory.md R162). -/
theorem envWriteByte_cases (s : State) (a : Nat) (b : Byte) :
    (isMainMemory s.platform a = true ∧ s.envWriteByte a b = s.writePhysByte a b) ∨
    (∃ r, deviceRegAt s.platform a = some r ∧ s.envWriteByte a b = s.deviceRegWrite r b) ∨
    (isMainMemory s.platform a = false ∧ s.envWriteByte a b = s) := by
  unfold State.envWriteByte isMainMemory
  cases h : deviceRegAt s.platform a with
  | some r => exact .inr (.inl ⟨r, rfl, rfl⟩)
  | none =>
    cases hd : inDeviceSpace s.platform a
    · exact .inl ⟨by simp, by simp⟩
    · exact .inr (.inr ⟨by simp, by simp⟩)

/-- A write of a platform register changes no memory and nothing noted. -/
theorem deviceRegWrite_mem (s : State) (r : DeviceReg) (b : Byte) :
    (s.deviceRegWrite r b).mem = s.mem ∧ (s.deviceRegWrite r b).fetchStale = s.fetchStale := by
  unfold State.deviceRegWrite
  split
  · split <;> exact ⟨rfl, rfl⟩
  · exact ⟨rfl, rfl⟩
  · exact ⟨rfl, rfl⟩

/-- The environment's writes keep both canonical forms. -/
theorem wf_envWrites (s : State) (ws : List Host.Cell) (hm : Memory.wf s.mem = true) (hs : staleWf s.fetchStale = true) :
    Memory.wf (s.envWrites ws).mem = true ∧ staleWf (s.envWrites ws).fetchStale = true := by
  induction ws generalizing s with
  | nil => exact ⟨hm, hs⟩
  | cons w rest ih =>
    unfold State.envWrites
    split
    · rcases envWriteByte_cases s w.1 w.2 with ⟨-, e⟩ | ⟨r, -, e⟩ | ⟨-, e⟩ <;> rw [e]
      · exact ih _ (wf_writePhysByte s _ _ hm) (staleWf_writePhysByte s _ _ hs)
      · exact ih _ (by rw [(deviceRegWrite_mem s r w.2).1]; exact hm) (by rw [(deviceRegWrite_mem s r w.2).2]; exact hs)
      · exact ih s hm hs
    · exact ih s hm hs

end Sys2Proof.Machine
end

