-- ==== Sys2Proof/Laws/Status.lean ====
section
/-! SUPPORT. The bits of the status words. -/

namespace Sys2Proof.Machine

/-- The bits of a one-bit word. -/
theorem bitAt_getLsbD (b : Bool) (i k : Nat) (hi : i < 64) : (bitAt b i).getLsbD k = (b && k == i) := by
  have h1 : (1 <<< i : Word) = BitVec.twoPow 64 i := rfl
  cases b
  · simp [bitAt]
  · by_cases h : k = i
    · subst h; simp [bitAt, h1, hi]
    · simp [bitAt, h1, BitVec.getLsbD_twoPow, h, Ne.symm h]

theorem mstatusConstant_getLsbD (k : Nat) : mstatusConstant.getLsbD k = (k == 33 || k == 35) := by
  have : mstatusConstant = bitAt true 33 ||| bitAt true 35 := by decide
  rw [this, BitVec.getLsbD_or, bitAt_getLsbD _ _ _ (by omega), bitAt_getLsbD _ _ _ (by omega)]
  simp

theorem mpp_getLsbD (p : Priv) (k : Nat) :
    ((privCode p).setWidth 64 <<< 11 : Word).getLsbD k = ((p != .user && k == 11) || (p == .machine && k == 12)) := by
  have : ((privCode p).setWidth 64 <<< 11 : Word) = bitAt (p != .user) 11 ||| bitAt (p == .machine) 12 := by cases p <;> decide
  rw [this, BitVec.getLsbD_or, bitAt_getLsbD _ _ _ (by omega), bitAt_getLsbD _ _ _ (by omega)]

/-- The bits of `mstatus` (10_state.md R35, R46). -/
theorem MStatus.read_getLsbD (m : MStatus) (k : Nat) :
    m.read.getLsbD k =
      (k == 33 || k == 35 || (m.sie && k == 1) || (m.mie && k == 3) || (m.spie && k == 5) || (m.mpie && k == 7) ||
       (m.spp && k == 8) || ((m.mpp != .user && k == 11) || (m.mpp == .machine && k == 12)) || (m.mprv && k == 17) ||
       (m.sum && k == 18) || (m.mxr && k == 19) || (m.tvm && k == 20) || (m.tw && k == 21) || (m.tsr && k == 22)) := by
  unfold MStatus.read
  simp only [BitVec.getLsbD_or, mstatusConstant_getLsbD, mpp_getLsbD, bitAt_getLsbD _ _ _ (show 1 < 64 by omega),
    bitAt_getLsbD _ _ _ (show 3 < 64 by omega), bitAt_getLsbD _ _ _ (show 5 < 64 by omega),
    bitAt_getLsbD _ _ _ (show 7 < 64 by omega), bitAt_getLsbD _ _ _ (show 8 < 64 by omega),
    bitAt_getLsbD _ _ _ (show 17 < 64 by omega), bitAt_getLsbD _ _ _ (show 18 < 64 by omega),
    bitAt_getLsbD _ _ _ (show 19 < 64 by omega), bitAt_getLsbD _ _ _ (show 20 < 64 by omega),
    bitAt_getLsbD _ _ _ (show 21 < 64 by omega), bitAt_getLsbD _ _ _ (show 22 < 64 by omega)]

/-- The bits of `mip` (10_state.md R51). -/
theorem mipWith_getLsbD (s : State) (b : Bool) (k : Nat) :
    (s.mipWith b).getLsbD k =
      ((s.mip.ssip && k == 1) || (s.irqIn.msi && k == 3) || (s.mip.stip && k == 5) || (s.mtiLine && k == 7) || (b && k == 9) ||
       (s.irqIn.mei && k == 11)) := by
  unfold State.mipWith
  simp only [BitVec.getLsbD_or, bitAt_getLsbD _ _ _ (show 1 < 64 by omega), bitAt_getLsbD _ _ _ (show 3 < 64 by omega),
    bitAt_getLsbD _ _ _ (show 5 < 64 by omega), bitAt_getLsbD _ _ _ (show 7 < 64 by omega),
    bitAt_getLsbD _ _ _ (show 9 < 64 by omega), bitAt_getLsbD _ _ _ (show 11 < 64 by omega)]

/-- The bits of a masked write (10_state.md R48 to R50). -/
theorem maskedWrite_getLsbD (mask old v : Word) (k : Nat) :
    (maskedWrite mask old v).getLsbD k = if mask.getLsbD k then v.getLsbD k else old.getLsbD k := by
  unfold maskedWrite
  rw [BitVec.getLsbD_or, BitVec.getLsbD_and, BitVec.getLsbD_and, BitVec.getLsbD_not]
  by_cases hk : k < 64
  · cases mask.getLsbD k <;> simp [hk]
  · simp [hk, BitVec.getLsbD_of_ge mask k (by omega), BitVec.getLsbD_of_ge old k (by omega)]

end Sys2Proof.Machine
end

