-- ==== Sys2Proof/Laws/Access.lean ====
section
/-! SUPPORT. What protection, the page-table walk and the access path can answer. -/

namespace Sys2Proof.Machine

/-! ## Bytes -/

/-- The value of at most 8 bytes, as a number (20_memory.md R121). -/
theorem ofBytes_toNat (bs : List Byte) (h : bs.length ≤ 8) :
    (ofBytes bs).toNat = littleEndian bs ∧ littleEndian bs < 256 ^ bs.length := by
  induction bs with
  | nil => simp [ofBytes, littleEndian]
  | cons b r ih =>
    have ih := ih (by simp at h; omega)
    simp only [ofBytes, littleEndian, List.length_cons, BitVec.toNat_or, BitVec.toNat_setWidth, BitVec.toNat_shiftLeft]
    have hb := b.isLt
    have hl : r.length ≤ 7 := by simp only [List.length_cons] at h; omega
    have : 256 ^ r.length ≤ 256 ^ 7 := Nat.pow_le_pow_right (by omega) hl
    constructor
    · have h2 : littleEndian r * 2 ^ 8 < 2 ^ 64 := by omega
      rw [ih.1, Nat.shiftLeft_eq, Nat.mod_eq_of_lt h2, Nat.mod_eq_of_lt (by omega), Nat.mul_comm, Nat.or_comm,
        ← Nat.two_pow_add_eq_or_of_lt hb]
      omega
    · rw [Nat.pow_succ]; omega

/-- A byte of main memory reads as memory has it. -/
theorem readPhysByte_main (s : State) (tag a : Nat) (h : isMainMemory s.platform a = true) :
    s.readPhysByte tag a = Memory.read s.mem a := by
  unfold isMainMemory at h
  rw [Bool.and_eq_true, Option.isNone_iff_eq_none] at h
  unfold State.readPhysByte
  rw [h.1]
  simpa using fun h2 => absurd h2 (by simpa using h.2)

/-- Bytes of main memory read as memory has them. -/
theorem readPhys_main (s : State) (tag a n : Nat) (h : allMainMemory s.platform a n) :
    s.readPhys tag a n = ofBytes ((addressesFrom a n).map (Memory.read s.mem)) := by
  unfold State.readPhys
  congr 1
  apply List.map_congr_left
  intro y hy
  rw [mem_addressesFrom] at hy
  exact readPhysByte_main s tag y (h y hy.1 hy.2)

/-! ## Protection -/

/-- The address register before the `k`-th of a list that follows `Q`. -/
def addrBefore (Q : BitVec 54) (ps : List (BitVec 54)) (k : Nat) : BitVec 54 := ((Q :: ps)[k]?).getD 0

/-- The search ends at the first entry that has a byte of the access, with whether it has them all, or finds none
(20_memory.md R135). -/
theorem pmpSearch_cases (pa n : Nat) (Q : BitVec 54) (cs : List PmpCfg) (ps : List (BitVec 54)) :
    (pmpSearch pa n Q cs ps = none ∧
      ∀ (k : Nat) (c : PmpCfg) (P : BitVec 54), cs[k]? = some c → ps[k]? = some P → ∀ y, pa ≤ y → y < pa + n →
        pmpRegionHas c.a (addrBefore Q ps k) P y = false) ∨
    ∃ (k : Nat) (c : PmpCfg) (P : BitVec 54), cs[k]? = some c ∧ ps[k]? = some P ∧
      pmpSearch pa n Q cs ps = some (c, (addressesFrom pa n).all (pmpRegionHas c.a (addrBefore Q ps k) P)) ∧
      (∃ y, pa ≤ y ∧ y < pa + n ∧ pmpRegionHas c.a (addrBefore Q ps k) P y = true) ∧
      ∀ (j : Nat) (d : PmpCfg) (R : BitVec 54), j < k → cs[j]? = some d → ps[j]? = some R → ∀ y, pa ≤ y → y < pa + n →
        pmpRegionHas d.a (addrBefore Q ps j) R y = false := by
  induction cs generalizing Q ps with
  | nil => exact .inl ⟨rfl, by simp⟩
  | cons c cs ih =>
    cases ps with
    | nil => exact .inl ⟨rfl, by simp⟩
    | cons P ps =>
      have hb : ∀ k, addrBefore Q (P :: ps) (k + 1) = addrBefore P ps k := fun k => by simp [addrBefore]
      by_cases h : (addressesFrom pa n).any (pmpRegionHas c.a Q P) = true
      · refine .inr ⟨0, c, P, rfl, rfl, by simp [pmpSearch, h, addrBefore], ?_, by simp⟩
        obtain ⟨y, hy, h2⟩ := List.any_eq_true.mp h
        rw [mem_addressesFrom] at hy
        exact ⟨y, hy.1, hy.2, h2⟩
      · have h0 : ∀ y, pa ≤ y → y < pa + n → pmpRegionHas c.a Q P y = false := by
          intro y h1 h2
          by_contra h3
          exact h (List.any_eq_true.mpr ⟨y, (mem_addressesFrom pa n y).mpr ⟨h1, h2⟩, by simpa using h3⟩)
        have hs : pmpSearch pa n Q (c :: cs) (P :: ps) = pmpSearch pa n P cs ps := by
          rw [pmpSearch, if_neg h]
        rw [hs]
        rcases ih P ps with ⟨h1, h2⟩ | ⟨k, d, R, h1, h2, h3, h4, h5⟩
        · refine .inl ⟨h1, fun k d R hd hR => ?_⟩
          cases k with
          | zero => simp only [List.getElem?_cons_zero, Option.some.injEq] at hd hR; subst hd hR; exact h0
          | succ k => rw [hb]; exact h2 k d R (by simpa using hd) (by simpa using hR)
        · refine .inr ⟨k + 1, d, R, by simpa using h1, by simpa using h2, by rw [hb]; exact h3, by rw [hb]; exact h4, ?_⟩
          intro j d' R' hj hd hR
          cases j with
          | zero => simp only [List.getElem?_cons_zero, Option.some.injEq] at hd hR; subst hd hR; exact h0
          | succ j => rw [hb]; exact h5 j d' R' (by omega) (by simpa using hd) (by simpa using hR)

/-- The two checks, as the rules put them (20_memory.md R122, R127, R130). -/
theorem physAllows_iff (s : State) (pa n : Nat) (acc : Access) (p : Priv) :
    s.physAllows pa n acc p = true ↔ s.mayAccess pa n acc p := by
  have key : pmaAllows s.platform pa n acc = true ↔ pmaHas s.platform pa n acc := by
    unfold pmaAllows pmaHas regionContains regionAllows Config.physLimit
    rw [List.any_eq_true]
    cases acc <;> simp [and_assoc]
  unfold State.physAllows State.mayAccess
  rw [Bool.and_eq_true, key]

/-! ## Page table entries, by their bits -/

theorem ptePpn_eq (pte : Word) : ptePpn pte = entryPpn pte := by
  simp [ptePpn, entryPpn, Nat.shiftRight_eq_div_pow]

theorem reserved_eq_zero (pte : Word) : pte.extractLsb' 54 10 = 0 ↔ pte.toNat / 2 ^ 54 = 0 := by
  rw [← BitVec.toNat_inj]
  simp [Nat.shiftRight_eq_div_pow]
  omega

/-- A pointer is an entry whose low four bits are 0001 (20_memory.md R143, R145 steps 3 and 4). -/
theorem entryPoints_iff (pte : Word) : entryPoints pte ↔ pteInvalid pte = false ∧ ptePointer pte = true := by
  have low : pte.toNat % 16 = 1 ↔
      pte.getLsbD 0 = true ∧ pte.getLsbD 1 = false ∧ pte.getLsbD 2 = false ∧ pte.getLsbD 3 = false := by
    have e : pte.toNat % 16 = (pte.extractLsb' 0 4).toNat := by simp
    have b : ∀ k, k < 4 → pte.getLsbD k = (pte.extractLsb' 0 4).getLsbD k := by intro k hk; simp [hk]
    rw [e, b 0 (by omega), b 1 (by omega), b 2 (by omega), b 3 (by omega)]
    generalize pte.extractLsb' 0 4 = x
    revert x; decide
  unfold entryPoints
  rw [low, ← reserved_eq_zero]
  simp only [pteInvalid, ptePointer, pteV, pteR, pteW, pteX]
  cases pte.getLsbD 0 <;> cases pte.getLsbD 1 <;> cases pte.getLsbD 2 <;> cases pte.getLsbD 3 <;> simp

/-- A valid leaf, by the tests of the walk (20_memory.md R145 steps 3, 4 and 6). -/
theorem leafValid_iff (i : Nat) (pte : Word) :
    leafValid i pte ↔ pteInvalid pte = false ∧ ptePointer pte = false ∧ superpageMisaligned pte i = false := by
  unfold leafValid
  rw [← reserved_eq_zero]
  simp only [pteInvalid, ptePointer, pteV, pteR, pteW, pteX, superpageMisaligned, ptePpn_eq]
  cases pte.getLsbD 0 <;> cases pte.getLsbD 1 <;> cases pte.getLsbD 2 <;> cases pte.getLsbD 3 <;> simp

/-- The permission check of a leaf, by its bits (20_memory.md R146, R147). -/
theorem leafGrants_iff (s : State) (acc : Access) (p : Priv) (pte : Word) (hp : p ≠ .machine) :
    s.leafGrants acc p pte ↔ (s.leafPermits acc p pte && accessedDirtyOk acc pte) = true := by
  have h18 : s.mstatus.read.getLsbD 18 = s.mstatus.sum := by rw [MStatus.read_getLsbD]; simp
  have h19 : s.mstatus.read.getLsbD 19 = s.mstatus.mxr := by rw [MStatus.read_getLsbD]; simp
  unfold State.leafPermits accessedDirtyOk State.leafGrants State.userPageOk State.userGrants
  rw [h18, h19]
  unfold pteR pteW pteX pteU pteA pteD
  cases p <;> cases acc <;> simp at hp ⊢ <;> tauto

/-- The address through a leaf (20_memory.md R145 step 8). -/
theorem leafAddr_eq (i : Nat) (pte va : Word) : leafAddr i pte va = leafTarget i pte va := by
  have h : 2 ^ (12 + 9 * i) = 2 ^ (9 * i) * 4096 := by rw [Nat.pow_add, Nat.mul_comm]
  unfold leafAddr leafTarget
  simp only [ptePpn_eq, h, Nat.mul_div_mul_right _ _ (show 0 < 4096 by omega), Nat.mul_assoc]

/-- A page-table read of an entry in main memory (20_memory.md R145 step 2). -/
theorem readPte_entryAt (s : State) (tag a : Nat) (pte : Word) (h : s.entryAt a pte) : s.readPte tag a = some pte := by
  obtain ⟨h1, h2, h3⟩ := h
  unfold State.readPte
  rw [if_pos ((physAllows_iff _ _ _ _ _).mpr h2), readPhys_main _ _ _ _ h1, Option.some.injEq]
  apply BitVec.eq_of_toNat_eq
  rw [(ofBytes_toNat _ (by simp [length_addressesFrom])).1, h3]

/-! ## The walk -/

/-- A leaf that a walk finds is valid, is a leaf, and is no misaligned superpage (20_memory.md R145). -/
theorem walkFrom_leaf (s : State) (tag : Nat) (va : Word) (i a level : Nat) (pte : Word)
    (h : s.walkFrom tag va i a = .leaf level pte) :
    level ≤ i ∧ pteInvalid pte = false ∧ ptePointer pte = false ∧ superpageMisaligned pte level = false := by
  induction i generalizing a with
  | zero =>
    unfold State.walkFrom at h
    split at h
    · cases h
    · split at h
      · cases h
      · rename_i h2
        cases h
        simp only [Bool.or_eq_true, not_or, Bool.not_eq_true] at h2
        exact ⟨le_refl _, h2.1, h2.2, by simp [superpageMisaligned, Nat.mod_one]⟩
  | succ i ih =>
    unfold State.walkFrom at h
    split at h
    · cases h
    · split at h
      · cases h
      · split at h
        · obtain ⟨h1, h2⟩ := ih _ h
          exact ⟨by omega, h2⟩
        · split at h
          · cases h
          · cases h
            exact ⟨le_refl _, by simpa using ‹¬pteInvalid pte = true›, by simpa using ‹¬ptePointer pte = true›,
              by simpa using ‹¬superpageMisaligned pte (i + 1) = true›⟩

/-- A walk depends neither on what the TLB keeps nor on `waiting`. -/
theorem walk_congr (s : State) (l : List TlbEntry) (w : Bool) (tag : Nat) (va : Word) :
    ({ s with tlb := l, waiting := w }).walk tag va = s.walk tag va := by
  have key : ∀ i tag a, ({ s with tlb := l, waiting := w }).walkFrom tag va i a = s.walkFrom tag va i a := by
    intro i
    induction i with
    | zero => intro tag a; rfl
    | succ i ih =>
      intro tag a
      have hr : ∀ t, ({ s with tlb := l, waiting := w }).readPte t = s.readPte t := fun _ => rfl
      unfold State.walkFrom
      simp only [hr, ih]
  exact key _ _ _

/-- A translation gives the address through a leaf that permits the access, or a page fault or access fault at its own address
(20_memory.md R145). -/
theorem translate_cases (s : State) (acc : Access) (p : Priv) (va : Word) :
    (∃ i pte, s.lookup (s.choiceFor acc).1 (s.choiceFor acc).2 va = .leaf i pte ∧ s.leafPermits acc p pte = true ∧
      accessedDirtyOk acc pte = true ∧ s.translate acc p va = .ok (leafAddr i pte va)) ∨
    s.translate acc p va = .error ⟨pageFault acc, va⟩ ∨ s.translate acc p va = .error ⟨accessFault acc, va⟩ := by
  unfold State.translate
  split
  · exact .inr (.inl rfl)
  · cases h : s.lookup (s.choiceFor acc).1 (s.choiceFor acc).2 va with
    | pageFault => exact .inr (.inl rfl)
    | accessFault _ => exact .inr (.inr rfl)
    | leaf i pte =>
      by_cases h2 : (s.leafPermits acc p pte && accessedDirtyOk acc pte) = true
      · rw [Bool.and_eq_true] at h2
        exact .inl ⟨i, pte, rfl, h2.1, h2.2, by simp [h2]⟩
      · exact .inr (.inl (by simp only [h2]; rfl))

/-! ## The access path -/

/-- A physical address is given where both checks allow it; else the fault is of the access's own kind and at its own address
(20_memory.md R122, R130). -/
theorem physAddr_cases (s : State) (acc : Access) (p : Priv) (va : Word) (n : Nat) :
    (∃ pa, (if s.translates p then s.translate acc p va else .ok va.toNat) = .ok pa ∧ s.physAllows pa n acc p = true ∧
      s.physAddr acc p va n = .ok pa) ∨
    s.physAddr acc p va n = .error ⟨pageFault acc, va⟩ ∨ s.physAddr acc p va n = .error ⟨accessFault acc, va⟩ := by
  unfold State.physAddr
  cases h : (if s.translates p then s.translate acc p va else .ok va.toNat) with
  | error e =>
    split at h
    · rcases translate_cases s acc p va with ⟨_, _, -, -, -, h2⟩ | h2 | h2 <;> rw [h2] at h <;> cases h
      · exact .inr (.inl rfl)
      · exact .inr (.inr rfl)
    · cases h
  | ok pa =>
    by_cases h2 : s.physAllows pa n acc p = true
    · exact .inl ⟨pa, rfl, h2, by simp [h2]⟩
    · exact .inr (.inr (by simp [h2]))

end Sys2Proof.Machine
end

