-- ==== Sys2Proof/Laws/Decode.lean ====
section
/-! SUPPORT. The fields the decoder reads of a word the encoder wrote (30_encoding.md R191 to R199). -/

namespace Sys2Proof

theorem getLsbD_placeField {n : Nat} (f : BitVec n) (lo i : Nat) :
    (placeField f lo).getLsbD i = (decide (i < 32) && decide (lo ≤ i) && f.getLsbD (i - lo)) := by
  unfold placeField
  rw [BitVec.getLsbD_shiftLeft, BitVec.getLsbD_setWidth]
  by_cases h1 : i < 32 <;> by_cases h2 : lo ≤ i <;> simp [h1, h2, Nat.not_lt.mpr, Nat.lt_of_not_le]
  intro _; omega

theorem getElem_placeField {n : Nat} (f : BitVec n) (lo i : Nat) (h : i < 32) :
    (placeField f lo)[i] = (decide (lo ≤ i) && f.getLsbD (i - lo)) := by
  unfold placeField
  rw [BitVec.getElem_shiftLeft, BitVec.getElem_setWidth]
  by_cases h2 : lo ≤ i <;> simp [h2, Nat.not_lt.mpr, Nat.lt_of_not_le]


/-! ## R -/

@[simp] theorem fieldOpcode_encodeR (f7 : BitVec 7) (rs2 rs1 : Reg) (f3 : BitVec 3) (rd : Reg) (op : BitVec 7) :
    fieldOpcode (encodeR f7 rs2 rs1 f3 rd op) = op := by
  apply BitVec.eq_of_getLsbD_eq
  intro i hi
  simp only [fieldOpcode, encodeR]
  interval_cases i <;> simp [getElem_placeField, BitVec.getLsbD_of_ge]
@[simp] theorem fieldRd_encodeR (f7 : BitVec 7) (rs2 rs1 : Reg) (f3 : BitVec 3) (rd : Reg) (op : BitVec 7) :
    fieldRd (encodeR f7 rs2 rs1 f3 rd op) = rd := by
  apply BitVec.eq_of_getLsbD_eq
  intro i hi
  simp only [fieldRd, encodeR]
  interval_cases i <;> simp [getElem_placeField, BitVec.getLsbD_of_ge]
@[simp] theorem fieldFunct3_encodeR (f7 : BitVec 7) (rs2 rs1 : Reg) (f3 : BitVec 3) (rd : Reg) (op : BitVec 7) :
    fieldFunct3 (encodeR f7 rs2 rs1 f3 rd op) = f3 := by
  apply BitVec.eq_of_getLsbD_eq
  intro i hi
  simp only [fieldFunct3, encodeR]
  interval_cases i <;> simp [getElem_placeField, BitVec.getLsbD_of_ge]
@[simp] theorem fieldRs1_encodeR (f7 : BitVec 7) (rs2 rs1 : Reg) (f3 : BitVec 3) (rd : Reg) (op : BitVec 7) :
    fieldRs1 (encodeR f7 rs2 rs1 f3 rd op) = rs1 := by
  apply BitVec.eq_of_getLsbD_eq
  intro i hi
  simp only [fieldRs1, encodeR]
  interval_cases i <;> simp [getElem_placeField, BitVec.getLsbD_of_ge]
@[simp] theorem fieldRs2_encodeR (f7 : BitVec 7) (rs2 rs1 : Reg) (f3 : BitVec 3) (rd : Reg) (op : BitVec 7) :
    fieldRs2 (encodeR f7 rs2 rs1 f3 rd op) = rs2 := by
  apply BitVec.eq_of_getLsbD_eq
  intro i hi
  simp only [fieldRs2, encodeR]
  interval_cases i <;> simp [getElem_placeField, BitVec.getLsbD_of_ge]
@[simp] theorem fieldFunct7_encodeR (f7 : BitVec 7) (rs2 rs1 : Reg) (f3 : BitVec 3) (rd : Reg) (op : BitVec 7) :
    fieldFunct7 (encodeR f7 rs2 rs1 f3 rd op) = f7 := by
  apply BitVec.eq_of_getLsbD_eq
  intro i hi
  simp only [fieldFunct7, encodeR]
  interval_cases i <;> simp [getElem_placeField, BitVec.getLsbD_of_ge]

/-! ## I -/

@[simp] theorem fieldOpcode_encodeI (imm : BitVec 12) (rs1 : Reg) (f3 : BitVec 3) (rd : Reg) (op : BitVec 7) :
    fieldOpcode (encodeI imm rs1 f3 rd op) = op := by
  apply BitVec.eq_of_getLsbD_eq
  intro i hi
  simp only [fieldOpcode, encodeI]
  interval_cases i <;> simp [getElem_placeField, BitVec.getLsbD_of_ge]
@[simp] theorem fieldRd_encodeI (imm : BitVec 12) (rs1 : Reg) (f3 : BitVec 3) (rd : Reg) (op : BitVec 7) :
    fieldRd (encodeI imm rs1 f3 rd op) = rd := by
  apply BitVec.eq_of_getLsbD_eq
  intro i hi
  simp only [fieldRd, encodeI]
  interval_cases i <;> simp [getElem_placeField, BitVec.getLsbD_of_ge]
@[simp] theorem fieldFunct3_encodeI (imm : BitVec 12) (rs1 : Reg) (f3 : BitVec 3) (rd : Reg) (op : BitVec 7) :
    fieldFunct3 (encodeI imm rs1 f3 rd op) = f3 := by
  apply BitVec.eq_of_getLsbD_eq
  intro i hi
  simp only [fieldFunct3, encodeI]
  interval_cases i <;> simp [getElem_placeField, BitVec.getLsbD_of_ge]
@[simp] theorem fieldRs1_encodeI (imm : BitVec 12) (rs1 : Reg) (f3 : BitVec 3) (rd : Reg) (op : BitVec 7) :
    fieldRs1 (encodeI imm rs1 f3 rd op) = rs1 := by
  apply BitVec.eq_of_getLsbD_eq
  intro i hi
  simp only [fieldRs1, encodeI]
  interval_cases i <;> simp [getElem_placeField, BitVec.getLsbD_of_ge]
@[simp] theorem fieldImmI_encodeI (imm : BitVec 12) (rs1 : Reg) (f3 : BitVec 3) (rd : Reg) (op : BitVec 7) :
    fieldImmI (encodeI imm rs1 f3 rd op) = imm := by
  apply BitVec.eq_of_getLsbD_eq
  intro i hi
  simp only [fieldImmI, encodeI]
  interval_cases i <;> simp [getElem_placeField, BitVec.getLsbD_of_ge]

/-! ## Shift -/

@[simp] theorem fieldOpcode_encodeShift (f6 : BitVec 6) (sh : BitVec 6) (rs1 : Reg) (f3 : BitVec 3) (rd : Reg) (op : BitVec 7) :
    fieldOpcode (encodeShift f6 sh rs1 f3 rd op) = op := by
  apply BitVec.eq_of_getLsbD_eq
  intro i hi
  simp only [fieldOpcode, encodeShift]
  interval_cases i <;> simp [getElem_placeField, BitVec.getLsbD_of_ge]
@[simp] theorem fieldRd_encodeShift (f6 : BitVec 6) (sh : BitVec 6) (rs1 : Reg) (f3 : BitVec 3) (rd : Reg) (op : BitVec 7) :
    fieldRd (encodeShift f6 sh rs1 f3 rd op) = rd := by
  apply BitVec.eq_of_getLsbD_eq
  intro i hi
  simp only [fieldRd, encodeShift]
  interval_cases i <;> simp [getElem_placeField, BitVec.getLsbD_of_ge]
@[simp] theorem fieldFunct3_encodeShift (f6 : BitVec 6) (sh : BitVec 6) (rs1 : Reg) (f3 : BitVec 3) (rd : Reg) (op : BitVec 7) :
    fieldFunct3 (encodeShift f6 sh rs1 f3 rd op) = f3 := by
  apply BitVec.eq_of_getLsbD_eq
  intro i hi
  simp only [fieldFunct3, encodeShift]
  interval_cases i <;> simp [getElem_placeField, BitVec.getLsbD_of_ge]
@[simp] theorem fieldRs1_encodeShift (f6 : BitVec 6) (sh : BitVec 6) (rs1 : Reg) (f3 : BitVec 3) (rd : Reg) (op : BitVec 7) :
    fieldRs1 (encodeShift f6 sh rs1 f3 rd op) = rs1 := by
  apply BitVec.eq_of_getLsbD_eq
  intro i hi
  simp only [fieldRs1, encodeShift]
  interval_cases i <;> simp [getElem_placeField, BitVec.getLsbD_of_ge]
@[simp] theorem fieldShamt6_encodeShift (f6 : BitVec 6) (sh : BitVec 6) (rs1 : Reg) (f3 : BitVec 3) (rd : Reg) (op : BitVec 7) :
    fieldShamt6 (encodeShift f6 sh rs1 f3 rd op) = sh := by
  apply BitVec.eq_of_getLsbD_eq
  intro i hi
  simp only [fieldShamt6, encodeShift]
  interval_cases i <;> simp [getElem_placeField, BitVec.getLsbD_of_ge]
@[simp] theorem fieldFunct6_encodeShift (f6 : BitVec 6) (sh : BitVec 6) (rs1 : Reg) (f3 : BitVec 3) (rd : Reg) (op : BitVec 7) :
    fieldFunct6 (encodeShift f6 sh rs1 f3 rd op) = f6 := by
  apply BitVec.eq_of_getLsbD_eq
  intro i hi
  simp only [fieldFunct6, encodeShift]
  interval_cases i <;> simp [getElem_placeField, BitVec.getLsbD_of_ge]

/-! ## S -/

@[simp] theorem fieldOpcode_encodeS (imm : BitVec 12) (rs2 rs1 : Reg) (f3 : BitVec 3) (op : BitVec 7) :
    fieldOpcode (encodeS imm rs2 rs1 f3 op) = op := by
  apply BitVec.eq_of_getLsbD_eq
  intro i hi
  simp only [fieldOpcode, encodeS]
  interval_cases i <;> simp [getElem_placeField, BitVec.getLsbD_of_ge]
@[simp] theorem fieldFunct3_encodeS (imm : BitVec 12) (rs2 rs1 : Reg) (f3 : BitVec 3) (op : BitVec 7) :
    fieldFunct3 (encodeS imm rs2 rs1 f3 op) = f3 := by
  apply BitVec.eq_of_getLsbD_eq
  intro i hi
  simp only [fieldFunct3, encodeS]
  interval_cases i <;> simp [getElem_placeField, BitVec.getLsbD_of_ge]
@[simp] theorem fieldRs1_encodeS (imm : BitVec 12) (rs2 rs1 : Reg) (f3 : BitVec 3) (op : BitVec 7) :
    fieldRs1 (encodeS imm rs2 rs1 f3 op) = rs1 := by
  apply BitVec.eq_of_getLsbD_eq
  intro i hi
  simp only [fieldRs1, encodeS]
  interval_cases i <;> simp [getElem_placeField, BitVec.getLsbD_of_ge]
@[simp] theorem fieldRs2_encodeS (imm : BitVec 12) (rs2 rs1 : Reg) (f3 : BitVec 3) (op : BitVec 7) :
    fieldRs2 (encodeS imm rs2 rs1 f3 op) = rs2 := by
  apply BitVec.eq_of_getLsbD_eq
  intro i hi
  simp only [fieldRs2, encodeS]
  interval_cases i <;> simp [getElem_placeField, BitVec.getLsbD_of_ge]
@[simp] theorem fieldImmS_encodeS (imm : BitVec 12) (rs2 rs1 : Reg) (f3 : BitVec 3) (op : BitVec 7) :
    fieldImmS (encodeS imm rs2 rs1 f3 op) = imm := by
  apply BitVec.eq_of_getLsbD_eq
  intro i hi
  unfold fieldImmS encodeS
  refine (BitVec.getLsbD_append ..).trans ?_
  interval_cases i <;> simp [getElem_placeField, BitVec.getLsbD_of_ge]

/-! ## B -/

@[simp] theorem fieldOpcode_encodeB (o : BitVec 13) (rs2 rs1 : Reg) (f3 : BitVec 3) (op : BitVec 7) :
    fieldOpcode (encodeB o rs2 rs1 f3 op) = op := by
  apply BitVec.eq_of_getLsbD_eq
  intro i hi
  simp only [fieldOpcode, encodeB]
  interval_cases i <;> simp [getElem_placeField, BitVec.getLsbD_of_ge]
@[simp] theorem fieldFunct3_encodeB (o : BitVec 13) (rs2 rs1 : Reg) (f3 : BitVec 3) (op : BitVec 7) :
    fieldFunct3 (encodeB o rs2 rs1 f3 op) = f3 := by
  apply BitVec.eq_of_getLsbD_eq
  intro i hi
  simp only [fieldFunct3, encodeB]
  interval_cases i <;> simp [getElem_placeField, BitVec.getLsbD_of_ge]
@[simp] theorem fieldRs1_encodeB (o : BitVec 13) (rs2 rs1 : Reg) (f3 : BitVec 3) (op : BitVec 7) :
    fieldRs1 (encodeB o rs2 rs1 f3 op) = rs1 := by
  apply BitVec.eq_of_getLsbD_eq
  intro i hi
  simp only [fieldRs1, encodeB]
  interval_cases i <;> simp [getElem_placeField, BitVec.getLsbD_of_ge]
@[simp] theorem fieldRs2_encodeB (o : BitVec 13) (rs2 rs1 : Reg) (f3 : BitVec 3) (op : BitVec 7) :
    fieldRs2 (encodeB o rs2 rs1 f3 op) = rs2 := by
  apply BitVec.eq_of_getLsbD_eq
  intro i hi
  simp only [fieldRs2, encodeB]
  interval_cases i <;> simp [getElem_placeField, BitVec.getLsbD_of_ge]

/-! ## U -/

@[simp] theorem fieldOpcode_encodeU (imm : BitVec 20) (rd : Reg) (op : BitVec 7) :
    fieldOpcode (encodeU imm rd op) = op := by
  apply BitVec.eq_of_getLsbD_eq
  intro i hi
  simp only [fieldOpcode, encodeU]
  interval_cases i <;> simp [getElem_placeField, BitVec.getLsbD_of_ge]
@[simp] theorem fieldRd_encodeU (imm : BitVec 20) (rd : Reg) (op : BitVec 7) :
    fieldRd (encodeU imm rd op) = rd := by
  apply BitVec.eq_of_getLsbD_eq
  intro i hi
  simp only [fieldRd, encodeU]
  interval_cases i <;> simp [getElem_placeField, BitVec.getLsbD_of_ge]
@[simp] theorem fieldImmU_encodeU (imm : BitVec 20) (rd : Reg) (op : BitVec 7) :
    fieldImmU (encodeU imm rd op) = imm := by
  apply BitVec.eq_of_getLsbD_eq
  intro i hi
  simp only [fieldImmU, encodeU]
  interval_cases i <;> simp [getElem_placeField, BitVec.getLsbD_of_ge]

/-! ## Fence -/

@[simp] theorem fieldOpcode_encodeFence (fm pred succ : BitVec 4) :
    fieldOpcode (encodeFence fm pred succ) = 0b0001111#7 := by
  apply BitVec.eq_of_getLsbD_eq
  intro i hi
  simp only [fieldOpcode, encodeFence]
  interval_cases i <;> simp [getElem_placeField, BitVec.getLsbD_of_ge]
@[simp] theorem fieldFunct3_encodeFence (fm pred succ : BitVec 4) :
    fieldFunct3 (encodeFence fm pred succ) = 0b000#3 := by
  apply BitVec.eq_of_getLsbD_eq
  intro i hi
  simp only [fieldFunct3, encodeFence]
  interval_cases i <;> simp [getElem_placeField, BitVec.getLsbD_of_ge]
@[simp] theorem fieldFm_encodeFence (fm pred succ : BitVec 4) :
    fieldFm (encodeFence fm pred succ) = fm := by
  apply BitVec.eq_of_getLsbD_eq
  intro i hi
  simp only [fieldFm, encodeFence]
  interval_cases i <;> simp [getElem_placeField, BitVec.getLsbD_of_ge]
@[simp] theorem fieldPred_encodeFence (fm pred succ : BitVec 4) :
    fieldPred (encodeFence fm pred succ) = pred := by
  apply BitVec.eq_of_getLsbD_eq
  intro i hi
  simp only [fieldPred, encodeFence]
  interval_cases i <;> simp [getElem_placeField, BitVec.getLsbD_of_ge]
@[simp] theorem fieldSucc_encodeFence (fm pred succ : BitVec 4) :
    fieldSucc (encodeFence fm pred succ) = succ := by
  apply BitVec.eq_of_getLsbD_eq
  intro i hi
  simp only [fieldSucc, encodeFence]
  interval_cases i <;> simp [getElem_placeField, BitVec.getLsbD_of_ge]

/-! ## J -/

@[simp] theorem fieldOpcode_encodeJ (o : BitVec 21) (rd : Reg) (op : BitVec 7) :
    fieldOpcode (encodeJ o rd op) = op := by
  apply BitVec.eq_of_getLsbD_eq
  intro i hi
  simp only [fieldOpcode, encodeJ]
  interval_cases i <;> simp [getElem_placeField, BitVec.getLsbD_of_ge]
@[simp] theorem fieldRd_encodeJ (o : BitVec 21) (rd : Reg) (op : BitVec 7) :
    fieldRd (encodeJ o rd op) = rd := by
  apply BitVec.eq_of_getLsbD_eq
  intro i hi
  simp only [fieldRd, encodeJ]
  interval_cases i <;> simp [getElem_placeField, BitVec.getLsbD_of_ge]

theorem fieldImmB_encodeB (o : BitVec 13) (rs2 rs1 : Reg) (f3 : BitVec 3) (op : BitVec 7) (h : o.getLsbD 0 = false) :
    fieldImmB (encodeB o rs2 rs1 f3 op) = o := by
  apply BitVec.eq_of_getLsbD_eq
  intro i hi
  have h0 : o[0] = false := h
  unfold fieldImmB encodeB
  refine (BitVec.getLsbD_append ..).trans ?_
  simp only [BitVec.getLsbD_append]
  interval_cases i <;> simp [getElem_placeField, BitVec.getLsbD_of_ge, h0]

theorem fieldImmJ_encodeJ (o : BitVec 21) (rd : Reg) (op : BitVec 7) (h : o.getLsbD 0 = false) :
    fieldImmJ (encodeJ o rd op) = o := by
  apply BitVec.eq_of_getLsbD_eq
  intro i hi
  have h0 : o[0] = false := h
  unfold fieldImmJ encodeJ
  refine (BitVec.getLsbD_append ..).trans ?_
  simp only [BitVec.getLsbD_append]
  interval_cases i <;> simp [getElem_placeField, BitVec.getLsbD_of_ge, h0]

end Sys2Proof
end

