-- ==== Sys2Proof/Laws/Ops.lean ====
section
/-! SUPPORT. For each shared operation, once, everything it can do. -/

namespace Sys2Proof.Machine

/-! ## General registers -/

@[simp] theorem readX_zero (s : State) : s.readX 0#5 = 0#64 := by simp [State.readX]

/-- What a register reads as after a write of one (10_state.md R21). -/
theorem readX_setX (s : State) (r q : Reg) (v : Word) :
    (s.setX r v).readX q = if q = 0#5 then 0#64 else if q = r then v else s.readX q := by
  unfold State.readX State.setX
  by_cases hq : q = 0#5
  · simp [hq]
  · rw [if_neg hq, if_neg hq]
    by_cases hr : r = 0#5
    · rw [if_pos hr, if_neg (show q ≠ r by rw [hr]; exact hq), if_neg hq]
    · rw [if_neg hr, if_neg hq]
      by_cases h : q = r
      · subst h; simp
      · have : ¬ (r.toNat = q.toNat) := fun e => h (BitVec.eq_of_toNat_eq e.symm)
        simp [h, this]

/-- A register reads only the registers. -/
theorem readX_congr {s t : State} (h : t.x = s.x) (q : Reg) : t.readX q = s.readX q := by unfold State.readX; rw [h]

@[simp] theorem readX_retireTo (s : State) (a : Word) (q : Reg) : (s.retireTo a).readX q = s.readX q := rfl

@[simp] theorem readX_trap (s : State) (i : Bool) (c : Nat) (epc tval : Word) (q : Reg) :
    (s.trap i c epc tval).readX q = s.readX q := readX_congr (by simp) q

@[simp] theorem readX_noteDevice (s : State) (st : Bool) (a n : Nat) (v : Word) (q : Reg) :
    (s.noteDevice st a n v).readX q = s.readX q := readX_congr (by simp) q

@[simp] theorem readX_writePhysBytes (s : State) (a : Nat) (bs : List Byte) (q : Reg) :
    (s.writePhysBytes a bs).readX q = s.readX q := readX_congr (by simp) q

@[simp] theorem readX_csrWrite (s : State) (c : Csr) (v : Word) (q : Reg) :
    (s.csrWrite c v).readX q = s.readX q := readX_congr (by simp) q

/-- A write of a register changes `x` alone. -/
theorem setX_eq (s : State) (r : Reg) (v : Word) : s.setX r v = { s with x := (s.setX r v).x } := by
  unfold State.setX; split <;> rfl

/-! ## Completing -/

/-- An instruction that writes `rd` with `v` and goes to `npc`. -/
theorem completesOver_intro {i : Instr} {s rest : State} {rd : Reg} {v npc : Word}
    (hx : rest.x = s.x) (hm : rest.minstret = s.minstret)
    (h : exec i s = .next ((rest.setX rd v).retireTo npc)) : completesOver i s rest rd v npc := by
  refine ⟨_, h, ?_, ⟨readX_zero _, fun r hr => ?_⟩, by simp, by simp [hm], ?_⟩
  · simp only [readX_retireTo, readX_setX, if_true]; rfl
  · simp only [readX_retireTo, readX_setX, hr, if_false, readX_congr hx]
    split
    · subst_vars; simp
    · rfl
  · unfold sameRest State.setX State.retireTo; split <;> rfl

/-- The same for an instruction that touches nothing else. -/
theorem completes_intro {i : Instr} {s : State} {rd : Reg} {v npc : Word}
    (h : exec i s = .next ((s.setX rd v).retireTo npc)) : completes i s rd v npc := by
  refine ⟨completesOver_intro rfl rfl h, fun t ht a => ?_⟩
  rw [h] at ht
  cases ht
  simp

/-- The same for one whose meaning ends in `writeBack`. -/
theorem completes_writeBack {i : Instr} {s : State} {rd : Reg} {v : Word} (h : exec i s = .next (s.writeBack rd v)) :
    completes i s rd v (s.pc + 4) := completes_intro (by rw [h]; simp)

/-! ## Traps -/

/-- A trap is entry into S-mode, from below M-mode and delegated, or entry into M-mode (60_exceptions.md R378). -/
theorem trap_cases (s : State) (i : Bool) (c : Nat) (epc tval : Word) :
    (s.trap i c epc tval = s.enterS i c epc tval ∧ s.priv ≠ .machine ∧
      (if i then s.mideleg else s.medeleg).getLsbD c = true) ∨
    (s.trap i c epc tval = s.enterM i c epc tval ∧
      (s.priv = .machine ∨ (if i then s.mideleg else s.medeleg).getLsbD c = false)) := by
  have hd : s.delegated i c = true ↔
      s.priv ≠ .machine ∧ (if i then s.mideleg else s.medeleg).getLsbD c = true := by
    simp [State.delegated]
  unfold State.trap
  by_cases h : s.delegated i c = true
  · rw [if_pos h]
    exact .inl ⟨rfl, (hd.mp h).1, (hd.mp h).2⟩
  · rw [if_neg h]
    refine .inr ⟨rfl, ?_⟩
    by_cases hp : s.priv = .machine
    · exact .inl hp
    · exact .inr (by rw [hd] at h; simpa [hp] using h)

/-- A trap's handler is at a multiple of 4 (60_exceptions.md R382). -/
theorem trapTarget_aligned (tvec : Word) (i : Bool) (c : Nat) : (trapTarget tvec i c).extractLsb' 0 2 = 0 := by
  have h0 : (tvec &&& ~~~3).extractLsb' 0 2 = 0 := by
    apply BitVec.eq_of_getLsbD_eq
    intro k hk
    rcases (show k = 0 ∨ k = 1 by omega) with rfl | rfl <;> simp
  have key : ∀ b n : Word, b.extractLsb' 0 2 = 0 → (b + 4 * n).extractLsb' 0 2 = 0 := by
    intro b n hb
    apply BitVec.eq_of_toNat_eq
    have hb' := congrArg BitVec.toNat hb
    have h4 : BitVec.toNat (4 : Word) = 4 := rfl
    have h2 : BitVec.toNat (0 : BitVec 2) = 0 := rfl
    simp only [BitVec.extractLsb'_toNat, Nat.shiftRight_zero, BitVec.toNat_add, BitVec.toNat_mul, h4, h2] at *
    omega
  unfold trapTarget
  split
  · exact key _ _ h0
  · exact h0

/-! ## Control transfer -/

/-- A jump goes to an aligned target and links, or raises and changes nothing but for the trap (43_control_transfer.md R311). -/
theorem jumpTo_cases (s : State) (rd : Reg) (t : Word) :
    (t.extractLsb' 0 2 = 0 ∧ s.jumpTo rd t = (s.setX rd (s.pc + 4)).retireTo t) ∨
    (t.extractLsb' 0 2 ≠ 0 ∧ s.jumpTo rd t = s.trap false 0 s.pc t) := by
  unfold State.jumpTo targetAligned
  split
  · rename_i h; exact .inl ⟨by simpa using h, rfl⟩
  · rename_i h; exact .inr ⟨by simpa using h, rfl⟩

/-- A branch falls through, or goes to an aligned target, or raises (43_control_transfer.md R311). -/
theorem branchIf_cases (s : State) (c : Bool) (o : BitVec 13) :
    (c = false ∧ s.branchIf c o = s.retireTo (s.pc + 4)) ∨
    (c = true ∧ (s.pc + branchOffset o).extractLsb' 0 2 = 0 ∧ s.branchIf c o = s.retireTo (s.pc + branchOffset o)) ∨
    (c = true ∧ (s.pc + branchOffset o).extractLsb' 0 2 ≠ 0 ∧
      s.branchIf c o = s.trap false 0 s.pc (s.pc + branchOffset o)) := by
  unfold State.branchIf targetAligned
  cases c
  · exact .inl ⟨rfl, rfl⟩
  · rw [if_pos rfl]
    split
    · rename_i h; exact .inr (.inl ⟨rfl, by simpa using h, rfl⟩)
    · rename_i h; exact .inr (.inr ⟨rfl, by simpa using h, rfl⟩)

/-! ## Loads and stores -/

/-- A load raises the exception of its access, or writes `rd` from the bytes (44_load_store_fence.md R331). -/
theorem loadInto_cases (s : State) (rd : Reg) (va : Word) (n : Nat) (f : Word → Word) :
    (∃ e, s.dataAddr .load va n = .error e ∧ s.loadInto rd va n f = s.trap false (causeCode e.cause) s.pc e.tval) ∨
    (∃ pa, s.dataAddr .load va n = .ok pa ∧
      s.loadInto rd va n f =
        ((s.noteDevice false pa n (s.readPhys 0 pa n)).setX rd (f (s.readPhys 0 pa n))).retireTo (s.pc + 4)) := by
  unfold State.loadInto State.memRead
  cases h : s.dataAddr .load va n with
  | error e => exact .inl ⟨e, rfl, rfl⟩
  | ok pa => exact .inr ⟨pa, rfl, by simp⟩

/-- A store raises the exception of its access, or writes its bytes (44_load_store_fence.md R331). -/
theorem storeFrom_cases (s : State) (va : Word) (n : Nat) (v : Word) :
    (∃ e, s.dataAddr .store va n = .error e ∧ s.storeFrom va n v = s.trap false (causeCode e.cause) s.pc e.tval) ∨
    (∃ pa, s.dataAddr .store va n = .ok pa ∧
      s.storeFrom va n v =
        ((s.writePhysBytes pa (toBytes v n)).noteDevice true pa n (v &&& BitVec.ofNat 64 (2 ^ (8 * n) - 1))).retireTo
          (s.pc + 4)) := by
  unfold State.storeFrom State.memWrite
  cases h : s.dataAddr .store va n with
  | error e => exact .inl ⟨e, rfl, rfl⟩
  | ok pa => exact .inr ⟨pa, rfl, by simp⟩

/-! ## CSR instructions -/

/-- A CSR instruction raises, or writes when it is to write, and puts the old value in `rd` (40_csr_instructions.md R220). -/
theorem csrInstr_cases (s : State) (i : Instr) (rd : Reg) (a : CsrAddr) (w : Bool) (f : Word → Word) :
    (s.csrAccess a w = none ∧ s.csrInstr i rd a w f = s.trap false 2 s.pc ((encode i).setWidth 64)) ∨
    (∃ c, s.csrAccess a w = some c ∧
      s.csrInstr i rd a w f =
        ((if w then s.csrWrite c (f (s.csrModifyBase c)) else s).setX rd (s.csrRead c)).retireCsr c w) := by
  unfold State.csrInstr
  cases h : s.csrAccess a w with
  | none => exact .inl ⟨rfl, rfl⟩
  | some c => exact .inr ⟨c, rfl, rfl⟩

/-- How a CSR instruction is counted (10_state.md R62). -/
theorem retireCsr_eq (s : State) (c : Csr) (w : Bool) :
    s.retireCsr c w =
      { s with pc := s.pc + 4, minstret := if w = true ∧ c = .minstret then s.minstret else s.minstret + 1 } := by
  unfold State.retireCsr
  by_cases h : w = true ∧ c = .minstret
  · simp [h]
  · have : (w && c == Csr.minstret) = false := by
      cases w <;> simp_all
    simp [this, h]; rfl

/-- A legal access: the CSR is there, the mode may use it, and a written one is not read-only (40_csr_instructions.md R221 to
R223). -/
theorem csrAccess_eq_some (s : State) (a : CsrAddr) (w : Bool) (c : Csr) :
    s.csrAccess a w = some c ↔
      csrOfAddr a = some c ∧ s.csrPrivilegeOk a = true ∧ s.satpAccessOk c = true ∧ s.counterAccessOk c = true ∧
        ¬ (w = true ∧ csrReadOnly a = true) := by
  unfold State.csrAccess
  cases h : csrOfAddr a with
  | none => simp
  | some d =>
    have hb : (s.csrPrivilegeOk a && s.satpAccessOk d && s.counterAccessOk d && !(w && csrReadOnly a)) = true ↔
        s.csrPrivilegeOk a = true ∧ s.satpAccessOk d = true ∧ s.counterAccessOk d = true ∧
          ¬ (w = true ∧ csrReadOnly a = true) := by
      cases w <;> simp [and_assoc]
    constructor
    · intro h2
      by_cases h3 : (s.csrPrivilegeOk a && s.satpAccessOk d && s.counterAccessOk d && !(w && csrReadOnly a)) = true
      · simp only [h3, if_true, Option.some.injEq] at h2
        subst h2
        exact ⟨rfl, hb.mp h3⟩
      · simp only [h3] at h2
        exact absurd h2 (by simp)
    · rintro ⟨hd, h4⟩
      rw [Option.some.injEq] at hd
      subst hd
      simp only [hb.mpr h4, if_true]

/-! ## A step -/

/-- Everything one step can be (00_scope.md R10). -/
theorem hartStep_cases (s : State) :
    (∃ c, s.pendingInterrupt = some c ∧ hartStep s = .next (s.takeInterrupt c)) ∨
    (s.pendingInterrupt = none ∧ s.waiting = true ∧ hartStep s = .next s) ∨
    (s.pendingInterrupt = none ∧ s.waiting = false ∧ s.pcAligned = true ∧
      ((∃ i, s.fetchInstr = .ok i ∧ hartStep s = exec i s) ∨
       (∃ e, s.fetchInstr = .error e ∧ hartStep s = .next (s.raise e)))) ∨
    (s.pendingInterrupt = none ∧ s.waiting = false ∧ s.pcAligned = false ∧ hartStep s = .fault .misalignedPc) := by
  unfold hartStep
  cases h : s.pendingInterrupt with
  | some c => exact .inl ⟨c, rfl, rfl⟩
  | none =>
    cases hw : s.waiting
    · cases hp : s.pcAligned
      · exact .inr (.inr (.inr ⟨rfl, rfl, rfl, by simp⟩))
      · cases hf : s.fetchInstr with
        | ok i => exact .inr (.inr (.inl ⟨rfl, rfl, rfl, .inl ⟨i, rfl, by simp⟩⟩))
        | error e => exact .inr (.inr (.inl ⟨rfl, rfl, rfl, .inr ⟨e, rfl, by simp⟩⟩))
    · exact .inr (.inl ⟨rfl, rfl, by simp⟩)

end Sys2Proof.Machine
end

