-- ==== Sys2Proof/Laws/PerInstr.lean ====
section
/-! SUPPORT. Statements about every instruction, one lemma per constructor. -/

namespace Sys2Proof.Laws.MajorOpcode

/-- The major opcode of an instruction's row (30_encoding.md R200). -/
def opcodeOf : Instr → BitVec 7
  | .lui .. => 0b0110111
  | .auipc .. => 0b0010111
  | .jal .. => 0b1101111
  | .jalr .. => 0b1100111
  | .beq .. | .bne .. | .blt .. | .bge .. | .bltu .. | .bgeu .. => 0b1100011
  | .lb .. | .lh .. | .lw .. | .ld .. | .lbu .. | .lhu .. | .lwu .. => 0b0000011
  | .sb .. | .sh .. | .sw .. | .sd .. => 0b0100011
  | .addi .. | .slti .. | .sltiu .. | .xori .. | .ori .. | .andi .. | .slli .. | .srli .. | .srai .. => 0b0010011
  | .add .. | .sub .. | .sll .. | .slt .. | .sltu .. | .xor .. | .srl .. | .sra .. | .or .. | .and .. => 0b0110011
  | .addiw .. | .slliw .. | .srliw .. | .sraiw .. => 0b0011011
  | .addw .. | .subw .. | .sllw .. | .srlw .. | .sraw .. => 0b0111011
  | .fence .. | .fenceI => 0b0001111
  | .ecall | .ebreak | .sret | .mret | .wfi | .sfenceVma .. | .csrrw .. | .csrrs .. | .csrrc .. | .csrrwi .. | .csrrsi .. | .csrrci .. => 0b1110011

/-- The encoded word carries the row's major opcode in bits 6:0 (30_encoding.md R192, R200). -/
def Statement (i : Instr) : Prop := fieldOpcode (encode i) = opcodeOf i

theorem lui (rd : Reg) (imm : BitVec 20) : Statement (.lui rd imm) := fieldOpcode_encodeU ..
theorem auipc (rd : Reg) (imm : BitVec 20) : Statement (.auipc rd imm) := fieldOpcode_encodeU ..
theorem jal (rd : Reg) (offset : BitVec 21) : Statement (.jal rd offset) := fieldOpcode_encodeJ ..
theorem jalr (rd rs1 : Reg) (imm : BitVec 12) : Statement (.jalr rd rs1 imm) := fieldOpcode_encodeI ..
theorem beq (rs1 rs2 : Reg) (offset : BitVec 13) : Statement (.beq rs1 rs2 offset) := fieldOpcode_encodeB ..
theorem bne (rs1 rs2 : Reg) (offset : BitVec 13) : Statement (.bne rs1 rs2 offset) := fieldOpcode_encodeB ..
theorem blt (rs1 rs2 : Reg) (offset : BitVec 13) : Statement (.blt rs1 rs2 offset) := fieldOpcode_encodeB ..
theorem bge (rs1 rs2 : Reg) (offset : BitVec 13) : Statement (.bge rs1 rs2 offset) := fieldOpcode_encodeB ..
theorem bltu (rs1 rs2 : Reg) (offset : BitVec 13) : Statement (.bltu rs1 rs2 offset) := fieldOpcode_encodeB ..
theorem bgeu (rs1 rs2 : Reg) (offset : BitVec 13) : Statement (.bgeu rs1 rs2 offset) := fieldOpcode_encodeB ..
theorem lb (rd rs1 : Reg) (imm : BitVec 12) : Statement (.lb rd rs1 imm) := fieldOpcode_encodeI ..
theorem lh (rd rs1 : Reg) (imm : BitVec 12) : Statement (.lh rd rs1 imm) := fieldOpcode_encodeI ..
theorem lw (rd rs1 : Reg) (imm : BitVec 12) : Statement (.lw rd rs1 imm) := fieldOpcode_encodeI ..
theorem ld (rd rs1 : Reg) (imm : BitVec 12) : Statement (.ld rd rs1 imm) := fieldOpcode_encodeI ..
theorem lbu (rd rs1 : Reg) (imm : BitVec 12) : Statement (.lbu rd rs1 imm) := fieldOpcode_encodeI ..
theorem lhu (rd rs1 : Reg) (imm : BitVec 12) : Statement (.lhu rd rs1 imm) := fieldOpcode_encodeI ..
theorem lwu (rd rs1 : Reg) (imm : BitVec 12) : Statement (.lwu rd rs1 imm) := fieldOpcode_encodeI ..
theorem sb (rs1 rs2 : Reg) (imm : BitVec 12) : Statement (.sb rs1 rs2 imm) := fieldOpcode_encodeS ..
theorem sh (rs1 rs2 : Reg) (imm : BitVec 12) : Statement (.sh rs1 rs2 imm) := fieldOpcode_encodeS ..
theorem sw (rs1 rs2 : Reg) (imm : BitVec 12) : Statement (.sw rs1 rs2 imm) := fieldOpcode_encodeS ..
theorem sd (rs1 rs2 : Reg) (imm : BitVec 12) : Statement (.sd rs1 rs2 imm) := fieldOpcode_encodeS ..
theorem addi (rd rs1 : Reg) (imm : BitVec 12) : Statement (.addi rd rs1 imm) := fieldOpcode_encodeI ..
theorem slti (rd rs1 : Reg) (imm : BitVec 12) : Statement (.slti rd rs1 imm) := fieldOpcode_encodeI ..
theorem sltiu (rd rs1 : Reg) (imm : BitVec 12) : Statement (.sltiu rd rs1 imm) := fieldOpcode_encodeI ..
theorem xori (rd rs1 : Reg) (imm : BitVec 12) : Statement (.xori rd rs1 imm) := fieldOpcode_encodeI ..
theorem ori (rd rs1 : Reg) (imm : BitVec 12) : Statement (.ori rd rs1 imm) := fieldOpcode_encodeI ..
theorem andi (rd rs1 : Reg) (imm : BitVec 12) : Statement (.andi rd rs1 imm) := fieldOpcode_encodeI ..
theorem slli (rd rs1 : Reg) (shamt : BitVec 6) : Statement (.slli rd rs1 shamt) := fieldOpcode_encodeShift ..
theorem srli (rd rs1 : Reg) (shamt : BitVec 6) : Statement (.srli rd rs1 shamt) := fieldOpcode_encodeShift ..
theorem srai (rd rs1 : Reg) (shamt : BitVec 6) : Statement (.srai rd rs1 shamt) := fieldOpcode_encodeShift ..
theorem add (rd rs1 rs2 : Reg) : Statement (.add rd rs1 rs2) := fieldOpcode_encodeR ..
theorem sub (rd rs1 rs2 : Reg) : Statement (.sub rd rs1 rs2) := fieldOpcode_encodeR ..
theorem sll (rd rs1 rs2 : Reg) : Statement (.sll rd rs1 rs2) := fieldOpcode_encodeR ..
theorem slt (rd rs1 rs2 : Reg) : Statement (.slt rd rs1 rs2) := fieldOpcode_encodeR ..
theorem sltu (rd rs1 rs2 : Reg) : Statement (.sltu rd rs1 rs2) := fieldOpcode_encodeR ..
theorem xor (rd rs1 rs2 : Reg) : Statement (.xor rd rs1 rs2) := fieldOpcode_encodeR ..
theorem srl (rd rs1 rs2 : Reg) : Statement (.srl rd rs1 rs2) := fieldOpcode_encodeR ..
theorem sra (rd rs1 rs2 : Reg) : Statement (.sra rd rs1 rs2) := fieldOpcode_encodeR ..
theorem or (rd rs1 rs2 : Reg) : Statement (.or rd rs1 rs2) := fieldOpcode_encodeR ..
theorem and (rd rs1 rs2 : Reg) : Statement (.and rd rs1 rs2) := fieldOpcode_encodeR ..
theorem addiw (rd rs1 : Reg) (imm : BitVec 12) : Statement (.addiw rd rs1 imm) := fieldOpcode_encodeI ..
theorem slliw (rd rs1 : Reg) (shamt : BitVec 5) : Statement (.slliw rd rs1 shamt) := fieldOpcode_encodeR ..
theorem srliw (rd rs1 : Reg) (shamt : BitVec 5) : Statement (.srliw rd rs1 shamt) := fieldOpcode_encodeR ..
theorem sraiw (rd rs1 : Reg) (shamt : BitVec 5) : Statement (.sraiw rd rs1 shamt) := fieldOpcode_encodeR ..
theorem addw (rd rs1 rs2 : Reg) : Statement (.addw rd rs1 rs2) := fieldOpcode_encodeR ..
theorem subw (rd rs1 rs2 : Reg) : Statement (.subw rd rs1 rs2) := fieldOpcode_encodeR ..
theorem sllw (rd rs1 rs2 : Reg) : Statement (.sllw rd rs1 rs2) := fieldOpcode_encodeR ..
theorem srlw (rd rs1 rs2 : Reg) : Statement (.srlw rd rs1 rs2) := fieldOpcode_encodeR ..
theorem sraw (rd rs1 rs2 : Reg) : Statement (.sraw rd rs1 rs2) := fieldOpcode_encodeR ..
theorem fence (fm pred succ : BitVec 4) : Statement (.fence fm pred succ) := fieldOpcode_encodeFence ..
theorem fenceI : Statement (.fenceI) := rfl
theorem ecall : Statement (.ecall) := rfl
theorem ebreak : Statement (.ebreak) := rfl
theorem sret : Statement (.sret) := rfl
theorem mret : Statement (.mret) := rfl
theorem wfi : Statement (.wfi) := rfl
theorem sfenceVma (rs1 rs2 : Reg) : Statement (.sfenceVma rs1 rs2) := fieldOpcode_encodeR ..
theorem csrrw (rd rs1 : Reg) (csr : CsrAddr) : Statement (.csrrw rd rs1 csr) := fieldOpcode_encodeI ..
theorem csrrs (rd rs1 : Reg) (csr : CsrAddr) : Statement (.csrrs rd rs1 csr) := fieldOpcode_encodeI ..
theorem csrrc (rd rs1 : Reg) (csr : CsrAddr) : Statement (.csrrc rd rs1 csr) := fieldOpcode_encodeI ..
theorem csrrwi (rd : Reg) (uimm : BitVec 5) (csr : CsrAddr) : Statement (.csrrwi rd uimm csr) := fieldOpcode_encodeI ..
theorem csrrsi (rd : Reg) (uimm : BitVec 5) (csr : CsrAddr) : Statement (.csrrsi rd uimm csr) := fieldOpcode_encodeI ..
theorem csrrci (rd : Reg) (uimm : BitVec 5) (csr : CsrAddr) : Statement (.csrrci rd uimm csr) := fieldOpcode_encodeI ..

end Sys2Proof.Laws.MajorOpcode
end

