-- ==== Sys2Proof/Tests/Slice0.lean ====
section
/-! SUPPORT. The model's own tests. Expected values are rows of spec/95_test_vectors.md and spec/96_test_vectors_derived.md
(their conventions: `pc` = 0x8000_0000, M-mode, `mtvec` = 0x8000_0400, `stvec` = 0x8020_0000), and hand readings of the rules
named. The last part shows, for each statement with hypotheses, a state that meets them. -/

namespace Sys2Proof.Tests

open Sys2Proof Sys2Proof.Machine

/-- The state of the spec's vectors before an instruction (95_test_vectors.md, Conventions). -/
def base : State := { State.reset with mtvec := 0x80000400, stvec := 0x80200000 }

/-- `s` with registers set. -/
def regs (s : State) (rs : List (Reg × Word)) : State := rs.foldl (fun s r => s.setX r.1 r.2) s

/-- `s` with the doubleword `v` at `a`. -/
def fill (s : State) (a : Nat) (v : Word) : State := s.placeBytes a (toBytes v 8)

/-- `s` in mode `p` with PMP entry 0 over the whole address space, R, W and X. -/
def inMode (p : Priv) (s : State) : State :=
  { s with priv := p, pmpcfg := s.pmpcfg.set 0 ⟨false, .napot, true, true, true⟩, pmpaddr := s.pmpaddr.set 0 (BitVec.allOnes 54) }

/-- `s` with `v` written to `mstatus`. -/
def status (v : Word) (s : State) : State := { s with mstatus := s.mstatus.write v }

/-- A view of the next state. -/
def look {α : Type} (f : State → α) : Result → Option α
  | .next s => some (f s)
  | _ => none

/-- What one step from `s`, running the word `w`, leaves to see. -/
def after {α : Type} (s : State) (w : Nat) (f : State → α) : Option α := look f (step (s.withFetchWord 32 w))

/-! ## Well-formedness: each check refuses an ill-formed instruction -/

theorem test_odd_branch_offset_refused : Instr.wellFormed (.beq 5 6 3) = false ∧ Instr.wellFormed (.bgeu 5 6 (-1)) = false ∧
    Instr.wellFormed (.bne 1 2 1) = false ∧ Instr.wellFormed (.blt 1 2 1) = false ∧ Instr.wellFormed (.bge 1 2 1) = false ∧
    Instr.wellFormed (.bltu 1 2 1) = false := by decide

theorem test_odd_jump_offset_refused : Instr.wellFormed (.jal 1 3) = false := by decide

theorem test_even_offsets_accepted : Instr.wellFormed (.beq 5 6 2) = true ∧ Instr.wellFormed (.jal 1 (-4)) = true := by decide

/-! ## Decoding: the words written out bit by bit from 30_encoding.md -/


theorem test_decode_upper_and_jumps :
    decodeWord 0b00010010001101000101001010110111#32 = .ok (.lui 5 0x12345) ∧
    decodeWord 0b11111111111111111111001010010111#32 = .ok (.auipc 5 0xFFFFF) ∧
    decodeWord 0b11111111110111111111000011101111#32 = .ok (.jal 1 (-4)) ∧
    decodeWord 0b01111111111101111111000001101111#32 = .ok (.jal 0 0x7FFFE) ∧
    decodeWord 0b11111111110000001000000011100111#32 = .ok (.jalr 1 1 (-4)) := by decide

theorem test_decode_branches :
    decodeWord 0b11111110011000101000110011100011#32 = .ok (.beq 5 6 (-8)) ∧
    decodeWord 0b00000000011000101001100001100011#32 = .ok (.bne 5 6 16) ∧
    decodeWord 0b00000010000000101100000001100011#32 = .ok (.blt 5 0 32) ∧
    decodeWord 0b00000010011000101101000001100011#32 = .ok (.bge 5 6 32) ∧
    decodeWord 0b10000000011000101110000001100011#32 = .ok (.bltu 5 6 (-4096)) ∧
    decodeWord 0b01111110010110001111111111100011#32 = .ok (.bgeu 17 5 4094) := by decide

theorem test_decode_loads :
    decodeWord 0b00000000011100110000001010000011#32 = .ok (.lb 5 6 7) ∧
    decodeWord 0b00000000011100110001001010000011#32 = .ok (.lh 5 6 7) ∧
    decodeWord 0b00000000011100110010001010000011#32 = .ok (.lw 5 6 7) ∧
    decodeWord 0b00000000011100110011001010000011#32 = .ok (.ld 5 6 7) ∧
    decodeWord 0b00000000011100110100001010000011#32 = .ok (.lbu 5 6 7) ∧
    decodeWord 0b00000000011100110101001010000011#32 = .ok (.lhu 5 6 7) ∧
    decodeWord 0b00000000011100110110001010000011#32 = .ok (.lwu 5 6 7) := by decide

theorem test_decode_stores :
    decodeWord 0b11111110011100110000110000100011#32 = .ok (.sb 6 7 (-8)) ∧
    decodeWord 0b11111110011100110001110000100011#32 = .ok (.sh 6 7 (-8)) ∧
    decodeWord 0b11111110011100110010110000100011#32 = .ok (.sw 6 7 (-8)) ∧
    decodeWord 0b11111110011100110011110000100011#32 = .ok (.sd 6 7 (-8)) := by decide

theorem test_decode_immediates :
    decodeWord 0b11110000000000010000000110010011#32 = .ok (.addi 3 2 (-256)) ∧
    decodeWord 0b11110000000000010010000110010011#32 = .ok (.slti 3 2 (-256)) ∧
    decodeWord 0b11110000000000010011000110010011#32 = .ok (.sltiu 3 2 (-256)) ∧
    decodeWord 0b11110000000000010100000110010011#32 = .ok (.xori 3 2 (-256)) ∧
    decodeWord 0b11110000000000010110000110010011#32 = .ok (.ori 3 2 (-256)) ∧
    decodeWord 0b11110000000000010111000110010011#32 = .ok (.andi 3 2 (-256)) ∧
    decodeWord 0b11110001111100101000001100011011#32 = .ok (.addiw 6 5 (-225)) := by decide

theorem test_decode_shift_immediates :
    decodeWord 0b00000011111100110001001010010011#32 = .ok (.slli 5 6 63) ∧
    decodeWord 0b00000010000000110101001010010011#32 = .ok (.srli 5 6 32) ∧
    decodeWord 0b01000000010000110101001010010011#32 = .ok (.srai 5 6 4) ∧
    decodeWord 0b00000001111100110001001010011011#32 = .ok (.slliw 5 6 31) ∧
    decodeWord 0b00000000010000110101001010011011#32 = .ok (.srliw 5 6 4) ∧
    decodeWord 0b01000001111100110101001010011011#32 = .ok (.sraiw 5 6 31) := by decide

theorem test_decode_register_operations :
    decodeWord 0b00000000011100110000001010110011#32 = .ok (.add 5 6 7) ∧
    decodeWord 0b01000000011100110000001010110011#32 = .ok (.sub 5 6 7) ∧
    decodeWord 0b00000000011100110001001010110011#32 = .ok (.sll 5 6 7) ∧
    decodeWord 0b00000000011100110010001010110011#32 = .ok (.slt 5 6 7) ∧
    decodeWord 0b00000000011100110011001010110011#32 = .ok (.sltu 5 6 7) ∧
    decodeWord 0b00000000011100110100001010110011#32 = .ok (.xor 5 6 7) ∧
    decodeWord 0b00000000011100110101001010110011#32 = .ok (.srl 5 6 7) ∧
    decodeWord 0b01000000011100110101001010110011#32 = .ok (.sra 5 6 7) ∧
    decodeWord 0b00000000011100110110001010110011#32 = .ok (.or 5 6 7) ∧
    decodeWord 0b00000000011100110111001010110011#32 = .ok (.and 5 6 7) := by decide

theorem test_decode_word_operations :
    decodeWord 0b00000000011100110000001010111011#32 = .ok (.addw 5 6 7) ∧
    decodeWord 0b01000000011100110000001010111011#32 = .ok (.subw 5 6 7) ∧
    decodeWord 0b00000000011100110001001010111011#32 = .ok (.sllw 5 6 7) ∧
    decodeWord 0b00000000011100110101001010111011#32 = .ok (.srlw 5 6 7) ∧
    decodeWord 0b01000000011100110101001010111011#32 = .ok (.sraw 5 6 7) := by decide

theorem test_decode_fences_and_system :
    decodeWord 0b10000011000100000000000000001111#32 = .ok (.fence 8 3 1) ∧
    decodeWord 0b00000000000000000001000000001111#32 = .ok (.fenceI) ∧
    decodeWord 0b00000000000000000000000001110011#32 = .ok (.ecall) ∧
    decodeWord 0b00000000000100000000000001110011#32 = .ok (.ebreak) ∧
    decodeWord 0b00010000001000000000000001110011#32 = .ok (.sret) ∧
    decodeWord 0b00110000001000000000000001110011#32 = .ok (.mret) ∧
    decodeWord 0b00010000010100000000000001110011#32 = .ok (.wfi) ∧
    decodeWord 0b00010010101101010000000001110011#32 = .ok (.sfenceVma 10 11) := by decide

theorem test_decode_csr :
    decodeWord 0b00110100000000110001001011110011#32 = .ok (.csrrw 5 6 0x340) ∧
    decodeWord 0b00110100000000110010001011110011#32 = .ok (.csrrs 5 6 0x340) ∧
    decodeWord 0b00110100000000110011001011110011#32 = .ok (.csrrc 5 6 0x340) ∧
    decodeWord 0b00110100000000110101001011110011#32 = .ok (.csrrwi 5 6 0x340) ∧
    decodeWord 0b00110100000000110110001011110011#32 = .ok (.csrrsi 5 6 0x340) ∧
    decodeWord 0b00110100000000110111001011110011#32 = .ok (.csrrci 5 6 0x340) := by decide

theorem test_decode_rejects :
    (decodeWord 0x00000000#32).isOk = false ∧ (decodeWord 0x02B50533#32).isOk = false ∧ (decodeWord 0x04029293#32).isOk = false ∧
    (decodeWord 0x0202929B#32).isOk = false ∧ (decodeWord 0x000000F3#32).isOk = false ∧ (decodeWord 0x120000F3#32).isOk = false := by decide

theorem test_decode_table_word :
    decodeTableWord 32 0x00428293 = some (.addi 5 5 4) ∧ decodeTableWord 32 0xFFFFFFFF = none := by decide

/-! ## One step of each instruction -/

/-- The memory of 96_test_vectors_derived.md section 2.3. -/
def data : State := fill (fill base 0x80001000 0x8877665544332211) 0x80001008 0xFFEEDDCCBBAA9988


/-- `lui t0, 524288`. -/
theorem test_lui :
    after base 0x800002B7 (fun s => (s.pc, s.minstret, s.readX 5)) =
      some (0x80000004, 1, 0xffffffff80000000) := by decide

/-- `auipc t0, 524288`. -/
theorem test_auipc :
    after base 0x80000297 (fun s => (s.pc, s.minstret, s.readX 5)) =
      some (0x80000004, 1, 0x0) := by decide

/-- `addi t0, t1, 1`. -/
theorem test_addi :
    after (regs base [(6, 0x7fffffffffffffff)]) 0x00130293 (fun s => (s.pc, s.minstret, s.readX 5)) =
      some (0x80000004, 1, 0x8000000000000000) := by decide

/-- `slti t0, t1, -1`. -/
theorem test_slti :
    after (regs base [(6, 0xfffffffffffffffe)]) 0xFFF32293 (fun s => (s.pc, s.minstret, s.readX 5)) =
      some (0x80000004, 1, 0x1) := by decide

/-- `sltiu t0, t1, -1`. -/
theorem test_sltiu :
    after (regs base [(6, 0x5)]) 0xFFF33293 (fun s => (s.pc, s.minstret, s.readX 5)) =
      some (0x80000004, 1, 0x1) := by decide

/-- `xori t0, t1, -1`. -/
theorem test_xori :
    after (regs base [(6, 0xff00ff00ff00ff)]) 0xFFF34293 (fun s => (s.pc, s.minstret, s.readX 5)) =
      some (0x80000004, 1, 0xff00ff00ff00ff00) := by decide

/-- `ori t0, t1, -2048`. -/
theorem test_ori :
    after (regs base [(6, 0x7ff)]) 0x80036293 (fun s => (s.pc, s.minstret, s.readX 5)) =
      some (0x80000004, 1, 0xffffffffffffffff) := by decide

/-- `andi t0, t0, -1912`. -/
theorem test_andi :
    after (regs base [(5, 0x888)]) 0x8882F293 (fun s => (s.pc, s.minstret, s.readX 5)) =
      some (0x80000004, 1, 0x888) := by decide

/-- `slli t0, t0, 1`. -/
theorem test_slli :
    after (regs base [(5, 0x8000000000000007)]) 0x00129293 (fun s => (s.pc, s.minstret, s.readX 5)) =
      some (0x80000004, 1, 0xe) := by decide

/-- `srli t0, t1, 63`. -/
theorem test_srli :
    after (regs base [(6, 0x8000000000000000)]) 0x03F35293 (fun s => (s.pc, s.minstret, s.readX 5)) =
      some (0x80000004, 1, 0x1) := by decide

/-- `srai t0, t1, 4`. -/
theorem test_srai :
    after (regs base [(6, 0x8000000000000000)]) 0x40435293 (fun s => (s.pc, s.minstret, s.readX 5)) =
      some (0x80000004, 1, 0xf800000000000000) := by decide

/-- `add t0, t1, t2`. -/
theorem test_add :
    after (regs base [(6, 0xffffffffffffffff), (7, 0x1)]) 0x007302B3 (fun s => (s.pc, s.minstret, s.readX 5)) =
      some (0x80000004, 1, 0x0) := by decide

/-- `sub t0, t1, t2`. -/
theorem test_sub :
    after (regs base [(6, 0x0), (7, 0x1)]) 0x407302B3 (fun s => (s.pc, s.minstret, s.readX 5)) =
      some (0x80000004, 1, 0xffffffffffffffff) := by decide

/-- `sll t0, t1, t2`. -/
theorem test_sll :
    after (regs base [(6, 0x1), (7, 0x47)]) 0x007312B3 (fun s => (s.pc, s.minstret, s.readX 5)) =
      some (0x80000004, 1, 0x80) := by decide

/-- `slt t0, t1, t2`. -/
theorem test_slt :
    after (regs base [(6, 0xffffffffffffffff), (7, 0x1)]) 0x007322B3 (fun s => (s.pc, s.minstret, s.readX 5)) =
      some (0x80000004, 1, 0x1) := by decide

/-- `sltu t0, t1, t2`. -/
theorem test_sltu :
    after (regs base [(6, 0xffffffffffffffff), (7, 0x1)]) 0x007332B3 (fun s => (s.pc, s.minstret, s.readX 5)) =
      some (0x80000004, 1, 0x0) := by decide

/-- `xor t0, t1, t2`. -/
theorem test_xor :
    after (regs base [(6, 0xff00), (7, 0xff0)]) 0x007342B3 (fun s => (s.pc, s.minstret, s.readX 5)) =
      some (0x80000004, 1, 0xf0f0) := by decide

/-- `srl t0, t1, t2`. -/
theorem test_srl :
    after (regs base [(6, 0x8000000000000000), (7, 0x80)]) 0x007352B3 (fun s => (s.pc, s.minstret, s.readX 5)) =
      some (0x80000004, 1, 0x8000000000000000) := by decide

/-- `sra t0, t1, t2`. -/
theorem test_sra :
    after (regs base [(6, 0x8000000000000000), (7, 0x3f)]) 0x407352B3 (fun s => (s.pc, s.minstret, s.readX 5)) =
      some (0x80000004, 1, 0xffffffffffffffff) := by decide

/-- `or t0, t0, t1`. -/
theorem test_or :
    after (regs base [(5, 0x8000000000000000), (6, 0x80400)]) 0x0062E2B3 (fun s => (s.pc, s.minstret, s.readX 5)) =
      some (0x80000004, 1, 0x8000000000080400) := by decide

/-- `and t0, t1, t2`. -/
theorem test_and :
    after (regs base [(6, 0xff00), (7, 0xff0)]) 0x007372B3 (fun s => (s.pc, s.minstret, s.readX 5)) =
      some (0x80000004, 1, 0xf00) := by decide

/-- `addiw t0, t1, 0`. -/
theorem test_addiw :
    after (regs base [(6, 0x1234567880000000)]) 0x0003029B (fun s => (s.pc, s.minstret, s.readX 5)) =
      some (0x80000004, 1, 0xffffffff80000000) := by decide

/-- `slliw t0, t1, 4`. -/
theorem test_slliw :
    after (regs base [(6, 0xfffffff1)]) 0x0043129B (fun s => (s.pc, s.minstret, s.readX 5)) =
      some (0x80000004, 1, 0xffffffffffffff10) := by decide

/-- `srliw t0, t1, 0`. -/
theorem test_srliw :
    after (regs base [(6, 0x80000000)]) 0x0003529B (fun s => (s.pc, s.minstret, s.readX 5)) =
      some (0x80000004, 1, 0xffffffff80000000) := by decide

/-- `sraiw t0, t1, 4`. -/
theorem test_sraiw :
    after (regs base [(6, 0x80000000)]) 0x4043529B (fun s => (s.pc, s.minstret, s.readX 5)) =
      some (0x80000004, 1, 0xfffffffff8000000) := by decide

/-- `addw t0, t1, t2`. -/
theorem test_addw :
    after (regs base [(6, 0x100000001), (7, 0x200000002)]) 0x007302BB (fun s => (s.pc, s.minstret, s.readX 5)) =
      some (0x80000004, 1, 0x3) := by decide

/-- `subw t0, t1, t2`. -/
theorem test_subw :
    after (regs base [(6, 0x80000000), (7, 0x1)]) 0x407302BB (fun s => (s.pc, s.minstret, s.readX 5)) =
      some (0x80000004, 1, 0x7fffffff) := by decide

/-- `sllw t0, t1, t2`. -/
theorem test_sllw :
    after (regs base [(6, 0xffffffff00000003), (7, 0x21)]) 0x007312BB (fun s => (s.pc, s.minstret, s.readX 5)) =
      some (0x80000004, 1, 0x6) := by decide

/-- `srlw t0, t1, t2`. -/
theorem test_srlw :
    after (regs base [(6, 0xf0000000), (7, 0x24)]) 0x007352BB (fun s => (s.pc, s.minstret, s.readX 5)) =
      some (0x80000004, 1, 0xf000000) := by decide

/-- `sraw t0, t1, t2`. -/
theorem test_sraw :
    after (regs base [(6, 0x80000000), (7, 0x3f)]) 0x407352BB (fun s => (s.pc, s.minstret, s.readX 5)) =
      some (0x80000004, 1, 0xffffffffffffffff) := by decide

/-- `jal ra, -4`. -/
theorem test_jal_runs :
    after base 0xFFDFF0EF (fun s => (s.pc, s.minstret, s.readX 1)) =
      some (0x7ffffffc, 1, 0x80000004) := by decide

/-- `jal ra, 2`. -/
theorem test_jal_raises :
    after base 0x002000EF (fun s => (s.pc, s.minstret, s.mcause, s.mtval, s.mepc, s.readX 1)) =
      some (0x80000400, 0, 0, 0x80000002, 0x80000000, 0) := by decide

/-- `jalr ra, 0(t0)`. -/
theorem test_jalr_runs :
    after (regs base [(5, 0x80001235)]) 0x000280E7 (fun s => (s.pc, s.minstret, s.readX 1)) =
      some (0x80001234, 1, 0x80000004) := by decide

/-- `jalr ra, -1(t0)`. -/
theorem test_jalr_same_register :
    after (regs base [(5, 0x0)]) 0xFFF280E7 (fun s => (s.pc, s.minstret, s.mcause, s.mtval, s.mepc, s.readX 1)) =
      some (0x80000400, 0, 0, 0xfffffffffffffffe, 0x80000000, 0) := by decide

/-- `beq t0, t1, 16`. -/
theorem test_beq_runs :
    after (regs base [(5, 0x8), (6, 0x9)]) 0x00628863 (fun s => (s.pc, s.minstret)) =
      some (0x80000004, 1) := by decide

/-- `beq t0, t1, 2`. -/
theorem test_beq_raises :
    after (regs base [(5, 0x8), (6, 0x8)]) 0x00628163 (fun s => (s.pc, s.minstret, s.mcause, s.mtval, s.mepc, s.readX 1)) =
      some (0x80000400, 0, 0, 0x80000002, 0x80000000, 0) := by decide

/-- `bne t0, zero, -12`. -/
theorem test_bne :
    after (regs base [(5, 0x80)]) 0xFE029AE3 (fun s => (s.pc, s.minstret)) =
      some (0x7ffffff4, 1) := by decide

/-- `blt t0, t1, 32`. -/
theorem test_blt :
    after (regs base [(5, 0xffffffffffffffff), (6, 0x1)]) 0x0262C063 (fun s => (s.pc, s.minstret)) =
      some (0x80000020, 1) := by decide

/-- `bge t0, t1, 32`. -/
theorem test_bge :
    after (regs base [(5, 0x5), (6, 0x5)]) 0x0262D063 (fun s => (s.pc, s.minstret)) =
      some (0x80000020, 1) := by decide

/-- `bltu t0, t1, 32`. -/
theorem test_bltu :
    after (regs base [(5, 0xffffffffffffffff), (6, 0x1)]) 0x0262E063 (fun s => (s.pc, s.minstret)) =
      some (0x80000004, 1) := by decide

/-- `bgeu a7, t0, 64`. -/
theorem test_bgeu :
    after (regs base [(17, 0xffffffffffffffff), (5, 0x1c3)]) 0x0458F063 (fun s => (s.pc, s.minstret)) =
      some (0x80000040, 1) := by decide

/-- `lb t0, 7(t1)`. -/
theorem test_lb :
    after (regs data [(6, 0x80001000)]) 0x00730283 (fun s => (s.pc, s.minstret, s.readX 5)) =
      some (0x80000004, 1, 0xffffffffffffff88) := by decide

/-- `lh t0, 6(t1)`. -/
theorem test_lh_runs :
    after (regs data [(6, 0x80001000)]) 0x00631283 (fun s => (s.pc, s.minstret, s.readX 5)) =
      some (0x80000004, 1, 0xffffffffffff8877) := by decide

/-- `lh t0, 1(t1)`. -/
theorem test_lh_raises :
    after (regs data [(6, 0x80001000)]) 0x00131283 (fun s => (s.pc, s.minstret, s.mcause, s.mtval, s.mepc, s.readX 1)) =
      some (0x80000400, 0, 4, 0x80001001, 0x80000000, 0) := by decide

/-- `lw t0, 4(t1)`. -/
theorem test_lw :
    after (regs data [(6, 0x80001000)]) 0x00432283 (fun s => (s.pc, s.minstret, s.readX 5)) =
      some (0x80000004, 1, 0xffffffff88776655) := by decide

/-- `ld t0, 0(t0)`. -/
theorem test_ld :
    after (regs data [(5, 0x80001000)]) 0x0002B283 (fun s => (s.pc, s.minstret, s.readX 5)) =
      some (0x80000004, 1, 0x8877665544332211) := by decide

/-- `lbu t0, -1(t1)`. -/
theorem test_lbu :
    after (regs data [(6, 0x80001010)]) 0xFFF34283 (fun s => (s.pc, s.minstret, s.readX 5)) =
      some (0x80000004, 1, 0xff) := by decide

/-- `lhu t0, 8(t1)`. -/
theorem test_lhu :
    after (regs data [(6, 0x80001000)]) 0x00835283 (fun s => (s.pc, s.minstret, s.readX 5)) =
      some (0x80000004, 1, 0x9988) := by decide

/-- `lwu t0, 4(t1)`. -/
theorem test_lwu :
    after (regs data [(6, 0x80001000)]) 0x00436283 (fun s => (s.pc, s.minstret, s.readX 5)) =
      some (0x80000004, 1, 0x88776655) := by decide

/-- `sb t2, 3(t1)`. -/
theorem test_sb :
    after (regs data [(6, 0x80001000), (7, 0xff)]) 0x007301A3 (fun s => (s.pc, s.minstret, s.readPhys 0 0x80001000 8)) =
      some (0x80000004, 1, 0x88776655ff332211) := by decide

/-- `sh t2, 2(t1)`. -/
theorem test_sh_runs :
    after (regs data [(6, 0x80001000), (7, 0x1234567890abcdef)]) 0x00731123 (fun s => (s.pc, s.minstret, s.readPhys 0 0x80001000 8)) =
      some (0x80000004, 1, 0x88776655cdef2211) := by decide

/-- `sh t2, 1(t1)`. -/
theorem test_sh_raises :
    after (regs data [(6, 0x80001000), (7, 0xbeef)]) 0x007310A3 (fun s => (s.pc, s.minstret, s.mcause, s.mtval, s.mepc, s.readX 1)) =
      some (0x80000400, 0, 6, 0x80001001, 0x80000000, 0) := by decide

/-- `sw t2, 4(t1)`. -/
theorem test_sw :
    after (regs data [(6, 0x80001000), (7, 0x1234567890abcdef)]) 0x00732223 (fun s => (s.pc, s.minstret, s.readPhys 0 0x80001000 8)) =
      some (0x80000004, 1, 0x90abcdef44332211) := by decide

/-- `sd t2, -8(t1)`. -/
theorem test_sd_runs :
    after (regs data [(6, 0x80001010), (7, 0x0)]) 0xFE733C23 (fun s => (s.pc, s.minstret, s.readPhys 0 0x80001000 8, s.readPhys 0 0x80001008 8)) =
      some (0x80000004, 1, 0x8877665544332211, 0x0) := by decide

/-- `sd t2, 0(t1)`. -/
theorem test_sd_raises :
    after (regs data [(6, 0x40000000), (7, 0x1)]) 0x00733023 (fun s => (s.pc, s.minstret, s.mcause, s.mtval, s.mepc, s.readX 1)) =
      some (0x80000400, 0, 7, 0x40000000, 0x80000000, 0) := by decide
/-- `fence.tso`, and a fence with ignored fields that are not zero. -/
theorem test_fence :
    after base 0x8330000F (fun s => (s.pc, s.minstret)) = some (0x80000004, 1) ∧
    after base 0x0FF5058F (fun s => (s.pc, s.readX 11)) = some (0x80000004, 0) := by decide

/-- 20_memory.md R163: what is noted as stale is forgotten. -/
theorem test_fence_i :
    after { base with fetchStale := [(0x80000010, [0x73, 0x13])] } 0x0000100F (fun s => (s.pc, s.fetchStale)) =
      some (0x80000004, []) := by decide

theorem test_ecall_to_machine :
    after (inMode .user (status 8 base)) 0x00000073
      (fun s => (s.priv, s.pc, s.mepc, s.mcause, s.mstatus.read, s.minstret)) =
      some (.machine, 0x80000400, 0x80000000, 8, 0xA00000080, 0) := by decide

theorem test_ecall_to_supervisor :
    after (inMode .user { status 2 base with medeleg := 0x100 }) 0x00000073
      (fun s => (s.priv, s.pc, s.sepc, s.scause, s.mstatus.read, s.mcause)) =
      some (.supervisor, 0x80200000, 0x80000000, 8, 0xA00000020, 0) := by decide

theorem test_ebreak :
    after base 0x00100073 (fun s => (s.mcause, s.mtval, s.mepc, s.mstatus.read)) =
      some (3, 0x80000000, 0x80000000, 0xA00001800) := by decide

theorem test_mret :
    after { status 0x20880 base with mepc := 0x80000100 } 0x30200073 (fun s => (s.priv, s.pc, s.mstatus.read, s.minstret)) =
      some (.supervisor, 0x80000100, 0xA00000088, 1) := by decide

theorem test_mret_below_machine :
    after (inMode .supervisor (status 0x880 base)) 0x30200073 (fun s => (s.mcause, s.mtval, s.mstatus.read)) =
      some (2, 0x30200073, 0xA00000800) := by decide

theorem test_sret :
    after (inMode .supervisor { status 0x102 base with sepc := 0x80200100 }) 0x10200073
      (fun s => (s.priv, s.pc, s.mstatus.read)) = some (.supervisor, 0x80200100, 0xA00000020) := by decide

theorem test_sret_trapped :
    after (inMode .supervisor (status 0x400020 base)) 0x10200073 (fun s => (s.mcause, s.mtval, s.mstatus.read)) =
      some (2, 0x10200073, 0xA00400820) := by decide

theorem test_wfi : after base 0x10500073 (fun s => (s.pc, s.minstret, s.waiting)) = some (0x80000004, 1, true) := by decide

theorem test_wfi_trapped :
    after (inMode .supervisor (status 0x200000 base)) 0x10500073 (fun s => (s.mcause, s.mtval, s.mstatus.read)) =
      some (2, 0x10500073, 0xA00200800) := by decide

/-- 41_system_instructions.md R251: `sfence.vma a0, a1` drops the translations of the page of `a0` and the ASID in `a1`, but not a
global one. -/
theorem test_sfence_vma :
    after (regs { base with tlb := [⟨3, 0x80001, .leaf 0 0x2000045B⟩, ⟨3, 0x80002, .leaf 0 0x200008D7⟩,
        ⟨4, 0x80001, .leaf 0 0x2000045B⟩, ⟨3, 0x80001, .leaf 0 0x2000047B⟩] } [(10, 0x80001008), (11, 3)]) 0x12B50073
      (fun s => (s.pc, s.tlb)) =
      some (0x80000004, [⟨3, 0x80002, .leaf 0 0x200008D7⟩, ⟨4, 0x80001, .leaf 0 0x2000045B⟩, ⟨3, 0x80001, .leaf 0 0x2000047B⟩]) := by
  decide

theorem test_sfence_vma_trapped :
    after (inMode .supervisor (status 0x100000 base)) 0x12000073 (fun s => (s.mcause, s.mtval, s.mstatus.read)) =
      some (2, 0x12000073, 0xA00100800) := by decide

theorem test_csrrw :
    after { regs base [(11, 0x2222)] with mscratch := 0x1111 } 0x34059573 (fun s => (s.readX 10, s.mscratch, s.minstret)) =
      some (0x1111, 0x2222, 1) := by decide

/-- The old `sp` is what is written. -/
theorem test_csrrw_swap :
    after (inMode .supervisor { regs base [(2, 0x7FFFF000)] with sscratch := 0x80200000 }) 0x14011173
      (fun s => (s.readX 2, s.sscratch)) = some (0x80200000, 0x7FFFF000) := by decide

/-- An access attempts to write a read-only CSR though the value written would change nothing. -/
theorem test_csrrs_read_only :
    after base 0xF1452073 (fun s => (s.mcause, s.mtval)) = some (2, 0xF1452073) := by decide

theorem test_csrrs :
    after { regs base [(6, 0x0F0F)] with mscratch := 0x1111 } 0x340322F3 (fun s => (s.readX 5, s.mscratch)) =
      some (0x1111, 0x1F1F) := by decide

theorem test_csrrc :
    after (regs (status 0x1888 base) [(5, 0x1800)]) 0x3002B373 (fun s => (s.readX 6, s.mstatus.read)) =
      some (0xA00001888, 0xA00000088) := by decide

theorem test_csrrwi : after base 0x340FD073 (fun s => s.mscratch) = some 0x1F := by decide

theorem test_csrrsi :
    after (status 0x80 base) 0x300462F3 (fun s => (s.readX 5, s.mstatus.read)) = some (0xA00000080, 0xA00000088) := by decide

theorem test_csrrsi_no_write : after base 0xF14062F3 (fun s => (s.minstret, s.readX 5)) = some (1, 0) := by decide

theorem test_csrrci :
    after { base with mscratch := 0x1111 } 0x3408F2F3 (fun s => (s.readX 5, s.mscratch)) = some (0x1111, 0x1100) := by decide

/-! ## CSR fields, interrupts, protection, translation -/

theorem test_mstatus_mask :
    after (regs base [(5, -1)]) 0x30029073 (fun s => (s.mstatus.read, s.csrRead .sstatus)) =
      some (0xA007E19AA, 0x2000C0122) := by decide

theorem test_mip_write :
    after { regs base [(5, -1)] with irqIn := ⟨false, true, false, false⟩ } 0x34429073 (fun s => s.mipRead) =
      some 0x2A2 := by decide

theorem test_satp_mode_refused :
    after { regs base [(5, 0x9000000000001234)] with satp := ⟨.sv39, 0, 0x80400⟩ } 0x18029073 (fun s => s.csrRead .satp) =
      some 0x8000000000080400 := by decide

theorem test_pmpcfg_write : after (regs base [(5, -1)]) 0x3A029073 (fun s => s.csrRead .pmpcfg0) = some 0x9F9F9F9F9F9F9F9F := by
  decide

theorem test_minstret_write : after (regs base [(5, 100)]) 0xB0229073 (fun s => s.minstret) = some 100 := by decide

theorem test_counter_enables :
    after (inMode .user { base with mcounteren := 2, scounteren := 0 }) 0xC0102573 (fun s => (s.mcause, s.mtval)) =
      some (2, 0xC0102573) ∧
    after (inMode .user { base with mcounteren := 4, scounteren := 4, minstret := 9 }) 0xC0202573 (fun s => s.readX 10) =
      some 9 := by decide

/-- Case I13: SEI before SSI before STI, vectored. -/
theorem test_interrupt_priority :
    after (inMode .supervisor { status 2 base with stvec := 0x80200001, mie := 0x222, mideleg := 0x222, mip := ⟨true, true, true⟩ })
      0x13 (fun s => (s.priv, s.pc, s.scause, s.sepc, s.mstatus.read, s.minstret)) =
      some (.supervisor, 0x80200024, 0x8000000000000009, 0x80000000, 0xA00000120, 0) := by decide

/-- Case I10: a delegated interrupt is not taken in M-mode. -/
theorem test_delegated_interrupt_waits :
    after { status 8 base with mie := 0x20, mideleg := 0x222, mip := ⟨false, true, false⟩ } 0x13 (fun s => (s.pc, s.mcause)) =
      some (0x80000004, 0) := by decide

/-- Layout A of 96_test_vectors_derived.md section 2.8. -/
def layoutA : State :=
  { base with
    pmpcfg := Vector.ofFn fun i : Fin 16 => pmpCfgOf ((0x99111B0D00 : Word).extractLsb' (8 * i.val) 8)
    pmpaddr := ((((base.pmpaddr.set 0 0x20000000).set 1 0x20000400).set 2 0x200005FF).set 3 0x20000800).set 4 0x20000DFF }

theorem test_pmp_layout :
    layoutA.pmpCheck 0x80000FF8 8 .load .user = true ∧ layoutA.pmpCheck 0x80000800 8 .store .user = false ∧
    layoutA.pmpCheck 0x80000800 8 .store .machine = true ∧ layoutA.pmpCheck 0x80001FF8 8 .store .supervisor = true ∧
    layoutA.pmpCheck 0x80001000 4 .fetch .supervisor = false ∧ layoutA.pmpCheck 0x80002000 8 .load .machine = false ∧
    layoutA.pmpCheck 0x80002004 4 .load .machine = true ∧ layoutA.pmpCheck 0x80003000 8 .store .machine = false := by decide

/-- The page tables of 96_test_vectors_derived.md section 2.9, of those entries the tests use. -/
def tables : State :=
  { fill (fill (fill (fill (fill (fill base 0x80400010 0x20100401) 0x80400018 0x300000CF) 0x80401000 0x20100801)
      0x80402008 0x2000045B) 0x80402010 0x200008D7) 0x80402018 0x20000C17 with satp := ⟨.sv39, 0, 0x80400⟩ }

theorem test_sv39_walks :
    (inMode .user tables).dataAddr .load 0x80001008 8 = .ok 0x80001008 ∧
    (inMode .user tables).dataAddr .store 0x80001008 8 = .error ⟨.storePageFault, 0x80001008⟩ ∧
    (inMode .supervisor tables).dataAddr .load 0x80001008 8 = .error ⟨.loadPageFault, 0x80001008⟩ ∧
    (inMode .supervisor (status 0x40000 tables)).dataAddr .load 0x80001008 8 = .ok 0x80001008 ∧
    (inMode .user tables).dataAddr .store 0x80002010 8 = .ok 0x80002010 ∧
    (inMode .user tables).dataAddr .load 0x80003010 8 = .error ⟨.loadPageFault, 0x80003010⟩ ∧
    (inMode .supervisor tables).translate .load .supervisor 0xC1234568 = .ok 0xC1234568 ∧
    (inMode .supervisor tables).dataAddr .load 0x4000000000 8 = .error ⟨.loadPageFault, 0x4000000000⟩ ∧
    (inMode .user tables).physAddr .fetch .user 0x80001008 4 = .ok 0x80001008 := by decide

/-- 20_memory.md R150: a kept translation outlives its page table entry until `sfence.vma`. -/
theorem test_stale_translation :
    { inMode .user base with satp := ⟨.sv39, 0, 0x80400⟩, tlb := [⟨0, 0x80001, .leaf 0 0x2000045B⟩],
                             tlbChoice := ⟨0, 1⟩ }.dataAddr .load 0x80001008 8 = .ok 0x80001008 ∧
    { inMode .user base with satp := ⟨.sv39, 0, 0x80400⟩, tlb := [⟨0, 0x80001, .leaf 0 0x2000045B⟩],
                             tlbChoice := ⟨0, 0⟩ }.dataAddr .load 0x80001008 8 = .error ⟨.loadPageFault, 0x80001008⟩ := by
  decide

/-- 20_memory.md R150: an access fault of a page-table read is kept as well, and outlives a change of the tables. -/
theorem test_kept_access_fault :
    ({ inMode .user tables with satp := ⟨.sv39, 0, 1⟩ }.tlbFill 30 0x80001008).tlb = [⟨0, 0x80001, .accessFault 0x1010⟩] ∧
    { inMode .user tables with tlb := [⟨0, 0x80001, .accessFault 0x1010⟩], tlbChoice := ⟨0, 1⟩ }.dataAddr .load 0x80001008 8 =
      .error ⟨.loadAccessFault, 0x80001008⟩ := by decide

/-- 70_reset_and_hazards.md R435: an access fault that PMP caused is not raised once a write of `pmpcfg0` lets the entry be read. -/
theorem test_pmp_write_ends_kept_access_fault :
    let s := { inMode .user tables with pmpcfg := Vector.replicate 16 ⟨false, .off, false, false, false⟩,
                                        tlb := [⟨0, 0x80001, .accessFault 0x80400010⟩], tlbChoice := ⟨0, 1⟩ }
    s.translate .load .user 0x80001008 = .error ⟨.loadAccessFault, 0x80001008⟩ ∧
    (s.csrWrite .pmpcfg0 0x1F).translate .load .user 0x80001008 = .ok 0x80001008 := by decide

/-- 20_memory.md R163: after a store the fetch of the byte may give the old value or the new one. -/
theorem test_store_is_stale :
    after (regs base [(5, 0x13), (6, 0x80000010)]) 0x00532023
      (fun s => (staleCandidates s.fetchStale 0x80000010, staleCandidates s.fetchStale 0x80000011, s.readPhys 0 0x80000010 4)) =
      some ([0, 0x13], [0], 0x13) := by decide

/-- 60_exceptions.md R396, with MSIP_ADDR = 0x0200_0000. -/
theorem test_msip :
    after (regs base [(5, 1), (6, 0x02000000)]) 0x00532023 (fun s => (s.mipRead, s.deviceLog, Memory.read s.mem 0x02000000)) =
      some (8, [⟨true, 0x02000000, 4, 1⟩], 0) := by decide

/-- 00_scope.md R10: a line raised before the step is seen by it. -/
theorem test_environment_raises_line :
    after { status 8 base with mie := 0x80, env := [{ quietInput 0 with mti := some true }] } 0x13 (fun s => (s.mcause, s.pc)) =
      some (0x8000000000000007, 0x80000400) := by decide

/-- A platform that maps the timer pair in its device region. -/
def timed : State := { base with platform := { base.platform with mtimecmpAddr := some 0x02004000, mtimeAddr := some 0x0200BFF8 } }

/-- 20_memory.md R162: the environment writes a byte the PMA marks device, here of `mtimecmp`, and MTIP falls (60_exceptions.md R366). -/
theorem test_environment_writes_mtimecmp :
    timed.mipRead = 0x80 ∧ (timed.envWrites [(0x02004001, 1)]).mtimecmp = 0x100 ∧
    (timed.envWrites [(0x02004001, 1)]).mipRead = 0 := by decide

/-! ## For each statement with hypotheses, a state that meets them -/

/-- A result with a view is a next state. -/
theorem next_of_look {r : Result} (h : look (fun _ => ()) r = some ()) : ∃ t, r = .next t := by
  cases r with
  | next s => exact ⟨s, rfl⟩
  | fault f => cases h
  | refused f => cases h

/-- `base` with `addi t0, t0, 4` at `pc`. -/
def ready : State := base.withFetchWord 32 0x00428293

/-- A U-mode state with the page tables of `tables`, `pc` in the user page. -/
def userState : State := { inMode .user tables with pc := 0x80001008 }

/-- The quiet input, but that a `wfi` goes on. -/
def stillWaiting : EnvInput := { quietInput 0 with wake := false }

theorem test_good_ready : ready.Good := by constructor <;> decide

theorem test_good_user : userState.Good := by constructor <;> decide

theorem test_witness_DecodeEncodeAgree : Instr.wellFormed (.beq 5 6 (-4096)) = true ∧ Instr.wellFormed (.jal 1 0xFFFFE) = true ∧
    Instr.wellFormed (.sfenceVma 31 0) = true := by decide

theorem test_witness_DecoderAcceptsExactlyTheTable :
    decodeWord 0x12B50073 = .ok (.sfenceVma 10 11) ∧ fieldOpcode 0x12B50073 ≠ 0b0001111#7 ∧
    decodeWord 0x0FF5058F = .ok (.fence 0 15 15) ∧ fieldOpcode 0x0FF5058F = 0b0001111#7 := by decide

theorem test_witness_IllegalWordsTrap :
    (∀ r ∈ opcodeRows, (0xFFFFFFFF : InstrWord) &&& r.1 ≠ r.2) ∧
    (base.withFetchWord 32 0xFFFFFFFF).sample.pendingInterrupt = none ∧
    (base.withFetchWord 32 0xFFFFFFFF).sample.waiting = false ∧ (base.withFetchWord 32 0xFFFFFFFF).pc.toNat % 4 = 0 ∧
    (base.withFetchWord 32 0xFFFFFFFF).sample.fetch = .ok 0xFFFFFFFF :=
  ⟨by simp [opcodeRows, opcodeRowsLow, opcodeRowsMid, opcodeRowsHigh], by decide, by decide, by decide, by decide⟩

theorem test_witness_StepRunsTheDecodedInstruction :
    ready.sample.pendingInterrupt = none ∧ ready.sample.waiting = false ∧ ready.pc.toNat % 4 = 0 ∧
    ready.sample.fetchAddr = .ok 0x80000000 ∧ allMainMemory ready.sample.platform 0x80000000 4 ∧
    (∀ a, 0x80000000 ≤ a → a < 0x80000000 + 4 → staleCandidates ready.sample.fetchStale a = []) ∧
    decodeBytes ((addressesFrom 0x80000000 4).map (Memory.read ready.sample.mem)) = .ok (.addi 5 5 4, []) := by
  refine ⟨by decide, by decide, by decide, by decide, ?_, ?_, by decide⟩ <;>
    (intro a h1 h2; obtain rfl | rfl | rfl | rfl : a = 0x80000000 ∨ a = 0x80000001 ∨ a = 0x80000002 ∨ a = 0x80000003 := by omega) <;>
    decide

/-- The first clause: an interrupt, taken while waiting; the second: an instruction; an exception of its fetch. -/
theorem test_witness_InterruptsComeBeforeTheInstruction :
    ({ status 8 base with mie := 0x80, waiting := true, irqIn := ⟨false, true, false, false⟩ }).sample.pendingInterrupt = some .mti ∧
    ready.sample.pendingInterrupt = none ∧ ready.sample.waiting = false ∧ ready.pc.toNat % 4 = 0 ∧
    ready.sample.fetchInstr = .ok (.addi 5 5 4) ∧
    ({ base with pc := 0 }).sample.fetchInstr = .error ⟨.instrAccessFault, 0⟩ :=
  ⟨by decide, by decide, by decide, by decide, by decide, by decide⟩

theorem test_witness_WaitingEndsOnPendingInterrupt :
    (let s := { base with mie := 0x80, waiting := true, irqIn := ⟨false, true, false, false⟩, env := [stillWaiting] }
     (s.sample.mipRead &&& s.sample.mie) ≠ 0) ∧
    ({ base with waiting := true, env := [stillWaiting] }).sample.waiting = true ∧ ready.waiting = false := by decide

theorem test_witness_EnvironmentChangesOnlyItsOwn :
    ready.env = [] ∧ Memory.wf ready.mem = true ∧ staleWf ready.fetchStale = true ∧ (∀ r ∈ ready.platform.pma, ¬ (r.base ≤ 0x90000000 ∧ 0x90000000 + 1 ≤ r.base + r.size)) ∧
    isMainMemory ready.platform 0x02000000 = false ∧ ready.platform.mtimecmpAddr = none ∧
    (let s := { userState with env := [{ quietInput 0 with writes := [(0x80000010, 0x13)], tlbFills := [0x80001008] }], waiting := true }
     s.sample.tlb = [⟨0, 0x80001, .leaf 0 0x2000045B⟩] ∧ staleCandidates s.sample.fetchStale 0x80000010 = [0, 0x13] ∧
     Memory.wf s.mem = true ∧ staleWf s.fetchStale = true) := by decide

/-- An access fault, and a page fault of the page tables. -/
theorem test_witness_FetchFaultsTrap :
    ({ base with pc := 0 }).sample.pendingInterrupt = none ∧ ({ base with pc := 0 }).sample.waiting = false ∧
    ({ base with pc := 0 }).sample.fetch = .error ⟨.instrAccessFault, 0⟩ ∧
    ({ userState with pc := 0x80003000 }).sample.pendingInterrupt = none ∧
    ({ userState with pc := 0x80003000 }).sample.fetch = .error ⟨.instrPageFault, 0x80003000⟩ := by decide

theorem test_witness_StepNeverStops : ready.pc.toNat % 4 = 0 ∧ userState.pc.toNat % 4 = 0 := by decide

theorem test_witness_StepKeepsTheInvariant :
    (ready.Good ∧ ∃ t, step ready = .next t) ∧ userState.Good ∧ ∃ t, step userState = .next t :=
  ⟨⟨test_good_ready, next_of_look (by decide)⟩, test_good_user, next_of_look (by decide)⟩

theorem test_witness_ResetHasTheInvariant :
    Platform.default.resetPc.toNat % 4 = 0 ∧ ({ Platform.default with resetPc := 0xFFFFFFFFFFFFFFFC }).resetPc.toNat % 4 = 0 := by
  decide

theorem test_witness_TrapEntryToSupervisorMode : userState.priv ≠ .machine ∧ (inMode .supervisor base).priv ≠ .machine := by decide

/-- Below M-mode with the bit 1; in M-mode; with the bit 0; with nothing delegated. -/
theorem test_witness_DelegationChoosesTheMode :
    (inMode .user { base with medeleg := 0x8000, mideleg := 0x200 }).priv ≠ .machine ∧
    (inMode .user { base with medeleg := 0x8000, mideleg := 0x200 }).medeleg.getLsbD 15 = true ∧
    (inMode .user { base with medeleg := 0x8000, mideleg := 0x200 }).mideleg.getLsbD 9 = true ∧
    (inMode .user { base with medeleg := 0x8000, mideleg := 0x200 }).medeleg.getLsbD 0 = false ∧
    ready.priv = .machine ∧ ready.medeleg = 0 ∧ ready.mideleg = 0 := by decide

theorem test_witness_MretReturns : ready.priv = .machine ∧ (status 0x21880 base).priv = .machine := by decide

theorem test_witness_SretReturns :
    ready.priv = .machine ∧ (inMode .supervisor (status 0x22 base)).priv = .supervisor ∧
    (inMode .supervisor (status 0x22 base)).mstatus.read.getLsbD 22 = false := by decide

theorem test_witness_EcallAndEbreakTrap :
    userState.priv = .user ∧ (inMode .supervisor base).priv = .supervisor ∧ ready.priv = .machine ∧
    (∃ t, exec .ecall ready = .next t) ∧ ∃ t, exec .ebreak userState = .next t :=
  ⟨by decide, by decide, by decide, next_of_look (by decide), next_of_look (by decide)⟩

theorem test_witness_PrivilegedInstructionsTrap :
    userState.priv = .user ∧ userState.priv ≠ .machine ∧ (inMode .supervisor (status 0x700000 base)).priv = .supervisor ∧
    (inMode .supervisor (status 0x700000 base)).mstatus.read.getLsbD 22 = true ∧
    (inMode .supervisor (status 0x700000 base)).mstatus.read.getLsbD 21 = true ∧
    (inMode .supervisor (status 0x700000 base)).mstatus.read.getLsbD 20 = true := by decide

theorem test_witness_WfiAndSfenceComplete :
    ready.priv = .machine ∧ (inMode .supervisor base).priv = .supervisor ∧ (inMode .supervisor base).mstatus.tw = false ∧
    (inMode .supervisor base).mstatus.tvm = false := by decide

theorem test_witness_PendingBitsFollowTheirSources :
    ready.platform.mtimecmpAddr = none ∧ timed.platform.mtimecmpAddr = some 0x02004000 := by decide

theorem test_witness_MstatusWrites :
    (0x1000 : Word).extractLsb' 11 2 = 0b10 ∧ (0x1800 : Word).extractLsb' 11 2 ≠ 0b10 ∧ (0x800 : Word).extractLsb' 11 2 ≠ 0b10 := by
  decide

theorem test_witness_CsrReadsBackWhatIsLegal :
    ready.Good ∧ userState.Good ∧ satpAccepts ready.platform 0x8001000000080400 ∧ ¬ satpAccepts ready.platform 0x9000000000000000 := by
  refine ⟨test_good_ready, test_good_user, ?_, ?_⟩ <;> unfold satpAccepts <;> decide

theorem test_witness_AbsentCsrsTrap :
    csrForm (.csrrw 5 6 0x7B0) = some (0x7B0, true) ∧ (0x7B0#12).toNat ∉ csrAddresses ∧
    csrForm (.csrrs 5 0 0x3A1) = some (0x3A1, false) ∧ (0x3A1#12).toNat ∉ csrAddresses ∧
    csrForm (.csrrsi 5 0 0xC20) = some (0xC20, false) ∧ (0xC20#12).toNat ∉ csrAddresses := by decide

/-- The four clauses, each at a boundary: too low a mode; `satp` under TVM; the first and the last counter; a read-only CSR. -/
theorem test_witness_ForbiddenCsrAccessesTrap :
    (csrForm (.csrrs 5 0 0x100) = some (0x100, false) ∧ (0x100#12).toNat ∈ csrAddresses ∧
      (privCode userState.priv).toNat < (0x100#12).toNat / 256 % 4) ∧
    (csrForm (.csrrw 5 6 0x180) = some (0x180, true) ∧ (0x180#12).toNat ∈ csrAddresses ∧
      (inMode .supervisor (status 0x100000 base)).priv = .supervisor ∧
      (inMode .supervisor (status 0x100000 base)).mstatus.tvm = true) ∧
    (csrForm (.csrrs 5 0 0xC00) = some (0xC00, false) ∧ (0xC00#12).toNat ∈ csrAddresses ∧ (0xC1F#12).toNat ∈ csrAddresses ∧
      userState.mcounteren.getLsbD 0 = false ∧ userState.mcounteren.getLsbD 31 = false) ∧
    (csrForm (.csrrs 5 0 0xC1F) = some (0xC1F, false) ∧
      ({ userState with mcounteren := 0x80000000 }).priv = .user ∧
      ({ userState with mcounteren := 0x80000000 }).scounteren.getLsbD 31 = false) ∧
    csrForm (.csrrwi 0 0 0xC00) = some (0xC00, true) ∧ (0xC00#12).toNat / 1024 = 3 ∧ csrForm (.csrrs 5 0 0xF14) = some (0xF14, false) ∧
    (0xF14#12).toNat ∈ csrAddresses := by decide

theorem test_witness_CsrInstructionsComplete :
    csrLegal ready 0x300 true ∧ csrLegal ready 0xB02 true ∧ csrLegal ready 0xF14 ((0 : Reg) != 0#5) ∧
    csrLegal (inMode .supervisor base) 0x180 ((1 : Reg) != 0#5) ∧
    csrLegal { userState with mcounteren := 1, scounteren := 1 } 0xC00 false := by
  refine ⟨?_, ?_, ?_, ?_, ?_⟩ <;> (unfold csrLegal; decide)

/-- The first and the last entry of each half, unlocked and locked, and the two bytes that differ by the reserved combination. -/
theorem test_witness_PmpRegisterWrites :
    base.pmpcfg[(0 : Fin 16)].l = false ∧ base.pmpcfg[(15 : Fin 16)].l = false ∧ layoutA.pmpcfg[(4 : Fin 16)].l = true ∧
    (let b := (0x1D0000000000000A : Word).extractLsb' (8 * (0 - 0)) 8; b.getLsbD 0 = false ∧ b.getLsbD 1 = true) ∧
    (let b := (0x1D0000000000000A : Word).extractLsb' (8 * (15 - 8)) 8; b.getLsbD 0 = true ∨ b.getLsbD 1 = false) ∧
    (let s := { base with pmpcfg := base.pmpcfg.set 1 ⟨true, .tor, false, false, true⟩ }
     ∃ c, s.pmpcfg[(0 : Fin 16).val + 1]? = some c ∧ c.l = true ∧ c.a = .tor) :=
  ⟨by decide, by decide, by decide, by decide, by decide, _, rfl, rfl, rfl⟩

/-- Each matching mode, entry 0 and a later one, the smallest and the largest `k`, and all ones. -/
theorem test_witness_PmpRegions :
    (base.pmpcfg[(0 : Fin 16)].a = .off ∧ layoutA.pmpcfg[(1 : Fin 16)].a = .tor ∧ layoutA.pmpcfg[(3 : Fin 16)].a = .na4 ∧
      layoutA.pmpcfg[(2 : Fin 16)].a = .napot ∧ layoutA.pmpaddr[(2 : Fin 16)] = 0x200005FF ∧
      ∀ j : Fin 16, j.val + 1 = (1 : Fin 16).val → 0x20000000 = layoutA.pmpaddr[j]) ∧
    ((0x200005FF : BitVec 54).getLsbD 9 = false ∧ ∀ j, j < 9 → (0x200005FF : BitVec 54).getLsbD j = true) ∧
    ((0x1FFFFFFFFFFFFF : BitVec 54).getLsbD 53 = false ∧ ∀ j, j < 53 → (0x1FFFFFFFFFFFFF : BitVec 54).getLsbD j = true) ∧
    (userState.pmpcfg[(0 : Fin 16)].a = .napot ∧ userState.pmpaddr[(0 : Fin 16)] = BitVec.allOnes 54) := by decide

theorem test_witness_PmpCheckDecides : (∀ i : Fin 16, base.pmpcfg[i].a = .off) ∧ 0 < 1 := by decide

theorem test_witness_LockedPmpEntriesStay :
    (∃ t, step ({ layoutA with pmpcfg := layoutA.pmpcfg.set 1 ⟨true, .tor, true, true, true⟩ }.withFetchWord 32 0x3B029073) = .next t) ∧
    ({ layoutA with pmpcfg := layoutA.pmpcfg.set 1 ⟨true, .tor, true, true, true⟩ }).pmpcfg[(1 : Fin 16)].l = true ∧
    ({ layoutA with pmpcfg := layoutA.pmpcfg.set 1 ⟨true, .tor, true, true, true⟩ }).pmpcfg[(1 : Fin 16)].a = .tor ∧
    (0 : Fin 16).val + 1 = (1 : Fin 16).val :=
  ⟨next_of_look (by decide), by decide, by decide, by decide⟩

theorem main_eight (p : Platform) (a : Nat) (h : (List.range 8).all (fun k => isMainMemory p (a + k)) = true) :
    allMainMemory p a 8 := by
  intro b h1 h2
  have := List.all_eq_true.mp h (b - a) (List.mem_range.mpr (by omega))
  rwa [Nat.add_sub_cancel' h1] at this

/-- An entry of the page tables in main memory that a page-table read may read. -/
theorem entry_at (s : State) (a : Nat) (pte : Word)
    (h : ((List.range 8).all (fun k => isMainMemory s.platform (a + k)) && s.physAllows a 8 .load .supervisor &&
      decide (pte.toNat = littleEndian ((addressesFrom a 8).map (Memory.read s.mem)))) = true) : s.entryAt a pte := by
  simp only [Bool.and_eq_true, decide_eq_true_eq] at h
  exact ⟨main_eight _ _ h.1.1, (physAllows_iff _ _ _ _ _).mp h.1.2, h.2⟩

/-- The walk for the user pages of `tables` comes to the last level. -/
theorem user_walk (s : State) (hs : s = inMode .user tables) : WalkReaches s 0x80001008 0 0x80402000 := by
  subst hs
  have h1 := WalkReaches.pointer (WalkReaches.root (s := inMode .user tables) (va := 0x80001008))
    (pte := 0x20100401) (entry_at _ _ _ (by decide)) ⟨by decide, by decide⟩
  exact WalkReaches.pointer (a := entryPpn 0x20100401 * 4096) h1 (pte := 0x20100801) (entry_at _ _ _ (by decide))
    ⟨by decide, by decide⟩

/-- `tables` with a misaligned superpage at level 2, and in Sv48 a root that no region holds. -/
def badTables : State := { fill (inMode .user tables) 0x80400020 0x300004DF with tlb := [⟨0, 0x80001, .pageFault⟩] }

/-- A leaf of level 0 that permits a load and not a store, a superpage of level 2, a misaligned one, an entry that a walk may not
read, addresses on both sides of both bounds of the canonical ones, and kept results of each kind. -/
theorem test_witness_PageTablesTranslate :
    (inMode .user tables).satp.mode ≠ .bare ∧ Priv.user ≠ .machine ∧
    ¬ canonicalFor .sv39 0x4000000000 ∧ canonicalFor .sv39 0x3FFFFFFFFF ∧ ¬ canonicalFor .sv48 0xFFFF7FFFFFFFFFFF ∧
    canonicalFor .sv57 0xFF00000000000000 ∧ canonicalFor (inMode .user tables).satp.mode 0x80001008 ∧
    (inMode .user tables).tlbPick ((inMode .user tables).choiceFor .load).1 0x80001008 = none ∧
    WalkReaches (inMode .user tables) 0x80001008 0 0x80402000 ∧
    (inMode .user tables).entryAt (entryAddr 0x80402000 0x80001008 0) 0x2000045B ∧
    leafValid 0 0x2000045B ∧ (inMode .user tables).leafGrants .load .user 0x2000045B ∧
    ¬ (inMode .user tables).leafGrants .store .user 0x2000045B ∧
    (inMode .supervisor tables).entryAt (entryAddr 0x80400000 0xC1234568 2) 0x300000CF ∧ leafValid 2 0x300000CF ∧
    (inMode .supervisor tables).leafGrants .store .supervisor 0x300000CF ∧
    badTables.entryAt (entryAddr 0x80400000 0x100000000 2) 0x300004DF ∧ ¬ leafValid 2 0x300004DF ∧
    ({ badTables with satp := ⟨.sv48, 0, 1⟩ }).physAllows (entryAddr 4096 0x80001008 3) 8 .load .supervisor = false ∧
    ({ badTables with tlbChoice := ⟨0, 1⟩ }).tlbPick 1 0x80001FFF = some ⟨0, 0x80001, .pageFault⟩ ∧
    ({ badTables with tlb := [⟨0, 0x80001, .accessFault 0x1010⟩] }).tlbPick 1 0x80001000 = some ⟨0, 0x80001, .accessFault 0x1010⟩ ∧
    ({ badTables with tlb := [⟨7, 0xC0000, .leaf 2 0x300000EF⟩] }).tlbPick 1 0xFFFFFFF = none ∧
    ({ badTables with tlb := [⟨7, 0xC0000, .leaf 2 0x300000EF⟩] }).tlbPick 1 0xFFFFFFFF = some ⟨7, 0xC0000, .leaf 2 0x300000EF⟩ := by
  refine ⟨by decide, by decide, by unfold canonicalFor; decide, by unfold canonicalFor; decide, by unfold canonicalFor; decide,
    by unfold canonicalFor; decide, by unfold canonicalFor; decide, by decide, user_walk _ rfl, entry_at _ _ _ (by decide),
    by unfold leafValid; decide, ?_, ?_, entry_at _ _ _ (by decide), by unfold leafValid; decide, ?_,
    entry_at _ _ _ (by decide), by unfold leafValid; decide, by decide, by decide, by decide, by decide, by decide⟩ <;>
  simp only [State.leafGrants, State.userGrants] <;> decide

/-- A fetch, a load and a store by U-mode, and a load by S-mode with SUM. -/
theorem test_witness_TranslationChecksTheLeaf :
    userState.Good ∧ userState.satp.mode ≠ .bare ∧ userState.translate .fetch .user 0x80001008 = .ok 0x80001008 ∧
    userState.translate .load .user 0x80001008 = .ok 0x80001008 ∧ userState.translate .store .user 0x80002010 = .ok 0x80002010 ∧
    userState.translate .load .supervisor 0xC1234568 = .ok 0xC1234568 :=
  ⟨test_good_user, by decide, by decide, by decide, by decide, by decide⟩

/-- Misaligned; refused by the PMA, by PMP and by a page table; allowed, with and without translation. -/
theorem test_witness_DataAccessFaults :
    (0x80000FFF : Word).toNat % 2 ≠ 0 ∧ (0x40000000 : Word).toNat % 8 = 0 ∧
    base.physAllows 0x40000000 8 .load .machine = false ∧ base.physAllows 0x02000000 4 .fetch .machine = false ∧
    base.physAllows 0x8FFFFFF8 8 .store .machine = true ∧
    ({ base with priv := .user }).physAllows 0x80000000 8 .load .user = false ∧
    userState.translate .store .user 0x80001008 = .error ⟨.storePageFault, 0x80001008⟩ ∧
    userState.translate .load .user 0x80001008 = .ok 0x80001008 ∧ userState.physAllows 0x80001008 8 .load .user = true ∧
    base.dataAddr .store 0x8FFFFFF8 8 = .ok 0x8FFFFFF8 := by decide

/-- The last doubleword of the default platform's memory. -/
theorem test_witness_PlainMachineAccess :
    base.priv = .machine ∧ base.mstatus.mprv = false ∧ (∀ i : Fin 16, base.pmpcfg[i].a = .off) ∧
    (0x8FFFFFF8 : Word).toNat % 8 = 0 ∧ (⟨0x80000000, 0x10000000, true, true, true, true⟩ : Region) ∈ base.platform.pma ∧
    (0x8FFFFFF8 : Word).toNat + 8 ≤ 0x80000000 + 0x10000000 ∧ (0x8FFFFFF8 : Word).toNat + 8 ≤ 2 ^ 56 := by decide

/-- Main memory, and the MSIP word. -/
theorem test_witness_LoadsComplete :
    loadForm (.lh 5 6 6) = some (5, 6, 6, 2, true) ∧ loadForm (.lwu 5 0 0) = some (5, 0, 0, 4, false) ∧
    (regs data [(6, 0x80001000)]).dataAddr .load ((regs data [(6, 0x80001000)]).effectiveAddr 6 6) 2 = .ok 0x80001006 ∧
    (regs data [(6, 0x02000000)]).dataAddr .load ((regs data [(6, 0x02000000)]).effectiveAddr 6 0) 4 = .ok 0x02000000 ∧
    allMainMemory data.platform 0x80001006 2 := by
  refine ⟨by decide, by decide, by decide, by decide, ?_⟩
  intro a h1 h2
  obtain rfl | rfl : a = 0x80001006 ∨ a = 0x80001007 := by omega
  all_goals decide

theorem test_witness_StoresComplete :
    storeForm (.sh 6 7 (-2)) = some (6, 7, -2, 2) ∧ data.platform.msipAddr = some 0x02000000 ∧
    ¬ (0x80000FFE ≤ 0x02000000 + 4 * data.platform.hartId.toNat ∧ 0x02000000 + 4 * data.platform.hartId.toNat < 0x80000FFE + 2) ∧
    (regs data [(6, 0x80001000)]).dataAddr .store ((regs data [(6, 0x80001000)]).effectiveAddr 6 (-2)) 2 = .ok 0x80000FFE ∧
    Memory.wf data.mem = true ∧ staleWf data.fetchStale = true ∧ isMainMemory data.platform (0x80000FFE + 1) = true ∧
    allMainMemory data.platform 0x80000FFE 2 := by
  refine ⟨by decide, by decide, by decide, by decide, by decide, by decide, by decide, ?_⟩
  intro a h1 h2
  obtain rfl | rfl : a = 0x80000FFE ∨ a = 0x80000FFF := by omega
  all_goals decide

theorem test_witness_LoadAfterStore :
    Memory.wf data.mem = true ∧ data.translates data.effectivePriv = false ∧ allMainMemory data.platform 0x80001000 8 ∧
    (regs data [(6, 0x80001000)]).dataAddr .store ((regs data [(6, 0x80001000)]).effectiveAddr 6 0) 8 = .ok 0x80001000 ∧
    (regs data [(6, 0x80001000)]).dataAddr .load ((regs data [(6, 0x80001000)]).effectiveAddr 6 0) 8 = .ok 0x80001000 := by
  refine ⟨by decide, by decide, ?_, by decide, by decide⟩
  intro a h1 h2
  obtain rfl | rfl | rfl | rfl | rfl | rfl | rfl | rfl : a = 0x80001000 ∨ a = 0x80001001 ∨ a = 0x80001002 ∨ a = 0x80001003 ∨
    a = 0x80001004 ∨ a = 0x80001005 ∨ a = 0x80001006 ∨ a = 0x80001007 := by omega
  all_goals decide

theorem test_witness_MisalignedAccessesTrap :
    loadForm (.lhu 5 0 1) = some (5, 0, 1, 2, false) ∧ (base.effectiveAddr 0 1).toNat % 2 ≠ 0 ∧
    storeForm (.sd 0 5 (-1)) = some (0, 5, -1, 8) ∧ (base.effectiveAddr 0 (-1)).toNat % 8 ≠ 0 := by decide

theorem test_witness_FaultingAccessesTrap :
    loadForm (.lw 5 0 (-4)) = some (5, 0, -4, 4, true) ∧
    base.dataAddr .load (base.effectiveAddr 0 (-4)) 4 = .error ⟨.loadAccessFault, 0xFFFFFFFFFFFFFFFC⟩ ∧
    storeForm (.sb 0 5 0) = some (0, 5, 0, 1) ∧
    base.dataAddr .store (base.effectiveAddr 0 0) 1 = .error ⟨.storeAccessFault, 0⟩ := by decide

theorem test_witness_MsipWord :
    base.platform.msipAddr = some 0x02000000 ∧
    (regs base [(6, 0x02000000)]).dataAddr .store ((regs base [(6, 0x02000000)]).effectiveAddr 6 0) 4 =
      .ok (0x02000000 + 4 * base.platform.hartId.toNat) ∧
    (regs base [(6, 0x02000000)]).dataAddr .load ((regs base [(6, 0x02000000)]).effectiveAddr 6 0) 4 =
      .ok (0x02000000 + 4 * base.platform.hartId.toNat) := by decide

theorem test_witness_FetchSeesOldOrNewBytes :
    isMainMemory base.platform 0x80000010 = true ∧ staleCandidates base.fetchStale 0x80000010 = [] ∧
    staleCandidates ({ base with fetchStale := [(0x80000010, [0x73, 0x13])] }).fetchStale 0x80000010 ≠ [] := by decide

theorem test_witness_JumpsComplete :
    (BitVec.ofInt 64 (base.pc.toInt + (-1048576 : BitVec 21).toInt)).toNat % 4 = 0 ∧
    (BitVec.ofNat 64 ((((regs base [(5, 0x80001235)]).readX 5) + immValue 0).toNat / 2 * 2)).toNat % 4 = 0 := by decide

theorem test_witness_BranchesComplete :
    (branchForm (.bgeu 5 6 16)).isSome = true ∧ (BitVec.ofInt 64 (base.pc.toInt + (16 : BitVec 13).toInt)).toNat % 4 = 0 ∧
    ((branchForm (.bgeu 5 6 16)).map fun b => b.2.2.2 1 1) = some true ∧
    ((branchForm (.blt 5 6 (-4096))).map fun b => b.2.2.2 1 0xFFFFFFFFFFFFFFFF) = some false := by decide

theorem test_witness_MisalignedTargetsTrap :
    transferTarget base (.jal 1 0xFFFFE) = some 0x800FFFFE ∧ (0x800FFFFE : Word).toNat % 4 ≠ 0 ∧
    transferTarget base (.beq 0 0 4094) = some 0x80000FFE ∧ branchForm (.bne 0 0 2) ≠ none ∧
    transferTarget base (.bne 0 0 2) = none ∧ Instr.wellFormed (.beq 0 0 4094) = true := by
  refine ⟨by decide, by decide, by decide, ?_, by decide, by decide⟩
  intro h; cases h

theorem test_witness_ModeChangesOnlyByTrapsAndReturns :
    (∃ t, exec .ecall userState = .next t) ∧ (∃ t, exec .mret ready = .next t) ∧
    ∃ t, exec .sret (inMode .supervisor base) = .next t :=
  ⟨next_of_look (by decide), next_of_look (by decide), next_of_look (by decide)⟩

/-- A step of U-mode that stays there, and one of S-mode. -/
theorem test_witness_LowerModesCannotChangeHigherState :
    userState.Good ∧ userState.priv = .user ∧ (inMode .supervisor ready).priv ≠ .machine ∧ (inMode .supervisor ready).Good ∧
    look (fun t => t.priv) (step (userState.withFetchWord 32 0x00428293)) = some .user ∧
    look (fun t => t.priv) (step (inMode .supervisor ready)) = some .supervisor :=
  ⟨test_good_user, by decide, by decide, by constructor <;> decide, by decide, by decide⟩

theorem test_witness_OnlyStoresWriteMemory :
    (∃ t, exec .fenceI ready = .next t) ∧ storeForm .fenceI = none ∧ ∃ t, exec (.sb 0 5 0) ready = .next t :=
  ⟨next_of_look (by decide), by decide, next_of_look (by decide)⟩

/-- One that traps, one that is counted, one that writes `minstret`. -/
theorem test_witness_MinstretCountsCompletions :
    (∃ t, exec .ebreak ready = .next t) ∧ raises .ebreak ready .breakpoint ready.pc ∧
    (∃ t, exec (.addi 1 2 3) ready = .next t) ∧ (∀ c tval, ¬ raises (.addi 1 2 3) ready c tval) ∧
    csrForm (.csrrs 0 5 0xB02) = some (0xB02#12, true) ∧ (∃ t, exec (.csrrs 0 5 0xB02) ready = .next t) ∧
    csrLegal ready 0xB02#12 true ∧ look (fun t => t.minstret) (exec (.csrrs 0 5 0xB02) (regs ready [(5, 6)])) = some 6 := by
  refine ⟨next_of_look (by decide), rfl, next_of_look (by decide), ?_, by decide, next_of_look (by decide), ?_, by decide⟩
  · intro c tval h
    have h1 := congrArg (look (fun t => t.minstret)) h
    rw [show look (fun t => t.minstret) (exec (.addi 1 2 3) ready) = some 1 by decide] at h1
    simp only [look, State.trap_minstret, Option.some.injEq] at h1
    exact absurd h1 (by decide)
  · unfold csrLegal; decide

end Sys2Proof.Tests
end

/-! ## `mstatus` and `sstatus` as the CSR instructions see them (10_state.md R46, R70) -/

namespace Sys2Proof.Machine

/-! ### The masks, by their bits -/

/-- The places of the writable fields of `mstatus` (10_state.md R35). -/
theorem mstatusMask_getLsbD :
    ∀ k < 64, mstatusMask.getLsbD k = decide (k ∈ [1, 3, 5, 7, 8, 11, 12, 17, 18, 19, 20, 21, 22]) := by decide

/-- The places of SIE, SPIE, SPP, SUM and MXR. -/
theorem sstatusMask_getLsbD : ∀ k < 64, sstatusMask.getLsbD k = decide (k ∈ [1, 5, 8, 18, 19]) := by decide

/-- The places of the writable fields of `mstatus` without MPP. -/
theorem mstatusMask_without_mpp_getLsbD :
    ∀ k < 64, (0x7E01AA : Word).getLsbD k = (mstatusMask.getLsbD k && k != 11 && k != 12) := by decide

/-- A masked write sets every bit of the mask, whatever was there. -/
theorem maskedWrite_and_mask (mask old v : Word) : maskedWrite mask old v &&& mask = v &&& mask := by
  apply BitVec.eq_of_getLsbD_eq
  intro k _
  rw [BitVec.getLsbD_and, BitVec.getLsbD_and, maskedWrite_getLsbD]
  cases mask.getLsbD k <;> simp

/-! ### The constant bits -/

/-- A bit of `mstatus` that is no writable field is constant (10_state.md R46). -/
theorem MStatus.read_getLsbD_of_constant (m : MStatus) (k : Nat) (hk : k < 64) (h : mstatusMask.getLsbD k = false) :
    m.read.getLsbD k = mstatusConstant.getLsbD k := by
  simp only [mstatusMask_getLsbD k hk, decide_eq_false_iff_not, List.mem_cons, List.not_mem_nil, or_false, not_or,
    ← ne_eq, ← beq_eq_false_iff_ne] at h
  rw [MStatus.read_getLsbD, mstatusConstant_getLsbD]
  simp [h]

/-- Outside its writable fields `mstatus` reads as the constant (10_state.md R46). -/
theorem MStatus.read_and_not_mask (m : MStatus) : m.read &&& ~~~mstatusMask = mstatusConstant := by
  have hconstant : mstatusConstant = mstatusConstant &&& ~~~mstatusMask := by decide
  rw [hconstant]
  apply BitVec.eq_of_getLsbD_eq
  intro k hk
  rw [BitVec.getLsbD_and, BitVec.getLsbD_and, BitVec.getLsbD_not]
  cases h : mstatusMask.getLsbD k with
  | true => simp
  | false => rw [m.read_getLsbD_of_constant k hk h]

/-- A read of `mstatus` is the stored fields and the constant (10_state.md R46). -/
theorem MStatus.read_eq_fields_or_constant (m : MStatus) : m.read = (m.read &&& mstatusMask) ||| mstatusConstant := by
  rw [← m.read_and_not_mask, ← BitVec.and_or_distrib_left, show mstatusMask ||| ~~~mstatusMask = BitVec.allOnes 64 by decide,
    BitVec.and_allOnes]

/-! ### MPP -/

theorem MStatus.read_getLsbD_eleven (m : MStatus) : m.read.getLsbD 11 = (privCode m.mpp).getLsbD 0 := by
  rw [MStatus.read_getLsbD]
  cases m.mpp <;> simp [privCode]

theorem MStatus.read_getLsbD_twelve (m : MStatus) : m.read.getLsbD 12 = (privCode m.mpp).getLsbD 1 := by
  rw [MStatus.read_getLsbD]
  cases m.mpp <;> simp [privCode]

/-- A two-bit field that holds a mode: 10 leaves the mode it held (10_state.md R38). -/
theorem privCode_getD_privOfCode (p : Priv) (c : BitVec 2) :
    privCode ((privOfCode c).getD p) = if c = 0b10 then privCode p else c := by
  revert c
  cases p <;> decide

/-- MPP after a write of `mstatus` (10_state.md R38). -/
theorem MStatus.write_mpp_code (m : MStatus) (v : Word) :
    privCode (m.write v).mpp = if v.extractLsb' 11 2 = 0b10 then privCode m.mpp else v.extractLsb' 11 2 :=
  privCode_getD_privOfCode m.mpp _

/-- The two bits of MPP after a write of `mstatus` (10_state.md R38). -/
theorem MStatus.read_write_getLsbD_mpp (m : MStatus) (v : Word) (k : Nat) (hk : k = 11 ∨ k = 12) :
    (m.write v).read.getLsbD k = if v.extractLsb' 11 2 = 0b10 then m.read.getLsbD k else v.getLsbD k := by
  obtain rfl | rfl := hk
  · rw [MStatus.read_getLsbD_eleven, MStatus.read_getLsbD_eleven, MStatus.write_mpp_code]
    split <;> simp
  · rw [MStatus.read_getLsbD_twelve, MStatus.read_getLsbD_twelve, MStatus.write_mpp_code]
    split <;> simp

/-! ### Writes -/

/-- The bits of `mstatus` but those of MPP after a write of it (10_state.md R46). -/
theorem MStatus.read_write_getLsbD_of_not_mpp (m : MStatus) (v : Word) (k : Nat) (hk : k < 64) (h11 : k ≠ 11) (h12 : k ≠ 12) :
    (m.write v).read.getLsbD k = if mstatusMask.getLsbD k then v.getLsbD k else m.read.getLsbD k := by
  cases h : mstatusMask.getLsbD k with
  | true =>
    simp only [mstatusMask_getLsbD k hk, decide_eq_true_eq, List.mem_cons, List.not_mem_nil, or_false, h11, h12, false_or] at h
    rw [if_pos rfl, MStatus.read_getLsbD]
    obtain rfl | rfl | rfl | rfl | rfl | rfl | rfl | rfl | rfl | rfl | rfl := h <;> simp [MStatus.write]
  | false =>
    rw [MStatus.read_getLsbD_of_constant _ k hk h, MStatus.read_getLsbD_of_constant _ k hk h, if_neg Bool.false_ne_true]

/-- A write of `mstatus` whose MPP field names a mode sets every writable field (10_state.md R46). -/
theorem MStatus.read_write_of_mode (m : MStatus) (v : Word) (h : v.extractLsb' 11 2 ≠ 0b10) :
    (m.write v).read = maskedWrite mstatusMask m.read v := by
  apply BitVec.eq_of_getLsbD_eq
  intro k hk
  rw [maskedWrite_getLsbD]
  by_cases hm : k = 11 ∨ k = 12
  · have hw : mstatusMask.getLsbD k = true := by obtain rfl | rfl := hm <;> decide
    rw [m.read_write_getLsbD_mpp v k hm, if_neg h, if_pos hw]
  · obtain ⟨h11, h12⟩ := not_or.mp hm
    exact m.read_write_getLsbD_of_not_mpp v k hk h11 h12

/-- A write of `mstatus` with 10 in the MPP field sets every writable field but MPP (10_state.md R38, R46). -/
theorem MStatus.read_write_of_no_mode (m : MStatus) (v : Word) (h : v.extractLsb' 11 2 = 0b10) :
    (m.write v).read = maskedWrite 0x7E01AA m.read v := by
  apply BitVec.eq_of_getLsbD_eq
  intro k hk
  rw [maskedWrite_getLsbD, mstatusMask_without_mpp_getLsbD k hk]
  by_cases hm : k = 11 ∨ k = 12
  · rw [m.read_write_getLsbD_mpp v k hm, if_pos h]
    obtain rfl | rfl := hm <;> simp
  · obtain ⟨h11, h12⟩ := not_or.mp hm
    rw [m.read_write_getLsbD_of_not_mpp v k hk h11 h12]
    simp [h11, h12]

/-- A write of `sstatus` sets SIE, SPIE, SPP, SUM and MXR of `mstatus` and no other field (10_state.md R70). -/
theorem MStatus.read_writeS (m : MStatus) (v : Word) : (m.writeS v).read = maskedWrite sstatusMask m.read v := by
  apply BitVec.eq_of_getLsbD_eq
  intro k hk
  rw [maskedWrite_getLsbD, MStatus.read_getLsbD]
  cases h : sstatusMask.getLsbD k with
  | true =>
    simp only [sstatusMask_getLsbD k hk, decide_eq_true_eq, List.mem_cons, List.not_mem_nil, or_false] at h
    obtain rfl | rfl | rfl | rfl | rfl := h <;> simp [MStatus.writeS]
  | false =>
    simp only [sstatusMask_getLsbD k hk, decide_eq_false_iff_not, List.mem_cons, List.not_mem_nil, or_false, not_or,
      ← ne_eq, ← beq_eq_false_iff_ne] at h
    rw [MStatus.read_getLsbD]
    simp [MStatus.writeS, h]

/-! ### Reads of `sstatus` -/

/-- `sstatus` reads as the bits of `mstatus` that R70 shows: five fields, and UXL as the only constant that is not 0. -/
theorem MStatus.readS_eq_view (m : MStatus) : m.readS = m.read &&& 0x80000003000DE773 := by
  have hfields : mstatusMask &&& 0x80000003000DE773 = sstatusMask := by decide
  have hconstant : mstatusConstant &&& 0x80000003000DE773 = sstatusConstant := by decide
  calc m.readS
      = (m.read &&& (mstatusMask &&& 0x80000003000DE773)) ||| (mstatusConstant &&& 0x80000003000DE773) := by
        rw [hfields, hconstant]; rfl
    _ = ((m.read &&& mstatusMask) ||| mstatusConstant) &&& 0x80000003000DE773 := by
        rw [BitVec.and_or_distrib_right, BitVec.and_assoc]
    _ = m.read &&& 0x80000003000DE773 := by rw [← m.read_eq_fields_or_constant]

/-- `sstatus` reads back what was written to it, with UXL (10_state.md R70). -/
theorem MStatus.readS_writeS (m : MStatus) (v : Word) : (m.writeS v).readS = (v &&& sstatusMask) ||| sstatusConstant := by
  rw [MStatus.readS, MStatus.read_writeS, maskedWrite_and_mask]

/-! ### The CSRs of the state -/

@[simp] theorem State.csrRead_mstatus (s : State) : s.csrRead .mstatus = s.mstatus.read := rfl
@[simp] theorem State.csrRead_sstatus (s : State) : s.csrRead .sstatus = s.mstatus.readS := rfl

/-- A write of `mstatus` changes nothing else. -/
theorem State.csrWrite_mstatus_eq (s : State) (v : Word) :
    s.csrWrite .mstatus v = { s with mstatus := s.mstatus.write v } := rfl
@[simp] theorem State.csrWrite_mstatus_mstatus (s : State) (v : Word) :
    (s.csrWrite .mstatus v).mstatus = s.mstatus.write v := rfl

/-- A write of `sstatus` changes `mstatus` and nothing else: it has no storage of its own (10_state.md R70). -/
theorem State.csrWrite_sstatus_eq (s : State) (v : Word) :
    s.csrWrite .sstatus v = { s with mstatus := s.mstatus.writeS v } := rfl
@[simp] theorem State.csrWrite_sstatus_mstatus (s : State) (v : Word) :
    (s.csrWrite .sstatus v).mstatus = s.mstatus.writeS v := rfl

/-! ### The statements -/

/-- Settles O26: a write is a masked write, with or without the two bits of MPP; the rest of a read is constant. -/
theorem mstatusWrites : Obligations.MstatusWrites := by
  intro s v
  simp only [State.csrRead_mstatus, State.csrWrite_mstatus_mstatus]
  have hexample : (s.mstatus.write 0x820).read = 0x0000000A00000820 := by
    rw [MStatus.read_write_of_mode _ _ (by decide), maskedWrite, MStatus.read_and_not_mask]
    decide
  exact ⟨s.mstatus.read_write_of_mode v, s.mstatus.read_write_of_no_mode v, s.mstatus.read_and_not_mask, hexample,
    s.csrWrite_mstatus_eq v⟩

/-- Settles O27: a write is a masked write of `mstatus`, and a read masks a read of `mstatus`. -/
theorem sstatusIsAView : Obligations.SstatusIsAView := by
  intro s v
  simp only [State.csrRead_mstatus, State.csrRead_sstatus, State.csrWrite_sstatus_mstatus]
  have hexample : (s.mstatus.writeS 0x20).readS = 0x200000020 := by
    rw [MStatus.readS_writeS]
    decide
  exact ⟨s.mstatus.readS_eq_view, rfl, s.mstatus.read_writeS v, s.csrWrite_sstatus_eq v, hexample⟩

end Sys2Proof.Machine

/-! ## The regions of the PMP entries and the entry that decides (20_memory.md R133, R135, R136) -/

namespace Sys2Proof.Machine

/-! ### How many 1 bits a number starts with -/

/-- The first 0 bit ends the count (20_memory.md R133: `k`). -/
theorem trailingOnes_of_first_zero (fuel v k : Nat) (hk : k < fuel) (hones : ∀ j, j < k → v.testBit j = true)
    (hzero : v.testBit k = false) : trailingOnes fuel v = k := by
  induction fuel generalizing v k with
  | zero => omega
  | succ fuel ih =>
    cases k with
    | zero =>
      rw [Nat.testBit_zero, decide_eq_false_iff_not] at hzero
      rw [trailingOnes, if_neg hzero]
    | succ k =>
      have hodd : v % 2 = 1 := by simpa [Nat.testBit_zero] using hones 0 k.succ_pos
      rw [trailingOnes, if_pos hodd]
      congr 1
      refine ih (v / 2) k (by omega) (fun j hj => ?_) ?_
      · rw [← Nat.testBit_succ]; exact hones (j + 1) (by omega)
      · rw [← Nat.testBit_succ]; exact hzero

/-- Without a 0 bit the count ends where the looking does (20_memory.md R133: `k` = 54). -/
theorem trailingOnes_of_all_ones (fuel v : Nat) (hones : ∀ j, j < fuel → v.testBit j = true) : trailingOnes fuel v = fuel := by
  induction fuel generalizing v with
  | zero => rfl
  | succ fuel ih =>
    have hodd : v % 2 = 1 := by simpa [Nat.testBit_zero] using hones 0 fuel.succ_pos
    rw [trailingOnes, if_pos hodd, ih]
    intro j hj
    rw [← Nat.testBit_succ]
    exact hones (j + 1) (by omega)

/-! ### A region, by its matching mode -/

@[simp] theorem pmpRegionHas_off (Q P : BitVec 54) (y : Nat) : pmpRegionHas .off Q P y = false := rfl

theorem pmpRegionHas_tor_iff (Q P : BitVec 54) (y : Nat) :
    pmpRegionHas .tor Q P y = true ↔ Q.toNat ≤ y / 4 ∧ y / 4 < P.toNat := by
  simp [pmpRegionHas, Nat.shiftRight_eq_div_pow]

theorem pmpRegionHas_na4_iff (Q P : BitVec 54) (y : Nat) : pmpRegionHas .na4 Q P y = true ↔ y / 4 = P.toNat := by
  simp [pmpRegionHas, Nat.shiftRight_eq_div_pow]

theorem pmpRegionHas_napot_iff (Q P : BitVec 54) (y : Nat) :
    pmpRegionHas .napot Q P y = true ↔
      y / 4 / 2 ^ (trailingOnes 54 P.toNat + 1) = P.toNat / 2 ^ (trailingOnes 54 P.toNat + 1) := by
  simp [pmpRegionHas, Nat.shiftRight_eq_div_pow]

/-- A NAPOT region is found above the first 0 bit of its address register. -/
theorem pmpRegionHas_napot_of_first_zero (Q P : BitVec 54) (y k : Nat) (hk : k < 54)
    (hones : ∀ j, j < k → P.getLsbD j = true) (hzero : P.getLsbD k = false) :
    pmpRegionHas .napot Q P y = true ↔ y / 4 / 2 ^ (k + 1) = P.toNat / 2 ^ (k + 1) := by
  rw [pmpRegionHas_napot_iff, trailingOnes_of_first_zero 54 P.toNat k hk hones hzero]

/-- All ones is the whole physical address space: above bit 54 both numbers are 0. -/
theorem pmpRegionHas_napot_allOnes (Q : BitVec 54) (y : Nat) (hy : y < 2 ^ 56) :
    pmpRegionHas .napot Q (BitVec.allOnes 54) y = true := by
  have hones : trailingOnes 54 (BitVec.allOnes 54).toNat = 54 :=
    trailingOnes_of_all_ones _ _ fun j hj => (BitVec.getLsbD_allOnes (i := j)).trans (decide_eq_true hj)
  have hP := (BitVec.allOnes 54).isLt
  rw [pmpRegionHas_napot_iff, hones, Nat.div_eq_of_lt (show y / 4 < 2 ^ (54 + 1) by omega), Nat.div_eq_of_lt (by omega)]

/-! ### The regions of a state -/

/-- The register before entry `i` is 0 for entry 0 and that of entry `i - 1` for the others. -/
theorem State.pmpBefore_eq (s : State) (i : Fin 16) (Q : BitVec 54) (hfirst : i.val = 0 → Q = 0)
    (hlater : ∀ j : Fin 16, j.val + 1 = i.val → Q = s.pmpaddr[j]) : s.pmpBefore i = Q := by
  obtain ⟨k, hk⟩ := i
  cases k with
  | zero => exact (hfirst rfl).symm
  | succ k =>
    rw [hlater ⟨k, by omega⟩ rfl]
    simp [State.pmpBefore, show k < 16 by omega]

/-- The register before entry `i`, in the list of registers that the search goes through. -/
theorem State.addrBefore_toList (s : State) (i : Fin 16) : addrBefore 0 s.pmpaddr.toList i.val = s.pmpBefore i := by
  refine (s.pmpBefore_eq i _ (fun h => ?_) (fun j h => ?_)).symm
  · simp [addrBefore, h]
  · simp [addrBefore, ← h]

/-- An entry that is OFF has no byte. -/
theorem State.pmpHas_of_off (s : State) (i : Fin 16) (y : Nat) (h : s.pmpcfg[i].a = .off) : s.pmpHas i y = false := by
  rw [State.pmpHas, h, pmpRegionHas_off]

/-- Settles O34: one case per matching mode. -/
theorem pmpRegions : Obligations.PmpRegions := by
  intro s i Q P y hP hfirst hlater
  have hhas : s.pmpHas i y = pmpRegionHas s.pmpcfg[i].a Q P y := by
    rw [State.pmpHas, s.pmpBefore_eq i Q hfirst hlater, hP]
  refine ⟨s.pmpHas_of_off i y, fun h => ?_, fun h => ?_, fun h => ⟨fun k hk hones hzero => ?_, fun hall hy => ?_⟩⟩ <;>
    rw [hhas, h]
  · exact pmpRegionHas_tor_iff Q P y
  · exact pmpRegionHas_na4_iff Q P y
  · exact pmpRegionHas_napot_of_first_zero Q P y k hk hones hzero
  · rw [hall]; exact pmpRegionHas_napot_allOnes Q y hy

/-! ### The entry that decides -/

/-- Entry `i` has no byte of the access. -/
def State.pmpMisses (s : State) (i : Fin 16) (pa n : Nat) : Prop := ∀ y, pa ≤ y → y < pa + n → s.pmpHas i y = false

/-- Entry `i` has every byte of the access (20_memory.md R135: it matches). -/
def State.pmpCovers (s : State) (i : Fin 16) (pa n : Nat) : Prop := ∀ y, pa ≤ y → y < pa + n → s.pmpHas i y = true

/-- An access of at least one byte is not both outside an entry and inside it. -/
theorem State.pmpMisses.not_covers {s : State} {i : Fin 16} {pa n : Nat} (h : s.pmpMisses i pa n) (hn : 0 < n) :
    ¬ s.pmpCovers i pa n := by
  intro hc
  have hpa : pa < pa + n := by omega
  exact Bool.false_ne_true ((h pa le_rfl hpa).symm.trans (hc pa le_rfl hpa))

theorem State.all_pmpHas_iff (s : State) (i : Fin 16) (pa n : Nat) :
    (addressesFrom pa n).all (s.pmpHas i) = true ↔ s.pmpCovers i pa n := by
  simp only [List.all_eq_true, mem_addressesFrom, and_imp, State.pmpCovers]

/-- The search over the registers of a state: it finds the lowest-numbered entry that has a byte of the access, or no entry has
one (20_memory.md R135). -/
theorem State.pmpDeciding_cases (s : State) (pa n : Nat) :
    (s.pmpDeciding pa n = none ∧ ∀ i, s.pmpMisses i pa n) ∨
    ∃ i, s.pmpDeciding pa n = some (s.pmpcfg[i], (addressesFrom pa n).all (s.pmpHas i)) ∧ ¬ s.pmpMisses i pa n ∧
      ∀ j, j < i → s.pmpMisses j pa n := by
  have hcfg : ∀ i : Fin 16, s.pmpcfg.toList[i.val]? = some s.pmpcfg[i] := fun i => by simp
  have haddr : ∀ i : Fin 16, s.pmpaddr.toList[i.val]? = some s.pmpaddr[i] := fun i => by simp
  have hhas : ∀ i : Fin 16, pmpRegionHas s.pmpcfg[i].a (addrBefore 0 s.pmpaddr.toList i.val) s.pmpaddr[i] = s.pmpHas i :=
    fun i => by rw [s.addrBefore_toList]; rfl
  rcases pmpSearch_cases pa n 0 s.pmpcfg.toList s.pmpaddr.toList with
    ⟨hnone, hmiss⟩ | ⟨k, c, P, hc, hP, hsome, ⟨y, hy, hyn, hbyte⟩, hbefore⟩
  · refine .inl ⟨hnone, fun i y hy hyn => ?_⟩
    rw [← hhas]
    exact hmiss i.val _ _ (hcfg i) (haddr i) y hy hyn
  · have hk : k < 16 := by simpa using (List.getElem?_eq_some_iff.mp hc).1
    obtain rfl : s.pmpcfg[(⟨k, hk⟩ : Fin 16)] = c := Option.some.inj ((hcfg ⟨k, hk⟩).symm.trans hc)
    obtain rfl : s.pmpaddr[(⟨k, hk⟩ : Fin 16)] = P := Option.some.inj ((haddr ⟨k, hk⟩).symm.trans hP)
    rw [hhas ⟨k, hk⟩] at hsome hbyte
    refine .inr ⟨⟨k, hk⟩, hsome, fun hmiss => ?_, fun j hj y hy hyn => ?_⟩
    · exact Bool.false_ne_true ((hmiss y hy hyn).symm.trans hbyte)
    · rw [← hhas]
      exact hbefore j.val _ _ hj (hcfg j) (haddr j) y hy hyn

/-- An access that no entry has a byte of is for M-mode alone; else the lowest-numbered entry that has one must match and permit
it, or be unlocked in M-mode (20_memory.md R136). -/
theorem State.pmpCheck_cases (s : State) (pa n : Nat) (acc : Access) (p : Priv) :
    ((∀ i, s.pmpMisses i pa n) ∧ (s.pmpCheck pa n acc p = true ↔ p = .machine)) ∨
    ∃ i, ¬ s.pmpMisses i pa n ∧ (∀ j, j < i → s.pmpMisses j pa n) ∧
      (s.pmpCheck pa n acc p = true ↔
        s.pmpCovers i pa n ∧ ((p = .machine ∧ s.pmpcfg[i].l = false) ∨ pmpPermits s.pmpcfg[i] acc = true)) := by
  rcases s.pmpDeciding_cases pa n with ⟨hnone, hmiss⟩ | ⟨i, hsome, hbyte, hbefore⟩
  · exact .inl ⟨hmiss, by simp [State.pmpCheck, hnone]⟩
  · refine .inr ⟨i, hbyte, hbefore, ?_⟩
    rw [← State.all_pmpHas_iff]
    simp [State.pmpCheck, hsome]

/-- What decides a PMP check, as an equivalence (20_memory.md R135, R136). -/
theorem State.pmpCheck_iff (s : State) (pa n : Nat) (acc : Access) (p : Priv) (hn : 0 < n) :
    s.pmpCheck pa n acc p = true ↔
      (p = .machine ∧ ∀ i, s.pmpMisses i pa n) ∨
      ∃ i, (∀ j, j < i → s.pmpMisses j pa n) ∧ s.pmpCovers i pa n ∧
        ((p = .machine ∧ s.pmpcfg[i].l = false) ∨ pmpPermits s.pmpcfg[i] acc = true) := by
  rcases s.pmpCheck_cases pa n acc p with ⟨hmiss, hcheck⟩ | ⟨i, hbyte, hbefore, hcheck⟩ <;> rw [hcheck]
  · constructor
    · exact fun hp => .inl ⟨hp, hmiss⟩
    · rintro (⟨hp, -⟩ | ⟨i, -, hcovers, -⟩)
      · exact hp
      · exact absurd hcovers ((hmiss i).not_covers hn)
  · constructor
    · exact fun ⟨hcovers, hgrants⟩ => .inr ⟨i, hbefore, hcovers, hgrants⟩
    · rintro (⟨-, hmiss⟩ | ⟨j, hbefore', hcovers, hgrants⟩)
      · exact absurd (hmiss i) hbyte
      · rcases lt_trichotomy j i with hlt | rfl | hgt
        · exact absurd hcovers ((hbefore j hlt).not_covers hn)
        · exact ⟨hcovers, hgrants⟩
        · exact absurd (hbefore' i hgt) hbyte

/-- With every entry OFF only M-mode has access. -/
theorem State.pmpCheck_of_all_off (s : State) (pa n : Nat) (acc : Access) (p : Priv) (hoff : ∀ i : Fin 16, s.pmpcfg[i].a = .off) :
    s.pmpCheck pa n acc p = true ↔ p = .machine := by
  rcases s.pmpCheck_cases pa n acc p with ⟨-, hcheck⟩ | ⟨i, hbyte, -⟩
  · exact hcheck
  · exact absurd (fun y _ _ => s.pmpHas_of_off i y (hoff i)) hbyte

/-- Settles O35: the search ends at the lowest-numbered entry that has a byte of the access. -/
theorem pmpCheckDecides : Obligations.PmpCheckDecides := by
  intro s pa n acc p hn
  refine ⟨(s.pmpCheck_iff pa n acc p hn).trans (or_congr (and_congr_right fun _ => Iff.rfl) (exists_congr fun i => ?_)),
    s.pmpCheck_of_all_off pa n acc p⟩
  refine and_congr ⟨fun h j y hj => h j hj y, fun h j hj y => h j y hj⟩ (and_congr_right fun _ => or_congr_right ?_)
  cases acc <;> rfl

end Sys2Proof.Machine

/-! ## Loads and stores whose access raises (20_memory.md R123; 44_load_store_fence.md R331) -/

namespace Sys2Proof.Machine

/-! ### Every load is `loadInto`, every store `storeFrom` -/

/-- What a load of `n` bytes writes to `rd` from the zero-extended value it read (44_load_store_fence.md R332 to R338). -/
def loadWiden (n : Nat) (signed : Bool) (v : Word) : Word := if signed then (v.setWidth (8 * n)).signExtend 64 else v

/-- Eight bytes are the whole register: nothing is left to extend. -/
theorem loadWiden_eight : loadWiden 8 true = zeroWiden := by
  funext v
  exact (BitVec.signExtend_eq _).trans (BitVec.setWidth_eq v)

theorem exec_of_loadForm {i : Instr} {rd rs1 : Reg} {imm : BitVec 12} {n : Nat} {signed : Bool}
    (h : loadForm i = some (rd, rs1, imm, n, signed)) (s : State) :
    exec i s = .next (s.loadInto rd (s.effectiveAddr rs1 imm) n (loadWiden n signed)) := by
  unfold loadForm at h
  split at h <;> cases h
  case h_4 => rw [loadWiden_eight]; rfl
  all_goals rfl

theorem exec_of_storeForm {i : Instr} {rs1 rs2 : Reg} {imm : BitVec 12} {n : Nat}
    (h : storeForm i = some (rs1, rs2, imm, n)) (s : State) :
    exec i s = .next (s.storeFrom (s.effectiveAddr rs1 imm) n (s.readX rs2)) := by
  unfold storeForm at h
  split at h <;> cases h <;> rfl

/-! ### An access that raises -/

/-- A load whose access raises takes that trap (44_load_store_fence.md R331). -/
theorem raises_of_load_error {i : Instr} {s : State} {rd rs1 : Reg} {imm : BitVec 12} {n : Nat} {signed : Bool} {e : Exn}
    (h : loadForm i = some (rd, rs1, imm, n, signed)) (he : s.dataAddr .load (s.effectiveAddr rs1 imm) n = .error e) :
    raises i s e.cause e.tval := by
  rw [raises, exec_of_loadForm h]
  rcases loadInto_cases s rd (s.effectiveAddr rs1 imm) n (loadWiden n signed) with ⟨e', he', hload⟩ | ⟨pa, hpa, -⟩
  · obtain rfl : e = e' := Except.error.inj (he.symm.trans he')
    rw [hload]
  · exact absurd (he.symm.trans hpa) nofun

/-- A store whose access raises takes that trap (44_load_store_fence.md R331). -/
theorem raises_of_store_error {i : Instr} {s : State} {rs1 rs2 : Reg} {imm : BitVec 12} {n : Nat} {e : Exn}
    (h : storeForm i = some (rs1, rs2, imm, n)) (he : s.dataAddr .store (s.effectiveAddr rs1 imm) n = .error e) :
    raises i s e.cause e.tval := by
  rw [raises, exec_of_storeForm h]
  rcases storeFrom_cases s (s.effectiveAddr rs1 imm) n (s.readX rs2) with ⟨e', he', hstore⟩ | ⟨pa, hpa, -⟩
  · obtain rfl : e = e' := Except.error.inj (he.symm.trans he')
    rw [hstore]
  · exact absurd (he.symm.trans hpa) nofun

/-- An instruction that raises changes no byte of memory and no register. -/
theorem raises.sameMem_sameRegs {i : Instr} {s : State} {c : Cause} {tval : Word} (h : raises i s c tval) :
    ∀ t, exec i s = .next t → sameMem s t ∧ sameRegs s t := by
  intro t ht
  obtain rfl : s.trap false (causeCode c) s.pc tval = t := Host.Outcome.next.inj (h.symm.trans ht)
  exact ⟨fun a => by rw [State.trap_mem], readX_trap s _ _ _ _⟩

/-! ### A misaligned access -/

/-- Alignment comes before translation and protection (20_memory.md R123). -/
theorem State.dataAddr_of_misaligned (s : State) (acc : Access) (va : Word) (n : Nat) (h : va.toNat % n ≠ 0) :
    s.dataAddr acc va n = .error ⟨misalignedFault acc, va⟩ := by
  rw [State.dataAddr, if_pos (by simpa using h)]

/-- Settles O44: the access path ends at the alignment check, and an instruction that raises touches nothing. -/
theorem misalignedAccessesTrap : Obligations.MisalignedAccessesTrap := by
  refine fun s i => ⟨fun rd rs1 imm n signed hform hmis => ?_, fun rs1 rs2 imm n hform hmis => ?_⟩
  · have hraises := raises_of_load_error hform (s.dataAddr_of_misaligned .load _ n hmis)
    exact ⟨hraises, hraises.sameMem_sameRegs⟩
  · have hraises := raises_of_store_error hform (s.dataAddr_of_misaligned .store _ n hmis)
    exact ⟨hraises, hraises.sameMem_sameRegs⟩

end Sys2Proof.Machine

/-! ## Words that fit no row of the opcode table (30_encoding.md R206, R207) -/

namespace Sys2Proof

/-! ### The masks of the table keep whole fields -/

/-- A mask that is 1 in one field keeps that field in its place. -/
theorem and_placeField_allOnes (w : InstrWord) (n lo : Nat) :
    w &&& placeField (BitVec.allOnes n) lo = placeField (w.extractLsb' lo n) lo := by
  apply BitVec.eq_of_getLsbD_eq
  intro k hk
  rw [BitVec.getLsbD_and, getLsbD_placeField, getLsbD_placeField, BitVec.getLsbD_extractLsb', BitVec.getLsbD_allOnes]
  by_cases hlo : lo ≤ k
  · rw [Nat.add_sub_cancel' hlo, Bool.and_left_comm, Bool.and_comm (w.getLsbD k)]
  · simp [hlo]

/-- The mask of inst[6:0]. -/
theorem and_opcodeMask (w : InstrWord) : w &&& 0x0000007F = placeField (fieldOpcode w) 0 :=
  and_placeField_allOnes w 7 0

/-- The mask of funct3 and the opcode. -/
theorem and_funct3Mask (w : InstrWord) :
    w &&& 0x0000707F = placeField (fieldFunct3 w) 12 ||| placeField (fieldOpcode w) 0 := by
  rw [show (0x0000707F : InstrWord) = placeField (BitVec.allOnes 3) 12 ||| 0x0000007F by decide, BitVec.and_or_distrib_left,
    and_placeField_allOnes, and_opcodeMask]
  rfl

/-- The mask of inst[31:26], funct3 and the opcode. -/
theorem and_funct6Mask (w : InstrWord) :
    w &&& 0xFC00707F = placeField (fieldFunct6 w) 26 ||| (placeField (fieldFunct3 w) 12 ||| placeField (fieldOpcode w) 0) := by
  rw [show (0xFC00707F : InstrWord) = placeField (BitVec.allOnes 6) 26 ||| 0x0000707F by decide, BitVec.and_or_distrib_left,
    and_placeField_allOnes, and_funct3Mask]
  rfl

/-- The mask of funct7, funct3 and the opcode. -/
theorem and_funct7Mask (w : InstrWord) :
    w &&& 0xFE00707F = placeField (fieldFunct7 w) 25 ||| (placeField (fieldFunct3 w) 12 ||| placeField (fieldOpcode w) 0) := by
  rw [show (0xFE00707F : InstrWord) = placeField (BitVec.allOnes 7) 25 ||| 0x0000707F by decide, BitVec.and_or_distrib_left,
    and_placeField_allOnes, and_funct3Mask]
  rfl

/-- The mask of `sfence.vma`: every field but rs1 and rs2. -/
theorem and_sfenceMask (w : InstrWord) :
    w &&& 0xFE007FFF = placeField (fieldRd w) 7 |||
      (placeField (fieldFunct7 w) 25 ||| (placeField (fieldFunct3 w) 12 ||| placeField (fieldOpcode w) 0)) := by
  rw [show (0xFE007FFF : InstrWord) = placeField (BitVec.allOnes 5) 7 ||| 0xFE00707F by decide, BitVec.and_or_distrib_left,
    and_placeField_allOnes, and_funct7Mask]
  rfl

end Sys2Proof

namespace Sys2Proof.Machine

/-! ### Fitting a row, by the fields -/

/-- The word fits a row of the opcode table (30_encoding.md R206). -/
def FitsRow (w : InstrWord) : Prop := ∃ r ∈ opcodeRows, w &&& r.1 = r.2

theorem not_fitsRow_iff {w : InstrWord} : ¬ FitsRow w ↔ ∀ r ∈ opcodeRows, w &&& r.1 ≠ r.2 := by
  simp only [FitsRow, not_exists, not_and, ne_eq]

section Fields

variable {w : InstrWord} {op : BitVec 7} {f3 : BitVec 3}

theorem fitsRow_of_opcode (hop : fieldOpcode w = op) (hrow : (0x0000007F, placeField op 0) ∈ opcodeRows) : FitsRow w :=
  ⟨_, hrow, by rw [and_opcodeMask, hop]⟩

theorem fitsRow_of_funct3 (hop : fieldOpcode w = op) (h3 : fieldFunct3 w = f3)
    (hrow : (0x0000707F, placeField f3 12 ||| placeField op 0) ∈ opcodeRows) : FitsRow w :=
  ⟨_, hrow, by rw [and_funct3Mask, h3, hop]⟩

theorem fitsRow_of_funct6 {f6 : BitVec 6} (hop : fieldOpcode w = op) (h3 : fieldFunct3 w = f3) (h6 : fieldFunct6 w = f6)
    (hrow : (0xFC00707F, placeField f6 26 ||| (placeField f3 12 ||| placeField op 0)) ∈ opcodeRows) : FitsRow w :=
  ⟨_, hrow, by rw [and_funct6Mask, h6, h3, hop]⟩

theorem fitsRow_of_funct7 {f7 : BitVec 7} (hop : fieldOpcode w = op) (h3 : fieldFunct3 w = f3) (h7 : fieldFunct7 w = f7)
    (hrow : (0xFE00707F, placeField f7 25 ||| (placeField f3 12 ||| placeField op 0)) ∈ opcodeRows) : FitsRow w :=
  ⟨_, hrow, by rw [and_funct7Mask, h7, h3, hop]⟩

/-- A row whose mask is all ones is one word. -/
theorem fitsRow_of_mem (hrow : (0xFFFFFFFF, w) ∈ opcodeRows) : FitsRow w :=
  ⟨_, hrow, BitVec.and_allOnes⟩

end Fields

/-! ### What each decoding function accepts -/

section Accepts

variable {w : InstrWord} {i : Instr}

theorem fitsRow_of_decodeLoad (hop : fieldOpcode w = 0b0000011#7) (h : decodeLoad w = .ok i) : FitsRow w := by
  unfold decodeLoad at h
  split at h
  case h_8 => cases h
  all_goals exact fitsRow_of_funct3 hop ‹_› (by decide)

theorem fitsRow_of_decodeStore (hop : fieldOpcode w = 0b0100011#7) (h : decodeStore w = .ok i) : FitsRow w := by
  unfold decodeStore at h
  split at h
  case h_5 => cases h
  all_goals exact fitsRow_of_funct3 hop ‹_› (by decide)

theorem fitsRow_of_decodeBranch (hop : fieldOpcode w = 0b1100011#7) (h : decodeBranch w = .ok i) : FitsRow w := by
  unfold decodeBranch at h
  split at h
  case h_7 => cases h
  all_goals exact fitsRow_of_funct3 hop ‹_› (by decide)

theorem fitsRow_of_decodeJalr (hop : fieldOpcode w = 0b1100111#7) (h : decodeJalr w = .ok i) : FitsRow w := by
  unfold decodeJalr at h
  split at h
  case h_2 => cases h
  case h_1 => exact fitsRow_of_funct3 hop ‹_› (by decide)

theorem fitsRow_of_decodeMiscMem (hop : fieldOpcode w = 0b0001111#7) (h : decodeMiscMem w = .ok i) : FitsRow w := by
  unfold decodeMiscMem at h
  split at h
  case h_3 => cases h
  all_goals exact fitsRow_of_funct3 hop ‹_› (by decide)

/-- The funct3 that is left for the right shifts of OP-IMM (30_encoding.md R202). -/
theorem eq_shiftRight_funct3 {f3 : BitVec 3} (h0 : f3 ≠ 0b000#3) (h2 : f3 ≠ 0b010#3) (h3 : f3 ≠ 0b011#3)
    (h4 : f3 ≠ 0b100#3) (h6 : f3 ≠ 0b110#3) (h7 : f3 ≠ 0b111#3) (h1 : f3 ≠ 0b001#3) : f3 = 0b101#3 := by
  bv_omega

theorem fitsRow_of_decodeOpImm (hop : fieldOpcode w = 0b0010011#7) (h : decodeOpImm w = .ok i) : FitsRow w := by
  unfold decodeOpImm at h
  split at h
  case h_7 h3 =>
    split at h
    · exact fitsRow_of_funct6 hop h3 ‹_› (by decide)
    · cases h
  case h_8 h0 h2 h3 h4 h6 h7 h1 =>
    have h5 := eq_shiftRight_funct3 h0 h2 h3 h4 h6 h7 h1
    split at h
    · exact fitsRow_of_funct6 hop h5 ‹_› (by decide)
    · exact fitsRow_of_funct6 hop h5 ‹_› (by decide)
    · cases h
  all_goals exact fitsRow_of_funct3 hop ‹_› (by decide)

theorem fitsRow_of_decodeOpImm32 (hop : fieldOpcode w = 0b0011011#7) (h : decodeOpImm32 w = .ok i) : FitsRow w := by
  unfold decodeOpImm32 at h
  split at h
  case h_1 h3 => exact fitsRow_of_funct3 hop h3 (by decide)
  case h_2 h3 =>
    split at h
    · exact fitsRow_of_funct7 hop h3 ‹_› (by decide)
    · cases h
  case h_3 h3 =>
    split at h
    · exact fitsRow_of_funct7 hop h3 ‹_› (by decide)
    · exact fitsRow_of_funct7 hop h3 ‹_› (by decide)
    · cases h
  case h_4 => cases h

theorem fitsRow_of_decodeOp (hop : fieldOpcode w = 0b0110011#7) (h : decodeOp w = .ok i) : FitsRow w := by
  unfold decodeOp at h
  split at h
  case h_11 => cases h
  all_goals exact fitsRow_of_funct7 hop ‹fieldFunct3 w = _› ‹_› (by decide)

theorem fitsRow_of_decodeOp32 (hop : fieldOpcode w = 0b0111011#7) (h : decodeOp32 w = .ok i) : FitsRow w := by
  unfold decodeOp32 at h
  split at h
  case h_6 => cases h
  all_goals exact fitsRow_of_funct7 hop ‹fieldFunct3 w = _› ‹_› (by decide)

theorem fitsRow_of_decodePrivileged (hop : fieldOpcode w = 0b1110011#7) (h3 : fieldFunct3 w = 0b000#3)
    (h : decodePrivileged w = .ok i) : FitsRow w := by
  unfold decodePrivileged at h
  split at h
  case h_6 =>
    split at h
    case h_1 h7 hrd =>
      exact ⟨(0xFE007FFF, 0x12000073), by decide, by rw [and_sfenceMask, hrd, h7, h3, hop]; decide⟩
    case h_2 => cases h
  all_goals exact fitsRow_of_mem (by decide)

theorem fitsRow_of_decodeSystem (hop : fieldOpcode w = 0b1110011#7) (h : decodeSystem w = .ok i) : FitsRow w := by
  unfold decodeSystem at h
  split at h
  case h_1 h3 => exact fitsRow_of_decodePrivileged hop h3 h
  case h_8 => cases h
  all_goals exact fitsRow_of_funct3 hop ‹_› (by decide)

/-- The decoder accepts no word outside the table (30_encoding.md R206): one case per major opcode. -/
theorem fitsRow_of_decodeWord (h : decodeWord w = .ok i) : FitsRow w := by
  unfold decodeWord at h
  split at h
  case h_1 hop => exact fitsRow_of_decodeLoad hop h
  case h_2 hop => exact fitsRow_of_decodeMiscMem hop h
  case h_3 hop => exact fitsRow_of_decodeOpImm hop h
  case h_4 hop => exact fitsRow_of_opcode hop (by decide)
  case h_5 hop => exact fitsRow_of_decodeOpImm32 hop h
  case h_6 hop => exact fitsRow_of_decodeStore hop h
  case h_7 hop => exact fitsRow_of_decodeOp hop h
  case h_8 hop => exact fitsRow_of_opcode hop (by decide)
  case h_9 hop => exact fitsRow_of_decodeOp32 hop h
  case h_10 hop => exact fitsRow_of_decodeBranch hop h
  case h_11 hop => exact fitsRow_of_decodeJalr hop h
  case h_12 hop => exact fitsRow_of_opcode hop (by decide)
  case h_13 hop => exact fitsRow_of_decodeSystem hop h
  case h_14 => split at h <;> cases h

end Accepts

/-! ### The all-zero and the all-ones word -/

/-- Every row asks for a 1 somewhere. -/
theorem match_ne_zero_of_mem_opcodeRows : ∀ r ∈ opcodeRows, r.2 ≠ 0 := by
  simp [opcodeRows, opcodeRowsLow, opcodeRowsMid, opcodeRowsHigh]

/-- Every row asks for a 0 somewhere. -/
theorem mask_ne_match_of_mem_opcodeRows : ∀ r ∈ opcodeRows, r.1 ≠ r.2 := by
  simp [opcodeRows, opcodeRowsLow, opcodeRowsMid, opcodeRowsHigh]

theorem not_fitsRow_zero : ¬ FitsRow 0 :=
  fun ⟨r, hr, hfits⟩ => match_ne_zero_of_mem_opcodeRows r hr (hfits.symm.trans BitVec.zero_and)

theorem not_fitsRow_allOnes : ¬ FitsRow (BitVec.allOnes 32) :=
  fun ⟨r, hr, hfits⟩ => mask_ne_match_of_mem_opcodeRows r hr (BitVec.allOnes_and.symm.trans hfits)

/-! ### The step at such a word -/

/-- A word outside the table is what its fetch raises, with the word as trap value (30_encoding.md R207). -/
theorem State.fetchInstr_of_not_fitsRow {s : State} {w : InstrWord} (hw : ¬ FitsRow w) (hf : s.fetch = .ok w) :
    s.fetchInstr = .error ⟨.illegalInstr, w.setWidth 64⟩ := by
  cases hd : decodeWord w with
  | ok i => exact absurd (fitsRow_of_decodeWord hd) hw
  | error e => simp [State.fetchInstr, hf, hd]

theorem State.pcAligned_iff (s : State) : s.pcAligned = true ↔ s.pc.toNat % 4 = 0 := by
  rw [State.pcAligned, beq_iff_eq, ← BitVec.toNat_inj]
  simp

/-- An exception of the fetch or of the decoding is the trap taken (60_exceptions.md R372, R375). -/
theorem step_of_fetchInstr_error {s : State} {e : Exn} (hirq : s.sample.pendingInterrupt = none)
    (hwait : s.sample.waiting = false) (hpc : s.pc.toNat % 4 = 0) (hfetch : s.sample.fetchInstr = .error e) :
    step s = .next (s.sample.trap false (causeCode e.cause) s.pc e.tval) := by
  have haligned : s.sample.pcAligned = true := s.sample.pcAligned_iff.mpr (by rwa [State.sample_pc])
  simp [step, hartStep, hirq, hwait, haligned, hfetch, State.raise]

/-- Settles O4: the decoder accepts only rows of the table, and what it rejects raises with the word. -/
theorem illegalWordsTrap : Obligations.IllegalWordsTrap := by
  refine ⟨fun s w hrows hirq hwait hpc hf => ?_, not_fitsRow_iff.mp not_fitsRow_zero,
    not_fitsRow_iff.mp not_fitsRow_allOnes⟩
  exact step_of_fetchInstr_error hirq hwait hpc (State.fetchInstr_of_not_fitsRow (not_fitsRow_iff.mpr hrows) hf)

end Sys2Proof.Machine

/-! ## Which CSR accesses are legal (10_state.md R34; 40_csr_instructions.md R221 to R224) -/

namespace Sys2Proof.Machine

/-! ### The table of CSRs -/

/-- The CSR that the table of 10_state.md R34 has at an address: one with a row of its own, or one of four runs of addresses. -/
inductive CsrListed : Nat → Csr → Prop where
  | row {n : Nat} {c : Csr} (h : (n, c) ∈ csrRows) : CsrListed n c
  | mhpmevent {n : Nat} (lo : 0x323 ≤ n) (hi : n ≤ 0x33F) : CsrListed n (.mhpmevent (n - 0x320))
  | pmpaddr {n : Nat} (lo : 0x3B0 ≤ n) (hi : n ≤ 0x3BF) : CsrListed n (.pmpaddr (Fin.ofNat 16 (n - 0x3B0)))
  | mhpmcounter {n : Nat} (lo : 0xB03 ≤ n) (hi : n ≤ 0xB1F) : CsrListed n (.mhpmcounter (n - 0xB00))
  | hpmcounter {n : Nat} (lo : 0xC03 ≤ n) (hi : n ≤ 0xC1F) : CsrListed n (.hpmcounter (n - 0xC00))

/-- No row of its own lies in one of the four runs. -/
theorem not_in_run_of_mem_csrRows : ∀ r ∈ csrRows,
    ¬ (0x323 ≤ r.1 ∧ r.1 ≤ 0x33F) ∧ ¬ (0x3B0 ≤ r.1 ∧ r.1 ≤ 0x3BF) ∧ ¬ (0xB03 ≤ r.1 ∧ r.1 ≤ 0xB1F) ∧
      ¬ (0xC03 ≤ r.1 ∧ r.1 ≤ 0xC1F) := by decide

/-- Each row is what is found at its address. -/
theorem csrNamed_of_mem_csrRows : ∀ r ∈ csrRows, csrNamed (BitVec.ofNat 12 r.1) = some r.2 := by decide

/-- The CSRs with an address of their own are the rows of the table. -/
theorem csrNamed_eq_some_iff (a : CsrAddr) (c : Csr) : csrNamed a = some c ↔ (a.toNat, c) ∈ csrRows := by
  constructor
  · intro h
    unfold csrNamed at h
    split at h <;> cases h <;> decide
  · intro h
    simpa using csrNamed_of_mem_csrRows _ h

/-- The decoder of CSR addresses finds what the table lists (10_state.md R34). -/
theorem csrOfAddr_eq_some_iff (a : CsrAddr) (c : Csr) : csrOfAddr a = some c ↔ CsrListed a.toNat c := by
  constructor
  · intro h
    simp only [csrOfAddr] at h
    split_ifs at h with hevent hpmp hmcounter hcounter
    · cases h; exact .mhpmevent hevent.1 hevent.2
    · cases h; exact .pmpaddr hpmp.1 hpmp.2
    · cases h; exact .mhpmcounter hmcounter.1 hmcounter.2
    · cases h; exact .hpmcounter hcounter.1 hcounter.2
    · exact .row ((csrNamed_eq_some_iff a c).mp h)
  · intro h
    unfold csrOfAddr
    cases h with
    | row h =>
      obtain ⟨hevent, hpmp, hmcounter, hcounter⟩ := not_in_run_of_mem_csrRows _ h
      rw [if_neg hevent, if_neg hpmp, if_neg hmcounter, if_neg hcounter, csrNamed_eq_some_iff]
      exact h
    | mhpmevent lo hi => rw [if_pos ⟨lo, hi⟩]
    | pmpaddr lo hi => rw [if_neg (by omega), if_pos ⟨lo, hi⟩]
    | mhpmcounter lo hi => rw [if_neg (by omega), if_neg (by omega), if_pos ⟨lo, hi⟩]
    | hpmcounter lo hi => rw [if_neg (by omega), if_neg (by omega), if_neg (by omega), if_pos ⟨lo, hi⟩]

/-! ### The addresses of the table -/

theorem row_or_in_run_of_mem_csrAddresses : ∀ n ∈ csrAddresses,
    n ∈ csrRows.map Prod.fst ∨ (0x323 ≤ n ∧ n ≤ 0x33F) ∨ (0x3B0 ≤ n ∧ n ≤ 0x3BF) ∨ (0xB03 ≤ n ∧ n ≤ 0xB1F) ∨
      (0xC03 ≤ n ∧ n ≤ 0xC1F) := by
  simp only [csrAddresses, List.forall_mem_append, mem_addressesFrom, and_assoc]
  refine ⟨by decide, by decide, fun n h => ?_, by decide, fun n h => ?_, by decide, fun n h => ?_, by decide,
    fun n h => ?_, by decide⟩
  all_goals omega

theorem mem_csrAddresses_of_mem_csrRows : ∀ r ∈ csrRows, r.1 ∈ csrAddresses := by decide

/-- The addresses of the table are those at which it has a CSR. -/
theorem mem_csrAddresses_iff_listed (n : Nat) : n ∈ csrAddresses ↔ ∃ c, CsrListed n c := by
  constructor
  · intro h
    rcases row_or_in_run_of_mem_csrAddresses n h with hrow | ⟨lo, hi⟩ | ⟨lo, hi⟩ | ⟨lo, hi⟩ | ⟨lo, hi⟩
    · obtain ⟨⟨_, c⟩, hmem, rfl⟩ := List.mem_map.mp hrow
      exact ⟨c, .row hmem⟩
    · exact ⟨_, .mhpmevent lo hi⟩
    · exact ⟨_, .pmpaddr lo hi⟩
    · exact ⟨_, .mhpmcounter lo hi⟩
    · exact ⟨_, .hpmcounter lo hi⟩
  · rintro ⟨c, h⟩
    cases h with
    | row h => exact mem_csrAddresses_of_mem_csrRows _ h
    | _ => simp only [csrAddresses, List.mem_append, mem_addressesFrom]; omega

/-! ### What the checks ask of an address -/

/-- The lowest privilege of an address is its bits 9:8 (10_state.md R32). -/
theorem State.csrPrivilegeOk_iff (s : State) (a : CsrAddr) :
    s.csrPrivilegeOk a = true ↔ a.toNat / 256 % 4 ≤ (privCode s.priv).toNat := by
  simp [State.csrPrivilegeOk, Nat.shiftRight_eq_div_pow]

/-- The read-only class is that of bits 11:10 = 11 (10_state.md R32). -/
theorem csrReadOnly_iff (a : CsrAddr) : csrReadOnly a = true ↔ a.toNat / 1024 = 3 := by
  have ha := a.isLt
  rw [csrReadOnly, beq_iff_eq, ← BitVec.toNat_inj, BitVec.extractLsb'_toNat, Nat.shiftRight_eq_div_pow]
  change a.toNat / 1024 % 4 = 3 ↔ _
  omega

theorem State.satpAccessOk_iff (s : State) (c : Csr) :
    s.satpAccessOk c = true ↔ ¬ (c = .satp ∧ s.priv = .supervisor ∧ s.mstatus.tvm = true) := by
  simp [State.satpAccessOk, imp_iff_not_or, or_assoc]

/-- The counter enables, by the number of the counter (10_state.md R85). -/
theorem State.counterAccessOk_iff (s : State) (c : Csr) :
    s.counterAccessOk c = true ↔ ∀ n, counterNumber c = some n →
      (s.priv ≠ .machine → s.mcounteren.getLsbD n = true) ∧ (s.priv = .user → s.scounteren.getLsbD n = true) := by
  unfold State.counterAccessOk
  cases counterNumber c with
  | none => simp
  | some n => cases s.priv <;> simp

theorem eq_satp_iff_of_mem_csrRows : ∀ r ∈ csrRows, r.2 = .satp ↔ r.1 = 0x180 := by decide

/-- `satp` has one address. -/
theorem CsrListed.eq_satp_iff {n : Nat} {c : Csr} (h : CsrListed n c) : c = .satp ↔ n = 0x180 := by
  cases h with
  | row h => exact eq_satp_iff_of_mem_csrRows _ h
  | mhpmevent lo hi => exact iff_of_false nofun (by omega)
  | pmpaddr lo hi => exact iff_of_false nofun (by omega)
  | mhpmcounter lo hi => exact iff_of_false nofun (by omega)
  | hpmcounter lo hi => exact iff_of_false nofun (by omega)

theorem counterNumber_of_mem_csrRows : ∀ r ∈ csrRows,
    counterNumber r.2 = if 0xC00 ≤ r.1 ∧ r.1 ≤ 0xC1F then some (r.1 - 0xC00) else none := by decide

/-- The counters that the enables gate are those at 0xC00 to 0xC1F, each numbered by its place there (10_state.md R85). -/
theorem CsrListed.counterNumber_eq {n : Nat} {c : Csr} (h : CsrListed n c) :
    counterNumber c = if 0xC00 ≤ n ∧ n ≤ 0xC1F then some (n - 0xC00) else none := by
  cases h with
  | row h => exact counterNumber_of_mem_csrRows _ h
  | mhpmevent lo hi => rw [if_neg (by omega)]; rfl
  | pmpaddr lo hi => rw [if_neg (by omega)]; rfl
  | mhpmcounter lo hi => rw [if_neg (by omega)]; rfl
  | hpmcounter lo hi => rw [if_pos (by omega)]; rfl

/-- TVM, by the address alone (10_state.md R43). -/
theorem CsrListed.satpAccessOk_iff {a : CsrAddr} {c : Csr} (h : CsrListed a.toNat c) (s : State) :
    s.satpAccessOk c = true ↔ ¬ (a = 0x180#12 ∧ s.priv = .supervisor ∧ s.mstatus.tvm = true) := by
  rw [s.satpAccessOk_iff, h.eq_satp_iff, ← BitVec.toNat_inj]
  rfl

/-- The counter enables, by the address alone (10_state.md R85). -/
theorem CsrListed.counterAccessOk_iff {a : CsrAddr} {c : Csr} (h : CsrListed a.toNat c) (s : State) :
    s.counterAccessOk c = true ↔ (0xC00 ≤ a.toNat → a.toNat ≤ 0xC1F →
      (s.priv ≠ .machine → s.mcounteren.getLsbD (a.toNat - 0xC00) = true) ∧
      (s.priv = .user → s.scounteren.getLsbD (a.toNat - 0xC00) = true)) := by
  rw [s.counterAccessOk_iff, h.counterNumber_eq]
  simp

/-! ### The access check as a whole -/

/-- The check finds a CSR exactly when the access is legal by the bits of its address (40_csr_instructions.md R221 to R223). -/
theorem State.exists_csrAccess_iff_csrLegal (s : State) (a : CsrAddr) (w : Bool) :
    (∃ c, s.csrAccess a w = some c) ↔ csrLegal s a w := by
  simp only [csrAccess_eq_some, csrOfAddr_eq_some_iff, s.csrPrivilegeOk_iff, csrReadOnly_iff, csrLegal,
    mem_csrAddresses_iff_listed]
  constructor
  · rintro ⟨c, hc, hpriv, hsatp, hcounter, hwrite⟩
    exact ⟨⟨c, hc⟩, hpriv, (hc.satpAccessOk_iff s).mp hsatp, (hc.counterAccessOk_iff s).mp hcounter, hwrite⟩
  · rintro ⟨⟨c, hc⟩, hpriv, hsatp, hcounter, hwrite⟩
    exact ⟨c, hc, hpriv, (hc.satpAccessOk_iff s).mpr hsatp, (hc.counterAccessOk_iff s).mpr hcounter, hwrite⟩

/-! ### The six instructions -/

/-- Every CSR instruction is `csrInstr`, with the address and the write that its form says (40_csr_instructions.md R224 to R230). -/
theorem exec_of_csrForm {i : Instr} {a : CsrAddr} {w : Bool} (h : csrForm i = some (a, w)) (s : State) :
    ∃ rd f, exec i s = .next (s.csrInstr i rd a w f) := by
  unfold csrForm at h
  split at h <;> cases h <;> exact ⟨_, _, rfl⟩

/-- A CSR instruction whose access is not legal raises (40_csr_instructions.md R221 to R223). -/
theorem raises_of_not_csrLegal {i : Instr} {a : CsrAddr} {w : Bool} {s : State} (h : csrForm i = some (a, w))
    (hillegal : ¬ csrLegal s a w) : raises i s .illegalInstr ((encode i).setWidth 64) := by
  obtain ⟨rd, f, hexec⟩ := exec_of_csrForm h s
  rcases csrInstr_cases s i rd a w f with ⟨-, hraise⟩ | ⟨c, hc, -⟩
  · rw [raises, hexec, hraise]; rfl
  · exact absurd ((s.exists_csrAccess_iff_csrLegal a w).mp ⟨c, hc⟩) hillegal

/-- A CSR instruction whose access is legal goes on to the next one, in the same mode. -/
theorem exec_of_csrLegal {i : Instr} {a : CsrAddr} {w : Bool} {s : State} (h : csrForm i = some (a, w))
    (hlegal : csrLegal s a w) : ∃ t, exec i s = .next t ∧ t.pc = s.pc + 4 ∧ t.priv = s.priv := by
  obtain ⟨rd, f, hexec⟩ := exec_of_csrForm h s
  obtain ⟨c, hc⟩ := (s.exists_csrAccess_iff_csrLegal a w).mpr hlegal
  rcases csrInstr_cases s i rd a w f with ⟨hnone, -⟩ | ⟨d, -, hdone⟩
  · exact absurd (hnone.symm.trans hc) nofun
  · refine ⟨_, hexec, ?_⟩
    rw [hdone, retireCsr_eq]
    cases w <;> simp

/-- Settles O30: an address outside the table makes no legal access. -/
theorem absentCsrsTrap : Obligations.AbsentCsrsTrap := by
  intro s i a w hform habsent
  exact raises_of_not_csrLegal hform fun hlegal => habsent hlegal.1

/-- Settles O31: each of the four conditions denies a clause of a legal access. -/
theorem forbiddenCsrAccessesTrap : Obligations.ForbiddenCsrAccessesTrap := by
  intro s i a w hform _
  refine ⟨fun hforbidden => raises_of_not_csrLegal hform ?_, exec_of_csrLegal hform⟩
  rintro ⟨-, hpriv, hsatp, hcounter, hwrite⟩
  rcases hforbidden with hlow | htvm | ⟨lo, hi, ⟨hnotM, hoff⟩ | ⟨huser, hoff⟩⟩ | hreadOnly
  · exact absurd hpriv (by omega)
  · exact hsatp htvm
  · exact Bool.false_ne_true (hoff.symm.trans ((hcounter lo hi).1 hnotM))
  · exact Bool.false_ne_true (hoff.symm.trans ((hcounter lo hi).2 huser))
  · exact hwrite hreadOnly

end Sys2Proof.Machine

/-! ## Misaligned targets of jumps and branches (43_control_transfer.md R311) -/

namespace Sys2Proof.Machine

/-! ### Every branch is `branchIf`, every transfer a jump or a taken branch -/

/-- `bge` asks for the negation of what `blt` asks for (43_control_transfer.md R316, R317). -/
theorem not_signedLess (a b : Word) : (!signedLess a b) = decide (b.toInt ≤ a.toInt) :=
  BitVec.sle_eq_not_slt.symm

/-- `bgeu` asks for the negation of what `bltu` asks for (43_control_transfer.md R318, R319). -/
theorem not_unsignedLess (a b : Word) : (!unsignedLess a b) = decide (b.toNat ≤ a.toNat) :=
  (BitVec.ule_eq_not_ult b a).symm

theorem exec_of_branchForm {i : Instr} {rs1 rs2 : Reg} {offset : BitVec 13} {taken : Word → Word → Bool}
    (h : branchForm i = some (rs1, rs2, offset, taken)) (s : State) :
    exec i s = .next (s.branchIf (taken (s.readX rs1) (s.readX rs2)) offset) := by
  unfold branchForm at h
  split at h <;> cases h
  case h_2 => beta_reduce; rw [decide_not]; rfl
  case h_4 => beta_reduce; rw [← not_signedLess]; rfl
  case h_6 => beta_reduce; rw [← not_unsignedLess]; rfl
  all_goals rfl

theorem transferTarget_of_branchForm {i : Instr} {rs1 rs2 : Reg} {offset : BitVec 13} {taken : Word → Word → Bool}
    (h : branchForm i = some (rs1, rs2, offset, taken)) (s : State) :
    transferTarget s i = if taken (s.readX rs1) (s.readX rs2) then some (s.pc + branchOffset offset) else none := by
  unfold transferTarget
  split
  · cases h
  · cases h
  · rw [h]

/-- What transfers control is a `jal`, a `jalr`, or a branch whose condition is true. -/
theorem transferTarget_cases {s : State} {i : Instr} {t : Word} (h : transferTarget s i = some t) :
    (∃ rd offset, i = .jal rd offset ∧ t = s.pc + jumpOffset offset) ∨
    (∃ rd rs1 imm, i = .jalr rd rs1 imm ∧ t = (s.readX rs1 + immValue imm) &&& ~~~1) ∨
    (∃ rs1 rs2 offset taken, branchForm i = some (rs1, rs2, offset, taken) ∧
      taken (s.readX rs1) (s.readX rs2) = true ∧ t = s.pc + branchOffset offset) := by
  unfold transferTarget at h
  split at h
  · exact .inl ⟨_, _, rfl, (Option.some.inj h).symm⟩
  · exact .inr (.inl ⟨_, _, _, rfl, (Option.some.inj h).symm⟩)
  · split at h
    next rs1 rs2 offset taken hform =>
      obtain ⟨htaken, ht⟩ := Option.ite_none_right_eq_some.mp h
      exact .inr (.inr ⟨rs1, rs2, offset, taken, hform, htaken, (Option.some.inj ht).symm⟩)
    next => cases h

/-! ### A misaligned target -/

/-- The low two bits of an address, as a remainder. -/
theorem extractLsb'_zero_two_eq_zero_iff (t : Word) : t.extractLsb' 0 2 = 0 ↔ t.toNat % 4 = 0 := by
  simp [← BitVec.toNat_inj]

/-- A jump to a misaligned target raises, whatever register it links. -/
theorem State.jumpTo_of_misaligned (s : State) (rd : Reg) {t : Word} (h : t.toNat % 4 ≠ 0) :
    s.jumpTo rd t = s.trap false 0 s.pc t := by
  rcases jumpTo_cases s rd t with ⟨haligned, -⟩ | ⟨-, hraise⟩
  · exact absurd ((extractLsb'_zero_two_eq_zero_iff t).mp haligned) h
  · exact hraise

/-- A taken branch to a misaligned target raises. -/
theorem State.branchIf_true_of_misaligned (s : State) {offset : BitVec 13}
    (h : (s.pc + branchOffset offset).toNat % 4 ≠ 0) :
    s.branchIf true offset = s.trap false 0 s.pc (s.pc + branchOffset offset) := by
  rcases branchIf_cases s true offset with ⟨hfalse, -⟩ | ⟨-, haligned, -⟩ | ⟨-, -, hraise⟩
  · cases hfalse
  · exact absurd ((extractLsb'_zero_two_eq_zero_iff _).mp haligned) h
  · exact hraise

/-- A transfer to a misaligned target takes the trap of cause 0 with the target (43_control_transfer.md R311). -/
theorem raises_of_misaligned_target {s : State} {i : Instr} {t : Word} (h : transferTarget s i = some t)
    (hmis : t.toNat % 4 ≠ 0) : raises i s .instrAddrMisaligned t := by
  rcases transferTarget_cases h with ⟨rd, offset, rfl, rfl⟩ | ⟨rd, rs1, imm, rfl, rfl⟩ |
    ⟨rs1, rs2, offset, taken, hform, htaken, rfl⟩
  · exact congrArg Host.Outcome.next (s.jumpTo_of_misaligned rd hmis)
  · exact congrArg Host.Outcome.next (s.jumpTo_of_misaligned rd hmis)
  · rw [raises, exec_of_branchForm hform, htaken, s.branchIf_true_of_misaligned hmis]
    rfl

/-! ### A branch that is not taken -/

/-- An untaken branch goes to the next instruction, whatever its offset (43_control_transfer.md R311). -/
theorem completesPlain_of_untaken {s : State} {i : Instr} {rs1 rs2 : Reg} {offset : BitVec 13} {taken : Word → Word → Bool}
    (h : branchForm i = some (rs1, rs2, offset, taken)) (huntaken : taken (s.readX rs1) (s.readX rs2) = false) :
    completesPlain i s s (s.pc + 4) :=
  ⟨s.retire, by rw [exec_of_branchForm h, huntaken]; rfl, rfl, fun _ => rfl⟩

/-! ### Bit 0 of a target -/

theorem toNat_even_iff {w : Nat} (v : BitVec w) : v.toNat % 2 = 0 ↔ v.getLsbD 0 = false := by
  simp [← BitVec.testBit_toNat]

/-- An even offset stays even when it is sign-extended. -/
theorem signExtend_toNat_even {w : Nat} (offset : BitVec w) (h : offset.getLsbD 0 = false) (hw : 0 < w) :
    (offset.signExtend 64).toNat % 2 = 0 := by
  rw [toNat_even_iff, BitVec.getLsbD_signExtend, if_pos hw, h, Bool.and_false]

/-- A multiple of 4 plus an even offset is even. -/
theorem add_toNat_even {pc offset : Word} (hpc : pc.toNat % 4 = 0) (hoffset : offset.toNat % 2 = 0) :
    (pc + offset).toNat % 2 = 0 := by
  rw [BitVec.toNat_add]
  omega

/-- `jalr` clears bit 0 of the sum (43_control_transfer.md R313). -/
theorem and_not_one_toNat_even (v : Word) : (v &&& ~~~1).toNat % 2 = 0 := by
  rw [toNat_even_iff]
  simp

/-- A well-formed branch has an even offset (30_encoding.md R195). -/
theorem branchForm_offset_even {i : Instr} {rs1 rs2 : Reg} {offset : BitVec 13} {taken : Word → Word → Bool}
    (h : branchForm i = some (rs1, rs2, offset, taken)) (hwf : i.wellFormed = true) : offset.getLsbD 0 = false := by
  unfold branchForm at h
  split at h <;> cases h <;> exact (Bool.not_eq_true' _).mp hwf

/-- The target of a well-formed transfer at an aligned `pc` is even: only bit 1 can be wrong (43_control_transfer.md R311). -/
theorem transferTarget_even {s : State} {i : Instr} {t : Word} (hwf : i.wellFormed = true) (hpc : s.pc.toNat % 4 = 0)
    (h : transferTarget s i = some t) : t.toNat % 2 = 0 := by
  rcases transferTarget_cases h with ⟨rd, offset, rfl, rfl⟩ | ⟨rd, rs1, imm, -, rfl⟩ |
    ⟨rs1, rs2, offset, taken, hform, -, rfl⟩
  · have heven : offset.getLsbD 0 = false := (Bool.not_eq_true' _).mp hwf
    exact add_toNat_even hpc (signExtend_toNat_even offset heven (by decide))
  · exact and_not_one_toNat_even _
  · exact add_toNat_even hpc (signExtend_toNat_even offset (branchForm_offset_even hform hwf) (by decide))

/-- Settles O56: the target decides whether a transfer raises, an untaken branch has none, and no target is odd. -/
theorem misalignedTargetsTrap : Obligations.MisalignedTargetsTrap := by
  refine ⟨fun s i t htarget hmis => ?_, fun s i hbranch huntaken => ?_, fun s i t => transferTarget_even⟩
  · have hraises := raises_of_misaligned_target htarget hmis
    exact ⟨hraises, fun u hu => (hraises.sameMem_sameRegs u hu).2⟩
  · obtain ⟨⟨rs1, rs2, offset, taken⟩, hform⟩ := Option.ne_none_iff_exists'.mp hbranch
    rw [transferTarget_of_branchForm hform] at huntaken
    exact completesPlain_of_untaken hform (by simpa using huntaken)

end Sys2Proof.Machine

/-! ## Taking a trap (60_exceptions.md R378 to R382) -/

namespace Sys2Proof.Machine

/-! ### The fields of `mstatus` that a trap touches, by their bits (10_state.md R35) -/

theorem MStatus.read_getLsbD_sie (m : MStatus) : m.read.getLsbD 1 = m.sie := by rw [MStatus.read_getLsbD]; simp
theorem MStatus.read_getLsbD_mie (m : MStatus) : m.read.getLsbD 3 = m.mie := by rw [MStatus.read_getLsbD]; simp
theorem MStatus.read_getLsbD_spie (m : MStatus) : m.read.getLsbD 5 = m.spie := by rw [MStatus.read_getLsbD]; simp
theorem MStatus.read_getLsbD_mpie (m : MStatus) : m.read.getLsbD 7 = m.mpie := by rw [MStatus.read_getLsbD]; simp
theorem MStatus.read_getLsbD_spp (m : MStatus) : m.read.getLsbD 8 = m.spp := by rw [MStatus.read_getLsbD]; simp

/-- MPP reads as the encoding of the mode it holds. -/
theorem MStatus.read_extractLsb'_mpp (m : MStatus) : m.read.extractLsb' 11 2 = privCode m.mpp := by
  apply BitVec.eq_of_getLsbD_eq
  intro k hk
  obtain rfl | rfl : k = 0 ∨ k = 1 := by omega
  · rw [← m.read_getLsbD_eleven]; simp
  · rw [← m.read_getLsbD_twelve]; simp

/-- A change of MPP, MPIE and MIE shows in their bits alone. -/
theorem MStatus.read_getLsbD_of_not_machine_field (m : MStatus) (mpp : Priv) (mpie mie : Bool) {k : Nat}
    (h3 : k ≠ 3) (h7 : k ≠ 7) (h11 : k ≠ 11) (h12 : k ≠ 12) :
    ({ m with mpp := mpp, mpie := mpie, mie := mie } : MStatus).read.getLsbD k = m.read.getLsbD k := by
  simp [MStatus.read_getLsbD, beq_eq_false_iff_ne.mpr h3, beq_eq_false_iff_ne.mpr h7, beq_eq_false_iff_ne.mpr h11,
    beq_eq_false_iff_ne.mpr h12]

/-- A change of SPP, SPIE and SIE shows in their bits alone. -/
theorem MStatus.read_getLsbD_of_not_supervisor_field (m : MStatus) (spp spie sie : Bool) {k : Nat}
    (h1 : k ≠ 1) (h5 : k ≠ 5) (h8 : k ≠ 8) :
    ({ m with spp := spp, spie := spie, sie := sie } : MStatus).read.getLsbD k = m.read.getLsbD k := by
  simp [MStatus.read_getLsbD, beq_eq_false_iff_ne.mpr h1, beq_eq_false_iff_ne.mpr h5, beq_eq_false_iff_ne.mpr h8]

/-! ### Trap entry -/

/-- The Interrupt bit over the code (10_state.md R56). -/
theorem causeValue_eq (interrupt : Bool) (code : Nat) :
    causeValue interrupt code = ((if interrupt then 1 else 0) <<< 63) ||| BitVec.ofNat 64 code := by
  cases interrupt <;> rfl

/-- Settles O14: MPP, MPIE and MIE are the fields of `mstatus` that entry changes, each read back by its bits. -/
theorem trapEntryToMachineMode : Obligations.TrapEntryToMachineMode := by
  rintro s _ interrupt code epc tval rfl
  refine ⟨rfl, causeValue_eq interrupt code, rfl, MStatus.read_extractLsb'_mpp _, ?_, ?_, ?_, rfl, rfl, rfl⟩
  · rw [MStatus.read_getLsbD_mpie, MStatus.read_getLsbD_mie, State.enterM_mstatus]
  · rw [MStatus.read_getLsbD_mie, State.enterM_mstatus]
  · exact fun k h3 h7 h11 h12 => MStatus.read_getLsbD_of_not_machine_field _ _ _ _ h3 h7 h11 h12

/-- Settles O15: SPP, SPIE and SIE are the fields of `mstatus` that entry changes, each read back by its bits. -/
theorem trapEntryToSupervisorMode : Obligations.TrapEntryToSupervisorMode := by
  rintro s _ interrupt code epc tval - rfl
  refine ⟨rfl, causeValue_eq interrupt code, rfl, ?_, ?_, ?_, ?_, rfl, rfl, rfl⟩
  · rw [MStatus.read_getLsbD_spp, State.enterS_mstatus, beq_iff_eq]
  · rw [MStatus.read_getLsbD_spie, MStatus.read_getLsbD_sie, State.enterS_mstatus]
  · rw [MStatus.read_getLsbD_sie, State.enterS_mstatus]
  · exact fun k h1 h5 h8 => MStatus.read_getLsbD_of_not_supervisor_field _ _ _ _ h1 h5 h8

/-! ### The handler's address -/

/-- The mask of BASE keeps every bit but the two of MODE. -/
theorem not_three_getLsbD : ∀ k < 64, (~~~3 : Word).getLsbD k = decide (2 ≤ k) := by decide

/-- BASE of a vector register: MODE, its low two bits, cleared. -/
theorem and_not_three_toNat (v : Word) : (v &&& ~~~3 : Word).toNat = v.toNat / 4 * 4 := by
  have hshift : (v &&& ~~~3 : Word) = v >>> 2 <<< 2 := by
    apply BitVec.eq_of_getLsbD_eq
    intro k hk
    rw [BitVec.getLsbD_and, not_three_getLsbD k hk]
    by_cases h : k < 2
    · simp [h]
    · simp [h, hk, show 2 + (k - 2) = k by omega, show 2 ≤ k by omega]
  rw [hshift, BitVec.toNat_shiftLeft, BitVec.toNat_ushiftRight, Nat.shiftRight_eq_div_pow, Nat.shiftLeft_eq]
  omega

/-- MODE of a vector register is Vectored. -/
theorem extractLsb'_zero_two_eq_one_iff (v : Word) : v.extractLsb' 0 2 = 0b01 ↔ v.toNat % 4 = 1 := by
  simp [← BitVec.toNat_inj]

theorem trapTarget_toNat (tvec : Word) (interrupt : Bool) (code : Nat) :
    (trapTarget tvec interrupt code).toNat =
      (tvec.toNat / 4 * 4 + (if interrupt = true ∧ tvec.toNat % 4 = 1 then 4 * code else 0)) % 2 ^ 64 := by
  have hguard : (interrupt && tvec.extractLsb' 0 2 == 0b01) = true ↔ interrupt = true ∧ tvec.toNat % 4 = 1 := by
    rw [Bool.and_eq_true, beq_iff_eq, extractLsb'_zero_two_eq_one_iff]
  by_cases h : interrupt = true ∧ tvec.toNat % 4 = 1
  · rw [trapTarget, if_pos (hguard.mpr h), if_pos h, BitVec.toNat_add, and_not_three_toNat, BitVec.toNat_mul]
    simp [Nat.mul_mod, Nat.add_mod]
  · rw [trapTarget, if_neg (hguard.not.mpr h), if_neg h, and_not_three_toNat]
    have hlt := tvec.isLt
    omega

/-- Settles O16: the address as arithmetic, and the register that each entry takes it from. -/
theorem handlerAddress : Obligations.HandlerAddress :=
  ⟨trapTarget_toNat, fun s interrupt code epc tval =>
    ⟨s.enterM_pc interrupt code epc tval, s.enterS_pc interrupt code epc tval⟩⟩

/-! ### Delegation -/

/-- A trap from below M-mode whose delegation bit is 1 is taken in S-mode. -/
theorem State.trap_eq_enterS (s : State) {interrupt : Bool} {code : Nat} (epc tval : Word) (hpriv : s.priv ≠ .machine)
    (hbit : (if interrupt then s.mideleg else s.medeleg).getLsbD code = true) :
    s.trap interrupt code epc tval = s.enterS interrupt code epc tval := by
  rcases trap_cases s interrupt code epc tval with ⟨h, -, -⟩ | ⟨-, hm | hclear⟩
  · exact h
  · exact absurd hm hpriv
  · exact absurd (hbit.symm.trans hclear) nofun

/-- A trap from M-mode, or whose delegation bit is 0, is taken in M-mode. -/
theorem State.trap_eq_enterM (s : State) {interrupt : Bool} {code : Nat} (epc tval : Word)
    (h : s.priv = .machine ∨ (if interrupt then s.mideleg else s.medeleg).getLsbD code = false) :
    s.trap interrupt code epc tval = s.enterM interrupt code epc tval := by
  rcases trap_cases s interrupt code epc tval with ⟨-, hpriv, hbit⟩ | ⟨henter, -⟩
  · rcases h with hm | hclear
    · exact absurd hm hpriv
    · exact absurd (hbit.symm.trans hclear) nofun
  · exact henter

/-- Settles O17: the two cases of a trap; where nothing is delegated every delegation bit is 0. -/
theorem delegationChoosesTheMode : Obligations.DelegationChoosesTheMode := by
  refine fun s interrupt code epc tval => ⟨s.trap_eq_enterS epc tval, s.trap_eq_enterM epc tval, fun hmedeleg hmideleg => ?_⟩
  have hclear : (if interrupt then s.mideleg else s.medeleg).getLsbD code = false := by
    rw [hmedeleg, hmideleg, ite_self]
    exact BitVec.getLsbD_zero
  exact s.trap_eq_enterM epc tval (.inr hclear)

end Sys2Proof.Machine

/-! ## Which interrupt is taken, and when (60_exceptions.md R368 to R372) -/

namespace Sys2Proof.Machine

/-! ### Takeable -/

theorem State.irqPending_iff (s : State) (i : Irq) :
    s.irqPending i = true ↔ s.mipRead.getLsbD (irqCode i) = true ∧ s.mie.getLsbD (irqCode i) = true := by
  rw [State.irqPending, Bool.and_eq_true]

/-- An interrupt destined for M-mode: below M-mode whatever MIE is, in M-mode with MIE. -/
theorem State.irqTakeable_of_toM (s : State) {i : Irq} (h : s.mideleg.getLsbD (irqCode i) = false) :
    s.irqTakeable i = true ↔ s.irqPending i = true ∧ (s.priv ≠ .machine ∨ s.mstatus.mie = true) := by
  simp [State.irqTakeable, State.irqToS, h]

/-- An interrupt destined for S-mode: in U-mode whatever SIE is, in S-mode with SIE, in M-mode never. -/
theorem State.irqTakeable_of_toS (s : State) {i : Irq} (h : s.mideleg.getLsbD (irqCode i) = true) :
    s.irqTakeable i = true ↔
      s.irqPending i = true ∧ (s.priv = .user ∨ (s.priv = .supervisor ∧ s.mstatus.sie = true)) := by
  simp [State.irqTakeable, State.irqToS, h]

/-- Settles O23: the destination decides which enable counts. -/
theorem interruptTakeable : Obligations.InterruptTakeable := by
  intro s i
  rw [← s.irqPending_iff, MStatus.read_getLsbD_mie, MStatus.read_getLsbD_sie]
  cases h : s.mideleg.getLsbD (irqCode i) with
  | false => simp [s.irqTakeable_of_toM h]
  | true => simp [s.irqTakeable_of_toS h]

/-! ### Priority -/

theorem mem_irqOrder (i : Irq) : i ∈ irqOrder := by cases i <;> decide

/-- The order that is searched is that of the ranks. -/
theorem irqOrder_pairwise : irqOrder.Pairwise (fun c d => irqRank c < irqRank d) := by decide

/-- In a list of rising ranks the first element with a property is the one of least rank that has it. -/
theorem find?_eq_some_iff_of_pairwise_rank {p : Irq → Bool} {c : Irq} {l : List Irq}
    (hl : l.Pairwise (fun c d => irqRank c < irqRank d)) :
    l.find? p = some c ↔ c ∈ l ∧ p c = true ∧ ∀ d ∈ l, d ≠ c → p d = true → irqRank c < irqRank d := by
  induction l with
  | nil => simp
  | cons a l ih =>
    obtain ⟨hhead, htail⟩ := List.pairwise_cons.mp hl
    cases ha : p a with
    | true =>
      rw [List.find?_cons_of_pos ha, Option.some.injEq]
      constructor
      · rintro rfl
        refine ⟨List.mem_cons_self, ha, fun d hd hne _ => hhead d ?_⟩
        exact (List.mem_cons.mp hd).resolve_left hne
      · rintro ⟨hc, -, hleast⟩
        by_contra hne
        have hca : irqRank c < irqRank a := hleast a List.mem_cons_self hne ha
        have hac : irqRank a < irqRank c := hhead c ((List.mem_cons.mp hc).resolve_left (Ne.symm hne))
        omega
    | false =>
      have hskip : ∀ d, p d = true → d ≠ a := fun d hd hda => by simp [hda, ha] at hd
      rw [List.find?_cons_of_neg (by simp [ha]), ih htail]
      constructor
      · rintro ⟨hc, hpc, hleast⟩
        refine ⟨List.mem_cons_of_mem a hc, hpc, fun d hd hne hpd => hleast d ?_ hne hpd⟩
        exact (List.mem_cons.mp hd).resolve_left (hskip d hpd)
      · rintro ⟨hc, hpc, hleast⟩
        exact ⟨(List.mem_cons.mp hc).resolve_left (hskip c hpc), hpc,
          fun d hd => hleast d (List.mem_cons_of_mem a hd)⟩

/-- The search finds the interrupt of least rank (60_exceptions.md R369). -/
theorem find?_irqOrder_eq_some_iff {p : Irq → Bool} {c : Irq} :
    irqOrder.find? p = some c ↔ p c = true ∧ ∀ d, d ≠ c → p d = true → irqRank c < irqRank d := by
  simp [find?_eq_some_iff_of_pairwise_rank irqOrder_pairwise, mem_irqOrder]

theorem find?_irqOrder_eq_none_iff {p : Irq → Bool} : irqOrder.find? p = none ↔ ∀ d, p d = false := by
  simp [List.find?_eq_none, mem_irqOrder]

/-- The interrupt to take is the first one destined for M-mode, or, where there is none, the first one destined for S-mode. -/
theorem State.pendingInterrupt_eq_some_iff (s : State) (c : Irq) :
    s.pendingInterrupt = some c ↔
      irqOrder.find? (fun i => s.irqTakeable i && !s.irqToS i) = some c ∨
      (irqOrder.find? (fun i => s.irqTakeable i && !s.irqToS i) = none ∧
        irqOrder.find? (fun i => s.irqTakeable i && s.irqToS i) = some c) := by
  unfold State.pendingInterrupt
  cases irqOrder.find? (fun i => s.irqTakeable i && !s.irqToS i) <;> simp

/-- An interrupt destined for M-mode is taken when it comes first of those destined for M-mode. -/
theorem State.pendingInterrupt_eq_some_iff_of_toM (s : State) {c : Irq} (hc : s.irqToS c = false) :
    s.pendingInterrupt = some c ↔
      s.irqTakeable c = true ∧ ∀ d, d ≠ c → s.irqTakeable d = true → s.irqToS d = true ∨ irqRank c < irqRank d := by
  rw [s.pendingInterrupt_eq_some_iff, find?_irqOrder_eq_some_iff, find?_irqOrder_eq_some_iff]
  simp [hc, or_iff_not_imp_left]

/-- An interrupt destined for S-mode is taken when no other is destined for M-mode and it comes first. -/
theorem State.pendingInterrupt_eq_some_iff_of_toS (s : State) {c : Irq} (hc : s.irqToS c = true) :
    s.pendingInterrupt = some c ↔
      s.irqTakeable c = true ∧ ∀ d, d ≠ c → s.irqTakeable d = true → s.irqToS d = true ∧ irqRank c < irqRank d := by
  rw [s.pendingInterrupt_eq_some_iff, find?_irqOrder_eq_some_iff, find?_irqOrder_eq_none_iff, find?_irqOrder_eq_some_iff]
  simp only [hc, Bool.not_true, Bool.and_false, Bool.and_true, Bool.false_eq_true, false_and, false_or, Bool.and_eq_true,
    and_imp]
  constructor
  · rintro ⟨hnone, htake, hleast⟩
    refine ⟨htake, fun d hne hd => ?_⟩
    have hS : s.irqToS d = true := by simpa [hd] using hnone d
    exact ⟨hS, hleast d hne hd hS⟩
  · rintro ⟨htake, hfirst⟩
    refine ⟨fun d => ?_, htake, fun d hne hd _ => (hfirst d hne hd).2⟩
    by_cases hne : d = c
    · simp [hne, hc]
    · cases hd : s.irqTakeable d with
      | false => rfl
      | true => simp [(hfirst d hne hd).1]

/-- Settles O24: by the destination of the interrupt taken. -/
theorem interruptPriority : Obligations.InterruptPriority := by
  refine ⟨fun s c => ?_, rfl, rfl, rfl, rfl, rfl, rfl⟩
  cases hc : s.mideleg.getLsbD (irqCode c) with
  | false =>
    rw [s.pendingInterrupt_eq_some_iff_of_toM hc]
    refine and_congr_right fun _ => forall₃_congr fun d _ _ => ?_
    cases hd : s.mideleg.getLsbD (irqCode d) <;> simp [State.irqToS, hd]
  | true =>
    rw [s.pendingInterrupt_eq_some_iff_of_toS hc]
    refine and_congr_right fun _ => forall₃_congr fun d _ _ => ?_
    cases hd : s.mideleg.getLsbD (irqCode d) <;> simp [State.irqToS, hd]

/-! ### The start of a step -/

/-- A takeable interrupt is what the step does, whatever is at `pc` and whether the hart waits or not. -/
theorem step_of_pendingInterrupt {s : State} {c : Irq} (h : s.sample.pendingInterrupt = some c) :
    step s = .next (s.sample.takeInterrupt c) := by
  simp [step, hartStep, h]

/-- An interrupt taken touches no register and no byte of memory, is not counted, and ends a `wfi`. -/
theorem State.takeInterrupt_frame (s : State) (c : Irq) :
    sameRegs s (s.takeInterrupt c) ∧ sameMem s (s.takeInterrupt c) ∧ (s.takeInterrupt c).minstret = s.minstret ∧
      (s.takeInterrupt c).waiting = false := by
  refine ⟨fun r => readX_congr ?_ r, fun a => ?_, ?_, ?_⟩ <;> simp [State.takeInterrupt]

/-- Without an interrupt, the step is the instruction that is fetched (60_exceptions.md R372). -/
theorem step_of_fetchInstr_ok {s : State} {i : Instr} (hirq : s.sample.pendingInterrupt = none)
    (hwait : s.sample.waiting = false) (hpc : s.pc.toNat % 4 = 0) (hfetch : s.sample.fetchInstr = .ok i) :
    step s = exec i s.sample := by
  have haligned : s.sample.pcAligned = true := s.sample.pcAligned_iff.mpr (by rwa [State.sample_pc])
  simp [step, hartStep, hirq, hwait, haligned, hfetch]

/-- Settles O6: the interrupt, with its frame; else the instruction, or the exception of its fetch. -/
theorem interruptsComeBeforeTheInstruction : Obligations.InterruptsComeBeforeTheInstruction := by
  rintro s _ rfl
  refine ⟨fun c hirq => ?_, fun hirq hwait hpc =>
    ⟨fun i => step_of_fetchInstr_ok hirq hwait hpc, fun e => step_of_fetchInstr_error hirq hwait hpc⟩⟩
  have hstep := step_of_pendingInterrupt hirq
  refine ⟨by rw [hstep, State.takeInterrupt, State.sample_pc], fun t ht => ?_⟩
  obtain rfl : s.sample.takeInterrupt c = t := Host.Outcome.next.inj (hstep.symm.trans ht)
  obtain ⟨hregs, hmem, hcount, hwaiting⟩ := s.sample.takeInterrupt_frame c
  refine ⟨fun r => ?_, hmem, hcount.trans s.sample_minstret, hwaiting⟩
  exact (hregs r).trans (readX_congr s.sample_x r)

end Sys2Proof.Machine

/-! ## The decoder and the encoder (30_encoding.md R191 to R206) -/

namespace Sys2Proof

/-! ### Decoding a word that was encoded -/

/-- The four bytes of a word, put together again (20_memory.md R122). -/
theorem wordOfBytes_bytes (w : InstrWord) :
    wordOfBytes (w.extractLsb' 0 8) (w.extractLsb' 8 8) (w.extractLsb' 16 8) (w.extractLsb' 24 8) = w := by
  apply BitVec.eq_of_toNat_eq
  simp only [wordOfBytes, BitVec.toNat_append, BitVec.extractLsb'_toNat, Nat.shiftRight_eq_div_pow]
  have hw := w.isLt
  rw [← Nat.shiftLeft_add_eq_or_of_lt (by omega), ← Nat.shiftLeft_add_eq_or_of_lt (by omega),
    ← Nat.shiftLeft_add_eq_or_of_lt (by omega)]
  simp only [Nat.shiftLeft_eq]
  omega

section MajorOpcodes

variable {w : InstrWord}

theorem decodeWord_of_load (h : fieldOpcode w = 0b0000011#7) : decodeWord w = decodeLoad w := by simp [decodeWord, h]
theorem decodeWord_of_miscMem (h : fieldOpcode w = 0b0001111#7) : decodeWord w = decodeMiscMem w := by simp [decodeWord, h]
theorem decodeWord_of_opImm (h : fieldOpcode w = 0b0010011#7) : decodeWord w = decodeOpImm w := by simp [decodeWord, h]
theorem decodeWord_of_auipc (h : fieldOpcode w = 0b0010111#7) :
    decodeWord w = .ok (.auipc (fieldRd w) (fieldImmU w)) := by simp [decodeWord, h]
theorem decodeWord_of_opImm32 (h : fieldOpcode w = 0b0011011#7) : decodeWord w = decodeOpImm32 w := by simp [decodeWord, h]
theorem decodeWord_of_store (h : fieldOpcode w = 0b0100011#7) : decodeWord w = decodeStore w := by simp [decodeWord, h]
theorem decodeWord_of_op (h : fieldOpcode w = 0b0110011#7) : decodeWord w = decodeOp w := by simp [decodeWord, h]
theorem decodeWord_of_lui (h : fieldOpcode w = 0b0110111#7) :
    decodeWord w = .ok (.lui (fieldRd w) (fieldImmU w)) := by simp [decodeWord, h]
theorem decodeWord_of_op32 (h : fieldOpcode w = 0b0111011#7) : decodeWord w = decodeOp32 w := by simp [decodeWord, h]
theorem decodeWord_of_branch (h : fieldOpcode w = 0b1100011#7) : decodeWord w = decodeBranch w := by simp [decodeWord, h]
theorem decodeWord_of_jalr (h : fieldOpcode w = 0b1100111#7) : decodeWord w = decodeJalr w := by simp [decodeWord, h]
theorem decodeWord_of_jal (h : fieldOpcode w = 0b1101111#7) :
    decodeWord w = .ok (.jal (fieldRd w) (fieldImmJ w)) := by simp [decodeWord, h]
theorem decodeWord_of_system (h : fieldOpcode w = 0b1110011#7) : decodeWord w = decodeSystem w := by simp [decodeWord, h]

end MajorOpcodes

/-- A word whose funct7 is none of those of the five whole words of SYSTEM is `sfence.vma` or no instruction (R205). -/
theorem decodePrivileged_of_funct7 {w : InstrWord} (h7 : fieldFunct7 w = 0b0001001#7) (hrd : fieldRd w = 0b00000#5) :
    decodePrivileged w = .ok (.sfenceVma (fieldRs1 w) (fieldRs2 w)) := by
  unfold decodePrivileged
  split
  case h_6 => simp [h7, hrd]
  all_goals exact absurd h7 (by decide)

/-- Decoding gives back what was encoded: one case per major opcode. -/
theorem decodeWord_encode (i : Instr) (h : i.wellFormed = true) : decodeWord (encode i) = .ok i := by
  have hbranch : ∀ o : BitVec 13, branchOffsetOk o = true → o.getLsbD 0 = false := fun o ho => by
    simpa [branchOffsetOk] using ho
  have hjump : ∀ o : BitVec 21, jumpOffsetOk o = true → o.getLsbD 0 = false := fun o ho => by
    simpa [jumpOffsetOk] using ho
  cases i
  case lui => refine (decodeWord_of_lui (fieldOpcode_encodeU ..)).trans ?_; simp
  case auipc => refine (decodeWord_of_auipc (fieldOpcode_encodeU ..)).trans ?_; simp
  case jal rd o =>
    refine (decodeWord_of_jal (fieldOpcode_encodeJ ..)).trans ?_
    simp [fieldImmJ_encodeJ _ _ _ (hjump o h)]
  case jalr => refine (decodeWord_of_jalr (fieldOpcode_encodeI ..)).trans ?_; simp [decodeJalr]
  case beq | bne | blt | bge | bltu | bgeu =>
    refine (decodeWord_of_branch (fieldOpcode_encodeB ..)).trans ?_
    simp [decodeBranch, fieldImmB_encodeB _ _ _ _ _ (hbranch _ h)]
  case lb | lh | lw | ld | lbu | lhu | lwu =>
    refine (decodeWord_of_load (fieldOpcode_encodeI ..)).trans ?_; simp [decodeLoad]
  case sb | sh | sw | sd => refine (decodeWord_of_store (fieldOpcode_encodeS ..)).trans ?_; simp [decodeStore]
  case addi | slti | sltiu | xori | ori | andi =>
    refine (decodeWord_of_opImm (fieldOpcode_encodeI ..)).trans ?_; simp [decodeOpImm]
  case slli | srli | srai => refine (decodeWord_of_opImm (fieldOpcode_encodeShift ..)).trans ?_; simp [decodeOpImm]
  case add | sub | sll | slt | sltu | xor | srl | sra | or | and =>
    refine (decodeWord_of_op (fieldOpcode_encodeR ..)).trans ?_; simp [decodeOp]
  case addiw => refine (decodeWord_of_opImm32 (fieldOpcode_encodeI ..)).trans ?_; simp [decodeOpImm32]
  case slliw | srliw | sraiw => refine (decodeWord_of_opImm32 (fieldOpcode_encodeR ..)).trans ?_; simp [decodeOpImm32]
  case addw | subw | sllw | srlw | sraw => refine (decodeWord_of_op32 (fieldOpcode_encodeR ..)).trans ?_; simp [decodeOp32]
  case fence => refine (decodeWord_of_miscMem (fieldOpcode_encodeFence ..)).trans ?_; simp [decodeMiscMem]
  case fenceI | ecall | ebreak | sret | mret | wfi => rfl
  case sfenceVma =>
    refine (decodeWord_of_system (fieldOpcode_encodeR ..)).trans ?_
    simp [decodeSystem, decodePrivileged_of_funct7]
  case csrrw | csrrs | csrrc | csrrwi | csrrsi | csrrci =>
    refine (decodeWord_of_system (fieldOpcode_encodeI ..)).trans ?_; simp [decodeSystem]

/-- Settles O1: the four bytes are the word again, and the word decodes to what it encodes. -/
theorem decodeEncodeAgree : Obligations.DecodeEncodeAgree := by
  intro i rest h
  simp only [encodeBytes, bytesOfWord, List.cons_append, List.nil_append, decodeBytes, wordOfBytes_bytes,
    decodeWord_encode i h]

/-! ### Encoding what was decoded -/

section Fields

variable {w : InstrWord} {op : BitVec 7} {f3 : BitVec 3}

/-- A field of the word, put in its place. -/
theorem placeField_extractLsb' (w : InstrWord) (lo n : Nat) :
    placeField (w.extractLsb' lo n) lo = w &&& placeField (BitVec.allOnes n) lo :=
  (and_placeField_allOnes w n lo).symm

theorem encodeR_fields {f7 : BitVec 7} (h7 : fieldFunct7 w = f7) (h3 : fieldFunct3 w = f3) (hop : fieldOpcode w = op) :
    encodeR f7 (fieldRs2 w) (fieldRs1 w) f3 (fieldRd w) op = w := by
  subst h7 h3 hop
  simp only [encodeR, fieldFunct7, fieldRs2, fieldRs1, fieldFunct3, fieldRd, fieldOpcode, placeField_extractLsb',
    ← BitVec.and_or_distrib_left]
  exact BitVec.and_allOnes

theorem encodeI_fields (h3 : fieldFunct3 w = f3) (hop : fieldOpcode w = op) :
    encodeI (fieldImmI w) (fieldRs1 w) f3 (fieldRd w) op = w := by
  subst h3 hop
  simp only [encodeI, fieldImmI, fieldRs1, fieldFunct3, fieldRd, fieldOpcode, placeField_extractLsb',
    ← BitVec.and_or_distrib_left]
  exact BitVec.and_allOnes

theorem encodeShift_fields {f6 : BitVec 6} (h6 : fieldFunct6 w = f6) (h3 : fieldFunct3 w = f3) (hop : fieldOpcode w = op) :
    encodeShift f6 (fieldShamt6 w) (fieldRs1 w) f3 (fieldRd w) op = w := by
  subst h6 h3 hop
  simp only [encodeShift, fieldFunct6, fieldShamt6, fieldRs1, fieldFunct3, fieldRd, fieldOpcode, placeField_extractLsb',
    ← BitVec.and_or_distrib_left]
  exact BitVec.and_allOnes

theorem encodeU_fields (hop : fieldOpcode w = op) : encodeU (fieldImmU w) (fieldRd w) op = w := by
  subst hop
  simp only [encodeU, fieldImmU, fieldRd, fieldOpcode, placeField_extractLsb', ← BitVec.and_or_distrib_left]
  exact BitVec.and_allOnes

/-- The two pieces of an S-immediate (R194). -/
theorem fieldImmS_pieces (w : InstrWord) :
    (fieldImmS w).extractLsb' 5 7 = w.extractLsb' 25 7 ∧ (fieldImmS w).extractLsb' 0 5 = w.extractLsb' 7 5 := by
  constructor <;>
    · apply BitVec.eq_of_getLsbD_eq
      intro k hk
      unfold fieldImmS
      rw [BitVec.getLsbD_extractLsb', BitVec.getLsbD_append]
      interval_cases k <;> simp

theorem encodeS_fields (h3 : fieldFunct3 w = f3) (hop : fieldOpcode w = op) :
    encodeS (fieldImmS w) (fieldRs2 w) (fieldRs1 w) f3 op = w := by
  subst h3 hop
  obtain ⟨hhigh, hlow⟩ := fieldImmS_pieces w
  simp only [encodeS, hhigh, hlow, fieldRs2, fieldRs1, fieldFunct3, fieldOpcode, placeField_extractLsb',
    ← BitVec.and_or_distrib_left]
  exact BitVec.and_allOnes

/-- The four pieces of a B-immediate (R195). -/
theorem fieldImmB_pieces (w : InstrWord) :
    (fieldImmB w).extractLsb' 12 1 = w.extractLsb' 31 1 ∧ (fieldImmB w).extractLsb' 5 6 = w.extractLsb' 25 6 ∧
    (fieldImmB w).extractLsb' 1 4 = w.extractLsb' 8 4 ∧ (fieldImmB w).extractLsb' 11 1 = w.extractLsb' 7 1 := by
  refine ⟨?_, ?_, ?_, ?_⟩ <;>
    · apply BitVec.eq_of_getLsbD_eq
      intro k hk
      unfold fieldImmB
      simp only [BitVec.getLsbD_extractLsb', BitVec.getLsbD_append]
      interval_cases k <;> simp

theorem encodeB_fields (h3 : fieldFunct3 w = f3) (hop : fieldOpcode w = op) :
    encodeB (fieldImmB w) (fieldRs2 w) (fieldRs1 w) f3 op = w := by
  subst h3 hop
  obtain ⟨h12, h5, h1, h11⟩ := fieldImmB_pieces w
  simp only [encodeB, h12, h5, h1, h11, fieldRs2, fieldRs1, fieldFunct3, fieldOpcode, placeField_extractLsb',
    ← BitVec.and_or_distrib_left]
  exact BitVec.and_allOnes

/-- The four pieces of a J-immediate (R197). -/
theorem fieldImmJ_pieces (w : InstrWord) :
    (fieldImmJ w).extractLsb' 20 1 = w.extractLsb' 31 1 ∧ (fieldImmJ w).extractLsb' 1 10 = w.extractLsb' 21 10 ∧
    (fieldImmJ w).extractLsb' 11 1 = w.extractLsb' 20 1 ∧ (fieldImmJ w).extractLsb' 12 8 = w.extractLsb' 12 8 := by
  refine ⟨?_, ?_, ?_, ?_⟩ <;>
    · apply BitVec.eq_of_getLsbD_eq
      intro k hk
      unfold fieldImmJ
      simp only [BitVec.getLsbD_extractLsb', BitVec.getLsbD_append]
      interval_cases k <;> simp

theorem encodeJ_fields (hop : fieldOpcode w = op) : encodeJ (fieldImmJ w) (fieldRd w) op = w := by
  subst hop
  obtain ⟨h20, h1, h11, h12⟩ := fieldImmJ_pieces w
  simp only [encodeJ, h20, h1, h11, h12, fieldRd, fieldOpcode, placeField_extractLsb', ← BitVec.and_or_distrib_left]
  exact BitVec.and_allOnes

/-- Bit 0 of a decoded branch offset is 0 (R195). -/
theorem branchOffsetOk_fieldImmB (w : InstrWord) : branchOffsetOk (fieldImmB w) = true := by
  rw [branchOffsetOk, fieldImmB, BitVec.getLsbD_append]
  rfl

/-- Bit 0 of a decoded jump offset is 0 (R197). -/
theorem jumpOffsetOk_fieldImmJ (w : InstrWord) : jumpOffsetOk (fieldImmJ w) = true := by
  rw [jumpOffsetOk, fieldImmJ, BitVec.getLsbD_append]
  rfl

end Fields

/-! ### What each decoding function answers -/

/-- The instruction is well formed and `w` is its word. -/
def EncodesTo (i : Instr) (w : InstrWord) : Prop := i.wellFormed = true ∧ encode i = w

section Decodes

variable {w : InstrWord} {i : Instr}

theorem encodesTo_of_decodeLoad (hop : fieldOpcode w = 0b0000011#7) (h : decodeLoad w = .ok i) : EncodesTo i w := by
  unfold decodeLoad at h
  split at h <;> cases h
  all_goals exact ⟨rfl, encodeI_fields ‹_› hop⟩

theorem encodesTo_of_decodeStore (hop : fieldOpcode w = 0b0100011#7) (h : decodeStore w = .ok i) : EncodesTo i w := by
  unfold decodeStore at h
  split at h <;> cases h
  all_goals exact ⟨rfl, encodeS_fields ‹_› hop⟩

theorem encodesTo_of_decodeBranch (hop : fieldOpcode w = 0b1100011#7) (h : decodeBranch w = .ok i) : EncodesTo i w := by
  unfold decodeBranch at h
  split at h <;> cases h
  all_goals exact ⟨branchOffsetOk_fieldImmB w, encodeB_fields ‹_› hop⟩

theorem encodesTo_of_decodeJalr (hop : fieldOpcode w = 0b1100111#7) (h : decodeJalr w = .ok i) : EncodesTo i w := by
  unfold decodeJalr at h
  split at h <;> cases h
  exact ⟨rfl, encodeI_fields ‹_› hop⟩

theorem encodesTo_of_decodeOpImm (hop : fieldOpcode w = 0b0010011#7) (h : decodeOpImm w = .ok i) : EncodesTo i w := by
  unfold decodeOpImm at h
  split at h
  case h_7 h3 => split at h <;> cases h; exact ⟨rfl, encodeShift_fields ‹_› h3 hop⟩
  case h_8 h0 h2 h3 h4 h6 h7 h1 =>
    have h5 := Machine.eq_shiftRight_funct3 h0 h2 h3 h4 h6 h7 h1
    split at h <;> cases h
    all_goals exact ⟨rfl, encodeShift_fields ‹_› h5 hop⟩
  all_goals cases h; exact ⟨rfl, encodeI_fields ‹_› hop⟩

theorem encodesTo_of_decodeOpImm32 (hop : fieldOpcode w = 0b0011011#7) (h : decodeOpImm32 w = .ok i) : EncodesTo i w := by
  unfold decodeOpImm32 at h
  split at h
  case h_1 h3 => cases h; exact ⟨rfl, encodeI_fields h3 hop⟩
  case h_2 h3 => split at h <;> cases h; exact ⟨rfl, encodeR_fields ‹_› h3 hop⟩
  case h_3 h3 =>
    split at h <;> cases h
    all_goals exact ⟨rfl, encodeR_fields ‹_› h3 hop⟩
  case h_4 => cases h

theorem encodesTo_of_decodeOp (hop : fieldOpcode w = 0b0110011#7) (h : decodeOp w = .ok i) : EncodesTo i w := by
  unfold decodeOp at h
  split at h <;> cases h
  all_goals exact ⟨rfl, encodeR_fields ‹fieldFunct7 w = _› ‹fieldFunct3 w = _› hop⟩

theorem encodesTo_of_decodeOp32 (hop : fieldOpcode w = 0b0111011#7) (h : decodeOp32 w = .ok i) : EncodesTo i w := by
  unfold decodeOp32 at h
  split at h <;> cases h
  all_goals exact ⟨rfl, encodeR_fields ‹fieldFunct7 w = _› ‹fieldFunct3 w = _› hop⟩

theorem encodesTo_of_decodePrivileged (hop : fieldOpcode w = 0b1110011#7) (h3 : fieldFunct3 w = 0b000#3)
    (h : decodePrivileged w = .ok i) : EncodesTo i w := by
  unfold decodePrivileged at h
  split at h
  case h_6 =>
    split at h <;> cases h
    next h7 hrd => exact ⟨rfl, (congrArg (encodeR _ _ _ _ · _) hrd).symm.trans (encodeR_fields h7 h3 hop)⟩
  all_goals cases h; exact ⟨rfl, rfl⟩

theorem encodesTo_of_decodeSystem (hop : fieldOpcode w = 0b1110011#7) (h : decodeSystem w = .ok i) : EncodesTo i w := by
  unfold decodeSystem at h
  split at h
  case h_1 h3 => exact encodesTo_of_decodePrivileged hop h3 h
  case h_8 => cases h
  all_goals cases h; exact ⟨rfl, encodeI_fields ‹_› hop⟩

/-- What is decoded of MISC-MEM is well formed; its ignored fields are lost (R208). -/
theorem wellFormed_of_decodeMiscMem (h : decodeMiscMem w = .ok i) : i.wellFormed = true := by
  unfold decodeMiscMem at h
  split at h <;> cases h <;> rfl

/-- Outside MISC-MEM what is decoded is well formed and encodes to the word: one case per major opcode. -/
theorem encodesTo_of_decodeWord (hop : fieldOpcode w ≠ 0b0001111#7) (h : decodeWord w = .ok i) : EncodesTo i w := by
  unfold decodeWord at h
  split at h
  case h_1 hop => exact encodesTo_of_decodeLoad hop h
  case h_2 hmisc => exact absurd hmisc hop
  case h_3 hop => exact encodesTo_of_decodeOpImm hop h
  case h_4 hop => cases h; exact ⟨rfl, encodeU_fields hop⟩
  case h_5 hop => exact encodesTo_of_decodeOpImm32 hop h
  case h_6 hop => exact encodesTo_of_decodeStore hop h
  case h_7 hop => exact encodesTo_of_decodeOp hop h
  case h_8 hop => cases h; exact ⟨rfl, encodeU_fields hop⟩
  case h_9 hop => exact encodesTo_of_decodeOp32 hop h
  case h_10 hop => exact encodesTo_of_decodeBranch hop h
  case h_11 hop => exact encodesTo_of_decodeJalr hop h
  case h_12 hop => cases h; exact ⟨jumpOffsetOk_fieldImmJ w, encodeJ_fields hop⟩
  case h_13 hop => exact encodesTo_of_decodeSystem hop h
  case h_14 => split at h <;> cases h

theorem wellFormed_of_decodeWord (h : decodeWord w = .ok i) : i.wellFormed = true := by
  by_cases hop : fieldOpcode w = 0b0001111#7
  · exact wellFormed_of_decodeMiscMem ((decodeWord_of_miscMem hop).symm.trans h)
  · exact (encodesTo_of_decodeWord hop h).1

end Decodes

end Sys2Proof

namespace Sys2Proof.Machine

/-! ### A word that fits a row decodes -/

section Fits

variable {w mask row : InstrWord}

/-- A word that fits a row has each field that the row's mask keeps whole. -/
theorem extractLsb'_eq_of_fits {lo n : Nat} (hfits : w &&& mask = row) (hmask : mask.extractLsb' lo n = BitVec.allOnes n) :
    w.extractLsb' lo n = row.extractLsb' lo n := by
  rw [← hfits, BitVec.extractLsb'_and, hmask, BitVec.and_allOnes]

theorem fieldOpcode_of_fits (hfits : w &&& mask = row) (hmask : fieldOpcode mask = 0x7F#7) :
    fieldOpcode w = fieldOpcode row := extractLsb'_eq_of_fits hfits hmask

theorem fieldFunct3_of_fits (hfits : w &&& mask = row) (hmask : fieldFunct3 mask = 7#3) :
    fieldFunct3 w = fieldFunct3 row := extractLsb'_eq_of_fits hfits hmask

theorem fieldFunct6_of_fits (hfits : w &&& mask = row) (hmask : fieldFunct6 mask = 0x3F#6) :
    fieldFunct6 w = fieldFunct6 row := extractLsb'_eq_of_fits hfits hmask

theorem fieldFunct7_of_fits (hfits : w &&& mask = row) (hmask : fieldFunct7 mask = 0x7F#7) :
    fieldFunct7 w = fieldFunct7 row := extractLsb'_eq_of_fits hfits hmask

theorem fieldRd_of_fits (hfits : w &&& mask = row) (hmask : fieldRd mask = 0x1F#5) : fieldRd w = fieldRd row :=
  extractLsb'_eq_of_fits hfits hmask

/-- Every row fixes the opcode, and it is a major opcode of R200. -/
theorem opcode_of_mem_opcodeRows : ∀ r ∈ opcodeRows, fieldOpcode r.1 = 0x7F#7 ∧
    fieldOpcode r.2 ∈ [0b0000011#7, 0b0001111#7, 0b0010011#7, 0b0010111#7, 0b0011011#7, 0b0100011#7, 0b0110011#7,
      0b0110111#7, 0b0111011#7, 0b1100011#7, 0b1100111#7, 0b1101111#7, 0b1110011#7] := by
  simp [opcodeRows, opcodeRowsLow, opcodeRowsMid, opcodeRowsHigh, fieldOpcode]

/-- Every row of an opcode that has several instructions fixes funct3. -/
theorem funct3_of_mem_opcodeRows : ∀ r ∈ opcodeRows, fieldOpcode r.2 ∉ [0b0010111#7, 0b0110111#7, 0b1101111#7] →
    fieldFunct3 r.1 = 7#3 := by
  simp [opcodeRows, opcodeRowsLow, opcodeRowsMid, opcodeRowsHigh, fieldOpcode, fieldFunct3]

section Row

variable {r : InstrWord × InstrWord} (hr : r ∈ opcodeRows) (hfits : w &&& r.1 = r.2)
include hr hfits

theorem decodeLoad_of_fits (hop : fieldOpcode r.2 = 0b0000011#7) : ∃ i, decodeLoad w = .ok i := by
  have hrow : ∀ r ∈ opcodeRows, fieldOpcode r.2 = 0b0000011#7 →
      fieldFunct3 r.2 ∈ [0b000#3, 0b001#3, 0b010#3, 0b011#3, 0b100#3, 0b101#3, 0b110#3] := by
    simp [opcodeRows, opcodeRowsLow, opcodeRowsMid, opcodeRowsHigh, fieldOpcode, fieldFunct3]
  have h3 := hrow r hr hop
  rw [← fieldFunct3_of_fits hfits (funct3_of_mem_opcodeRows r hr (by simp [hop]))] at h3
  simp only [List.mem_cons, List.not_mem_nil, or_false] at h3
  rcases h3 with h | h | h | h | h | h | h <;> simp [decodeLoad, h]

theorem decodeStore_of_fits (hop : fieldOpcode r.2 = 0b0100011#7) : ∃ i, decodeStore w = .ok i := by
  have hrow : ∀ r ∈ opcodeRows, fieldOpcode r.2 = 0b0100011#7 → fieldFunct3 r.2 ∈ [0b000#3, 0b001#3, 0b010#3, 0b011#3] := by
    simp [opcodeRows, opcodeRowsLow, opcodeRowsMid, opcodeRowsHigh, fieldOpcode, fieldFunct3]
  have h3 := hrow r hr hop
  rw [← fieldFunct3_of_fits hfits (funct3_of_mem_opcodeRows r hr (by simp [hop]))] at h3
  simp only [List.mem_cons, List.not_mem_nil, or_false] at h3
  rcases h3 with h | h | h | h <;> simp [decodeStore, h]

theorem decodeBranch_of_fits (hop : fieldOpcode r.2 = 0b1100011#7) : ∃ i, decodeBranch w = .ok i := by
  have hrow : ∀ r ∈ opcodeRows, fieldOpcode r.2 = 0b1100011#7 →
      fieldFunct3 r.2 ∈ [0b000#3, 0b001#3, 0b100#3, 0b101#3, 0b110#3, 0b111#3] := by
    simp [opcodeRows, opcodeRowsLow, opcodeRowsMid, opcodeRowsHigh, fieldOpcode, fieldFunct3]
  have h3 := hrow r hr hop
  rw [← fieldFunct3_of_fits hfits (funct3_of_mem_opcodeRows r hr (by simp [hop]))] at h3
  simp only [List.mem_cons, List.not_mem_nil, or_false] at h3
  rcases h3 with h | h | h | h | h | h <;> simp [decodeBranch, h]

theorem decodeMiscMem_of_fits (hop : fieldOpcode r.2 = 0b0001111#7) : ∃ i, decodeMiscMem w = .ok i := by
  have hrow : ∀ r ∈ opcodeRows, fieldOpcode r.2 = 0b0001111#7 → fieldFunct3 r.2 ∈ [0b000#3, 0b001#3] := by
    simp [opcodeRows, opcodeRowsLow, opcodeRowsMid, opcodeRowsHigh, fieldOpcode, fieldFunct3]
  have h3 := hrow r hr hop
  rw [← fieldFunct3_of_fits hfits (funct3_of_mem_opcodeRows r hr (by simp [hop]))] at h3
  simp only [List.mem_cons, List.not_mem_nil, or_false] at h3
  rcases h3 with h | h <;> simp [decodeMiscMem, h]

theorem decodeJalr_of_fits (hop : fieldOpcode r.2 = 0b1100111#7) : ∃ i, decodeJalr w = .ok i := by
  have hrow : ∀ r ∈ opcodeRows, fieldOpcode r.2 = 0b1100111#7 → fieldFunct3 r.2 = 0b000#3 := by
    simp [opcodeRows, opcodeRowsLow, opcodeRowsMid, opcodeRowsHigh, fieldOpcode, fieldFunct3]
  simp [decodeJalr, fieldFunct3_of_fits hfits (funct3_of_mem_opcodeRows r hr (by simp [hop])), hrow r hr hop]

theorem decodeOpImm_of_fits (hop : fieldOpcode r.2 = 0b0010011#7) : ∃ i, decodeOpImm w = .ok i := by
  have hrow : ∀ r ∈ opcodeRows, fieldOpcode r.2 = 0b0010011#7 →
      fieldFunct3 r.2 ∈ [0b000#3, 0b010#3, 0b011#3, 0b100#3, 0b110#3, 0b111#3] ∨
      (fieldFunct6 r.1 = 0x3F#6 ∧ (fieldFunct3 r.2, fieldFunct6 r.2) ∈
        [(0b001#3, 0b000000#6), (0b101#3, 0b000000#6), (0b101#3, 0b010000#6)]) := by
    simp [opcodeRows, opcodeRowsLow, opcodeRowsMid, opcodeRowsHigh, fieldOpcode, fieldFunct3, fieldFunct6]
  have hw3 := fieldFunct3_of_fits hfits (funct3_of_mem_opcodeRows r hr (by simp [hop]))
  rcases hrow r hr hop with h3 | ⟨hmask, h6⟩
  · rw [← hw3] at h3
    simp only [List.mem_cons, List.not_mem_nil, or_false] at h3
    rcases h3 with h | h | h | h | h | h <;> simp [decodeOpImm, h]
  · rw [← hw3, ← fieldFunct6_of_fits hfits hmask] at h6
    simp only [List.mem_cons, List.not_mem_nil, or_false, Prod.mk.injEq] at h6
    rcases h6 with ⟨h, h'⟩ | ⟨h, h'⟩ | ⟨h, h'⟩ <;> simp [decodeOpImm, h, h']

theorem decodeOpImm32_of_fits (hop : fieldOpcode r.2 = 0b0011011#7) : ∃ i, decodeOpImm32 w = .ok i := by
  have hrow : ∀ r ∈ opcodeRows, fieldOpcode r.2 = 0b0011011#7 →
      fieldFunct3 r.2 = 0b000#3 ∨
      (fieldFunct7 r.1 = 0x7F#7 ∧ (fieldFunct3 r.2, fieldFunct7 r.2) ∈
        [(0b001#3, 0b0000000#7), (0b101#3, 0b0000000#7), (0b101#3, 0b0100000#7)]) := by
    simp [opcodeRows, opcodeRowsLow, opcodeRowsMid, opcodeRowsHigh, fieldOpcode, fieldFunct3, fieldFunct7]
  have hw3 := fieldFunct3_of_fits hfits (funct3_of_mem_opcodeRows r hr (by simp [hop]))
  rcases hrow r hr hop with h3 | ⟨hmask, h7⟩
  · simp [decodeOpImm32, hw3, h3]
  · rw [← hw3, ← fieldFunct7_of_fits hfits hmask] at h7
    simp only [List.mem_cons, List.not_mem_nil, or_false, Prod.mk.injEq] at h7
    rcases h7 with ⟨h, h'⟩ | ⟨h, h'⟩ | ⟨h, h'⟩ <;> simp [decodeOpImm32, h, h']

theorem decodeOp_of_fits (hop : fieldOpcode r.2 = 0b0110011#7) : ∃ i, decodeOp w = .ok i := by
  have hrow : ∀ r ∈ opcodeRows, fieldOpcode r.2 = 0b0110011#7 → fieldFunct7 r.1 = 0x7F#7 ∧
      (fieldFunct7 r.2 = 0b0000000#7 ∨ fieldFunct7 r.2 = 0b0100000#7 ∧ fieldFunct3 r.2 ∈ [0b000#3, 0b101#3]) := by
    simp [opcodeRows, opcodeRowsLow, opcodeRowsMid, opcodeRowsHigh, fieldOpcode, fieldFunct3, fieldFunct7]
  obtain ⟨hmask, h7⟩ := hrow r hr hop
  rw [← fieldFunct7_of_fits hfits hmask,
    ← fieldFunct3_of_fits hfits (funct3_of_mem_opcodeRows r hr (by simp [hop]))] at h7
  simp only [List.mem_cons, List.not_mem_nil, or_false] at h7
  have hall : ∀ f : BitVec 3, f = 0 ∨ f = 1 ∨ f = 2 ∨ f = 3 ∨ f = 4 ∨ f = 5 ∨ f = 6 ∨ f = 7 := by decide
  rcases h7 with h7 | ⟨h7, h | h⟩
  · rcases hall (fieldFunct3 w) with h | h | h | h | h | h | h | h <;> simp [decodeOp, h7, h]
  · simp [decodeOp, h7, h]
  · simp [decodeOp, h7, h]

theorem decodeOp32_of_fits (hop : fieldOpcode r.2 = 0b0111011#7) : ∃ i, decodeOp32 w = .ok i := by
  have hrow : ∀ r ∈ opcodeRows, fieldOpcode r.2 = 0b0111011#7 → fieldFunct7 r.1 = 0x7F#7 ∧
      (fieldFunct7 r.2, fieldFunct3 r.2) ∈ [(0b0000000#7, 0b000#3), (0b0100000#7, 0b000#3), (0b0000000#7, 0b001#3),
        (0b0000000#7, 0b101#3), (0b0100000#7, 0b101#3)] := by
    simp [opcodeRows, opcodeRowsLow, opcodeRowsMid, opcodeRowsHigh, fieldOpcode, fieldFunct3, fieldFunct7]
  obtain ⟨hmask, h7⟩ := hrow r hr hop
  rw [← fieldFunct7_of_fits hfits hmask,
    ← fieldFunct3_of_fits hfits (funct3_of_mem_opcodeRows r hr (by simp [hop]))] at h7
  simp only [List.mem_cons, List.not_mem_nil, or_false, Prod.mk.injEq] at h7
  rcases h7 with ⟨h, h'⟩ | ⟨h, h'⟩ | ⟨h, h'⟩ | ⟨h, h'⟩ | ⟨h, h'⟩ <;> simp [decodeOp32, h, h']

/-- A row of SYSTEM with funct3 000 is one of five whole words or `sfence.vma` (R205). -/
theorem decodePrivileged_of_fits (hop : fieldOpcode r.2 = 0b1110011#7) (h3 : fieldFunct3 r.2 = 0b000#3) :
    ∃ i, decodePrivileged w = .ok i := by
  have hrow : ∀ r ∈ opcodeRows, fieldOpcode r.2 = 0b1110011#7 → fieldFunct3 r.2 = 0b000#3 →
      (r.1 = 0xFFFFFFFF#32 ∧ r.2 ∈ [0x00000073#32, 0x00100073#32, 0x10200073#32, 0x30200073#32, 0x10500073#32]) ∨
      (fieldFunct7 r.1 = 0x7F#7 ∧ fieldRd r.1 = 0x1F#5 ∧ fieldFunct7 r.2 = 0b0001001#7 ∧ fieldRd r.2 = 0b00000#5) := by
    simp [opcodeRows, opcodeRowsLow, opcodeRowsMid, opcodeRowsHigh, fieldOpcode, fieldFunct3, fieldFunct7, fieldRd]
  rcases hrow r hr hop h3 with ⟨hmask, hword⟩ | ⟨hmask7, hmaskRd, h7, hrd⟩
  · rw [← hfits, hmask, show w &&& 0xFFFFFFFF#32 = w from BitVec.and_allOnes] at hword
    simp only [List.mem_cons, List.not_mem_nil, or_false] at hword
    rcases hword with rfl | rfl | rfl | rfl | rfl <;> exact ⟨_, rfl⟩
  · exact ⟨_, decodePrivileged_of_funct7 ((fieldFunct7_of_fits hfits hmask7).trans h7)
      ((fieldRd_of_fits hfits hmaskRd).trans hrd)⟩

theorem decodeSystem_of_fits (hop : fieldOpcode r.2 = 0b1110011#7) : ∃ i, decodeSystem w = .ok i := by
  have hrow : ∀ r ∈ opcodeRows, fieldOpcode r.2 = 0b1110011#7 → fieldFunct3 r.2 = 0b000#3 ∨
      fieldFunct3 r.2 ∈ [0b001#3, 0b010#3, 0b011#3, 0b101#3, 0b110#3, 0b111#3] := by
    simp [opcodeRows, opcodeRowsLow, opcodeRowsMid, opcodeRowsHigh, fieldOpcode, fieldFunct3]
  have hw3 := fieldFunct3_of_fits hfits (funct3_of_mem_opcodeRows r hr (by simp [hop]))
  rcases hrow r hr hop with h3 | h3
  · simpa [decodeSystem, hw3, h3] using decodePrivileged_of_fits hr hfits hop h3
  · rw [← hw3] at h3
    simp only [List.mem_cons, List.not_mem_nil, or_false] at h3
    rcases h3 with h | h | h | h | h | h <;> simp [decodeSystem, h]

/-- A word that fits a row of the table decodes (R206): one case per major opcode. -/
theorem decodeWord_of_fits : ∃ i, decodeWord w = .ok i := by
  obtain ⟨hmask, hmem⟩ := opcode_of_mem_opcodeRows r hr
  have hw := fieldOpcode_of_fits hfits hmask
  simp only [List.mem_cons, List.not_mem_nil, or_false] at hmem
  rcases hmem with h | h | h | h | h | h | h | h | h | h | h | h | h
  · rw [decodeWord_of_load (hw.trans h)]; exact decodeLoad_of_fits hr hfits h
  · rw [decodeWord_of_miscMem (hw.trans h)]; exact decodeMiscMem_of_fits hr hfits h
  · rw [decodeWord_of_opImm (hw.trans h)]; exact decodeOpImm_of_fits hr hfits h
  · exact ⟨_, decodeWord_of_auipc (hw.trans h)⟩
  · rw [decodeWord_of_opImm32 (hw.trans h)]; exact decodeOpImm32_of_fits hr hfits h
  · rw [decodeWord_of_store (hw.trans h)]; exact decodeStore_of_fits hr hfits h
  · rw [decodeWord_of_op (hw.trans h)]; exact decodeOp_of_fits hr hfits h
  · exact ⟨_, decodeWord_of_lui (hw.trans h)⟩
  · rw [decodeWord_of_op32 (hw.trans h)]; exact decodeOp32_of_fits hr hfits h
  · rw [decodeWord_of_branch (hw.trans h)]; exact decodeBranch_of_fits hr hfits h
  · rw [decodeWord_of_jalr (hw.trans h)]; exact decodeJalr_of_fits hr hfits h
  · exact ⟨_, decodeWord_of_jal (hw.trans h)⟩
  · rw [decodeWord_of_system (hw.trans h)]; exact decodeSystem_of_fits hr hfits h

end Row

end Fits

/-- Settles O2: the decoder accepts a word exactly when it fits a row, and the encoder puts its fields back. -/
theorem decoderAcceptsExactlyTheTable : Obligations.DecoderAcceptsExactlyTheTable := by
  refine ⟨fun w => ⟨fun ⟨i, hi⟩ => fitsRow_of_decodeWord hi, fun ⟨r, hr, hfits⟩ => decodeWord_of_fits hr hfits⟩,
    fun w i h => ⟨wellFormed_of_decodeWord h, fun hop => (encodesTo_of_decodeWord hop h).2⟩⟩

/-- Settles O3: the words of the spec's examples, decoded by evaluation. -/
theorem specWordsDecode : Obligations.SpecWordsDecode := by
  refine ⟨?_, ?_, ?_, ?_, ?_, ?_, ?_, ?_, ?_, ?_, ?_, ?_, ?_, ?_, ?_, ?_, ?_, ?_, ?_, ?_, ?_⟩ <;> decide

end Sys2Proof.Machine

/-! ## What an instruction and a step can do -/

namespace Sys2Proof.Machine

/-! ### The effect of an instruction -/

/-- Everything an instruction can do in `s`, by the shape of the state it leaves: it raises, it completes (a target at a multiple of
4 when `pc` is), or it is one of the few that change more than a register. -/
inductive Effect (s : State) (i : Instr) : State → Prop where
  | raised (c : Cause) (tval : Word) : Effect s i (s.trap false (causeCode c) s.pc tval)
  | completed (rd : Reg) (v npc : Word) (haligned : s.pc.extractLsb' 0 2 = 0 → npc.extractLsb' 0 2 = 0) :
      Effect s i ((s.setX rd v).retireTo npc)
  | loaded (rd : Reg) (v : Word) (pa n : Nat) (seen : Word) :
      Effect s i (((s.noteDevice false pa n seen).setX rd v).retireTo (s.pc + 4))
  | stored (hform : storeForm i ≠ none) (pa n : Nat) (bytes : List Byte) (seen : Word) :
      Effect s i (((s.writePhysBytes pa bytes).noteDevice true pa n seen).retireTo (s.pc + 4))
  | fetchFenced (hi : i = .fenceI) : Effect s i ({ s with fetchStale := [] }.retireTo (s.pc + 4))
  | returnedM (hi : i = .mret) (hpriv : s.priv = .machine) : Effect s i s.returnM
  | returnedS (hi : i = .sret) (hpriv : s.priv ≠ .user) : Effect s i s.returnS
  | waited : Effect s i ({ s with waiting := true }.retireTo (s.pc + 4))
  | tlbFenced (keep : TlbEntry → Bool) : Effect s i ({ s with tlb := s.tlb.filter keep }.retireTo (s.pc + 4))
  | csr (rd : Reg) (a : CsrAddr) (w : Bool) (c : Csr) (v : Word) (hform : csrForm i = some (a, w))
      (haccess : s.csrAccess a w = some c) :
      Effect s i (((if w then s.csrWrite c v else s).setX rd (s.csrRead c)).retireCsr c w)

/-- The next instruction's address keeps the alignment. -/
theorem next_aligned {pc : Word} (h : pc.extractLsb' 0 2 = 0) : (pc + 4).extractLsb' 0 2 = 0 := by
  rw [extractLsb'_zero_two_eq_zero_iff] at h ⊢
  rw [BitVec.toNat_add]
  change (pc.toNat + 4) % 2 ^ 64 % 4 = 0
  omega

theorem effect_writeBack (s : State) (i : Instr) (rd : Reg) (v : Word) : Effect s i (s.writeBack rd v) := by
  rw [State.writeBack_eq, State.retire_eq, State.setX_pc]
  exact .completed rd v _ next_aligned

/-- Completing without a register is completing with `x0` as the register. -/
theorem effect_retireTo {s : State} (i : Instr) {npc : Word} (haligned : s.pc.extractLsb' 0 2 = 0 → npc.extractLsb' 0 2 = 0) :
    Effect s i (s.retireTo npc) := .completed 0#5 0 npc haligned

theorem effect_jumpTo (s : State) (i : Instr) (rd : Reg) (t : Word) : Effect s i (s.jumpTo rd t) := by
  rcases jumpTo_cases s rd t with ⟨haligned, h⟩ | ⟨-, h⟩ <;> rw [h]
  · exact .completed rd _ t fun _ => haligned
  · exact .raised .instrAddrMisaligned t

theorem effect_branchIf (s : State) (i : Instr) (c : Bool) (o : BitVec 13) : Effect s i (s.branchIf c o) := by
  rcases branchIf_cases s c o with ⟨-, h⟩ | ⟨-, haligned, h⟩ | ⟨-, -, h⟩ <;> rw [h]
  · exact effect_retireTo i next_aligned
  · exact effect_retireTo i fun _ => haligned
  · exact .raised .instrAddrMisaligned _

theorem effect_loadInto (s : State) (i : Instr) (rd : Reg) (va : Word) (n : Nat) (widen : Word → Word) :
    Effect s i (s.loadInto rd va n widen) := by
  rcases loadInto_cases s rd va n widen with ⟨e, -, h⟩ | ⟨pa, -, h⟩ <;> rw [h]
  · exact .raised e.cause e.tval
  · exact .loaded rd _ pa n _

theorem effect_storeFrom {i : Instr} (hform : storeForm i ≠ none) (s : State) (va : Word) (n : Nat) (v : Word) :
    Effect s i (s.storeFrom va n v) := by
  rcases storeFrom_cases s va n v with ⟨e, -, h⟩ | ⟨pa, -, h⟩ <;> rw [h]
  · exact .raised e.cause e.tval
  · exact .stored hform pa n _ _

theorem effect_csrInstr {i : Instr} {a : CsrAddr} {w : Bool} (hform : csrForm i = some (a, w)) (s : State) (rd : Reg)
    (f : Word → Word) : Effect s i (s.csrInstr i rd a w f) := by
  rcases csrInstr_cases s i rd a w f with ⟨-, h⟩ | ⟨c, hc, h⟩ <;> rw [h]
  · exact .raised .illegalInstr _
  · exact .csr rd a w c _ hform hc

/-- What S-mode may be forbidden, U-mode may never run (41_system_instructions.md R247, R250, R251). -/
theorem State.mayRun_iff (s : State) (forbidden : Bool) :
    s.mayRun forbidden = true ↔ s.priv = .machine ∨ (s.priv = .supervisor ∧ forbidden = false) := by
  cases h : s.priv <;> simp [State.mayRun, h]

/-- Every instruction answers a next state, and the state is one of the effects. -/
theorem exec_effect (i : Instr) (s : State) : ∃ t, exec i s = .next t ∧ Effect s i t := by
  cases i
  case jal | jalr => exact ⟨_, rfl, effect_jumpTo ..⟩
  case beq | bne | blt | bge | bltu | bgeu => exact ⟨_, rfl, effect_branchIf ..⟩
  case lb | lh | lw | ld | lbu | lhu | lwu => exact ⟨_, rfl, effect_loadInto ..⟩
  case sb | sh | sw | sd => exact ⟨_, rfl, effect_storeFrom (by simp [storeForm]) ..⟩
  case fence => exact ⟨_, rfl, effect_retireTo _ next_aligned⟩
  case fenceI => exact ⟨_, rfl, .fetchFenced rfl⟩
  case ecall => exact ⟨_, rfl, .raised (ecallCause s.priv) 0⟩
  case ebreak => exact ⟨_, rfl, .raised .breakpoint s.pc⟩
  case mret =>
    refine ⟨_, rfl, ?_⟩
    split
    · exact .returnedM rfl ‹_›
    · exact .raised .illegalInstr _
  case sret =>
    refine ⟨_, rfl, ?_⟩
    split
    next hrun => exact .returnedS rfl (by rcases (s.mayRun_iff _).mp hrun with h | ⟨h, -⟩ <;> simp [h])
    next => exact .raised .illegalInstr _
  case wfi =>
    refine ⟨_, rfl, ?_⟩
    split
    · exact .waited
    · exact .raised .illegalInstr _
  case sfenceVma rs1 rs2 =>
    refine ⟨_, rfl, ?_⟩
    split
    · exact .tlbFenced _
    · exact .raised .illegalInstr _
  case csrrw | csrrs | csrrc | csrrwi | csrrsi | csrrci => exact ⟨_, rfl, effect_csrInstr rfl ..⟩
  all_goals exact ⟨_, rfl, effect_writeBack ..⟩

theorem effect_of_exec {i : Instr} {s t : State} (h : exec i s = .next t) : Effect s i t := by
  obtain ⟨t', ht', heffect⟩ := exec_effect i s
  obtain rfl : t' = t := Host.Outcome.next.inj (ht'.symm.trans h)
  exact heffect

/-! ### The effect of a step -/

/-- Everything a step can do after the environment has acted: a trap, taken as an interrupt or for the fetch, with `waiting` ended or
as it was; waiting on; or an instruction. -/
inductive StepEffect (u : State) : State → Prop where
  | trapped (waiting interrupt : Bool) (code : Nat) (tval : Word) :
      StepEffect u ({ u with waiting := waiting }.trap interrupt code u.pc tval)
  | idle : StepEffect u u
  | ran {i : Instr} {t : State} (h : Effect u i t) : StepEffect u t

theorem stepEffect_of_step {s t : State} (h : step s = .next t) : StepEffect s.sample t := by
  rcases hartStep_cases s.sample with ⟨c, -, hstep⟩ | ⟨-, -, hstep⟩ | ⟨-, -, -, ⟨i, -, hstep⟩ | ⟨e, -, hstep⟩⟩ |
    ⟨-, -, -, hstep⟩
  · cases hstep.symm.trans h
    exact .trapped false true (irqCode c) 0
  · cases hstep.symm.trans h
    exact .idle
  · exact .ran (effect_of_exec (hstep.symm.trans h))
  · cases hstep.symm.trans h
    exact .trapped s.sample.waiting false (causeCode e.cause) e.tval
  · cases hstep.symm.trans h

/-- Settles O10: a fault is raised for a misaligned `pc` alone, and every instruction answers a next state. -/
theorem stepNeverStops : Obligations.StepNeverStops := by
  intro s hpc
  rcases hartStep_cases s.sample with ⟨c, -, hstep⟩ | ⟨-, -, hstep⟩ | ⟨-, -, -, ⟨i, -, hstep⟩ | ⟨e, -, hstep⟩⟩ |
    ⟨-, -, hmis, -⟩
  · exact ⟨_, hstep⟩
  · exact ⟨_, hstep⟩
  · obtain ⟨t, ht, -⟩ := exec_effect i s.sample
    exact ⟨t, hstep.trans ht⟩
  · exact ⟨_, hstep⟩
  · rw [s.sample.pcAligned_iff.mpr (by rwa [State.sample_pc])] at hmis
    cases hmis

/-! ### The mode, memory and the platform -/

theorem privCode_lt_machine {p : Priv} (h : p ≠ .machine) : (privCode p).toNat < (privCode .machine).toNat := by
  cases p
  · decide
  · decide
  · exact absurd rfl h

/-- A trap is taken in the mode it came from or in a higher one (60_exceptions.md R378). -/
theorem State.trap_priv_cases (s : State) (interrupt : Bool) (code : Nat) (epc tval : Word) :
    (s.trap interrupt code epc tval).priv = s.priv ∨
    (privCode s.priv).toNat < (privCode (s.trap interrupt code epc tval).priv).toNat := by
  rcases trap_cases s interrupt code epc tval with ⟨h, hpriv, -⟩ | ⟨h, -⟩ <;> rw [h]
  · rw [State.enterS_priv]
    cases hp : s.priv
    · exact .inr (by decide)
    · exact .inl rfl
    · exact absurd hp hpriv
  · rw [State.enterM_priv]
    by_cases hp : s.priv = .machine
    · exact .inl hp.symm
    · exact .inr (privCode_lt_machine hp)

@[simp] theorem State.retireCsr_priv (s : State) (c : Csr) (w : Bool) : (s.retireCsr c w).priv = s.priv := by
  rw [retireCsr_eq]

/-- `sret` goes to a mode no higher than the one it runs in. -/
theorem State.returnS_priv_le (s : State) (h : s.priv ≠ .user) : (privCode s.returnS.priv).toNat ≤ (privCode s.priv).toNat := by
  rw [State.returnS_priv]
  cases hp : s.priv
  · exact absurd hp h
  · split <;> decide
  · split <;> decide

/-- Settles O57: by the effect of the instruction. -/
theorem modeChangesOnlyByTrapsAndReturns : Obligations.ModeChangesOnlyByTrapsAndReturns := by
  intro i s t h
  cases effect_of_exec h with
  | raised c tval =>
    rcases s.trap_priv_cases false (causeCode c) s.pc tval with hsame | hhigher
    · exact .inl hsame
    · exact .inr (.inl ⟨hhigher, c, tval, rfl⟩)
  | returnedM hi hpriv => exact .inr (.inr (.inl ⟨hi, hpriv, rfl⟩))
  | returnedS hi hpriv => exact .inr (.inr (.inr ⟨hi, hpriv, s.returnS_priv_le hpriv⟩))
  | csr rd a w c v => left; cases w <;> simp
  | _ => left; simp

/-- Settles O59: by the effect of the instruction; the store of a byte leaves MTIME as it is, wherever it goes. -/
theorem onlyStoresWriteMemory : Obligations.OnlyStoresWriteMemory := by
  intro i s t h
  cases effect_of_exec h with
  | stored hform => exact ⟨fun hnone => absurd hnone hform, by simp⟩
  | fetchFenced hi => exact ⟨fun _ => ⟨rfl, rfl, rfl, .inr ⟨hi, rfl⟩⟩, rfl, rfl, rfl, rfl⟩
  | csr rd a w c v => rw [retireCsr_eq]; cases w <;> simp
  | _ => simp

end Sys2Proof.Machine

/-! ## The invariant `State.Good` -/

namespace Sys2Proof.Machine

/-! ### Values the invariant speaks of -/

theorem tvecValue_getLsbD_one (v : Word) : (tvecValue v).getLsbD 1 = false := by simp [tvecValue]

theorem epcValue_aligned (v : Word) : (epcValue v).extractLsb' 0 2 = 0 := by
  rw [extractLsb'_zero_two_eq_zero_iff, epcValue, and_not_three_toNat]
  omega

/-- A masked write leaves a register within any mask that holds the register and the mask of the write. -/
theorem maskedWrite_within {limit mask old : Word} (v : Word) (hold : old &&& ~~~limit = 0) (hmask : mask &&& ~~~limit = 0) :
    maskedWrite mask old v &&& ~~~limit = 0 := by
  apply BitVec.eq_of_getLsbD_eq
  intro k hk
  have hold' := congrArg (·.getLsbD k) hold
  have hmask' := congrArg (·.getLsbD k) hmask
  simp only [BitVec.getLsbD_and, maskedWrite_getLsbD] at hold' hmask' ⊢
  split
  next h => rw [h, Bool.true_and] at hmask'; simp [hmask']
  next => exact hold'


/-- `mideleg` delegates only interrupts that `mie` has. -/
theorem within_mieMask_of_within_midelegMask {v : Word} (h : v &&& ~~~midelegMask = 0) : v &&& ~~~mieMask = 0 := by
  have hsub : ~~~mieMask = ~~~midelegMask &&& ~~~mieMask := by decide
  rw [hsub, ← BitVec.and_assoc, h]
  exact BitVec.zero_and

/-- A write of an entry never gives W without R (10_state.md R60). -/
theorem PmpCfg.wf_write {c : PmpCfg} (b : Byte) (h : c.wf = true) : (c.write b).wf = true := by
  unfold PmpCfg.write
  split
  next => exact h
  next hb =>
    rw [Bool.not_eq_true, Bool.or_eq_false_iff] at hb
    exact (Bool.not_eq_true' _).mpr hb.2

theorem State.csrWrite_pmpcfg0_eq (s : State) (v : Word) :
    s.csrWrite .pmpcfg0 v = { s with pmpcfg := pmpcfgWrite s.pmpcfg false v } := rfl
theorem State.csrWrite_pmpcfg2_eq (s : State) (v : Word) :
    s.csrWrite .pmpcfg2 v = { s with pmpcfg := pmpcfgWrite s.pmpcfg true v } := rfl

theorem pmpcfgWrite_getElem (cfg : Vector PmpCfg 16) (half : Bool) (v : Word) (i : Fin 16) :
    (pmpcfgWrite cfg half v)[i] =
      if (i.val / 8 == 1) == half then cfg[i].write (v.extractLsb' (8 * (i.val % 8)) 8) else cfg[i] := by
  simp [pmpcfgWrite]

theorem all_toList_iff {p : PmpCfg → Bool} (cfg : Vector PmpCfg 16) :
    cfg.toList.all p = true ↔ ∀ i : Fin 16, p cfg[i] = true := by
  simp [Fin.forall_iff]

theorem all_wf_pmpcfgWrite {cfg : Vector PmpCfg 16} (half : Bool) (v : Word) (h : cfg.toList.all PmpCfg.wf = true) :
    (pmpcfgWrite cfg half v).toList.all PmpCfg.wf = true := by
  rw [all_toList_iff] at h ⊢
  intro i
  rw [pmpcfgWrite_getElem]
  split
  · exact PmpCfg.wf_write _ (h i)
  · exact h i

/-! ### Each operation keeps the invariant -/

section Keeps

variable {s : State} (h : s.Good)
include h

theorem State.Good.setX (r : Reg) (v : Word) : (s.setX r v).Good := by
  have hzero : (s.setX r v).x[0] = 0 := by
    unfold State.setX
    split
    · exact h.zero
    · rename_i hr
      have hne : r.toNat ≠ 0 := fun h0 => hr (BitVec.eq_of_toNat_eq h0)
      simpa [Vector.getElem_set, hne] using h.zero
  rw [s.setX_frame] at hzero ⊢
  exact { h with zero := hzero }

theorem State.Good.retireTo {npc : Word} (haligned : npc.extractLsb' 0 2 = 0) : (s.retireTo npc).Good :=
  { h with pc := haligned }

theorem State.Good.noteDevice (st : Bool) (a n : Nat) (v : Word) : (s.noteDevice st a n v).Good := by
  rw [s.noteDevice_frame]
  exact { h with }

theorem State.Good.writePhysBytes (a : Nat) (bytes : List Byte) : (s.writePhysBytes a bytes).Good := by
  have hmem := wf_writePhysBytes s a bytes h.mem
  have hstale := staleWf_writePhysBytes s a bytes h.stale
  rw [s.writePhysBytes_frame] at hmem hstale ⊢
  exact { h with mem := hmem, stale := hstale }

theorem State.Good.emptyStale : ({ s with fetchStale := [] } : State).Good := { h with stale := rfl }

theorem State.Good.setWaiting (w : Bool) : ({ s with waiting := w } : State).Good := { h with }

theorem State.Good.filterTlb (keep : TlbEntry → Bool) : ({ s with tlb := s.tlb.filter keep } : State).Good :=
  { h with tlb := List.all_eq_true.mpr fun e he => List.all_eq_true.mp h.tlb e (List.mem_filter.mp he).1 }

/-- Entry into a mode: the handler is at a multiple of 4 and the saved pc is one; MPRV is 1 only where the mode was M, so it is 0
on entry into S-mode (20_memory.md R129). -/
theorem State.Good.trap (interrupt : Bool) (code : Nat) {epc : Word} (tval : Word) (hepc : epc.extractLsb' 0 2 = 0) :
    (s.trap interrupt code epc tval).Good := by
  rcases trap_cases s interrupt code epc tval with ⟨heq, hpriv, -⟩ | ⟨heq, -⟩ <;> rw [heq]
  · exact { h with pc := trapTarget_aligned .., sepc := hepc, mprv := fun hmprv => absurd (h.mprv hmprv) hpriv }
  · exact { h with pc := trapTarget_aligned .., mepc := hepc, mprv := fun _ => rfl }

theorem State.Good.returnM : s.returnM.Good where
  __ := h
  pc := h.mepc
  mprv := by
    rw [State.returnM_mstatus, State.returnM_priv]
    by_cases hmpp : s.mstatus.mpp = .machine <;> simp [hmpp]

theorem State.Good.returnS : s.returnS.Good := { h with pc := h.sepc, mprv := nofun }

/-- A CSR write stores only legal values; MPRV is written in M-mode alone. -/
theorem State.Good.csrWrite (c : Csr) (v : Word) (hmstatus : c = .mstatus → s.priv = .machine) : (s.csrWrite c v).Good := by
  cases c
  case sie =>
    exact { h with mie := maskedWrite_within v h.mie (within_mieMask_of_within_midelegMask h.mideleg) }
  case stvec => exact { h with stvec := tvecValue_getLsbD_one v }
  case sepc => exact { h with sepc := epcValue_aligned v }
  case mstatus => exact { h with mprv := fun _ => hmstatus rfl }
  case medeleg => exact { h with medeleg := maskedWrite_within v h.medeleg (by decide) }
  case mideleg => exact { h with mideleg := maskedWrite_within v h.mideleg (by decide) }
  case mie => exact { h with mie := maskedWrite_within v h.mie (by decide) }
  case mtvec => exact { h with mtvec := tvecValue_getLsbD_one v }
  case mepc => exact { h with mepc := epcValue_aligned v }
  case pmpcfg0 => rw [s.csrWrite_pmpcfg0_eq]; exact { h with pmp := all_wf_pmpcfgWrite false v h.pmp }
  case pmpcfg2 => rw [s.csrWrite_pmpcfg2_eq]; exact { h with pmp := all_wf_pmpcfgWrite true v h.pmp }
  all_goals exact { h with }

theorem State.Good.retireCsr (c : Csr) (w : Bool) : (s.retireCsr c w).Good := by
  rw [retireCsr_eq]
  exact { h with pc := next_aligned h.pc }

end Keeps

/-! ### Which CSRs a mode reaches -/

/-- The CSRs that S-mode may reach: those of S-mode and the counters (10_state.md R32, R34). -/
def supervisorCsr : Csr → Bool
  | .sstatus | .sie | .stvec | .scounteren | .sscratch | .sepc | .scause | .stval | .sip | .satp => true
  | .cycle | .time | .instret | .hpmcounter _ => true
  | _ => false

/-- The CSRs that U-mode may reach: the counters (10_state.md R32, R34). -/
def userCsr : Csr → Bool
  | .cycle | .time | .instret | .hpmcounter _ => true
  | _ => false

theorem reach_of_mem_csrRows : ∀ r ∈ csrRows,
    (r.1 / 256 % 4 ≤ 1 → supervisorCsr r.2 = true) ∧ (r.1 / 256 % 4 = 0 → userCsr r.2 = true) := by decide

/-- The lowest privilege of a listed address says which CSR it can be. -/
theorem CsrListed.reach {n : Nat} {c : Csr} (h : CsrListed n c) :
    (n / 256 % 4 ≤ 1 → supervisorCsr c = true) ∧ (n / 256 % 4 = 0 → userCsr c = true) := by
  cases h with
  | row h => exact reach_of_mem_csrRows _ h
  | hpmcounter lo hi => exact ⟨fun _ => rfl, fun _ => rfl⟩
  | _ => exact ⟨fun _ => by omega, fun _ => by omega⟩

theorem State.csrAccess_reach {s : State} {a : CsrAddr} {w : Bool} {c : Csr} (h : s.csrAccess a w = some c) :
    (s.priv ≠ .machine → supervisorCsr c = true) ∧ (s.priv = .user → userCsr c = true) := by
  obtain ⟨haddr, hpriv, -⟩ := (csrAccess_eq_some s a w c).mp h
  rw [s.csrPrivilegeOk_iff] at hpriv
  obtain ⟨hsupervisor, huser⟩ := ((csrOfAddr_eq_some_iff a c).mp haddr).reach
  constructor
  · intro hp
    have hlt : (privCode s.priv).toNat ≤ 1 := by
      cases hm : s.priv
      · decide
      · decide
      · exact absurd hm hp
    exact hsupervisor (by omega)
  · intro hp
    rw [hp] at hpriv
    exact huser (Nat.le_zero.mp hpriv)

/-! ### Every instruction keeps the invariant -/

theorem State.Good.effect {s t : State} {i : Instr} (h : s.Good) (heffect : Effect s i t) : t.Good := by
  have hnext := next_aligned h.pc
  cases heffect with
  | raised c tval => exact h.trap _ _ _ h.pc
  | completed rd v npc haligned => exact (h.setX rd v).retireTo (haligned h.pc)
  | loaded rd v pa n seen => exact ((h.noteDevice _ _ _ _).setX rd v).retireTo hnext
  | stored _ pa n bytes seen => exact ((h.writePhysBytes pa bytes).noteDevice _ _ _ _).retireTo hnext
  | fetchFenced => exact h.emptyStale.retireTo hnext
  | returnedM => exact h.returnM
  | returnedS => exact h.returnS
  | waited => exact (h.setWaiting true).retireTo hnext
  | tlbFenced keep => exact (h.filterTlb keep).retireTo hnext
  | csr rd a w c v _ haccess =>
    refine State.Good.retireCsr (State.Good.setX ?_ rd _) c w
    cases w
    · exact h
    · refine h.csrWrite c v fun hc => ?_
      by_contra hp
      have hreach := (State.csrAccess_reach haccess).1 hp
      rw [hc] at hreach
      cases hreach

/-! ### The environment keeps the invariant -/

theorem levelsOf_le_five (m : SatpMode) : levelsOf m ≤ 5 := by cases m <;> decide

/-- What a walk ends in may be kept (20_memory.md R145, R150). -/
theorem TlbEntry.wf_walk (s : State) (asid : BitVec 16) (page : BitVec 52) (tag : Nat) (va : Word) :
    (⟨asid, page, s.walk tag va⟩ : TlbEntry).wf = true := by
  unfold TlbEntry.wf
  split
  next level pte hleaf =>
    obtain ⟨hlevel, hvalid, hleaf, haligned⟩ := walkFrom_leaf _ _ _ _ _ _ _ hleaf
    have hfive := levelsOf_le_five s.satp.mode
    simp only [hvalid, hleaf, haligned, Bool.not_false, Bool.and_true, decide_eq_true_eq]
    omega
  next => rfl
  next => rfl

theorem State.Good.tlbFill {s : State} (h : s.Good) (tag : Nat) (va : Word) : (s.tlbFill tag va).Good := by
  unfold State.tlbFill
  split
  · exact h
  · refine { h with tlb := ?_ }
    rw [List.all_append, h.tlb, Bool.true_and, List.all_cons, TlbEntry.wf_walk]
    rfl

theorem State.Good.envFills {s : State} (h : s.Good) (tag : Nat) (vas : List Word) : (s.envFills tag vas).Good := by
  induction vas generalizing s tag with
  | nil => exact h
  | cons va rest ih => exact ih (h.tlbFill tag va) (tag + 10)

theorem State.Good.envWrites {s : State} (h : s.Good) (cells : List Host.Cell) : (s.envWrites cells).Good := by
  obtain ⟨hmem, hstale⟩ := wf_envWrites s cells h.mem h.stale
  rw [s.envWrites_frame] at hmem hstale ⊢
  exact { h with mem := hmem, stale := hstale }

theorem State.Good.applyInput {s : State} (h : s.Good) (e : EnvInput) : (s.applyInput e).Good := { h with }

theorem State.Good.sample {s : State} (h : s.Good) : s.sample.Good :=
  State.Good.setWaiting (((h.applyInput s.nextInput).envWrites _).envFills 30 _) _

/-- Settles O11: the environment keeps the invariant, and so does everything a step can do after it. -/
theorem stepKeepsTheInvariant : Obligations.StepKeepsTheInvariant := by
  intro s t h hstep
  cases stepEffect_of_step hstep with
  | trapped w interrupt code tval => exact (h.sample.setWaiting w).trap interrupt code tval h.sample.pc
  | idle => exact h.sample
  | ran heffect => exact h.sample.effect heffect

/-- Settles O12: each value of reset is legal, and RESET_PC is aligned by assumption. -/
theorem resetHasTheInvariant : Obligations.ResetHasTheInvariant := by
  have hreset : ∀ p : Platform, p.resetPc.toNat % 4 = 0 → (State.resetOn p).Good := fun p hp =>
    { mem := rfl, stale := rfl, zero := rfl, pc := (extractLsb'_zero_two_eq_zero_iff _).mpr hp, mepc := rfl, sepc := rfl,
      mtvec := BitVec.getLsbD_zero, stvec := BitVec.getLsbD_zero,
       medeleg := BitVec.zero_and, mideleg := BitVec.zero_and, mie := BitVec.zero_and,
      pmp := by simp [State.resetOn, PmpCfg.wf], mprv := nofun, tlb := rfl }
  exact ⟨hreset Platform.default rfl, hreset⟩

/-! ## What a lower mode leaves of the state of the higher ones (60_exceptions.md R401, R402) -/

/-! ### Machine-level state below M-mode -/

theorem sameMachineLevel.refl (s : State) : sameMachineLevel s s :=
  ⟨rfl, rfl, rfl, rfl, rfl, rfl, rfl, rfl, rfl, rfl, rfl, rfl, rfl, rfl, rfl, rfl, rfl, rfl, rfl, rfl⟩

/-- The environment changes nothing of the state that M-mode owns, so that what stands after it may be compared with. -/
theorem sameMachineLevel_of_sample {s t : State} (h : sameMachineLevel s.sample t) : sameMachineLevel s t := by
  simpa only [sameMachineLevel, State.sample_medeleg, State.sample_mideleg, State.sample_mtvec, State.sample_mepc,
    State.sample_mcause, State.sample_mtval, State.sample_mscratch, State.sample_mcounteren, State.sample_pmpcfg,
    State.sample_pmpaddr, State.sample_mie, State.sample_mip, State.sample_mstatus] using h

theorem sameSupervisorLevel_of_sample {s t : State} (h : sameSupervisorLevel s.sample t) : sameSupervisorLevel s t := by
  simpa only [sameSupervisorLevel, State.sample_mstatus, State.sample_mie, State.sample_mip, State.sample_stvec,
    State.sample_sepc, State.sample_scause, State.sample_stval, State.sample_sscratch, State.sample_scounteren,
    State.sample_satp] using h

/-- A masked write leaves the bits outside its mask. -/
theorem maskedWrite_and_not_mask (mask old v : Word) : maskedWrite mask old v &&& ~~~mask = old &&& ~~~mask := by
  apply BitVec.eq_of_getLsbD_eq
  intro k hk
  rw [BitVec.getLsbD_and, BitVec.getLsbD_and, BitVec.getLsbD_not, maskedWrite_getLsbD]
  cases mask.getLsbD k <;> simp

/-- A write of a CSR that S-mode may reach leaves the machine-level state. -/
theorem sameMachineLevel_csrWrite {c : Csr} (hc : supervisorCsr c = true) (s : State) (v : Word) :
    sameMachineLevel s (s.csrWrite c v) := by
  cases c
  case sie =>
    exact ⟨rfl, rfl, rfl, rfl, rfl, rfl, rfl, rfl, rfl, rfl, maskedWrite_and_not_mask _ _ _, rfl, rfl, rfl, rfl, rfl, rfl, rfl,
      rfl, rfl⟩
  case sstatus | stvec | scounteren | sscratch | sepc | scause | stval | sip | satp | cycle | time | instret | hpmcounter =>
    exact sameMachineLevel.refl s
  all_goals cases hc

/-- A trap that does not end in M-mode is entry into S-mode. -/
theorem State.trap_eq_enterS_of_priv (s : State) {interrupt : Bool} {code : Nat} {epc tval : Word}
    (h : (s.trap interrupt code epc tval).priv ≠ .machine) :
    s.trap interrupt code epc tval = s.enterS interrupt code epc tval := by
  rcases trap_cases s interrupt code epc tval with ⟨henter, -⟩ | ⟨henter, -⟩
  · exact henter
  · rw [henter] at h
    exact absurd rfl h

/-- Entry into S-mode changes no state of M-mode. -/
theorem sameMachineLevel_trap (s : State) (w : Bool) {interrupt : Bool} {code : Nat} {epc tval : Word}
    (h : (State.trap { s with waiting := w } interrupt code epc tval).priv ≠ .machine) :
    sameMachineLevel s (State.trap { s with waiting := w } interrupt code epc tval) := by
  rw [State.trap_eq_enterS_of_priv _ h]
  exact sameMachineLevel.refl s

/-- An instruction below M-mode that does not end in M-mode leaves the machine-level state; `sret` would clear MPRV, which is 0
there already (20_memory.md R129). -/
theorem sameMachineLevel_effect {s t : State} {i : Instr} (hgood : s.Good) (heffect : Effect s i t) (hs : s.priv ≠ .machine)
    (ht : t.priv ≠ .machine) : sameMachineLevel s t := by
  cases heffect with
  | raised c tval => exact sameMachineLevel_trap s s.waiting ht
  | returnedM _ hpriv => exact absurd hpriv hs
  | returnedS =>
    have hmprv : s.mstatus.mprv = false := by
      by_contra hset
      exact hs (hgood.mprv (by simpa using hset))
    exact ⟨rfl, rfl, rfl, rfl, rfl, rfl, rfl, rfl, rfl, rfl, rfl, rfl, rfl, rfl, rfl, rfl, hmprv.symm, rfl, rfl, rfl⟩
  | csr rd a w c v _ haccess =>
    have hwrite := sameMachineLevel_csrWrite ((State.csrAccess_reach haccess).1 hs) s v
    rw [retireCsr_eq]
    cases w
    · simp [sameMachineLevel]
    · simpa [sameMachineLevel] using hwrite
  | _ => simp [sameMachineLevel]

/-! ### Supervisor-level state in U-mode -/

theorem sameSupervisorLevel.refl (s : State) : sameSupervisorLevel s s := ⟨rfl, rfl, rfl, rfl, rfl, rfl, rfl, rfl, rfl, rfl⟩

/-- A write of a CSR that U-mode may reach changes nothing. -/
theorem csrWrite_of_userCsr {c : Csr} (hc : userCsr c = true) (s : State) (v : Word) : s.csrWrite c v = s := by
  cases c
  case cycle | time | instret | hpmcounter => rfl
  all_goals cases hc

/-- A trap never ends in U-mode. -/
theorem State.trap_priv_ne_user (s : State) (interrupt : Bool) (code : Nat) (epc tval : Word) :
    (s.trap interrupt code epc tval).priv ≠ .user := by
  rcases trap_cases s interrupt code epc tval with ⟨h, -⟩ | ⟨h, -⟩ <;> rw [h] <;> simp

/-- An instruction in U-mode that ends there leaves the supervisor-level state. -/
theorem sameSupervisorLevel_effect {s t : State} {i : Instr} (heffect : Effect s i t) (hs : s.priv = .user)
    (ht : t.priv = .user) : sameSupervisorLevel s t := by
  cases heffect with
  | raised c tval => exact absurd ht (s.trap_priv_ne_user _ _ _ _)
  | returnedM _ hpriv => exact absurd (hs.symm.trans hpriv) nofun
  | returnedS _ hpriv => exact absurd hs hpriv
  | csr rd a w c v _ haccess =>
    rw [csrWrite_of_userCsr ((State.csrAccess_reach haccess).2 hs), ite_self, retireCsr_eq]
    simp [sameSupervisorLevel]
  | _ => simp [sameSupervisorLevel]

/-- Settles O58: a trap, a wait or an instruction, each compared with the state the environment left. -/
theorem lowerModesCannotChangeHigherState : Obligations.LowerModesCannotChangeHigherState := by
  intro s t hgood hstep
  have hpriv := s.sample_priv
  refine ⟨fun hs ht => sameMachineLevel_of_sample ?_, fun hs ht => sameSupervisorLevel_of_sample ?_⟩ <;>
    rw [← hpriv] at hs
  · cases stepEffect_of_step hstep with
    | trapped w => exact sameMachineLevel_trap _ w ht
    | idle => exact sameMachineLevel.refl _
    | ran heffect => exact sameMachineLevel_effect hgood.sample heffect hs ht
  · cases stepEffect_of_step hstep with
    | trapped w => exact absurd ht (State.trap_priv_ne_user _ _ _ _ _)
    | idle => exact sameSupervisorLevel.refl _
    | ran heffect => exact sameSupervisorLevel_effect heffect hs ht

end Sys2Proof.Machine

/-! ## The PMP registers (10_state.md R60, R61; 20_memory.md R137) -/

namespace Sys2Proof.Machine

/-! ### The bytes of a value, taken out again -/

/-- Bit `j` of byte `k` of a value (20_memory.md R121). -/
theorem getLsbD_ofBytes (bs : List Byte) (k j : Nat) (hk : k < bs.length) (hj : j < 8) (h : 8 * k + j < 64) :
    (ofBytes bs).getLsbD (8 * k + j) = bs[k].getLsbD j := by
  induction bs generalizing k with
  | nil => cases hk
  | cons b rest ih =>
    rw [ofBytes, BitVec.getLsbD_or, BitVec.getLsbD_setWidth, BitVec.getLsbD_shiftLeft]
    cases k with
    | zero => simp [hj]; omega
    | succ k =>
      have hrest := ih k (Nat.lt_of_succ_lt_succ hk) (by omega)
      have hhigh : b.getLsbD (8 * (k + 1) + j) = false := BitVec.getLsbD_of_ge _ _ (by omega)
      simp [hhigh, h, show ¬ 8 * (k + 1) + j < 8 by omega, show 8 * (k + 1) + j - 8 = 8 * k + j by omega, hrest]

theorem extractLsb'_ofBytes (bs : List Byte) (k : Nat) (hk : k < bs.length) (h8 : k < 8) :
    (ofBytes bs).extractLsb' (8 * k) 8 = bs[k] := by
  apply BitVec.eq_of_getLsbD_eq
  intro j hj
  rw [BitVec.getLsbD_extractLsb', getLsbD_ofBytes bs k j hk hj (by omega)]
  simp [hj]

/-! ### One entry -/

theorem pmpModeCode_pmpModeOf : ∀ c : BitVec 2, pmpModeCode (pmpModeOf c) = c := by decide

/-- The fields of an entry are the bits of the byte it reads as. -/
theorem pmpFieldsOf_read (c : PmpCfg) : pmpFieldsOf c c.read := by
  obtain ⟨l, a, x, w, r⟩ := c
  unfold pmpFieldsOf
  cases a <;> revert l x w r <;> decide

/-- The entry of a byte has the bits of the byte as its fields. -/
theorem pmpFieldsOf_pmpCfgOf (b : Byte) : pmpFieldsOf (pmpCfgOf b) b := by
  have hcode : (b.extractLsb' 3 2).toNat = b.toNat / 8 % 4 := by simp [Nat.shiftRight_eq_div_pow]
  have hmode : ∀ c : BitVec 2, pmpModeOf c =
      if c.toNat = 0 then .off else if c.toNat = 1 then .tor else if c.toNat = 2 then .na4 else .napot := by decide
  exact ⟨rfl, (hmode _).trans (by rw [hcode]; rfl), rfl, rfl, rfl⟩

/-- The entry of a byte reads as the byte but for bits 6:5, which are 0 (10_state.md R60). -/
theorem read_pmpCfgOf (b : Byte) : (pmpCfgOf b).read = b &&& 0x9F := by
  have hmask : ∀ k < 8, (0x9F : Byte).getLsbD k = decide (k ≠ 5 ∧ k ≠ 6) := by decide
  apply BitVec.eq_of_getLsbD_eq
  intro k hk
  rw [BitVec.getLsbD_and, hmask k hk]
  simp only [PmpCfg.read, pmpCfgOf, pmpModeCode_pmpModeOf, BitVec.getLsbD_append]
  interval_cases k <;> simp

theorem PmpCfg.write_of_locked {c : PmpCfg} (b : Byte) (h : c.l = true) : c.write b = c := by
  simp [PmpCfg.write, h]

theorem PmpCfg.write_of_reserved (c : PmpCfg) {b : Byte} (h : b.getLsbD 0 = false ∧ b.getLsbD 1 = true) : c.write b = c := by
  rw [PmpCfg.write, h.1, h.2]
  simp

theorem PmpCfg.write_of_unlocked {c : PmpCfg} {b : Byte} (hl : c.l = false) (h : b.getLsbD 0 = true ∨ b.getLsbD 1 = false) :
    c.write b = pmpCfgOf b := by
  rw [PmpCfg.write, hl]
  rcases h with h | h <;> rw [h] <;> simp

/-! ### The configuration registers -/

/-- The register of entries `8 * half` to `8 * half + 7` reads the byte of each. -/
theorem pmpcfgRead_extractLsb' (cfg : Vector PmpCfg 16) (half : Bool) (i : Fin 16) (hi : (i.val / 8 == 1) = half) :
    (pmpcfgRead cfg half).extractLsb' (8 * (i.val % 8)) 8 = cfg[i].read := by
  have hlen : i.val % 8 < 8 := Nat.mod_lt _ (by decide)
  unfold pmpcfgRead
  rw [extractLsb'_ofBytes _ _ (by cases half <;> simp [hlen]) hlen]
  have hdiv := Nat.div_add_mod i.val 8
  cases half
  · have h0 : i.val % 8 = i.val := by simp at hi; omega
    simp [h0]
  · have h1 : 8 + i.val % 8 = i.val := by simp at hi; omega
    simp [h1]

/-- The half that an entry is in, as the statement puts it: `half` is its first entry. -/
theorem half_of_bounds {i half : Nat} {b : Bool} (hhalf : half = if b then 8 else 0) (hlo : half ≤ i) (hhi : i < half + 8) :
    (i / 8 == 1) = b ∧ i % 8 = i - half := by
  subst hhalf
  cases b
  · have : i / 8 = 0 := by simp at hhi; omega
    simp at hhi
    simp [this]; omega
  · have : i / 8 = 1 := by simp at hlo hhi; omega
    simp at hlo
    simp [this]; omega

theorem half_of_not_bounds {i half : Nat} {b : Bool} (hi : i < 16) (hhalf : half = if b then 8 else 0)
    (hout : i < half ∨ half + 8 ≤ i) : (i / 8 == 1) = !b := by
  subst hhalf
  cases b
  · have : i / 8 = 1 := by simp at hout; omega
    simp [this]
  · have : i / 8 = 0 := by simp at hout; omega
    simp [this]

/-- What a write of `pmpcfg0` or `pmpcfg2` does to one entry: the register's own bytes for its own entries, no other entry
(10_state.md R60). -/
theorem pmpcfg_entry_write (cfg : Vector PmpCfg 16) (v : Word) (i : Fin 16) {half : Nat} {b : Bool}
    (hhalf : half = if b then 8 else 0) {old new : PmpCfg} {byte : Byte} (hold : old = cfg[i])
    (hnew : new = (pmpcfgWrite cfg b v)[i]) (hbyte : byte = v.extractLsb' (8 * (i.val - half)) 8) :
    (half ≤ i.val → i.val < half + 8 →
      (pmpcfgRead cfg b).extractLsb' (8 * (i.val - half)) 8 = old.read ∧ pmpFieldsOf old old.read ∧
      (old.l = true ∨ (byte.getLsbD 0 = false ∧ byte.getLsbD 1 = true) → new = old) ∧
      (old.l = false → (byte.getLsbD 0 = true ∨ byte.getLsbD 1 = false) →
        new.read = byte &&& 0x9F ∧ pmpFieldsOf new byte)) ∧
    ((i.val < half ∨ half + 8 ≤ i.val) → new = old) := by
  rw [pmpcfgWrite_getElem] at hnew
  refine ⟨fun hlo hhi => ?_, fun hout => ?_⟩
  · obtain ⟨hin, hmod⟩ := half_of_bounds hhalf hlo hhi
    rw [if_pos (by simpa using hin), hmod, ← hbyte, ← hold] at hnew
    refine ⟨?_, pmpFieldsOf_read old, ?_, fun hl h => ?_⟩
    · rw [← hmod, pmpcfgRead_extractLsb' cfg b i hin, hold]
    · rintro (hl | hreserved)
      · rw [hnew, PmpCfg.write_of_locked _ hl]
      · rw [hnew, PmpCfg.write_of_reserved _ hreserved]
    · rw [hnew, PmpCfg.write_of_unlocked hl h]
      exact ⟨read_pmpCfgOf byte, pmpFieldsOf_pmpCfgOf byte⟩
  · have hother := half_of_not_bounds i.isLt hhalf hout
    rw [if_neg (by rw [hother]; cases b <;> simp)] at hnew
    exact hnew.trans hold.symm

/-! ### The address registers -/

theorem pmpaddrLocked_iff (cfg : Vector PmpCfg 16) (i : Fin 16) :
    pmpaddrLocked cfg i = true ↔
      cfg[i].l = true ∨ ∃ c, cfg[i.val + 1]? = some c ∧ c.l = true ∧ c.a = .tor := by
  unfold pmpaddrLocked
  cases cfg[i.val + 1]? <;> simp

theorem pmpaddrWrite_getElem (cfg : Vector PmpCfg 16) (addr : Vector (BitVec 54) 16) (i j : Fin 16) (v : Word) :
    (pmpaddrWrite cfg addr i v)[j] = if j = i ∧ pmpaddrLocked cfg i = false then v.setWidth 54 else addr[j] := by
  unfold pmpaddrWrite
  cases pmpaddrLocked cfg i
  · simp [Vector.getElem_set, Fin.ext_iff, eq_comm]
  · simp

theorem State.csrWrite_pmpaddr_eq (s : State) (i : Fin 16) (v : Word) :
    s.csrWrite (.pmpaddr i) v = { s with pmpaddr := pmpaddrWrite s.pmpcfg s.pmpaddr i v } := rfl

theorem State.csrRead_pmpaddr (s : State) (i : Fin 16) : s.csrRead (.pmpaddr i) = s.pmpaddr[i].setWidth 64 := rfl

/-- Settles O33: each entry of a configuration register on its own, and one address register, unless it is locked. -/
theorem pmpRegisterWrites : Obligations.PmpRegisterWrites := by
  intro s v i
  refine ⟨?_, ?_, fun j hj => ?_, rfl, rfl, rfl⟩
  · rintro c half (⟨rfl, rfl⟩ | ⟨rfl, rfl⟩) old new b hold hnew hb
    · exact pmpcfg_entry_write s.pmpcfg v i (b := false) rfl hold hnew hb
    · exact pmpcfg_entry_write s.pmpcfg v i (b := true) rfl hold hnew hb
  · rw [s.csrWrite_pmpaddr_eq, State.csrRead_pmpaddr, State.csrRead_pmpaddr, pmpaddrWrite_getElem]
    cases h : pmpaddrLocked s.pmpcfg i with
    | true => rw [if_pos ((pmpaddrLocked_iff _ _).mp h)]; simp
    | false =>
      rw [if_pos ⟨rfl, rfl⟩, if_neg (by rw [← pmpaddrLocked_iff, h]; exact Bool.false_ne_true)]
      simp
      omega
  · rw [s.csrWrite_pmpaddr_eq, State.csrRead_pmpaddr, State.csrRead_pmpaddr, pmpaddrWrite_getElem, if_neg (fun h => hj h.1)]

/-! ### A locked entry through a step -/

/-- PMP entry `i`, with the address below it where it is TOR, is the same in `t` (20_memory.md R137). -/
def samePmpEntry (s t : State) (i : Fin 16) : Prop :=
  t.pmpcfg[i] = s.pmpcfg[i] ∧ t.pmpaddr[i] = s.pmpaddr[i] ∧
  (s.pmpcfg[i].a = .tor → ∀ j : Fin 16, j.val + 1 = i.val → t.pmpaddr[j] = s.pmpaddr[j])

theorem samePmpEntry_of_eq {s t : State} (hcfg : t.pmpcfg = s.pmpcfg) (haddr : t.pmpaddr = s.pmpaddr) (i : Fin 16) :
    samePmpEntry s t i := by
  rw [samePmpEntry, hcfg, haddr]
  exact ⟨rfl, rfl, fun _ _ _ => rfl⟩

theorem samePmpEntry_pmpcfgWrite {s : State} {i : Fin 16} (hl : s.pmpcfg[i].l = true) (half : Bool) (v : Word) :
    samePmpEntry s { s with pmpcfg := pmpcfgWrite s.pmpcfg half v } i := by
  refine ⟨?_, rfl, fun _ _ _ => rfl⟩
  change (pmpcfgWrite s.pmpcfg half v)[i] = s.pmpcfg[i]
  rw [pmpcfgWrite_getElem, PmpCfg.write_of_locked _ hl, ite_self]

theorem samePmpEntry_pmpaddrWrite {s : State} {i : Fin 16} (hl : s.pmpcfg[i].l = true) (j : Fin 16) (v : Word) :
    samePmpEntry s { s with pmpaddr := pmpaddrWrite s.pmpcfg s.pmpaddr j v } i := by
  refine ⟨rfl, ?_, fun htor k hk => ?_⟩
  · change (pmpaddrWrite s.pmpcfg s.pmpaddr j v)[i] = s.pmpaddr[i]
    rw [pmpaddrWrite_getElem, if_neg]
    rintro ⟨rfl, hopen⟩
    rw [(pmpaddrLocked_iff _ _).mpr (.inl hl)] at hopen
    cases hopen
  · change (pmpaddrWrite s.pmpcfg s.pmpaddr j v)[k] = s.pmpaddr[k]
    rw [pmpaddrWrite_getElem, if_neg]
    rintro ⟨rfl, hopen⟩
    rw [(pmpaddrLocked_iff _ _).mpr (.inr ⟨s.pmpcfg[i], by simp [hk], hl, htor⟩)] at hopen
    cases hopen

/-- A CSR write leaves a locked entry. -/
theorem samePmpEntry_csrWrite {s : State} {i : Fin 16} (hl : s.pmpcfg[i].l = true) (c : Csr) (v : Word) :
    samePmpEntry s (s.csrWrite c v) i := by
  cases c
  case pmpcfg0 => exact samePmpEntry_pmpcfgWrite hl false v
  case pmpcfg2 => exact samePmpEntry_pmpcfgWrite hl true v
  case pmpaddr j => exact samePmpEntry_pmpaddrWrite hl j v
  all_goals exact samePmpEntry_of_eq rfl rfl i

/-- Only a CSR instruction writes the PMP registers. -/
theorem samePmpEntry_effect {s t : State} {i : Fin 16} {instr : Instr} (hl : s.pmpcfg[i].l = true)
    (heffect : Effect s instr t) : samePmpEntry s t i := by
  cases heffect with
  | csr rd a w c v =>
    have hwrite := samePmpEntry_csrWrite hl c v
    rw [retireCsr_eq]
    cases w
    · exact samePmpEntry_of_eq (by simp) (by simp) i
    · simpa only [samePmpEntry, if_true, State.setX_pmpcfg, State.setX_pmpaddr] using hwrite
  | _ => exact samePmpEntry_of_eq (by simp) (by simp) i

/-- Settles O36: neither the environment nor a trap writes the PMP registers, and an instruction leaves a locked entry. -/
theorem lockedPmpEntriesStay : Obligations.LockedPmpEntriesStay := by
  intro s t i hstep hl
  rw [← s.sample_pmpcfg, ← s.sample_pmpaddr]
  rw [← s.sample_pmpcfg] at hl
  cases stepEffect_of_step hstep with
  | trapped => exact samePmpEntry_of_eq (by simp) (by simp) i
  | idle => exact samePmpEntry_of_eq rfl rfl i
  | ran heffect => exact samePmpEntry_effect hl heffect

end Sys2Proof.Machine

/-! ## What the CSRs read and hold, and the instructions that access them -/

namespace Sys2Proof.Machine

/-! ### The pending bits (10_state.md R51; 60_exceptions.md R366) -/

theorem State.mtiLine_eq (s : State) :
    s.mtiLine = if s.platform.mtimecmpAddr = none then s.irqIn.mti else decide (s.mtimecmp.toNat ≤ s.mtime.toNat) := by
  unfold State.mtiLine
  cases s.platform.mtimecmpAddr <;> simp

/-- Settles O25: the bits of `mip`, each with its source. -/
theorem pendingBitsFollowTheirSources : Obligations.PendingBitsFollowTheirSources := by
  intro s k
  rw [State.mipRead, mipWith_getLsbD, ← s.mtiLine_eq]
  simp only [Bool.and_comm]

/-! ### Writes of `mip`, `sip` and `sie` (10_state.md R51, R71, R72) -/

theorem mipModifyBase_write_mip (s : State) (v : Word) (k : Nat) :
    (s.csrWrite .mip v).mipModifyBase.getLsbD k =
      if k = 1 ∨ k = 5 ∨ k = 9 then v.getLsbD k else s.mipModifyBase.getLsbD k := by
  have hline : (s.csrWrite .mip v).mtiLine = s.mtiLine := rfl
  have hirq : (s.csrWrite .mip v).irqIn = s.irqIn := rfl
  have hmip : (s.csrWrite .mip v).mip = mipWrite v := rfl
  rw [State.mipModifyBase, State.mipModifyBase, mipWith_getLsbD, mipWith_getLsbD, hline, hirq, hmip]
  by_cases h : k = 1 ∨ k = 5 ∨ k = 9
  · rw [if_pos h]
    rcases h with rfl | rfl | rfl <;> simp [mipWrite]
  · rw [if_neg h]
    obtain ⟨h1, h5, h9⟩ : k ≠ 1 ∧ k ≠ 5 ∧ k ≠ 9 := by simpa using h
    simp [beq_false_of_ne h1, beq_false_of_ne h5, beq_false_of_ne h9]

theorem mipModifyBase_write_sip (s : State) (v : Word) (k : Nat) :
    (s.csrWrite .sip v).mipModifyBase.getLsbD k =
      if k = 1 ∧ s.mideleg.getLsbD 1 = true then v.getLsbD 1 else s.mipModifyBase.getLsbD k := by
  have hline : (s.csrWrite .sip v).mtiLine = s.mtiLine := rfl
  have hirq : (s.csrWrite .sip v).irqIn = s.irqIn := rfl
  have hmip : (s.csrWrite .sip v).mip = { s.mip with ssip := if s.mideleg.getLsbD 1 then v.getLsbD 1 else s.mip.ssip } := rfl
  rw [State.mipModifyBase, State.mipModifyBase, mipWith_getLsbD, mipWith_getLsbD, hline, hirq, hmip]
  by_cases h : k = 1
  · subst h
    cases s.mideleg.getLsbD 1 <;> simp
  · simp [h, beq_false_of_ne h]

/-- Settles O29: the bits of each write and read, one register after the other. -/
theorem interruptCsrWrites : Obligations.InterruptCsrWrites := by
  intro s v k
  refine ⟨mipModifyBase_write_mip s v k, mipModifyBase_write_sip s v k, maskedWrite_getLsbD _ _ _ _, ?_, ?_, rfl, rfl, rfl⟩
  · exact (BitVec.getLsbD_and ..).trans (Bool.and_comm ..)
  · exact (BitVec.getLsbD_and ..).trans (Bool.and_comm ..)

/-! ### Values after a write -/

/-- A vector register keeps BASE and bit 0 of MODE (10_state.md R52, R73). -/
theorem tvecValue_toNat (v : Word) : (tvecValue v).toNat = v.toNat / 4 * 4 + v.toNat % 2 := by
  have hsplit : tvecValue v = (v &&& ~~~3) ||| (v &&& 1) := by
    rw [← BitVec.and_or_distrib_left]
    rfl
  have hone : (v &&& 1 : Word).toNat = v.toNat % 2 := by
    rw [BitVec.toNat_and]
    exact Nat.and_one_is_mod _
  have hshift : v.toNat / 4 * 4 = (v.toNat / 4) <<< 2 := by
    rw [Nat.shiftLeft_eq]
  rw [hsplit, BitVec.toNat_or, and_not_three_toNat, hone, hshift, ← Nat.shiftLeft_add_eq_or_of_lt (by omega)]

/-- A register within its mask holds, after a masked write, the masked value. -/
theorem maskedWrite_eq_and {mask old : Word} (v : Word) (h : old &&& ~~~mask = 0) : maskedWrite mask old v = v &&& mask := by
  rw [maskedWrite, h]
  exact BitVec.zero_or

/-! ### `satp` (10_state.md R79) -/

/-- The mode that a MODE field selects has that encoding. -/
theorem satpModeCode_of_satpModeOf {p : Platform} {c : BitVec 4} {m : SatpMode} (h : satpModeOf p c = some m) :
    satpModeCode m = c := by
  unfold satpModeOf at h
  split at h
  case h_1 | h_2 => cases h; rfl
  case h_3 | h_4 =>
    split at h <;> cases h
    rfl
  case h_5 => cases h

/-- The mode of an accepted MODE field, by its number. -/
theorem satpModeOf_of_accepts {p : Platform} {v : Word} (h : satpAccepts p v) :
    satpModeOf p (v.extractLsb' 60 4) = some
      (if v.toNat / 2 ^ 60 = 0 then .bare else if v.toNat / 2 ^ 60 = 8 then .sv39 else if v.toNat / 2 ^ 60 = 9 then .sv48
       else .sv57) := by
  have hv := v.isLt
  have hcode : ∀ n : Nat, n < 16 → v.toNat / 2 ^ 60 = n → v.extractLsb' 60 4 = BitVec.ofNat 4 n := fun n hn hdiv => by
    apply BitVec.eq_of_toNat_eq
    rw [BitVec.extractLsb'_toNat, Nat.shiftRight_eq_div_pow, BitVec.toNat_ofNat, hdiv]
  rcases h with h | h | ⟨h, ha⟩ | ⟨h, ha⟩
  · rw [hcode 0 (by decide) h, h]
    rfl
  · rw [hcode 8 (by decide) h, h]
    rfl
  · rw [hcode 9 (by decide) h, h]
    simp [satpModeOf, ha]
  · rw [hcode 10 (by decide) h, h]
    simp [satpModeOf, ha]

/-- A MODE field outside SATP_MODES selects none. -/
theorem satpModeOf_of_not_accepts {p : Platform} {v : Word} (h : ¬ satpAccepts p v) :
    satpModeOf p (v.extractLsb' 60 4) = none := by
  have hv := v.isLt
  have hcode : ∀ c : BitVec 4, v.extractLsb' 60 4 = c → v.toNat / 2 ^ 60 = c.toNat := fun c hc => by
    rw [← hc, BitVec.extractLsb'_toNat, Nat.shiftRight_eq_div_pow]
    omega
  unfold satpModeOf
  split
  next hc => exact absurd (.inl (hcode _ hc)) h
  next hc => exact absurd (.inr (.inl (hcode _ hc))) h
  next hc => exact if_neg fun ha => h (.inr (.inr (.inl ⟨hcode _ hc, ha⟩)))
  next hc => exact if_neg fun ha => h (.inr (.inr (.inr ⟨hcode _ hc, ha⟩)))
  next => rfl

/-- The three fields of `satp`, put together again. -/
theorem satp_fields_append (v : Word) : v.extractLsb' 60 4 ++ v.extractLsb' 44 16 ++ v.extractLsb' 0 44 = v := by
  apply BitVec.eq_of_toNat_eq
  simp only [BitVec.toNat_append, BitVec.extractLsb'_toNat, Nat.shiftRight_eq_div_pow]
  have hv := v.isLt
  rw [← Nat.shiftLeft_add_eq_or_of_lt (by omega), ← Nat.shiftLeft_add_eq_or_of_lt (by omega)]
  simp only [Nat.shiftLeft_eq]
  omega

/-- A write of an accepted mode is stored as it is, field by field. -/
theorem Satp.write_of_accepts {p : Platform} {v : Word} (t : Satp) (h : satpAccepts p v) :
    (t.write p v).read = v ∧
    (t.write p v).mode =
      (if v.toNat / 2 ^ 60 = 0 then .bare else if v.toNat / 2 ^ 60 = 8 then .sv39 else if v.toNat / 2 ^ 60 = 9 then .sv48
       else .sv57) ∧
    (t.write p v).asid.toNat = v.toNat / 2 ^ 44 % 2 ^ 16 ∧ (t.write p v).ppn.toNat = v.toNat % 2 ^ 44 := by
  have hmode := satpModeOf_of_accepts h
  have hcode := satpModeCode_of_satpModeOf hmode
  rw [Satp.write, hmode]
  refine ⟨?_, rfl, ?_, ?_⟩
  · rw [Satp.read, hcode]
    exact satp_fields_append v
  · simp [Nat.shiftRight_eq_div_pow]
  · simp

/-- A write of any other mode is ignored entirely. -/
theorem Satp.write_of_not_accepts {p : Platform} {v : Word} (t : Satp) (h : ¬ satpAccepts p v) : t.write p v = t := by
  rw [Satp.write, satpModeOf_of_not_accepts h]

theorem State.csrRead_satp_write (s : State) (v : Word) :
    (s.csrWrite .satp v).csrRead .satp =
      if v.toNat / 2 ^ 60 = 0 ∨ v.toNat / 2 ^ 60 = 8 ∨ (v.toNat / 2 ^ 60 = 9 ∧ s.platform.acceptsSv48 = true) ∨
        (v.toNat / 2 ^ 60 = 10 ∧ s.platform.acceptsSv57 = true) then v else s.csrRead .satp := by
  change (s.satp.write s.platform v).read = _
  by_cases h : satpAccepts s.platform v
  · exact ((s.satp.write_of_accepts h).1).trans (if_pos h).symm
  · exact (congrArg Satp.read (s.satp.write_of_not_accepts h)).trans (if_neg h).symm

/-- Settles O28: register by register, what a read gives after the write and that only the register changes. -/
theorem csrReadsBackWhatIsLegal : Obligations.CsrReadsBackWhatIsLegal := by
  intro s v h
  have hcounteren : ((v.setWidth 32).setWidth 64 : Word).toNat = v.toNat % 2 ^ 32 := by
    simp
    omega
  refine ⟨rfl, rfl, rfl, rfl, rfl, rfl, rfl, rfl, rfl, rfl, and_not_three_toNat v, and_not_three_toNat v, tvecValue_toNat v,
    tvecValue_toNat v, hcounteren, hcounteren, maskedWrite_eq_and v h.medeleg, maskedWrite_eq_and v h.mideleg,
    maskedWrite_eq_and v h.mie, maskedWrite_and_mask _ _ _, rfl, rfl, fun n => ⟨rfl, rfl, rfl⟩, s.csrRead_satp_write v,
    fun haccepts => (s.satp.write_of_accepts haccepts).2, fun hnot => s.satp.write_of_not_accepts hnot, rfl, rfl, rfl, rfl, rfl,
    rfl, rfl, rfl, rfl, rfl, rfl, rfl, rfl, rfl, rfl, rfl, rfl, rfl, fun n c hc => ?_, rfl, rfl, rfl, ?_, rfl, rfl, rfl, rfl⟩
  · simp only [List.mem_cons, List.not_mem_nil, or_false] at hc
    rcases hc with rfl | rfl | rfl | rfl <;> rfl
  · exact (BitVec.ofNat_toNat 64 s.platform.vendorId).symm

/-! ### The addresses of the CSRs (10_state.md R34) -/

theorem csrOfAddr_ofNat {n : Nat} {c : Csr} (h : CsrListed n c) (hn : n < 2 ^ 12) : csrOfAddr (BitVec.ofNat 12 n) = some c := by
  rw [csrOfAddr_eq_some_iff, BitVec.toNat_ofNat, Nat.mod_eq_of_lt hn]
  exact h

theorem lt_of_mem_csrRows : ∀ r ∈ csrRows, r.1 < 2 ^ 12 := by decide

/-! ### The six instructions (40_csr_instructions.md R220 to R230) -/

/-- Only a write of `minstret` changes `minstret`. -/
theorem State.csrWrite_minstret_of_ne (s : State) {c : Csr} (h : c ≠ .minstret) (v : Word) :
    (s.csrWrite c v).minstret = s.minstret := by
  cases c
  case minstret => exact absurd rfl h
  all_goals rfl

/-- A legal access completes as the rules say (40_csr_instructions.md R220, R224). -/
theorem csrCompletes_of_csrLegal {i : Instr} {s : State} {rd : Reg} {a : CsrAddr} {w : Bool} {f : Word → Word}
    (hexec : exec i s = .next (s.csrInstr i rd a w f)) (hlegal : csrLegal s a w) : csrCompletes i s rd a w f := by
  obtain ⟨c, hc⟩ := (s.exists_csrAccess_iff_csrLegal a w).mpr hlegal
  rcases csrInstr_cases s i rd a w f with ⟨hnone, -⟩ | ⟨d, hd, hdone⟩
  · exact absurd (hnone.symm.trans hc) nofun
  obtain rfl : d = c := Option.some.inj (hd.symm.trans hc)
  have hx : (if w then s.csrWrite d (f (s.csrModifyBase d)) else s).x = s.x := by cases w <;> simp
  have hread : ∀ q : Reg, (s.csrInstr i rd a w f).readX q =
      if q = 0#5 then 0#64 else if q = rd then s.csrRead d else s.readX q := fun q => by
    rw [hdone, retireCsr_eq, ← readX_congr hx q]
    exact readX_setX _ _ _ _
  refine ⟨d, _, ((csrAccess_eq_some s a w d).mp hc).1, hexec, ?_, ⟨readX_zero _, fun r hr => ?_⟩, ?_, ?_, ?_⟩
  · rw [hread]
    split
    · rfl
    · rw [if_pos rfl]
  · rw [hread, if_neg hr]
    split
    next h0 => rw [h0, readX_zero]
    next => rfl
  · rw [hdone, retireCsr_eq]
    cases w <;> simp
  · rw [hdone, retireCsr_eq]
    by_cases hw : w = true ∧ d = .minstret
    · obtain ⟨rfl, rfl⟩ := hw
      simp only [if_true, State.setX_minstret, and_self]
      rfl
    · rw [if_neg hw]
      cases w
      · simp
      · have hne : d ≠ .minstret := fun h => hw ⟨rfl, h⟩
        simp [hne, s.csrWrite_minstret_of_ne hne]
  · rw [hdone, retireCsr_eq, sameRest]
    unfold State.setX
    split <;> rfl

/-- The immediate of a CSR instruction as a number (30_encoding.md R199). -/
theorem csrImm_eq (uimm : BitVec 5) : csrImm uimm = BitVec.ofNat 64 uimm.toNat := (BitVec.ofNat_toNat 64 uimm).symm

/-- A CSR instruction with the value it writes. -/
theorem exec_of_csrForm_value {i : Instr} {a : CsrAddr} {w : Bool} (h : csrForm i = some (a, w)) (s : State) :
    ∃ rd, exec i s = .next (s.csrInstr i rd a w fun old => csrNewValue s old i) := by
  unfold csrForm at h
  split at h <;> cases h <;> simp only [csrNewValue, ← csrImm_eq] <;> exact ⟨_, rfl⟩

theorem State.csrModifyBase_of_ne_mip (s : State) {c : Csr} (h : c ≠ .mip) : s.csrModifyBase c = s.csrRead c := by
  cases c
  case mip => exact absurd rfl h
  all_goals rfl

/-- A read-modify-write of `mip` starts from what it reads as, but for SEIP (10_state.md R51). -/
theorem State.csrModifyBase_mip_getLsbD (s : State) (k : Nat) :
    (s.csrModifyBase .mip).getLsbD k = if k = 9 then s.mip.seip else (s.csrRead .mip).getLsbD k := by
  change s.mipModifyBase.getLsbD k = if k = 9 then s.mip.seip else s.mipRead.getLsbD k
  rw [State.mipModifyBase, State.mipRead, mipWith_getLsbD, mipWith_getLsbD]
  by_cases h : k = 9
  · subst h
    simp
  · simp [h, beq_false_of_ne h]

/-- Settles O32: the table of addresses, then each of the six instructions by its form. -/
theorem csrInstructionsComplete : Obligations.CsrInstructionsComplete := by
  refine ⟨fun r hr => csrOfAddr_ofNat (.row hr) (lt_of_mem_csrRows r hr), fun i => ?_, fun n hlo hhi => ⟨?_, ?_, ?_⟩,
    fun s rd rs1 uimm a => ⟨?_, ?_, ?_, ?_, fun c => s.csrModifyBase_of_ne_mip, s.csrModifyBase_mip_getLsbD⟩⟩
  · have h := CsrListed.pmpaddr (n := 0x3B0 + i.val) (by omega) (by omega)
    rw [Nat.add_sub_cancel_left, Fin.ofNat_eq_cast, Fin.cast_val_eq_self] at h
    exact csrOfAddr_ofNat h (by omega)
  · have h := CsrListed.mhpmevent (n := 0x320 + n) (by omega) (by omega)
    rw [Nat.add_sub_cancel_left] at h
    exact csrOfAddr_ofNat h (by omega)
  · have h := CsrListed.mhpmcounter (n := 0xB00 + n) (by omega) (by omega)
    rw [Nat.add_sub_cancel_left] at h
    exact csrOfAddr_ofNat h (by omega)
  · have h := CsrListed.hpmcounter (n := 0xC00 + n) (by omega) (by omega)
    rw [Nat.add_sub_cancel_left] at h
    exact csrOfAddr_ofNat h (by omega)
  · exact csrCompletes_of_csrLegal rfl
  · exact fun h => ⟨csrCompletes_of_csrLegal rfl h, csrCompletes_of_csrLegal rfl h⟩
  · rw [← csrImm_eq]
    exact csrCompletes_of_csrLegal rfl
  · rw [← csrImm_eq]
    exact fun h => ⟨csrCompletes_of_csrLegal rfl h, csrCompletes_of_csrLegal rfl h⟩

/-! ### `minstret` (10_state.md R62) -/

theorem eq_minstret_of_mem_csrRows : ∀ r ∈ csrRows, r.2 = .minstret → r.1 = 0xB02 := by decide

/-- `minstret` has one address. -/
theorem addr_of_minstret {a : CsrAddr} (h : csrOfAddr a = some .minstret) : a = 0xB02#12 := by
  apply BitVec.eq_of_toNat_eq
  cases (csrOfAddr_eq_some_iff a .minstret).mp h with
  | row hrow => exact eq_minstret_of_mem_csrRows _ hrow rfl

/-- An instruction that does not raise and is no write of `minstret` is counted. -/
theorem minstret_of_effect {i : Instr} {s t : State} (heffect : Effect s i t)
    (hraise : ∀ c tval, t ≠ s.trap false (causeCode c) s.pc tval) (hform : csrForm i ≠ some (0xB02#12, true)) :
    t.minstret = s.minstret + 1 := by
  cases heffect with
  | raised c tval => exact absurd rfl (hraise c tval)
  | csr rd a w c v hcsr haccess =>
    have hwrite : ¬ (w = true ∧ c = .minstret) := by
      rintro ⟨rfl, rfl⟩
      rw [addr_of_minstret ((csrAccess_eq_some s a _ _).mp haccess).1] at hcsr
      exact hform hcsr
    rw [retireCsr_eq, if_neg hwrite]
    cases w
    · simp
    · simp [s.csrWrite_minstret_of_ne fun h => hwrite ⟨rfl, h⟩]
  | _ => simp

/-- Settles O60: a trap keeps the count, a completion adds to it, and a write of it gives the value written. -/
theorem minstretCountsCompletions : Obligations.MinstretCountsCompletions := by
  intro i s t h
  refine ⟨fun c tval hraises => ?_, fun hraises hform => ?_, fun hform hlegal => ?_⟩
  · obtain rfl := Host.Outcome.next.inj (hraises.symm.trans h)
    simp
  · refine minstret_of_effect (effect_of_exec h) (fun c tval ht => ?_) hform
    rw [ht] at h
    exact hraises c tval h
  · obtain ⟨rd, hexec⟩ := exec_of_csrForm_value hform s
    obtain ⟨c, u, hc, hu, -, -, -, hcount, -⟩ := csrCompletes_of_csrLegal hexec hlegal
    obtain rfl : t = u := Host.Outcome.next.inj (h.symm.trans hu)
    obtain rfl : c = .minstret := Option.some.inj (hc.symm.trans (by decide))
    simpa using hcount

/-! ### Reset (10_state.md R105) -/

/-- Settles O13: the fields of reset, each by evaluation. -/
theorem resetGivesTheStatedValues : Obligations.ResetGivesTheStatedValues := by
  refine ⟨rfl, by decide, ?_⟩
  rintro p _ rfl
  have hmstatus : (State.resetOn p).mstatus = State.reset.mstatus := rfl
  rw [hmstatus]
  refine ⟨rfl, rfl, rfl, by decide, by decide, by decide, by decide, rfl, rfl, rfl, rfl, rfl, fun n => rfl, fun n => rfl,
    BitVec.zero_and, BitVec.zero_and, BitVec.zero_and, BitVec.getLsbD_zero, BitVec.getLsbD_zero, rfl, rfl,
    (BitVec.ofNat_toNat 64 p.vendorId).symm, rfl, rfl, rfl, rfl, fun i => ?_, rfl, rfl, rfl, rfl⟩
  simp [State.resetOn]

end Sys2Proof.Machine

/-! ## The system instructions and the fences -/

namespace Sys2Proof.Machine

/-! ### The control bits of `mstatus` (10_state.md R41 to R46) -/

theorem MStatus.read_getLsbD_mprv (m : MStatus) : m.read.getLsbD 17 = m.mprv := by rw [MStatus.read_getLsbD]; simp
theorem MStatus.read_getLsbD_tvm (m : MStatus) : m.read.getLsbD 20 = m.tvm := by rw [MStatus.read_getLsbD]; simp
theorem MStatus.read_getLsbD_tw (m : MStatus) : m.read.getLsbD 21 = m.tw := by rw [MStatus.read_getLsbD]; simp
theorem MStatus.read_getLsbD_tsr (m : MStatus) : m.read.getLsbD 22 = m.tsr := by rw [MStatus.read_getLsbD]; simp

/-- The fields of M-mode's trap return hold no other bits. -/
theorem MStatus.read_getLsbD_of_not_mret_field (m : MStatus) (mpp : Priv) (mpie mie mprv : Bool) {k : Nat}
    (h3 : k ≠ 3) (h7 : k ≠ 7) (h11 : k ≠ 11) (h12 : k ≠ 12) (h17 : k ≠ 17) :
    ({ m with mie := mie, mpie := mpie, mpp := mpp, mprv := mprv } : MStatus).read.getLsbD k = m.read.getLsbD k := by
  simp [MStatus.read_getLsbD, beq_false_of_ne h3, beq_false_of_ne h7, beq_false_of_ne h11, beq_false_of_ne h12,
    beq_false_of_ne h17]

/-- The fields of S-mode's trap return hold no other bits. -/
theorem MStatus.read_getLsbD_of_not_sret_field (m : MStatus) (spp spie sie mprv : Bool) {k : Nat}
    (h1 : k ≠ 1) (h5 : k ≠ 5) (h8 : k ≠ 8) (h17 : k ≠ 17) :
    ({ m with sie := sie, spie := spie, spp := spp, mprv := mprv } : MStatus).read.getLsbD k = m.read.getLsbD k := by
  simp [MStatus.read_getLsbD, beq_false_of_ne h1, beq_false_of_ne h5, beq_false_of_ne h8, beq_false_of_ne h17]

/-! ### Trap return (41_system_instructions.md R246, R247) -/

theorem exec_mret_of_machine {s : State} (h : s.priv = .machine) : exec .mret s = .next s.returnM :=
  congrArg Host.Outcome.next (if_pos h)

theorem exec_sret_of_mayRun {s : State} (h : s.mayRun s.mstatus.tsr = true) : exec .sret s = .next s.returnS :=
  congrArg Host.Outcome.next (if_pos h)

/-- Settles O18: `State.returnM`, its `mstatus` read bit by bit. -/
theorem mretReturns : Obligations.MretReturns := by
  intro s hmachine
  refine ⟨s.returnM, exec_mret_of_machine hmachine, s.mstatus.read_extractLsb'_mpp.symm, rfl, rfl, ?_, ?_, ?_, ?_, ?_, rfl⟩
  · rw [MStatus.read_getLsbD_mie, MStatus.read_getLsbD_mpie]
    rfl
  · rw [MStatus.read_getLsbD_mpie]
    rfl
  · rw [MStatus.read_extractLsb'_mpp]
    rfl
  · rw [MStatus.read_getLsbD_mprv, MStatus.read_getLsbD_mprv, State.returnM_mstatus, State.returnM_priv]
    simp
  · intro k h3 h7 h11 h12 h17
    exact s.mstatus.read_getLsbD_of_not_mret_field _ _ _ _ h3 h7 h11 h12 h17

/-- Settles O19: `State.returnS`, its `mstatus` read bit by bit. -/
theorem sretReturns : Obligations.SretReturns := by
  intro s hmode
  rw [MStatus.read_getLsbD_tsr] at hmode
  refine ⟨s.returnS, exec_sret_of_mayRun ((s.mayRun_iff _).mpr hmode), ?_, rfl, rfl, ?_, ?_, ?_, ?_, ?_, rfl⟩
  · rw [MStatus.read_getLsbD_spp]
    rfl
  · rw [MStatus.read_getLsbD_sie, MStatus.read_getLsbD_spie]
    rfl
  · rw [MStatus.read_getLsbD_spie]
    rfl
  · rw [MStatus.read_getLsbD_spp]
    rfl
  · rw [MStatus.read_getLsbD_mprv]
    rfl
  · intro k h1 h5 h8 h17
    exact s.mstatus.read_getLsbD_of_not_sret_field _ _ _ _ h1 h5 h8 h17

/-! ### Environment call and breakpoint (41_system_instructions.md R241, R242) -/

theorem raises_ecall (s : State) : raises .ecall s (ecallCause s.priv) 0 := rfl

theorem raises_ebreak (s : State) : raises .ebreak s .breakpoint s.pc := rfl

theorem raises.minstret {i : Instr} {s t : State} {c : Cause} {tval : Word} (h : raises i s c tval) (ht : exec i s = .next t) :
    t.minstret = s.minstret := by
  obtain rfl : s.trap false (causeCode c) s.pc tval = t := Host.Outcome.next.inj (h.symm.trans ht)
  simp

/-- Settles O20: both raise, and what raises keeps registers, memory and the count. -/
theorem ecallAndEbreakTrap : Obligations.EcallAndEbreakTrap := by
  intro s
  have hcall := raises_ecall s
  have hkeeps : ∀ {i : Instr} {c : Cause} {tval : Word} {t : State}, raises i s c tval → exec i s = .next t →
      sameRegs s t ∧ sameMem s t ∧ t.minstret = s.minstret := fun hraises ht =>
    ⟨(hraises.sameMem_sameRegs _ ht).2, (hraises.sameMem_sameRegs _ ht).1, hraises.minstret ht⟩
  refine ⟨fun h => ?_, fun h => ?_, fun h => ?_, raises_ebreak s, fun t ht => ?_⟩
  · rwa [h] at hcall
  · rwa [h] at hcall
  · rwa [h] at hcall
  · rcases ht with ht | ht
    · exact hkeeps hcall ht
    · exact hkeeps (raises_ebreak s) ht

/-! ### Where the mode forbids an instruction (41_system_instructions.md R246 to R251) -/

/-- What U-mode, or S-mode with the forbidding bit, may not run. -/
theorem State.mayRun_eq_false {s : State} {forbidden : Bool} (h : s.priv = .user ∨ (s.priv = .supervisor ∧ forbidden = true)) :
    ¬ s.mayRun forbidden = true := by
  rw [State.mayRun_iff]
  rcases h with h | ⟨h, hf⟩ <;> simp [*]

/-- A field above bit `k` and one below it are added. -/
theorem or_eq_add_of_lt {a b k : Nat} (ha : a % 2 ^ k = 0) (hb : b < 2 ^ k) : a ||| b = a + b := by
  have hdiv : 2 ^ k * (a / 2 ^ k) = a := Nat.mul_div_cancel' (Nat.dvd_of_mod_eq_zero ha)
  rw [← hdiv]
  exact (Nat.two_pow_add_eq_or_of_lt hb _).symm

/-- The word of `sfence.vma` as a number. -/
theorem encode_sfenceVma (rs1 rs2 : Reg) :
    (encode (.sfenceVma rs1 rs2)).setWidth 64 = BitVec.ofNat 64 (0x12000073 + rs1.toNat * 2 ^ 15 + rs2.toNat * 2 ^ 20) := by
  apply BitVec.eq_of_toNat_eq
  have h1 := rs1.isLt
  have h2 := rs2.isLt
  have hrs1 : rs1.toNat * 32768 % 4294967296 = rs1.toNat * 32768 := Nat.mod_eq_of_lt (by omega)
  have hrs2 : rs2.toNat * 1048576 % 4294967296 = rs2.toNat * 1048576 := Nat.mod_eq_of_lt (by omega)
  have hword : (encode (.sfenceVma rs1 rs2)).toNat = ((0x12000000 ||| rs2.toNat * 2 ^ 20) ||| rs1.toNat * 2 ^ 15) ||| 0x73 := by
    simp [encode, encodeR, placeField, Nat.shiftLeft_eq, hrs1, hrs2]
  have hadd2 : 0x12000000 ||| rs2.toNat * 2 ^ 20 = 0x12000000 + rs2.toNat * 2 ^ 20 :=
    or_eq_add_of_lt (k := 25) (by decide) (by omega)
  have hadd1 := or_eq_add_of_lt (a := 0x12000000 + rs2.toNat * 2 ^ 20) (b := rs1.toNat * 2 ^ 15) (k := 20) (by omega) (by omega)
  have hadd0 := or_eq_add_of_lt (a := 0x12000000 + rs2.toNat * 2 ^ 20 + rs1.toNat * 2 ^ 15) (b := 0x73) (k := 15) (by omega)
    (by omega)
  rw [BitVec.toNat_setWidth, hword, hadd2, hadd1, hadd0, BitVec.toNat_ofNat]
  congr 1
  omega

/-- Settles O21: the branch of each instruction that raises, with its bits. -/
theorem privilegedInstructionsTrap : Obligations.PrivilegedInstructionsTrap := by
  intro s
  rw [MStatus.read_getLsbD_tsr, MStatus.read_getLsbD_tw, MStatus.read_getLsbD_tvm]
  refine ⟨fun h => congrArg Host.Outcome.next ((if_neg h).trans ?_),
    fun h => congrArg Host.Outcome.next ((if_neg (State.mayRun_eq_false h)).trans ?_),
    fun h => congrArg Host.Outcome.next ((if_neg (State.mayRun_eq_false h)).trans ?_),
    fun h rs1 rs2 => congrArg Host.Outcome.next ((if_neg (State.mayRun_eq_false h)).trans ?_)⟩
  · rfl
  · rfl
  · rfl
  · rw [← encode_sfenceVma]
    rfl

/-! ### `wfi` and `sfence.vma` where they may run (41_system_instructions.md R250, R251) -/

/-- An instruction that only counts itself in, over a state that keeps the registers. -/
theorem completesPlain_of_retire {i : Instr} {s rest : State} (hx : rest.x = s.x) (hpc : rest.pc = s.pc)
    (hcount : rest.minstret = s.minstret) (h : exec i s = .next rest.retire) : completesPlain i s rest (s.pc + 4) := by
  refine ⟨_, h, ?_, fun r => ?_⟩
  · rw [← hpc, ← hcount]
    rfl
  · exact readX_congr (by exact hx) r

/-- The fence keeps the translations that its operands do not cover (R251). -/
theorem fenceKeeps_iff (s : State) (rs1 rs2 : Reg) (e : TlbEntry) :
    fenceKeeps (s.fenceAddr rs1) (s.fenceAsid rs2) e = true ↔
      ¬ ((rs1 = 0#5 ∨ e.covers (s.readX rs1) = true) ∧
        (rs2 = 0#5 ∨ (e.asid.toNat = (s.readX rs2).toNat % 2 ^ 16 ∧ e.isGlobal = false))) := by
  have hasid : e.asid = (s.readX rs2).setWidth 16 ↔ e.asid.toNat = (s.readX rs2).toNat % 2 ^ 16 := by
    rw [← BitVec.toNat_inj, BitVec.toNat_setWidth]
  rw [← hasid]
  unfold fenceKeeps State.fenceAddr State.fenceAsid
  by_cases h1 : rs1 = 0#5 <;> by_cases h2 : rs2 = 0#5 <;> simp [h1, h2, imp_iff_not_or]

/-- Settles O22: each sets its one field, and the TLB is filtered by the operands. -/
theorem wfiAndSfenceComplete : Obligations.WfiAndSfenceComplete := by
  intro s
  refine ⟨fun h => ?_, fun h rs1 rs2 => ?_⟩
  · exact completesPlain_of_retire (rest := { s with waiting := true }) rfl rfl rfl
      (congrArg Host.Outcome.next (if_pos ((s.mayRun_iff _).mpr h)))
  · refine ⟨s.tlb.filter (fenceKeeps (s.fenceAddr rs1) (s.fenceAsid rs2)), ?_, fun e => ?_, ?_⟩
    · exact completesPlain_of_retire (rest := { s with tlb := _ }) rfl rfl rfl
        (congrArg Host.Outcome.next (if_pos ((s.mayRun_iff _).mpr h)))
    · rw [List.mem_filter, fenceKeeps_iff]
      rfl
    · rintro rfl rfl
      rw [List.filter_eq_nil_iff]
      intro e _
      rw [fenceKeeps_iff]
      simp

/-! ### The fences (44_load_store_fence.md R345, R346) -/

/-- Settles O47. -/
theorem fencesComplete : Obligations.FencesComplete := fun _ _ _ _ =>
  ⟨completesPlain_of_retire rfl rfl rfl rfl, completesPlain_of_retire rfl rfl rfl rfl⟩

end Sys2Proof.Machine

/-! ## Integer computational instructions, jumps and branches -/

namespace Sys2Proof.Machine

/-! ### The operations on words as operations on numbers (00_scope.md R8) -/

/-- A sum of words is the sum of the signed numbers, modulo 2^64. -/
theorem add_eq_ofInt (x y : Word) : x + y = BitVec.ofInt 64 (x.toInt + y.toInt) := by
  rw [BitVec.ofInt_add, BitVec.ofInt_toInt, BitVec.ofInt_toInt]

theorem sub_eq_ofInt (x y : Word) : x - y = BitVec.ofInt 64 (x.toInt - y.toInt) := by
  rw [BitVec.sub_eq_add_neg, Int.sub_eq_add_neg, BitVec.ofInt_add, BitVec.ofInt_neg, BitVec.ofInt_toInt, BitVec.ofInt_toInt]

/-- A field of fewer bits is added as the signed number it stands for. -/
theorem add_signExtend_eq_ofInt {n : Nat} (x : Word) (v : BitVec n) :
    x + v.signExtend 64 = BitVec.ofInt 64 (x.toInt + v.toInt) := by
  rw [BitVec.ofInt_add, BitVec.ofInt_toInt]
  rfl

theorem upperImm_eq_ofInt (imm : BitVec 20) : upperImm imm = BitVec.ofInt 64 (imm.toInt * 4096) := by
  have h : (imm ++ 0#12).toInt = imm.toInt * 4096 := BitVec.toInt_append_zero.trans (Int.mul_comm ..)
  rw [← h]
  rfl

theorem immValue_toInt (imm : BitVec 12) : (immValue imm).toInt = imm.toInt :=
  BitVec.toInt_signExtend_of_le (by decide)

theorem truthValue_signedLess (x y : Word) : truthValue (signedLess x y) = if x.toInt < y.toInt then 1 else 0 := by
  simp only [truthValue, signedLess, BitVec.slt_iff_toInt_lt]

theorem truthValue_unsignedLess (x y : Word) : truthValue (unsignedLess x y) = if x.toNat < y.toNat then 1 else 0 := by
  simp only [truthValue, unsignedLess, BitVec.ult_iff_toNat_lt]

theorem shiftLeft_eq_ofNat (x : Word) (n : Nat) : x <<< n = BitVec.ofNat 64 (x.toNat * 2 ^ n) := by
  apply BitVec.eq_of_toNat_eq
  rw [BitVec.toNat_shiftLeft, BitVec.toNat_ofNat, Nat.shiftLeft_eq]

theorem ushiftRight_eq_ofNat (x : Word) (n : Nat) : x >>> n = BitVec.ofNat 64 (x.toNat / 2 ^ n) := by
  rw [← Nat.shiftRight_eq_div_pow, ← BitVec.toNat_ushiftRight, BitVec.ofNat_toNat, BitVec.setWidth_eq]

theorem sshiftRight_eq_ofInt (x : Word) (n : Nat) : x.sshiftRight n = BitVec.ofInt 64 (x.toInt / 2 ^ n) := by
  rw [BitVec.sshiftRight, Int.shiftRight_eq_div_pow]
  norm_cast

theorem shiftAmount_eq (v : Word) : shiftAmount v = v.toNat % 64 := by simp [shiftAmount]

theorem shiftAmountW_eq (v : Word) : shiftAmountW v = v.toNat % 32 := by simp [shiftAmountW]

/-! ### The W forms (42_integer_computational.md R260) -/

/-- The result of a W instruction, from the number whose low 32 bits it is. -/
theorem extendW_ofInt (k : Int) : extendW (BitVec.ofInt 32 k) = BitVec.ofInt 64 (k.bmod (2 ^ 32)) := by
  rw [extendW, BitVec.signExtend, BitVec.toInt_ofInt]

theorem lowWord_ofInt (k : Int) : lowWord (BitVec.ofInt 64 k) = BitVec.ofInt 32 k := by
  apply BitVec.eq_of_toInt_eq
  rw [lowWord, BitVec.toInt_setWidth, BitVec.toInt_ofInt, BitVec.toNat_ofInt, Int.toNat_of_nonneg (Int.emod_nonneg _ (by decide)),
    ← Int.emod_bmod, Int.emod_emod_of_dvd k (by decide), Int.emod_bmod]

/-- The low 32 bits, as a signed number. -/
theorem lowWord_toInt (x : Word) : (lowWord x).toInt = Int.bmod x.toNat (2 ^ 32) := by
  rw [BitVec.toInt_eq_toNat_bmod, lowWord, BitVec.toNat_setWidth, Int.natCast_emod, Int.emod_bmod]

theorem lowWord_shiftLeft (x : Word) (n : Nat) : lowWord x <<< n = BitVec.ofInt 32 (x.toNat * 2 ^ n) := by
  have h : lowWord x <<< n = BitVec.ofNat 32 (x.toNat * 2 ^ n) := by
    apply BitVec.eq_of_toNat_eq
    rw [BitVec.toNat_shiftLeft, BitVec.toNat_ofNat, Nat.shiftLeft_eq, lowWord, BitVec.toNat_setWidth, Nat.mod_mul_mod]
  rw [h, ← BitVec.ofInt_natCast]
  norm_cast

theorem lowWord_ushiftRight (x : Word) (n : Nat) : lowWord x >>> n = BitVec.ofInt 32 (x.toNat % 2 ^ 32 / 2 ^ n) := by
  have h : lowWord x >>> n = BitVec.ofNat 32 (x.toNat % 2 ^ 32 / 2 ^ n) := by
    rw [← BitVec.toNat_setWidth 32 x, ← Nat.shiftRight_eq_div_pow, ← lowWord, ← BitVec.toNat_ushiftRight, BitVec.ofNat_toNat,
      BitVec.setWidth_eq]
  rw [h, ← BitVec.ofInt_natCast]
  norm_cast

theorem extendW_sshiftRight (x : Word) (n : Nat) :
    extendW ((lowWord x).sshiftRight n) = BitVec.ofInt 64 (Int.bmod x.toNat (2 ^ 32) / 2 ^ n) := by
  rw [extendW, BitVec.signExtend, BitVec.toInt_sshiftRight, lowWord_toInt, Int.shiftRight_eq_div_pow]
  norm_cast

/-! ### What an instruction that ends in `writeBack` does -/

/-- The same with the value written in another form. -/
theorem completes_of_value {i : Instr} {s : State} {rd : Reg} {v w : Word} (hvalue : v = w)
    (h : exec i s = .next (s.writeBack rd v)) : completes i s rd w (s.pc + 4) := hvalue ▸ completes_writeBack h

/-- Settles O49. -/
theorem upperImmediates : Obligations.UpperImmediates := by
  intro s rd imm
  refine ⟨completes_of_value (upperImm_eq_ofInt imm) rfl, completes_of_value ?_ rfl⟩
  rw [upperImm_eq_ofInt, BitVec.ofInt_add, BitVec.ofInt_toInt]

/-- Settles O50: the value of each form with its immediate. -/
theorem immediateOperations : Obligations.ImmediateOperations := by
  rintro s rd rs1 imm x y rfl rfl
  refine ⟨completes_of_value (add_signExtend_eq_ofInt _ imm) rfl, completes_of_value ?_ rfl,
    completes_of_value (truthValue_unsignedLess _ _) rfl, completes_writeBack rfl, completes_writeBack rfl,
    completes_writeBack rfl⟩
  rw [truthValue_signedLess, immValue_toInt]

/-- Settles O51: the value of each form with its count. -/
theorem shifts : Obligations.Shifts := by
  rintro s rd rs1 rs2 shamt x n rfl rfl
  rw [← shiftAmount_eq]
  exact ⟨completes_of_value (shiftLeft_eq_ofNat _ _) rfl, completes_of_value (ushiftRight_eq_ofNat _ _) rfl,
    completes_of_value (sshiftRight_eq_ofInt _ _) rfl, completes_of_value (shiftLeft_eq_ofNat _ _) rfl,
    completes_of_value (ushiftRight_eq_ofNat _ _) rfl, completes_of_value (sshiftRight_eq_ofInt _ _) rfl⟩

/-- Settles O52: the value of each form with its registers. -/
theorem registerOperations : Obligations.RegisterOperations := by
  rintro s rd rs1 rs2 x y rfl rfl
  exact ⟨completes_of_value (add_eq_ofInt _ _) rfl, completes_of_value (sub_eq_ofInt _ _) rfl,
    completes_of_value (truthValue_signedLess _ _) rfl, completes_of_value (truthValue_unsignedLess _ _) rfl,
    completes_writeBack rfl, completes_writeBack rfl, completes_writeBack rfl⟩

/-- Settles O53: the number whose low 32 bits each form gives. -/
theorem wordOperations : Obligations.WordOperations := by
  rintro s rd rs1 rs2 imm shamt x y n rfl rfl rfl
  rw [← shiftAmountW_eq]
  have hleft : ∀ k, extendW (lowWord (s.readX rs1) <<< k) =
      BitVec.ofInt 64 (Int.bmod ((s.readX rs1).toNat * 2 ^ k) (2 ^ 32)) := fun k => by rw [lowWord_shiftLeft, extendW_ofInt]
  have hright : ∀ k, extendW (lowWord (s.readX rs1) >>> k) =
      BitVec.ofInt 64 (Int.bmod ((s.readX rs1).toNat % 2 ^ 32 / 2 ^ k) (2 ^ 32)) := fun k => by
    rw [lowWord_ushiftRight, extendW_ofInt]
  refine ⟨completes_of_value ?_ rfl, completes_of_value ?_ rfl, completes_of_value ?_ rfl, completes_of_value (hleft _) rfl,
    completes_of_value (hleft _) rfl, completes_of_value (hright _) rfl, completes_of_value (hright _) rfl,
    completes_of_value (extendW_sshiftRight _ _) rfl, completes_of_value (extendW_sshiftRight _ _) rfl⟩
  · rw [immValue, add_signExtend_eq_ofInt, lowWord_ofInt, extendW_ofInt]
  · rw [add_eq_ofInt, lowWord_ofInt, extendW_ofInt]
  · rw [sub_eq_ofInt, lowWord_ofInt, extendW_ofInt]

/-! ### Jumps and branches to aligned targets (43_control_transfer.md R311 to R319) -/

theorem State.jumpTo_of_aligned (s : State) (rd : Reg) {t : Word} (h : t.toNat % 4 = 0) :
    s.jumpTo rd t = (s.setX rd (s.pc + 4)).retireTo t := by
  rcases jumpTo_cases s rd t with ⟨-, hjump⟩ | ⟨hmis, -⟩
  · exact hjump
  · exact absurd ((extractLsb'_zero_two_eq_zero_iff t).mpr h) hmis

theorem State.branchIf_true_of_aligned (s : State) {offset : BitVec 13} (h : (s.pc + branchOffset offset).toNat % 4 = 0) :
    s.branchIf true offset = s.retireTo (s.pc + branchOffset offset) := by
  rcases branchIf_cases s true offset with ⟨hfalse, -⟩ | ⟨-, -, hbranch⟩ | ⟨-, hmis, -⟩
  · cases hfalse
  · exact hbranch
  · exact absurd ((extractLsb'_zero_two_eq_zero_iff _).mpr h) hmis

/-- Bit 0 cleared, as a number. -/
theorem and_not_one_eq_ofNat (v : Word) : (v &&& ~~~1 : Word) = BitVec.ofNat 64 (v.toNat / 2 * 2) := by
  have hshift : (v &&& ~~~1 : Word) = v >>> 1 <<< 1 := by
    apply BitVec.eq_of_getLsbD_eq
    intro k hk
    have hone : (~~~1 : Word).getLsbD k = !decide (k = 0) := by
      rw [BitVec.getLsbD_not, show (1 : Word).getLsbD k = (decide (0 < 64) && decide (k = 0)) from BitVec.getLsbD_one]
      simp [hk]
    rw [BitVec.getLsbD_and, hone]
    by_cases h : k = 0
    · simp [h]
    · simp [h, hk, show 1 + (k - 1) = k by omega]
  rw [hshift, shiftLeft_eq_ofNat, BitVec.toNat_ushiftRight, Nat.shiftRight_eq_div_pow, Nat.pow_one]

/-- Settles O54: the target of each jump, which `State.jumpTo` goes to. -/
theorem jumpsComplete : Obligations.JumpsComplete := by
  rintro s rd rs1 offset imm t u rfl rfl
  rw [← add_signExtend_eq_ofInt, ← and_not_one_eq_ofNat]
  exact ⟨fun h => completes_intro (congrArg Host.Outcome.next (s.jumpTo_of_aligned rd h)),
    fun h => completes_intro (congrArg Host.Outcome.next (s.jumpTo_of_aligned rd h))⟩

/-- Settles O55: the branch goes to its target when taken, to the next instruction when not. -/
theorem branchesComplete : Obligations.BranchesComplete := by
  rintro s i rs1 rs2 offset taken t hform rfl
  rw [← add_signExtend_eq_ofInt]
  refine ⟨fun htaken haligned => ?_, completesPlain_of_untaken hform⟩
  refine ⟨_, ?_, rfl, fun r => rfl⟩
  rw [exec_of_branchForm hform, htaken, s.branchIf_true_of_aligned haligned]
  rfl

end Sys2Proof.Machine

/-! ## The access path and translation -/

namespace Sys2Proof.Machine

/-! ### The exceptions of an access, by their codes (60_exceptions.md R361) -/

theorem failsWith_pageFault (acc : Access) (va : Word) : failsWith (.error ⟨pageFault acc, va⟩) (pageFaultCode acc) va :=
  ⟨_, rfl, by cases acc <;> rfl, rfl⟩

theorem failsWith_accessFault (acc : Access) (va : Word) : failsWith (.error ⟨accessFault acc, va⟩) (accessFaultCode acc) va :=
  ⟨_, rfl, by cases acc <;> rfl, rfl⟩

theorem failsWith_misalignedFault (acc : Access) (va : Word) :
    failsWith (.error ⟨misalignedFault acc, va⟩) (misalignedCode acc) va :=
  ⟨_, rfl, by cases acc <;> rfl, rfl⟩

/-! ### Canonical addresses (20_memory.md R142) -/

/-- The bits from the top used one up are all equal exactly in the lower and in the upper half. -/
theorem canonicalAddr_iff (mode : SatpMode) (va : Word) : canonicalAddr mode va = true ↔ canonicalFor mode va := by
  have hzero : ∀ k, va.sshiftRight k = 0 ↔ va.toInt / (2 ^ k : Nat) = 0 := fun k => by
    rw [← BitVec.toInt_inj, BitVec.toInt_sshiftRight, Int.shiftRight_eq_div_pow]
    rfl
  have hones : ∀ k, va.sshiftRight k = BitVec.allOnes 64 ↔ va.toInt / (2 ^ k : Nat) = -1 := fun k => by
    rw [← BitVec.toInt_inj, BitVec.toInt_sshiftRight, Int.shiftRight_eq_div_pow]
    rfl
  have hlt := va.isLt
  rw [canonicalAddr, canonicalFor, Bool.or_eq_true, beq_iff_eq, beq_iff_eq, hzero, hones, BitVec.toInt_eq_toNat_cond]
  cases mode <;> simp only [levelsOf, tableLevels] <;> omega

/-! ### The walk (20_memory.md R145) -/

theorem levelsOf_eq_tableLevels (mode : SatpMode) : levelsOf mode = tableLevels mode := by cases mode <;> rfl

theorem readPte_of_refused {s : State} {tag a : Nat} (h : ¬ s.mayAccess a 8 .load .supervisor) : s.readPte tag a = none :=
  if_neg fun hallows => h ((physAllows_iff s a 8 .load .supervisor).mp hallows)

theorem superpageMisaligned_zero (pte : Word) : superpageMisaligned pte 0 = false := by
  simp [superpageMisaligned, Nat.mod_one]

/-- A refused page-table read ends the walk. -/
theorem walkFrom_of_refused {s : State} (tag : Nat) {va : Word} {i a : Nat}
    (h : ¬ s.mayAccess (entryAddr a va i) 8 .load .supervisor) : s.walkFrom tag va i a = .accessFault (entryAddr a va i) := by
  unfold entryAddr at h ⊢
  cases i with
  | zero =>
    rw [State.walkFrom, vpnField, readPte_of_refused h]
  | succ i =>
    rw [State.walkFrom, vpnField, readPte_of_refused h]

/-- A pointer above level 0 leads to the next level. -/
theorem walkFrom_of_pointer {s : State} (tag : Nat) {va : Word} {i a : Nat} {pte : Word}
    (hentry : s.entryAt (entryAddr a va (i + 1)) pte) (hpoints : entryPoints pte) :
    s.walkFrom tag va (i + 1) a = s.walkFrom tag va i (entryPpn pte * 4096) := by
  obtain ⟨hvalid, hpointer⟩ := (entryPoints_iff pte).mp hpoints
  unfold entryAddr at hentry
  rw [State.walkFrom, vpnField, readPte_entryAt s _ _ _ hentry]
  simp [hvalid, hpointer, ptePpn_eq]

/-- Any other entry ends the walk, as a leaf when it is a valid one. -/
theorem walkFrom_of_end {s : State} (tag : Nat) {va : Word} {i a : Nat} {pte : Word}
    (hentry : s.entryAt (entryAddr a va i) pte) (hend : ¬ (entryPoints pte ∧ 0 < i)) :
    (leafValid i pte → s.walkFrom tag va i a = .leaf i pte) ∧ (¬ leafValid i pte → s.walkFrom tag va i a = .pageFault) := by
  unfold entryAddr at hentry
  rw [leafValid_iff]
  cases i with
  | zero =>
    rw [State.walkFrom, vpnField, readPte_entryAt s _ _ _ hentry, superpageMisaligned_zero]
    cases hinvalid : pteInvalid pte <;> cases hpointer : ptePointer pte <;> simp [hinvalid, hpointer]
  | succ i =>
    rw [entryPoints_iff] at hend
    rw [State.walkFrom, vpnField, readPte_entryAt s _ _ _ hentry]
    cases hinvalid : pteInvalid pte
    case true => simp [hinvalid]
    cases hpointer : ptePointer pte
    case true => exact absurd ⟨⟨hinvalid, hpointer⟩, Nat.succ_pos i⟩ hend
    cases hmis : superpageMisaligned pte (i + 1) <;> simp [hinvalid, hpointer, hmis]

/-- The walk from the root goes through every table it comes to. -/
theorem walk_eq_walkFrom {s : State} (tag : Nat) {va : Word} {i a : Nat} (h : WalkReaches s va i a) :
    s.walk tag va = s.walkFrom tag va i a := by
  induction h with
  | root => rw [State.walk, levelsOf_eq_tableLevels]
  | pointer _ hentry hpoints ih => rw [ih, walkFrom_of_pointer tag hentry hpoints]

/-! ### Translation of a canonical address by what is looked up (20_memory.md R145, R150) -/

theorem tlbFits_of_tlbPick {s : State} {choice : Nat} {va : Word} {e : TlbEntry} (h : s.tlbPick choice va = some e) :
    e ∈ s.tlb ∧ e.covers va = true ∧ (e.isGlobal = true ∨ e.asid = s.satp.asid) ∧ s.resultStands e.result = true := by
  unfold State.tlbPick at h
  split at h
  next => cases h
  next k =>
    have hfits : s.tlbFits va e = true := (List.mem_filter.mp (List.mem_of_getElem? h)).2
    rw [State.tlbFits, Bool.and_eq_true, Bool.and_eq_true, Bool.or_eq_true, beq_iff_eq] at hfits
    exact ⟨(List.mem_filter.mp (List.mem_of_getElem? h)).1, hfits.1.1, hfits.1.2, hfits.2⟩

theorem lookup_of_tlbPick {s : State} {choice : Nat} (tag : Nat) {va : Word} {e : TlbEntry}
    (h : s.tlbPick choice va = some e) : s.lookup choice tag va = e.result := by
  rw [State.lookup, h]

theorem lookup_of_tlbPick_none {s : State} {choice : Nat} (tag : Nat) {va : Word} (h : s.tlbPick choice va = none) :
    s.lookup choice tag va = s.walk tag va := by
  rw [State.lookup, h]

section Translate

variable {s : State} {acc : Access} {va : Word}

theorem translate_of_not_canonical (p : Priv) (h : ¬ canonicalFor s.satp.mode va) :
    failsWith (s.translate acc p va) (pageFaultCode acc) va := by
  rw [State.translate, if_pos (by rwa [← canonicalAddr_iff, Bool.not_eq_true, ← Bool.not_eq_true'] at h)]
  exact failsWith_pageFault acc va

variable {p : Priv} (hcanonical : canonicalFor s.satp.mode va)
include hcanonical

theorem translate_of_accessFault {entry : Nat}
    (h : s.lookup (s.choiceFor acc).1 (s.choiceFor acc).2 va = .accessFault entry) :
    failsWith (s.translate acc p va) (accessFaultCode acc) va := by
  have hfault : s.translate acc p va = .error ⟨accessFault acc, va⟩ := by
    rw [State.translate, (canonicalAddr_iff _ va).mpr hcanonical, h]
    rfl
  rw [hfault]
  exact failsWith_accessFault acc va

theorem translate_of_pageFault (h : s.lookup (s.choiceFor acc).1 (s.choiceFor acc).2 va = .pageFault) :
    failsWith (s.translate acc p va) (pageFaultCode acc) va := by
  have hfault : s.translate acc p va = .error ⟨pageFault acc, va⟩ := by
    rw [State.translate, (canonicalAddr_iff _ va).mpr hcanonical, h]
    rfl
  rw [hfault]
  exact failsWith_pageFault acc va

theorem translate_of_leaf (hp : p ≠ .machine) {i : Nat} {pte : Word}
    (h : s.lookup (s.choiceFor acc).1 (s.choiceFor acc).2 va = .leaf i pte) :
    (s.leafGrants acc p pte → s.translate acc p va = .ok (leafTarget i pte va)) ∧
    (¬ s.leafGrants acc p pte → failsWith (s.translate acc p va) (pageFaultCode acc) va) := by
  have hcheck : s.translate acc p va = if s.leafPermits acc p pte && accessedDirtyOk acc pte then .ok (leafAddr i pte va)
      else .error ⟨pageFault acc, va⟩ := by
    rw [State.translate, (canonicalAddr_iff _ va).mpr hcanonical, h]
    rfl
  rw [leafGrants_iff s acc p pte hp, ← leafAddr_eq]
  refine ⟨fun hgrants => hcheck.trans (if_pos hgrants), fun hrefuses => ?_⟩
  rw [hcheck, if_neg hrefuses]
  exact failsWith_pageFault acc va

end Translate

/-- Settles O37: a kept result first, then the level the walk came to, by its entry. -/
theorem pageTablesTranslate : Obligations.PageTablesTranslate := by
  intro s acc p va _ hp
  refine ⟨translate_of_not_canonical p, fun hcanonical => ⟨fun e hpick => ?_, fun hpick i a hreaches => ?_⟩⟩
  · have hlookup := lookup_of_tlbPick (s.choiceFor acc).2 hpick
    refine ⟨fun he => translate_of_pageFault hcanonical (hlookup.trans he), fun entry he => ⟨?_, ?_⟩, fun i pte he => ?_⟩
    · obtain ⟨-, -, -, hstands⟩ := tlbFits_of_tlbPick hpick
      rw [he, State.resultStands, Bool.not_eq_true', ← Bool.not_eq_true, physAllows_iff] at hstands
      exact hstands
    · exact translate_of_accessFault hcanonical (hlookup.trans he)
    · exact translate_of_leaf hcanonical hp (hlookup.trans he)
  · have hlookup := (lookup_of_tlbPick_none (s.choiceFor acc).2 hpick).trans (walk_eq_walkFrom _ hreaches)
    refine ⟨fun hrefused => translate_of_accessFault hcanonical (hlookup.trans (walkFrom_of_refused _ hrefused)),
      fun pte hentry hend => ?_⟩
    obtain ⟨hleaf, hfault⟩ := walkFrom_of_end (s.choiceFor acc).2 hentry hend
    by_cases hvalid : leafValid i pte
    · obtain ⟨hgrants, hrefuses⟩ := translate_of_leaf (acc := acc) hcanonical hp (hlookup.trans (hleaf hvalid))
      exact ⟨fun h => hgrants h.2, fun h => hrefuses fun hg => h ⟨hvalid, hg⟩⟩
    · exact ⟨fun h => absurd h.1 hvalid, fun _ => translate_of_pageFault hcanonical (hlookup.trans (hfault hvalid))⟩

/-! ### What a translated access went through (20_memory.md R145 to R150) -/

theorem TlbEntry.isFor_of_result (e : TlbEntry) (va : Word) : e.isFor va := by
  unfold TlbEntry.isFor TlbEntry.covers TlbEntry.isGlobal
  cases e.result with
  | leaf i pte =>
    refine ⟨fun j q h => ?_, fun h => absurd rfl (h i pte)⟩
    cases h
    exact ⟨beq_iff_eq, rfl⟩
  | pageFault | accessFault entry => exact ⟨fun i pte h => (nomatch h), fun _ => ⟨by simp [WalkResult.level], rfl⟩⟩

/-- A kept leaf is valid and of one of the five levels. -/
theorem TlbEntry.leaf_of_wf {e : TlbEntry} (hwf : e.wf = true) {level : Nat} {pte : Word} (h : e.result = .leaf level pte) :
    level < 5 ∧ pte.getLsbD 0 = true := by
  rw [TlbEntry.wf, h] at hwf
  simp only [Bool.and_eq_true, decide_eq_true_eq, Bool.not_eq_true'] at hwf
  obtain ⟨⟨⟨hlevel, hvalid⟩, -⟩, -⟩ := hwf
  refine ⟨hlevel, ?_⟩
  simp only [pteInvalid, Bool.or_eq_false_iff, Bool.not_eq_false'] at hvalid
  exact hvalid.1.1

/-- The address through a leaf keeps the offset in the page and has 56 bits. -/
theorem leafAddr_bounds {level : Nat} (hlevel : level < 5) (pte va : Word) :
    leafAddr level pte va < 2 ^ 56 ∧ leafAddr level pte va % 4096 = va.toNat % 4096 := by
  have hppn : ptePpn pte < 2 ^ 44 := (pte.extractLsb' 10 44).isLt
  unfold leafAddr
  generalize ptePpn pte = ppn at hppn
  obtain rfl | rfl | rfl | rfl | rfl : level = 0 ∨ level = 1 ∨ level = 2 ∨ level = 3 ∨ level = 4 := by omega
  all_goals
    dsimp only
    omega

/-- The bits that let an access through a leaf (20_memory.md R146, R147). -/
theorem bits_of_permitted {s : State} {acc : Access} {p : Priv} {pte : Word} (hpermits : s.leafPermits acc p pte = true)
    (hdirty : accessedDirtyOk acc pte = true) :
    pte.getLsbD 6 = true ∧ (acc = .fetch → pte.getLsbD 3 = true) ∧
    (acc = .load → pte.getLsbD 1 = true ∨ (s.mstatus.mxr = true ∧ pte.getLsbD 3 = true)) ∧
    (acc = .store → pte.getLsbD 2 = true ∧ pte.getLsbD 7 = true) ∧ (p = .user → pte.getLsbD 4 = true) ∧
    (p = .supervisor → (acc = .fetch ∨ s.mstatus.sum = false) → pte.getLsbD 4 = false) := by
  unfold State.leafPermits State.userPageOk pteR pteW pteX pteU at hpermits
  unfold accessedDirtyOk pteA pteD at hdirty
  cases acc <;> cases p <;> simp at hpermits hdirty ⊢ <;> grind

/-- Settles O38: where the leaf came from, and what its bits and its level say. -/
theorem translationChecksTheLeaf : Obligations.TranslationChecksTheLeaf := by
  refine ⟨TlbEntry.isFor_of_result, fun s acc p va pa hgood _ hok => ?_⟩
  rcases translate_cases s acc p va with ⟨level, pte, hlookup, hpermits, hdirty, hleaf⟩ | hfault | hfault
  · obtain rfl : leafAddr level pte va = pa := Except.ok.inj (hleaf.symm.trans hok)
    refine ⟨level, pte, ?_⟩
    cases hpick : s.tlbPick (s.choiceFor acc).1 va with
    | some e =>
      obtain ⟨hmem, hcovers, hspace, -⟩ := tlbFits_of_tlbPick hpick
      have hresult : e.result = .leaf level pte := (lookup_of_tlbPick _ hpick).symm.trans hlookup
      obtain ⟨hlevel, hvalid⟩ := TlbEntry.leaf_of_wf (List.all_eq_true.mp hgood.tlb e hmem) hresult
      obtain ⟨hlt, hoffset⟩ := leafAddr_bounds hlevel pte va
      exact ⟨.inl ⟨e, hmem, hcovers, hspace, hresult⟩, rfl, hlt, hoffset, hvalid, bits_of_permitted hpermits hdirty⟩
    | none =>
      have hresult : s.walk (s.choiceFor acc).2 va = .leaf level pte := (lookup_of_tlbPick_none _ hpick).symm.trans hlookup
      obtain ⟨hlevel, hvalid⟩ := TlbEntry.leaf_of_wf (TlbEntry.wf_walk s 0 0 (s.choiceFor acc).2 va) hresult
      obtain ⟨hlt, hoffset⟩ := leafAddr_bounds hlevel pte va
      exact ⟨.inr hresult, rfl, hlt, hoffset, hvalid, bits_of_permitted hpermits hdirty⟩
  · exact nomatch hfault.symm.trans hok
  · exact nomatch hfault.symm.trans hok

/-! ### PMP and PMA after translation (20_memory.md R122, R127, R130, R138) -/

theorem State.translates_eq_true_iff (s : State) (p : Priv) : s.translates p = true ↔ p ≠ .machine ∧ s.satp.mode ≠ .bare := by
  simp [State.translates]

/-- The access fault where PMP or PMA refuses the address. -/
theorem allowed_or_accessFault (s : State) (pa n : Nat) (acc : Access) (p : Priv) (va : Word) :
    let r : Except Exn Nat := if s.physAllows pa n acc p then .ok pa else .error ⟨accessFault acc, va⟩
    (s.mayAccess pa n acc p → r = .ok pa) ∧ (¬ s.mayAccess pa n acc p → failsWith r (accessFaultCode acc) va) := by
  rw [← physAllows_iff]
  refine ⟨fun h => if_pos h, fun h => ?_⟩
  rw [if_neg h]
  exact failsWith_accessFault acc va

/-- The access path after alignment is what the rules say of it. -/
theorem pathAnswers_physAddr (s : State) (acc : Access) (p : Priv) (va : Word) (n : Nat) :
    s.pathAnswers acc p va n (s.physAddr acc p va n) := by
  refine ⟨fun hplain => ?_, fun hp hmode => ?_⟩
  · have hno : ¬ s.translates p = true := fun h => by
      obtain ⟨hp, hmode⟩ := (s.translates_eq_true_iff p).mp h
      exact hplain.elim hp hmode
    rw [State.physAddr, if_neg hno]
    exact allowed_or_accessFault s va.toNat n acc p va
  · have hyes := (s.translates_eq_true_iff p).mpr ⟨hp, hmode⟩
    rw [State.physAddr, if_pos hyes]
    refine ⟨fun e he => by rw [he], fun pa hpa => ?_⟩
    rw [hpa]
    exact allowed_or_accessFault s pa n acc p va

theorem State.dataAddr_of_aligned (s : State) (acc : Access) {va : Word} {n : Nat} (h : va.toNat % n = 0) :
    s.dataAddr acc va n = s.physAddr acc s.effectivePriv va n := if_neg (by simpa using h)

/-- What the access path lets through, both checks allow. -/
theorem mayAccess_of_physAddr {s : State} {acc : Access} {p : Priv} {va : Word} {n pa : Nat}
    (h : s.physAddr acc p va n = .ok pa) : s.mayAccess pa n acc p := by
  rcases physAddr_cases s acc p va n with ⟨pb, -, hallows, hok⟩ | hfault | hfault
  · obtain rfl : pb = pa := Except.ok.inj (hok.symm.trans h)
    exact (physAllows_iff ..).mp hallows
  · exact nomatch hfault.symm.trans h
  · exact nomatch hfault.symm.trans h

/-- A load or store that the access path lets through is aligned and allowed. -/
theorem mayAccess_of_dataAddr {s : State} {acc : Access} {va : Word} {n pa : Nat} (h : s.dataAddr acc va n = .ok pa) :
    va.toNat % n = 0 ∧ s.mayAccess pa n acc s.effectivePriv := by
  by_cases haligned : va.toNat % n = 0
  · rw [s.dataAddr_of_aligned acc haligned] at h
    exact ⟨haligned, mayAccess_of_physAddr h⟩
  · exact nomatch (s.dataAddr_of_misaligned acc va n haligned).symm.trans h

/-- Settles O39: alignment first, then the access path, for a load or store and for a fetch. -/
theorem dataAccessFaults : Obligations.DataAccessFaults := by
  intro s acc va n
  refine ⟨fun hmis => ?_, fun haligned => ?_, pathAnswers_physAddr s .fetch s.priv s.pc 4, fun pa h => mayAccess_of_dataAddr h⟩
  · rw [s.dataAddr_of_misaligned acc va n hmis]
    exact failsWith_misalignedFault acc va
  · rw [s.dataAddr_of_aligned acc haligned]
    exact pathAnswers_physAddr s acc s.effectivePriv va n

/-- Settles O40: nothing translates and nothing refuses. -/
theorem plainMachineAccess : Obligations.PlainMachineAccess := by
  intro s acc va n r hmachine hmprv hoff haligned hregion hbase hend hlimit hattr
  have heffective : s.effectivePriv = .machine := by rw [State.effectivePriv, hmprv, ← hmachine]; rfl
  have hmay : s.mayAccess va.toNat n acc .machine :=
    ⟨(s.pmpCheck_of_all_off va.toNat n acc .machine hoff).mpr rfl, r, hregion, hbase, hend, hlimit, hattr⟩
  rw [s.dataAddr_of_aligned acc haligned, heffective]
  exact ((pathAnswers_physAddr s acc .machine va n).1 (.inl rfl)).1 hmay

/-! ### The bytes of a fetch (20_memory.md R163) -/

theorem fetchByte_of_fresh {s : State} {a : Nat} (h : staleCandidates s.fetchStale a = []) :
    s.fetchByte a = s.readPhysByte 1 a := by
  rw [State.fetchByte, h]

theorem fetchByte_of_fresh_main {s : State} {a : Nat} (hmain : isMainMemory s.platform a = true)
    (h : staleCandidates s.fetchStale a = []) : s.fetchByte a = Memory.read s.mem a :=
  (fetchByte_of_fresh h).trans (readPhysByte_main s 1 a hmain)

theorem fetchByte_mem_of_stale {s : State} {a : Nat} (hmain : isMainMemory s.platform a = true)
    (h : staleCandidates s.fetchStale a ≠ []) : s.fetchByte a ∈ staleCandidates s.fetchStale a := by
  unfold State.fetchByte
  split
  next hnil => exact absurd hnil h
  next hvs =>
    have hpos := List.length_pos_of_ne_nil h
    rw [if_pos hmain, List.getD_eq_getElem _ _ (Nat.mod_lt _ hpos)]
    exact List.getElem_mem _

/-- Settles O48. -/
theorem fetchSeesOldOrNewBytes : Obligations.FetchSeesOldOrNewBytes := fun _ _ =>
  ⟨fetchByte_of_fresh, fun hmain => ⟨fetchByte_of_fresh_main hmain, fetchByte_mem_of_stale hmain, _, rfl,
    fetchByte_of_fresh_main (s := State.retire _) hmain rfl⟩⟩

end Sys2Proof.Machine

/-! ## Loads and stores -/

namespace Sys2Proof.Machine

/-! ### Bytes and values (20_memory.md R121) -/

theorem getElem_addressesFrom (a n k : Nat) (h : k < (addressesFrom a n).length) : (addressesFrom a n)[k] = a + k := by
  induction n generalizing a k with
  | zero => cases h
  | succ n ih =>
    cases k with
    | zero => rfl
    | succ k =>
      simp only [addressesFrom, List.getElem_cons_succ]
      rw [ih]
      omega

/-- Byte `k` of a value. -/
theorem getElem_toBytes (v : Word) (n k : Nat) (h : k < (toBytes v n).length) :
    (toBytes v n)[k].toNat = v.toNat / 256 ^ k % 256 := by
  induction n generalizing v k with
  | zero => cases h
  | succ n ih =>
    cases k with
    | zero => simp [toBytes]
    | succ k =>
      simp only [toBytes, List.getElem_cons_succ]
      rw [ih, BitVec.toNat_ushiftRight, Nat.shiftRight_eq_div_pow, Nat.div_div_eq_div_mul, Nat.pow_succ 256, Nat.mul_comm]

/-- The bytes of a value are its low bytes. -/
theorem littleEndian_toBytes (v : Word) (n : Nat) : littleEndian (toBytes v n) = v.toNat % 256 ^ n := by
  induction n generalizing v with
  | zero => simp [toBytes, littleEndian, Nat.mod_one]
  | succ n ih =>
    rw [toBytes, littleEndian, ih, BitVec.toNat_setWidth, BitVec.toNat_ushiftRight, Nat.shiftRight_eq_div_pow,
      Nat.pow_succ' (m := 256)]
    exact (Nat.mod_mul (x := v.toNat) (a := 256) (b := 256 ^ n)).symm

theorem ofBytes_toBytes_eight (v : Word) : ofBytes (toBytes v 8) = v := by
  apply BitVec.eq_of_toNat_eq
  rw [(ofBytes_toNat _ (by rw [length_toBytes])).1, littleEndian_toBytes]
  exact Nat.mod_eq_of_lt v.isLt

/-! ### What a load writes (44_load_store_fence.md R331 to R338) -/

theorem le_eight_of_loadForm {i : Instr} {rd rs1 : Reg} {imm : BitVec 12} {n : Nat} {signed : Bool}
    (h : loadForm i = some (rd, rs1, imm, n, signed)) : n ≤ 8 := by
  unfold loadForm at h
  split at h <;> cases h <;> decide

/-- The value a load widens, as a number. -/
theorem loadWiden_eq (n : Nat) (signed : Bool) (w : Word) :
    loadWiden n signed w =
      if signed then BitVec.ofInt 64 (Int.bmod w.toNat (2 ^ (8 * n))) else BitVec.ofNat 64 w.toNat := by
  unfold loadWiden
  split
  · rw [BitVec.signExtend, BitVec.toInt_eq_toNat_bmod, BitVec.toNat_setWidth, Int.natCast_emod, Int.emod_bmod]
  · rw [BitVec.ofNat_toNat, BitVec.setWidth_eq]

theorem State.noteDevice_of_main (s : State) (isStore : Bool) {a n : Nat} (v : Word) (h : allMainMemory s.platform a n) :
    s.noteDevice isStore a n v = s := by
  refine if_pos (List.all_eq_true.mpr fun y hy => ?_)
  obtain ⟨hle, hlt⟩ := (mem_addressesFrom a n y).mp hy
  exact h y hle hlt

/-- A load whose access is allowed. -/
theorem exec_of_load_ok {i : Instr} {s : State} {rd rs1 : Reg} {imm : BitVec 12} {n : Nat} {signed : Bool} {pa : Nat}
    (hform : loadForm i = some (rd, rs1, imm, n, signed)) (hok : s.dataAddr .load (s.effectiveAddr rs1 imm) n = .ok pa) :
    exec i s = .next (((s.noteDevice false pa n (s.readPhys 0 pa n)).setX rd (loadWiden n signed (s.readPhys 0 pa n))).retireTo
      (s.pc + 4)) := by
  rw [exec_of_loadForm hform]
  rcases loadInto_cases s rd (s.effectiveAddr rs1 imm) n (loadWiden n signed) with ⟨e, he, -⟩ | ⟨pb, hpb, hload⟩
  · exact nomatch he.symm.trans hok
  · obtain rfl : pb = pa := Except.ok.inj (hpb.symm.trans hok)
    rw [hload]

/-- Settles O41: the bytes read, as a number, and the log of device accesses. -/
theorem loadsComplete : Obligations.LoadsComplete := by
  rintro s i rd rs1 imm n signed pa v hform hok rfl
  have hlength : ((addressesFrom pa n).map (s.readPhysByte 0)).length ≤ 8 := by
    rw [List.length_map, length_addressesFrom]
    exact le_eight_of_loadForm hform
  have hvalue := loadWiden_eq n signed (s.readPhys 0 pa n)
  rw [State.readPhys, (ofBytes_toNat _ hlength).1] at hvalue
  refine ⟨(s.noteDevice false pa n (s.readPhys 0 pa n)).deviceLog, completesOver_intro rfl rfl ?_, fun hmain => ⟨?_, ?_⟩⟩
  · rw [exec_of_load_ok hform hok, ← hvalue, ← State.noteDevice_frame]
    rfl
  · rw [s.noteDevice_of_main _ _ hmain]
  · refine congrArg littleEndian (List.map_congr_left fun y hy => ?_)
    obtain ⟨hle, hlt⟩ := (mem_addressesFrom pa n y).mp hy
    exact readPhysByte_main s 0 y (hmain y hle hlt)

/-! ### What a store of bytes leaves (44_load_store_fence.md R331; 20_memory.md R163) -/

theorem addCandidate_ne_nil (vs : List Byte) (v : Byte) : addCandidate vs v ≠ [] :=
  List.ne_nil_of_mem ((mem_addCandidate vs v v).mpr (.inr rfl))

/-- What is stored to is in `fetch_stale`. -/
theorem staleCandidates_noteStale_ne_nil (f : List (Nat × List Byte)) (x : Nat) (old new : Byte) :
    staleCandidates (noteStale f x old new) x ≠ [] := by
  induction f with
  | nil =>
    rw [noteStale, staleCandidates, if_pos rfl]
    exact addCandidate_ne_nil _ _
  | cons c rest ih =>
    obtain ⟨a, vs⟩ := c
    unfold noteStale
    split
    · rw [staleCandidates, if_pos rfl]
      exact addCandidate_ne_nil _ _
    · split
      · rw [staleCandidates, if_pos rfl]
        exact addCandidate_ne_nil _ _
      next hne =>
        rw [staleCandidates, if_neg (Ne.symm hne)]
        exact ih

/-- What is noted of a byte stored to: what was noted before, or else what memory held, and the byte. -/
theorem mem_staleCandidates_noteStale {f : List (Nat × List Byte)} (hwf : staleWf f = true) (x : Nat) (old new b : Byte) :
    b ∈ staleCandidates (noteStale f x old new) x ↔
      b = new ∨ b ∈ staleCandidates f x ∨ (staleCandidates f x = [] ∧ b = old) := by
  rw [staleCandidates_noteStale f hwf, if_pos rfl, mem_addCandidate]
  cases staleCandidates f x <;> simp [or_comm]

/-- What is noted of other bytes stays. -/
theorem staleCandidates_writePhysBytes_other (s : State) (a : Nat) (bs : List Byte) {y : Nat}
    (h : ¬ (a ≤ y ∧ y < a + bs.length)) :
    staleCandidates (s.writePhysBytes a bs).fetchStale y = staleCandidates s.fetchStale y := by
  induction bs generalizing s a with
  | nil => rfl
  | cons b rest ih =>
    rw [List.length_cons] at h
    rw [State.writePhysBytes, ih _ _ (by omega), State.writePhysByte_fetchStale,
      staleCandidates_noteStale_other _ _ _ _ _ (by omega)]

/-- Every byte stored to is noted. -/
theorem staleCandidates_writePhysBytes_ne_nil (s : State) (a : Nat) (bs : List Byte) (k : Nat) (h : k < bs.length) :
    staleCandidates (s.writePhysBytes a bs).fetchStale (a + k) ≠ [] := by
  induction bs generalizing s a k with
  | nil => cases h
  | cons b rest ih =>
    rw [State.writePhysBytes]
    cases k with
    | zero =>
      rw [staleCandidates_writePhysBytes_other _ _ _ (by omega), State.writePhysByte_fetchStale]
      exact staleCandidates_noteStale_ne_nil _ _ _ _
    | succ k =>
      rw [show a + (k + 1) = a + 1 + k by omega]
      exact ih _ _ k (by simpa using h)

/-- What is noted of a byte stored to. -/
theorem mem_staleCandidates_writePhysBytes (s : State) (hwf : staleWf s.fetchStale = true) (a : Nat) (bs : List Byte) (k : Nat)
    (h : k < bs.length) (b : Byte) :
    b ∈ staleCandidates (s.writePhysBytes a bs).fetchStale (a + k) ↔
      b = bs[k] ∨ b ∈ staleCandidates s.fetchStale (a + k) ∨
      (staleCandidates s.fetchStale (a + k) = [] ∧ b = Memory.read s.mem (a + k)) := by
  induction bs generalizing s a k with
  | nil => cases h
  | cons c rest ih =>
    rw [State.writePhysBytes]
    cases k with
    | zero =>
      rw [staleCandidates_writePhysBytes_other _ _ _ (by omega), State.writePhysByte_fetchStale]
      exact mem_staleCandidates_noteStale hwf ..
    | succ k =>
      have hother : a + 1 + k ≠ a := by omega
      rw [show a + (k + 1) = a + 1 + k by omega,
        ih (s.writePhysByte a c) (staleWf_writePhysByte s a c hwf) (a + 1) k (by simpa using h), State.writePhysByte_fetchStale,
        staleCandidates_noteStale_other _ _ _ _ _ hother, read_writePhysByte_other _ _ _ _ hother, List.getElem_cons_succ]

/-- A store to a byte outside main memory leaves memory there. -/
theorem read_writePhysBytes_of_device (s : State) (a : Nat) (bs : List Byte) {y : Nat} (h : isMainMemory s.platform y = false) :
    Memory.read (s.writePhysBytes a bs).mem y = Memory.read s.mem y := by
  induction bs generalizing s a with
  | nil => rfl
  | cons b rest ih =>
    rw [State.writePhysBytes, ih (s.writePhysByte a b) (a + 1) (by simpa using h)]
    by_cases hy : y = a
    · subst hy
      obtain ⟨-, -, -, hmem⟩ := writePhysByte_device s y b
      rw [hmem h]
    · exact read_writePhysByte_other s a b y hy

/-- A store changes no interrupt input but MSIP. -/
theorem irqIn_writePhysBytes (s : State) (a : Nat) (bs : List Byte) :
    (s.writePhysBytes a bs).irqIn = { s.irqIn with msi := (s.writePhysBytes a bs).irqIn.msi } := by
  induction bs generalizing s a with
  | nil => rfl
  | cons b rest ih =>
    obtain ⟨hbyte, -⟩ := writePhysByte_device s a b
    have h := ih (s.writePhysByte a b) (a + 1)
    rw [hbyte] at h
    exact h

/-- A store that does not touch the first byte of the MSIP word changes no interrupt input. -/
theorem irqIn_writePhysBytes_of_not_msip (s : State) (a : Nat) (bs : List Byte)
    (h : ∀ m, s.platform.msipAddr = some m →
      ¬ (a ≤ m + 4 * s.platform.hartId.toNat ∧ m + 4 * s.platform.hartId.toNat < a + bs.length)) :
    (s.writePhysBytes a bs).irqIn = s.irqIn := by
  induction bs generalizing s a with
  | nil => rfl
  | cons b rest ih =>
    simp only [List.length_cons] at h
    obtain ⟨-, hbyte, -⟩ := writePhysByte_device s a b
    rw [State.writePhysBytes, ih (s.writePhysByte a b) (a + 1), hbyte]
    · intro m hm
      have := h m hm
      omega
    · intro m hm
      rw [State.writePhysByte_platform] at hm ⊢
      have := h m hm
      omega

/-- A store that does not touch `mtimecmp` leaves it. -/
theorem mtimecmp_writePhysBytes_of_not_mtimecmp (s : State) (a : Nat) (bs : List Byte)
    (h : ∀ c, s.platform.mtimecmpAddr = some c → a + bs.length ≤ c ∨ c + 8 ≤ a) :
    (s.writePhysBytes a bs).mtimecmp = s.mtimecmp := by
  induction bs generalizing s a with
  | nil => rfl
  | cons b rest ih =>
    simp only [List.length_cons] at h
    obtain ⟨-, -, hbyte, -⟩ := writePhysByte_device s a b
    rw [State.writePhysBytes, ih (s.writePhysByte a b) (a + 1), hbyte]
    · intro c hc
      have := h c hc
      omega
    · intro c hc
      rw [State.writePhysByte_platform] at hc
      have := h c hc
      omega

/-- A store in main memory touches no device. -/
theorem devices_writePhysBytes_of_main (s : State) (a : Nat) (bs : List Byte) (h : allMainMemory s.platform a bs.length) :
    (s.writePhysBytes a bs).irqIn = s.irqIn ∧ (s.writePhysBytes a bs).mtimecmp = s.mtimecmp := by
  induction bs generalizing s a with
  | nil => exact ⟨rfl, rfl⟩
  | cons b rest ih =>
    rw [List.length_cons] at h
    have hmain := writePhysByte_main s a b (h a (by omega) (by omega))
    obtain ⟨hirq, hcmp⟩ := ih (s.writePhysByte a b) (a + 1) fun y hle hlt => by
      rw [State.writePhysByte_platform]
      exact h y (by omega) (by omega)
    rw [hmain] at hirq hcmp
    rw [State.writePhysBytes, hmain]
    exact ⟨hirq, hcmp⟩

/-! ### The stores (44_load_store_fence.md R339 to R342) -/

/-- The state a store leaves: what its bytes change, the log of device accesses, and that it completed. -/
def State.afterStore (s : State) (pa n : Nat) (v : Word) (log : List DeviceAccess) : State :=
  let w := s.writePhysBytes pa (toBytes v n)
  { s with mem := w.mem, fetchStale := w.fetchStale, irqIn := w.irqIn, mtimecmp := w.mtimecmp, deviceLog := log,
           pc := s.pc + 4, minstret := s.minstret + 1 }

/-- A store whose access is allowed. -/
theorem exec_of_store_ok {i : Instr} {s : State} {rs1 rs2 : Reg} {imm : BitVec 12} {n pa : Nat}
    (hform : storeForm i = some (rs1, rs2, imm, n)) (hok : s.dataAddr .store (s.effectiveAddr rs1 imm) n = .ok pa) :
    ∃ log, exec i s = .next (s.afterStore pa n (s.readX rs2) log) ∧ (allMainMemory s.platform pa n → log = s.deviceLog) := by
  rcases storeFrom_cases s (s.effectiveAddr rs1 imm) n (s.readX rs2) with ⟨e, he, -⟩ | ⟨pb, hpb, hstore⟩
  · exact nomatch he.symm.trans hok
  obtain rfl : pb = pa := Except.ok.inj (hpb.symm.trans hok)
  rw [exec_of_storeForm hform, hstore]
  refine ⟨((s.writePhysBytes pb (toBytes (s.readX rs2) n)).noteDevice true pb n
    (s.readX rs2 &&& BitVec.ofNat 64 (2 ^ (8 * n) - 1))).deviceLog, ?_, fun hmain => ?_⟩
  · rw [State.noteDevice_frame, s.writePhysBytes_frame pb]
    rfl
  · rw [State.noteDevice_of_main _ _ _ (by rwa [State.writePhysBytes_platform]), State.writePhysBytes_deviceLog]

/-- Settles O42: `State.afterStore`, field by field. -/
theorem storesComplete : Obligations.StoresComplete := by
  intro s i rs1 rs2 imm n pa hform hok
  obtain ⟨log, hexec, hlog⟩ := exec_of_store_ok hform hok
  have hlength : (toBytes (s.readX rs2) n).length = n := length_toBytes ..
  have hread := fun y => read_writePhysBytes s pa (toBytes (s.readX rs2) n) y
  refine ⟨_, hexec, fun r => rfl, rfl, rfl, fun a ha => (hread a).1 (by rwa [hlength]), fun hwf k hk hmain => ?_,
    fun k hk => staleCandidates_writePhysBytes_ne_nil s pa _ k (by rwa [hlength]), fun hwf k hk _ b => ?_,
    fun a ha => staleCandidates_writePhysBytes_other s pa _ (by rwa [hlength]), rfl,
    fun k _ hdevice => read_writePhysBytes_of_device s pa _ hdevice, irqIn_writePhysBytes s pa _,
    fun h => irqIn_writePhysBytes_of_not_msip s pa _ (by rwa [hlength]),
    fun h => mtimecmp_writePhysBytes_of_not_mtimecmp s pa _ (by rwa [hlength]), fun hmain => ?_⟩
  · have hbyte := (hread (pa + k)).2 hwf hmain (Nat.le_add_right ..) (by rwa [Nat.add_sub_cancel_left, hlength])
    refine (congrArg BitVec.toNat hbyte).trans ?_
    rw [getElem_toBytes, Nat.add_sub_cancel_left]
  · have hk' : k < (toBytes (s.readX rs2) n).length := by rwa [hlength]
    refine (mem_staleCandidates_writePhysBytes s hwf pa _ k hk' b).trans (or_congr_left ?_)
    rw [← getElem_toBytes (s.readX rs2) n k hk', BitVec.toNat_inj]
  · obtain ⟨hirq, hcmp⟩ := devices_writePhysBytes_of_main s pa (toBytes (s.readX rs2) n) (by rwa [hlength])
    exact ⟨hirq, hcmp, hlog hmain⟩

/-- Settles O45: what raises in the access path is the trap taken. -/
theorem faultingAccessesTrap : Obligations.FaultingAccessesTrap := fun _ _ _ =>
  ⟨fun _ _ _ _ _ hform herror => raises_of_load_error hform herror, fun _ _ _ _ hform herror => raises_of_store_error hform herror⟩

/-! ### A load after a store (20_memory.md R160) -/

/-- The bytes in memory after a store of main memory are those stored. -/
theorem map_read_afterStore {s : State} (hwf : Memory.wf s.mem = true) {pa n : Nat} (hmain : allMainMemory s.platform pa n)
    (v : Word) (log : List DeviceAccess) :
    (addressesFrom pa n).map (Memory.read (s.afterStore pa n v log).mem) = toBytes v n := by
  refine List.ext_getElem (by rw [List.length_map, length_addressesFrom, length_toBytes]) fun k hk hk' => ?_
  have hlt : k < n := by rwa [length_toBytes] at hk'
  have hbyte := (read_writePhysBytes s pa (toBytes v n) (pa + k)).2 hwf (hmain _ (by omega) (by omega)) (by omega)
    (by rwa [Nat.add_sub_cancel_left])
  rw [List.getElem_map, getElem_addressesFrom]
  refine hbyte.trans ?_
  simp only [Nat.add_sub_cancel_left]

/-- Without translation the access path does not look at memory. -/
theorem dataAddr_afterStore {s : State} (hplain : s.translates s.effectivePriv = false) (acc : Access) (va : Word) (n pa m : Nat)
    (v : Word) (log : List DeviceAccess) : (s.afterStore pa m v log).dataAddr acc va n = s.dataAddr acc va n := by
  have hplain' : (s.afterStore pa m v log).translates (s.afterStore pa m v log).effectivePriv = false := hplain
  rw [State.dataAddr, State.dataAddr, State.physAddr, State.physAddr, hplain, hplain']
  rfl

/-- Settles O43: the load goes to the same address and reads the bytes of the store. -/
theorem loadAfterStore : Obligations.LoadAfterStore := by
  intro s rd rs1 rs2 imm pa hwf hplain hmain hstore hload
  obtain ⟨log, hexec, -⟩ := exec_of_store_ok (i := .sd rs1 rs2 imm) rfl hstore
  have hload' : (s.afterStore pa 8 (s.readX rs2) log).dataAddr .load
      ((s.afterStore pa 8 (s.readX rs2) log).effectiveAddr rs1 imm) 8 = .ok pa :=
    (dataAddr_afterStore hplain .load _ 8 pa 8 _ log).trans hload
  have hvalue : (s.afterStore pa 8 (s.readX rs2) log).readPhys 0 pa 8 = s.readX rs2 := by
    rw [readPhys_main (s.afterStore pa 8 (s.readX rs2) log) 0 pa 8 hmain, map_read_afterStore hwf hmain, ofBytes_toBytes_eight]
  refine ⟨_, _, hexec, exec_of_load_ok (i := .ld rd rs1 imm) rfl hload', ?_⟩
  rw [hvalue, loadWiden_eight, readX_retireTo, readX_setX, if_pos rfl]
  rfl

/-! ### The MSIP word (60_exceptions.md R396) -/

theorem deviceRegAt_of_msip {p : Platform} {m k : Nat} (h : p.msipAddr = some m) (hk : k < 4) :
    deviceRegAt p (m + 4 * p.hartId.toNat + k) = some (.msip k) := by
  have hplace : placeIn (msipWordAddr p) 4 (m + 4 * p.hartId.toNat + k) = some k := by
    simp [placeIn, msipWordAddr, h, hk]
  rw [deviceRegAt, hplace]

/-- A store of a byte of the MSIP word sets the input with the first one and does nothing with the others. -/
theorem writePhysByte_msip {s : State} {a k : Nat} (h : deviceRegAt s.platform a = some (.msip k)) (b : Byte) :
    (s.writePhysByte a b).irqIn = (if k = 0 then { s.irqIn with msi := b.getLsbD 0 } else s.irqIn) ∧
    (s.writePhysByte a b).mem = s.mem ∧ (s.writePhysByte a b).mtimecmp = s.mtimecmp := by
  unfold State.writePhysByte
  rw [h]
  cases k <;> exact ⟨rfl, rfl, rfl⟩

/-- Stores to the upper bytes of the MSIP word do nothing. -/
theorem writePhysBytes_msip_upper {s : State} {m k : Nat} (h : s.platform.msipAddr = some m) (hk : 0 < k) (bs : List Byte)
    (hend : k + bs.length ≤ 4) :
    (s.writePhysBytes (m + 4 * s.platform.hartId.toNat + k) bs).irqIn = s.irqIn ∧
    (s.writePhysBytes (m + 4 * s.platform.hartId.toNat + k) bs).mem = s.mem ∧
    (s.writePhysBytes (m + 4 * s.platform.hartId.toNat + k) bs).mtimecmp = s.mtimecmp := by
  induction bs generalizing s k with
  | nil => exact ⟨rfl, rfl, rfl⟩
  | cons b rest ih =>
    rw [List.length_cons] at hend
    obtain ⟨hirq, hmem, hcmp⟩ := writePhysByte_msip (deviceRegAt_of_msip h (show k < 4 by omega)) b
    rw [if_neg (by omega)] at hirq
    have hrest := ih (s := s.writePhysByte (m + 4 * s.platform.hartId.toNat + k) b) (k := k + 1) (by simpa using h) (by omega)
      (by omega)
    rwa [State.writePhysByte_platform, hirq, hmem, hcmp] at hrest

/-- A 4-byte store to the MSIP word. -/
theorem writePhysBytes_msip {s : State} {m : Nat} (h : s.platform.msipAddr = some m) (v : Word) :
    (s.writePhysBytes (m + 4 * s.platform.hartId.toNat) (toBytes v 4)).irqIn = { s.irqIn with msi := v.getLsbD 0 } ∧
    (s.writePhysBytes (m + 4 * s.platform.hartId.toNat) (toBytes v 4)).mem = s.mem ∧
    (s.writePhysBytes (m + 4 * s.platform.hartId.toNat) (toBytes v 4)).mtimecmp = s.mtimecmp := by
  obtain ⟨hirq, hmem, hcmp⟩ := writePhysByte_msip (deviceRegAt_of_msip h (k := 0) (by decide)) (v.setWidth 8)
  have hupper := writePhysBytes_msip_upper (s := s.writePhysByte (m + 4 * s.platform.hartId.toNat) (v.setWidth 8)) (k := 1)
    (by simpa using h) Nat.one_pos (toBytes (v >>> 8) 3) (by rw [length_toBytes])
  rw [Nat.add_zero] at hirq hmem hcmp
  rw [State.writePhysByte_platform, hirq, hmem, hcmp, if_pos rfl, BitVec.getLsbD_setWidth] at hupper
  exact hupper

/-- A 4-byte load of the MSIP word. -/
theorem littleEndian_msip {s : State} {m : Nat} (h : s.platform.msipAddr = some m) :
    littleEndian ((addressesFrom (m + 4 * s.platform.hartId.toNat) 4).map (s.readPhysByte 0)) = if s.irqIn.msi then 1 else 0 := by
  have hbyte : ∀ k, k < 4 → s.readPhysByte 0 (m + 4 * s.platform.hartId.toNat + k) = s.deviceRegRead (.msip k) := fun k hk => by
    rw [State.readPhysByte, deviceRegAt_of_msip h hk]
  have h0 := hbyte 0 (by decide)
  have h1 := hbyte 1 (by decide)
  have h2 := hbyte 2 (by decide)
  have h3 := hbyte 3 (by decide)
  simp only [addressesFrom, List.map_cons, List.map_nil, Nat.add_assoc, Nat.reduceAdd, Nat.add_zero] at h0 h1 h2 h3 ⊢
  rw [h0, h1, h2, h3]
  cases hmsi : s.irqIn.msi <;> simp [State.deviceRegRead, hmsi, littleEndian]

/-- Settles O46: the four bytes of the word, stored and read. -/
theorem msipWord : Obligations.MsipWord := by
  intro s rd rs1 rs2 imm m hmsip
  refine ⟨fun hok => ?_, fun hok => ?_⟩
  · obtain ⟨log, hexec, -⟩ := exec_of_store_ok (i := .sw rs1 rs2 imm) rfl hok
    obtain ⟨hirq, hmem, hcmp⟩ := writePhysBytes_msip hmsip (s.readX rs2)
    have hmsi : (s.afterStore (m + 4 * s.platform.hartId.toNat) 4 (s.readX rs2) log).irqIn.msi = (s.readX rs2).getLsbD 0 :=
      congrArg IrqIn.msi hirq
    refine ⟨_, hexec, hmsi, ?_, hmem, ?_, hcmp⟩
    · rw [State.mipRead, mipWith_getLsbD, hmsi]
      simp
    · rw [hmsi]
      exact hirq
  · obtain ⟨log, ⟨t, hexec, hread, -⟩, -⟩ := loadsComplete s (.lw rd rs1 imm) rd rs1 imm 4 true _ _ rfl hok rfl
    refine ⟨t, hexec, hread.trans ?_⟩
    rw [littleEndian_msip hmsip]
    cases s.irqIn.msi <;> by_cases hrd : rd = 0#5 <;> simp [hrd]

end Sys2Proof.Machine

/-! ## A step and the environment -/

namespace Sys2Proof.Machine

/-! ### Waiting (41_system_instructions.md R250) -/

/-- An interrupt that is taken is pending and locally enabled. -/
theorem irqPending_of_pendingInterrupt {s : State} {c : Irq} (h : s.pendingInterrupt = some c) : s.irqPending c = true := by
  have htakeable : s.irqTakeable c = true := by
    rcases (s.pendingInterrupt_eq_some_iff c).mp h with hfind | ⟨-, hfind⟩
    · have hboth := List.find?_some hfind
      exact (Bool.and_eq_true_iff.mp hboth).1
    · have hboth := List.find?_some hfind
      exact (Bool.and_eq_true_iff.mp hboth).1
  exact (Bool.and_eq_true_iff.mp htakeable).1

theorem pendingInterrupt_eq_none_of_quiet {s : State} (h : s.mipRead &&& s.mie = 0) : s.pendingInterrupt = none := by
  cases hirq : s.pendingInterrupt with
  | none => rfl
  | some c =>
    have hbit : (s.mipRead &&& s.mie).getLsbD (irqCode c) = true :=
      (BitVec.getLsbD_and ..).trans (irqPending_of_pendingInterrupt hirq)
    rw [h] at hbit
    exact absurd hbit (by rw [show (0 : Word).getLsbD (irqCode c) = false from BitVec.getLsbD_zero]; decide)

/-- The hart still waits when it waited, the implementation does not end it, and nothing is pending and enabled. -/
theorem State.wakeUp_waiting_iff (s : State) (wake : Bool) :
    (s.wakeUp wake).waiting = true ↔ s.waiting = true ∧ wake = false ∧ s.mipRead &&& s.mie = 0 := by
  simp [State.wakeUp, and_assoc]

/-- What ends the waiting is looked at in the state as it then stands. -/
theorem State.sample_waiting_iff (s : State) :
    s.sample.waiting = true ↔ s.waiting = true ∧ s.nextInput.wake = false ∧ s.sample.mipRead &&& s.sample.mie = 0 := by
  rw [State.sample, State.wakeUp_waiting_iff, State.envFills_waiting, State.envWrites_waiting]
  rfl

/-- Settles O7: `State.sample_waiting_iff`, and that nothing is taken or executed while it holds. -/
theorem waitingEndsOnPendingInterrupt : Obligations.WaitingEndsOnPendingInterrupt := by
  refine ⟨fun s hpending => ?_, fun s hwait => ?_, fun s hawake => ?_⟩
  · by_contra hwait
    exact hpending (s.sample_waiting_iff.mp (by simpa using hwait)).2.2
  · have hquiet := pendingInterrupt_eq_none_of_quiet (s.sample_waiting_iff.mp hwait).2.2
    rw [step, hartStep, hquiet]
    exact if_pos hwait
  · by_contra hwait
    obtain ⟨hbefore, -⟩ := s.sample_waiting_iff.mp (by simpa using hwait)
    rw [hawake] at hbefore
    cases hbefore

/-! ### What a step fetches (20_memory.md R122; 60_exceptions.md R375) -/

/-- A fetch fails where its address does, with one of two faults of its own address. -/
theorem fetch_error_cases {s : State} {e : Exn} (h : s.fetch = .error e) :
    e = ⟨.instrPageFault, s.pc⟩ ∨ e = ⟨.instrAccessFault, s.pc⟩ := by
  unfold State.fetch State.fetchAddr at h
  rcases physAddr_cases s .fetch s.priv s.pc 4 with ⟨pa, -, -, hok⟩ | hfault | hfault
  · rw [hok] at h
    cases h
  · rw [hfault] at h
    exact .inl (Except.error.inj h).symm
  · rw [hfault] at h
    exact .inr (Except.error.inj h).symm

theorem fetchInstr_of_fetch_error {s : State} {e : Exn} (h : s.fetch = .error e) : s.fetchInstr = .error e := by
  rw [State.fetchInstr, h]

/-- Settles O9: the two faults of a fetch, each with its code. -/
theorem fetchFaultsTrap : Obligations.FetchFaultsTrap := by
  rintro s _ e rfl hirq hwait hpc hfetch
  have hstep := step_of_fetchInstr_error hirq hwait hpc (fetchInstr_of_fetch_error hfetch)
  have hcases := fetch_error_cases hfetch
  rw [State.sample_pc] at hcases
  rcases hcases with rfl | rfl
  · exact ⟨.inl rfl, rfl, hstep⟩
  · exact ⟨.inr rfl, rfl, hstep⟩

/-- Where nothing is stale, a fetch gives the instruction that the bytes of memory decode to. -/
theorem fetchInstr_of_decodeBytes {s : State} {i : Instr} {pa : Nat} {rest : List Byte} (haddr : s.fetchAddr = .ok pa)
    (hmain : allMainMemory s.platform pa 4) (hfresh : ∀ a, pa ≤ a → a < pa + 4 → staleCandidates s.fetchStale a = [])
    (hdecode : decodeBytes ((addressesFrom pa 4).map (Memory.read s.mem)) = .ok (i, rest)) : s.fetchInstr = .ok i := by
  have hbyte : ∀ k, k < 4 → s.fetchByte (pa + k) = Memory.read s.mem (pa + k) := fun k hk =>
    fetchByte_of_fresh_main (hmain _ (by omega) (by omega)) (hfresh _ (by omega) (by omega))
  have hfetch : s.fetch = .ok (wordOfBytes (Memory.read s.mem pa) (Memory.read s.mem (pa + 1)) (Memory.read s.mem (pa + 2))
      (Memory.read s.mem (pa + 3))) := by
    rw [← hbyte 1 (by decide), ← hbyte 2 (by decide), ← hbyte 3 (by decide), ← Nat.add_zero pa, ← hbyte 0 (by decide), State.fetch,
      haddr]
    rfl
  rw [State.fetchInstr, hfetch]
  simp only [addressesFrom, List.map_cons, List.map_nil, Nat.add_assoc, Nat.reduceAdd, decodeBytes] at hdecode
  split at hdecode
  next j hj =>
    obtain ⟨rfl, -⟩ := Prod.mk.inj (Except.ok.inj hdecode)
    simp only [hj]
  next => cases hdecode

/-- Settles O5. -/
theorem stepRunsTheDecodedInstruction : Obligations.StepRunsTheDecodedInstruction := by
  rintro s _ i pa rest rfl hirq hwait hpc haddr hmain hfresh hdecode
  exact step_of_fetchInstr_ok hirq hwait hpc (fetchInstr_of_decodeBytes haddr hmain hfresh hdecode)

/-! ### What the environment writes (20_memory.md R162) -/

/-- What every write of a byte keeps, a list of them keeps. -/
theorem State.envWrites_induction {P : State → Prop} {s : State} {cells : List Host.Cell} (hs : P s)
    (hwrite : ∀ u, u.platform = s.platform → P u → ∀ c ∈ cells, envMayWrite s.platform c.1 = true →
      P (u.envWriteByte c.1 c.2)) : P (s.envWrites cells) := by
  have hgeneral : ∀ (rest : List Host.Cell) (u : State), rest ⊆ cells → u.platform = s.platform → P u →
      P (u.envWrites rest) := by
    intro rest
    induction rest with
    | nil => exact fun u _ _ hu => hu
    | cons c rest ih =>
      intro u hsub hplatform hu
      obtain ⟨hc, hrest⟩ := List.cons_subset.mp hsub
      rw [State.envWrites, hplatform]
      split
      next hmay =>
        refine ih _ hrest ?_ (hwrite u hplatform hu c hc hmay)
        rw [State.envWriteByte_frame]
        exact hplatform
      next => exact ih u hrest hplatform hu
  exact hgeneral cells s (List.Subset.refl _) rfl hs

/-- The environment may write where a region contains the byte. -/
theorem envMayWrite_iff (p : Platform) (a : Nat) :
    envMayWrite p a = true ↔ ∃ r ∈ p.pma, r.base ≤ a ∧ a + 1 ≤ r.base + r.size ∧ a + 1 ≤ 2 ^ 56 := by
  simp [envMayWrite, regionContains, Config.physLimit, and_assoc]

/-- A write of another byte, or of one that is not main memory, keeps what memory holds at an address and what is noted of it. -/
theorem envWriteByte_other (u : State) {a x : Nat} (b : Byte) (h : a ≠ x ∨ isMainMemory u.platform a = false) :
    Memory.read (u.envWriteByte x b).mem a = Memory.read u.mem a ∧
    staleCandidates (u.envWriteByte x b).fetchStale a = staleCandidates u.fetchStale a := by
  rcases envWriteByte_cases u x b with ⟨hmain, he⟩ | ⟨r, -, he⟩ | ⟨-, he⟩ <;> rw [he]
  · have hne : a ≠ x := h.elim id fun hdevice hax => by
      rw [hax, hmain] at hdevice
      cases hdevice
    rw [State.writePhysByte_fetchStale]
    exact ⟨read_writePhysByte_other u x b a hne, staleCandidates_noteStale_other _ _ _ _ _ hne⟩
  · obtain ⟨hmem, hstale⟩ := deviceRegWrite_mem u r b
    rw [hmem, hstale]
    exact ⟨rfl, rfl⟩
  · exact ⟨rfl, rfl⟩

/-- Outside the regions, and outside main memory, the environment writes nothing. -/
theorem envWrites_untouched (s : State) (cells : List Host.Cell) {a : Nat}
    (h : (∀ r ∈ s.platform.pma, ¬ (r.base ≤ a ∧ a + 1 ≤ r.base + r.size)) ∨ isMainMemory s.platform a = false) :
    Memory.read (s.envWrites cells).mem a = Memory.read s.mem a ∧
    staleCandidates (s.envWrites cells).fetchStale a = staleCandidates s.fetchStale a := by
  refine State.envWrites_induction (P := fun u => Memory.read u.mem a = Memory.read s.mem a ∧
    staleCandidates u.fetchStale a = staleCandidates s.fetchStale a) ⟨rfl, rfl⟩ fun u hplatform ⟨hmem, hstale⟩ c _ hmay => ?_
  obtain ⟨hmem', hstale'⟩ := envWriteByte_other u (a := a) (x := c.1) c.2 (by
    refine h.imp (fun hregions hac => ?_) (fun hdevice => by rwa [hplatform])
    obtain ⟨r, hr, hbase, hend, -⟩ := (envMayWrite_iff s.platform c.1).mp hmay
    exact hregions r hr (hac ▸ ⟨hbase, hend⟩))
  exact ⟨hmem'.trans hmem, hstale'.trans hstale⟩

/-- What memory holds at `a` and what is noted of it after writes of `cells`, in the canonical forms (notes/assumptions/14.md). -/
structure State.WritesOnly (s : State) (cells : List Host.Cell) (a : Nat) (u : State) : Prop where
  mem : Memory.wf u.mem = true
  stale : staleWf u.fetchStale = true
  read : Memory.read u.mem a = Memory.read s.mem a ∨ (a, Memory.read u.mem a) ∈ cells
  kept : ∀ b ∈ staleCandidates s.fetchStale a, b ∈ staleCandidates u.fetchStale a
  noted : ∀ b ∈ staleCandidates u.fetchStale a,
    b ∈ staleCandidates s.fetchStale a ∨ b = Memory.read s.mem a ∨ (a, b) ∈ cells

/-- A store of a listed byte of main memory. -/
theorem State.WritesOnly.writePhysByte {s u : State} {cells : List Host.Cell} {a : Nat} (h : s.WritesOnly cells a u)
    {c : Host.Cell} (hc : c ∈ cells) (hmain : isMainMemory u.platform c.1 = true) :
    s.WritesOnly cells a (u.writePhysByte c.1 c.2) := by
  have hwf := wf_writePhysByte u c.1 c.2 h.mem
  have hswf := staleWf_writePhysByte u c.1 c.2 h.stale
  by_cases hac : a = c.1
  · subst hac
    have hread := read_writePhysByte_same u c.1 c.2 h.mem hmain
    have hmem : ∀ b, b ∈ staleCandidates (u.writePhysByte c.1 c.2).fetchStale c.1 ↔
        b = c.2 ∨ b ∈ staleCandidates u.fetchStale c.1 ∨
          (staleCandidates u.fetchStale c.1 = [] ∧ b = Memory.read u.mem c.1) := fun b => by
      rw [State.writePhysByte_fetchStale]
      exact mem_staleCandidates_noteStale h.stale ..
    refine ⟨hwf, hswf, .inr (by rwa [hread]), fun b hb => (hmem b).mpr (.inr (.inl (h.kept b hb))), fun b hb => ?_⟩
    rcases (hmem b).mp hb with rfl | hb | ⟨-, rfl⟩
    · exact .inr (.inr hc)
    · exact h.noted b hb
    · exact .inr h.read
  · have hread := read_writePhysByte_other u c.1 c.2 a hac
    have hstale : staleCandidates (u.writePhysByte c.1 c.2).fetchStale a = staleCandidates u.fetchStale a := by
      rw [State.writePhysByte_fetchStale, staleCandidates_noteStale_other _ _ _ _ _ hac]
    exact ⟨hwf, hswf, by rw [hread]; exact h.read, by rw [hstale]; exact h.kept, by rw [hstale]; exact h.noted⟩

/-- The environment puts only listed bytes into memory, and notes only them and what memory held. -/
theorem writesOnly_envWrites {s : State} (hmem : Memory.wf s.mem = true) (hstale : staleWf s.fetchStale = true)
    (cells : List Host.Cell) (a : Nat) : s.WritesOnly cells a (s.envWrites cells) := by
  refine State.envWrites_induction (P := s.WritesOnly cells a) ⟨hmem, hstale, .inl rfl, fun _ => id, fun _ => .inl⟩
    fun u _ hu c hc _ => ?_
  rcases envWriteByte_cases u c.1 c.2 with ⟨hmain, he⟩ | ⟨r, -, he⟩ | ⟨-, he⟩ <;> rw [he]
  · exact hu.writePhysByte hc hmain
  · obtain ⟨hmem', hstale'⟩ := deviceRegWrite_mem u r c.2
    refine ⟨?_, ?_, ?_, ?_, ?_⟩ <;> simp only [hmem', hstale']
    exacts [hu.mem, hu.stale, hu.read, hu.kept, hu.noted]
  · exact hu

/-- A byte the environment writes changes no interrupt input but MSIP, and `mtimecmp` only where the platform maps it. -/
theorem envWriteByte_inputs (u : State) (a : Nat) (b : Byte) :
    (u.envWriteByte a b).irqIn = { u.irqIn with msi := (u.envWriteByte a b).irqIn.msi } ∧
    (u.platform.mtimecmpAddr = none → (u.envWriteByte a b).mtimecmp = u.mtimecmp) := by
  rcases envWriteByte_cases u a b with ⟨-, he⟩ | ⟨r, hr, he⟩ | ⟨-, he⟩ <;> rw [he]
  · obtain ⟨hirq, -, hcmp, -⟩ := writePhysByte_device u a b
    exact ⟨hirq, fun hnone => hcmp fun c hc => nomatch hnone.symm.trans hc⟩
  · cases r with
    | msip k =>
      simp only [State.deviceRegWrite]
      split <;> exact ⟨rfl, fun _ => rfl⟩
    | mtime k => exact ⟨rfl, fun _ => rfl⟩
    | mtimecmp k =>
      obtain ⟨c, hc, -⟩ := deviceRegAt_mtimecmp hr
      exact ⟨rfl, fun hnone => nomatch hnone.symm.trans hc⟩
  · exact ⟨rfl, fun _ => rfl⟩

theorem irqIn_envWrites (s : State) (cells : List Host.Cell) :
    (s.envWrites cells).irqIn = { s.irqIn with msi := (s.envWrites cells).irqIn.msi } := by
  refine State.envWrites_induction (P := fun u => u.irqIn = { s.irqIn with msi := u.irqIn.msi }) rfl fun u _ hu c _ _ => ?_
  obtain ⟨hirq, -⟩ := envWriteByte_inputs u c.1 c.2
  rw [hu] at hirq
  exact hirq

theorem mtimecmp_envWrites_of_unmapped {s : State} (cells : List Host.Cell) (h : s.platform.mtimecmpAddr = none) :
    (s.envWrites cells).mtimecmp = s.mtimecmp := by
  refine State.envWrites_induction (P := fun u => u.mtimecmp = s.mtimecmp) rfl fun u hplatform hu c _ _ => ?_
  obtain ⟨-, hcmp⟩ := envWriteByte_inputs u c.1 c.2
  exact (hcmp (by rwa [hplatform])).trans hu

/-- One listed byte of main memory in a region is written. -/
theorem read_envWrites_single {s : State} {a : Nat} {b : Byte} (hmain : isMainMemory s.platform a = true)
    (hwf : Memory.wf s.mem = true) (hmay : envMayWrite s.platform a = true) :
    Memory.read (s.envWrites [(a, b)]).mem a = b := by
  rw [State.envWrites, if_pos hmay, State.envWrites]
  rcases envWriteByte_cases s a b with ⟨-, he⟩ | ⟨r, hr, -⟩ | ⟨hdevice, -⟩
  · rw [he]
    exact read_writePhysByte_same s a b hwf hmain
  · rw [isMainMemory, hr] at hmain
    cases hmain
  · rw [hdevice] at hmain
    cases hmain

/-! ### What the TLB comes to keep (20_memory.md R150) -/

/-- A kept result of a walk made now. -/
def State.KeepsWalk (s : State) (e : TlbEntry) : Prop :=
  s.satp.mode ≠ .bare ∧
    ∃ (tag : Nat) (va : Word), canonicalFor s.satp.mode va ∧ e = ⟨s.satp.asid, va.extractLsb' 12 52, s.walk tag va⟩

theorem tlbFill_of_translates {s : State} (tag : Nat) {va : Word} (hmode : s.satp.mode ≠ .bare)
    (hcanonical : canonicalFor s.satp.mode va) :
    (s.tlbFill tag va).tlb = s.tlb ++ [⟨s.satp.asid, va.extractLsb' 12 52, s.walk tag va⟩] := by
  rw [State.tlbFill, (canonicalAddr_iff _ va).mpr hcanonical]
  simp [hmode]

theorem tlbFill_keepsWalk (s : State) (tag : Nat) (va : Word) :
    ∃ new, (s.tlbFill tag va).tlb = s.tlb ++ new ∧ ∀ e ∈ new, s.KeepsWalk e := by
  by_cases h : s.satp.mode ≠ .bare ∧ canonicalFor s.satp.mode va
  · obtain ⟨hmode, hcanonical⟩ := h
    refine ⟨_, tlbFill_of_translates tag hmode hcanonical, fun e he => ⟨hmode, tag, va, hcanonical, List.mem_singleton.mp he⟩⟩
  · refine ⟨[], ?_, fun e he => nomatch he⟩
    rw [← canonicalAddr_iff] at h
    rw [State.tlbFill, if_pos (by simpa [or_iff_not_imp_left] using h), List.append_nil]

/-- A walk does not depend on what the TLB keeps, so that what is kept next is as if it were kept first. -/
theorem keepsWalk_tlbFill {s : State} {tag : Nat} {va : Word} {e : TlbEntry} (h : (s.tlbFill tag va).KeepsWalk e) :
    s.KeepsWalk e := by
  obtain ⟨hmode, tag', va', hcanonical, he⟩ := h
  rw [State.tlbFill_satp] at hmode hcanonical he
  refine ⟨hmode, tag', va', hcanonical, he.trans ?_⟩
  rw [State.tlbFill_frame]
  exact congrArg (TlbEntry.mk _ _) (walk_congr s _ s.waiting tag' va')

theorem envFills_keepsWalk (s : State) (tag : Nat) (vas : List Word) :
    ∃ new, (s.envFills tag vas).tlb = s.tlb ++ new ∧ ∀ e ∈ new, s.KeepsWalk e := by
  induction vas generalizing s tag with
  | nil => exact ⟨[], (List.append_nil _).symm, fun e he => nomatch he⟩
  | cons va rest ih =>
    obtain ⟨first, hfirst, hkeeps⟩ := tlbFill_keepsWalk s tag va
    obtain ⟨later, hlater, hkeeps'⟩ := ih (s.tlbFill tag va) (tag + 10)
    refine ⟨first ++ later, ?_, fun e he => ?_⟩
    · rw [State.envFills, hlater, hfirst, List.append_assoc]
    · exact (List.mem_append.mp he).elim (hkeeps e) fun h => keepsWalk_tlbFill (hkeeps' e h)

/-! ### What stands at the start of a step (00_scope.md R10) -/

/-- The state after the inputs and the writes of the environment, before translations are kept and a `wfi` may end. -/
def State.afterWrites (s : State) : State := (s.applyInput s.nextInput).envWrites s.nextInput.writes

/-- `State.sample`, part by part. -/
theorem State.sample_eq (s : State) :
    s.sample = { s.afterWrites with tlb := s.sample.tlb, waiting := s.sample.waiting } := by
  unfold State.sample State.wakeUp
  rw [State.envFills_frame]
  rfl

theorem State.afterWrites_eq (s : State) :
    s.afterWrites = { s with
      mem := s.afterWrites.mem, fetchStale := s.afterWrites.fetchStale, irqIn := s.afterWrites.irqIn,
      mtimecmp := s.afterWrites.mtimecmp, mtime := advanceTime s.mtime s.nextInput.mtimeAdvance,
      mcycle := s.mcycle + s.nextInput.cycles, env := s.env.tail, tlbChoice := s.nextInput.tlbUse, draws := s.draws + 1 } :=
  (State.envWrites_frame ..).trans rfl

theorem State.sample_mem (s : State) : s.sample.mem = s.afterWrites.mem :=
  (congrArg State.mem s.sample_eq).trans rfl
theorem State.sample_fetchStale (s : State) : s.sample.fetchStale = s.afterWrites.fetchStale :=
  (congrArg State.fetchStale s.sample_eq).trans rfl
theorem State.sample_irqIn (s : State) : s.sample.irqIn = s.afterWrites.irqIn :=
  (congrArg State.irqIn s.sample_eq).trans rfl
theorem State.sample_mtimecmp (s : State) : s.sample.mtimecmp = s.afterWrites.mtimecmp :=
  (congrArg State.mtimecmp s.sample_eq).trans rfl
theorem State.sample_mtime (s : State) : s.sample.mtime = advanceTime s.mtime s.nextInput.mtimeAdvance := by
  rw [s.sample_eq, s.afterWrites_eq]
theorem State.sample_mcycle (s : State) : s.sample.mcycle = s.mcycle + s.nextInput.cycles := by
  rw [s.sample_eq, s.afterWrites_eq]
theorem State.sample_env (s : State) : s.sample.env = s.env.tail := by
  rw [s.sample_eq, s.afterWrites_eq]
theorem State.sample_tlbChoice (s : State) : s.sample.tlbChoice = s.nextInput.tlbUse := by
  rw [s.sample_eq, s.afterWrites_eq]
theorem State.sample_draws (s : State) : s.sample.draws = s.draws + 1 := by
  rw [s.sample_eq, s.afterWrites_eq]
theorem State.sample_tlb (s : State) : s.sample.tlb = (s.afterWrites.envFills 30 s.nextInput.tlbFills).tlb := rfl

theorem State.afterWrites_tlb (s : State) : s.afterWrites.tlb = s.tlb := by rw [s.afterWrites_eq]
theorem State.afterWrites_satp (s : State) : s.afterWrites.satp = s.satp := by rw [s.afterWrites_eq]

/-- A walk at the start of the step is one after the environment's writes. -/
theorem State.sample_walk (s : State) (tag : Nat) (va : Word) : s.sample.walk tag va = s.afterWrites.walk tag va := by
  rw [State.sample_eq]
  exact walk_congr _ _ _ tag va

/-- The translations that come to be kept are results of walks made now. -/
theorem State.sample_tlb_keeps (s : State) :
    ∃ new, s.sample.tlb = s.tlb ++ new ∧ ∀ e ∈ new, s.satp.mode ≠ .bare ∧
      ∃ (tag : Nat) (va : Word), canonicalFor s.satp.mode va ∧
        e = ⟨s.satp.asid, va.extractLsb' 12 52, s.sample.walk tag va⟩ := by
  obtain ⟨new, hnew, hkeeps⟩ := envFills_keepsWalk s.afterWrites 30 s.nextInput.tlbFills
  refine ⟨new, by rw [State.sample_tlb, hnew, State.afterWrites_tlb], fun e he => ?_⟩
  obtain ⟨hmode, tag, va, hcanonical, hentry⟩ := hkeeps e he
  rw [State.afterWrites_satp] at hmode hcanonical hentry
  exact ⟨hmode, tag, va, hcanonical, by rw [hentry, State.sample_walk]⟩

/-- The levels of the lines the environment sets (60_exceptions.md R366). -/
theorem State.sample_irqIn_lines (s : State) :
    s.sample.irqIn.mei = s.nextInput.mei.getD s.irqIn.mei ∧ s.sample.irqIn.mti = s.nextInput.mti.getD s.irqIn.mti ∧
    s.sample.irqIn.sei = s.nextInput.sei.getD s.irqIn.sei := by
  have hlines := irqIn_envWrites (s.applyInput s.nextInput) s.nextInput.writes
  rw [State.sample_irqIn]
  exact ⟨congrArg IrqIn.mei hlines, congrArg IrqIn.mti hlines, congrArg IrqIn.sei hlines⟩

/-- MTIME advances and stops at its largest value (notes/assumptions/6.md). -/
theorem advanceTime_toNat (now advance : Word) :
    (advanceTime now advance).toNat = min (now.toNat + advance.toNat) (2 ^ 64 - 1) := by
  unfold advanceTime
  split
  next h =>
    rw [BitVec.toNat_add, Nat.mod_eq_of_lt h]
    omega
  next h =>
    rw [BitVec.toNat_allOnes]
    omega

/-- Without listed bytes nothing is written. -/
theorem State.afterWrites_of_no_writes {s : State} (h : s.nextInput.writes = []) : s.afterWrites = s.applyInput s.nextInput := by
  rw [State.afterWrites, h]
  rfl

theorem State.nextInput_of_env_cons {s : State} {e : EnvInput} {later : List EnvInput} (h : s.env = e :: later) :
    s.nextInput = e := by
  rw [State.nextInput, h]

theorem State.nextInput_of_env_nil {s : State} (h : s.env = []) : s.nextInput = quietInput s.draws := by
  rw [State.nextInput, h]

/-- Settles O8: `State.sample` part by part, each by what the environment's writes and fills may change. -/
theorem environmentChangesOnlyItsOwn : Obligations.EnvironmentChangesOnlyItsOwn := by
  rintro s _ rfl
  refine ⟨?_, fun a ha => ?_, fun hmem hstale a b => ?_, s.sample_tlb_keeps, fun h => (s.sample_waiting_iff.mp h).1,
    s.sample_env, s.sample_draws, fun e later henv => ?_, fun hunmapped => ?_, ?_, fun henv => ?_⟩
  · rw [s.sample_eq, s.afterWrites_eq]
  · rw [s.sample_mem, s.sample_fetchStale]
    exact envWrites_untouched (s.applyInput s.nextInput) s.nextInput.writes ha
  · obtain ⟨-, -, hread, hkept, hnoted⟩ := writesOnly_envWrites (s := s.applyInput s.nextInput) hmem hstale s.nextInput.writes a
    rw [s.sample_mem, s.sample_fetchStale]
    exact ⟨fun h => h ▸ hread, hkept b, hnoted b⟩
  · obtain rfl := State.nextInput_of_env_cons henv
    obtain ⟨hmei, hmti, hsei⟩ := s.sample_irqIn_lines
    refine ⟨hmei, hmti, hsei, s.sample_mcycle, ?_, s.sample_tlbChoice, s.sample_waiting_iff, fun hnone => ?_,
      fun a b hsingle hmain hwf hregion => ?_, fun hnone => ?_, fun va hsingle hmode hcanonical => ⟨30, ?_⟩⟩
    · rw [s.sample_mtime, advanceTime_toNat]
    · rw [s.sample_irqIn, s.sample_mtimecmp, s.sample_mem, s.sample_fetchStale, State.afterWrites_of_no_writes hnone]
      exact ⟨rfl, rfl, rfl, rfl⟩
    · rw [s.sample_mem, State.afterWrites, hsingle]
      exact read_envWrites_single hmain hwf ((envMayWrite_iff s.platform a).mpr hregion)
    · rw [s.sample_tlb, hnone]
      exact s.afterWrites_tlb
    · rw [s.sample_tlb, hsingle, s.sample_walk, ← s.afterWrites_satp, ← s.afterWrites_tlb]
      exact tlbFill_of_translates 30 (by rwa [s.afterWrites_satp]) (by rwa [s.afterWrites_satp])
  · rw [s.sample_mtimecmp]
    exact mtimecmp_envWrites_of_unmapped s.nextInput.writes hunmapped
  · rw [s.sample_mtime, advanceTime_toNat]
    have hlt := s.mtime.isLt
    omega
  · have hquiet := State.nextInput_of_env_nil henv
    have hnone : s.nextInput.writes = [] := by rw [hquiet]; rfl
    have hafter := State.afterWrites_of_no_writes hnone
    refine ⟨?_, ?_, ?_, ?_, ?_, ?_⟩
    · rw [s.sample_mem, hafter]
      rfl
    · rw [s.sample_fetchStale, hafter]
      rfl
    · rw [s.sample_tlb, hquiet]
      exact s.afterWrites_tlb
    · rw [s.sample_irqIn, hafter, hquiet]
      rfl
    · rw [s.sample_mtimecmp, hafter]
      rfl
    · by_contra hwait
      obtain ⟨-, hwake, -⟩ := s.sample_waiting_iff.mp (by simpa using hwait)
      rw [hquiet] at hwake
      cases hwake

end Sys2Proof.Machine
